-- ==== Sys2Proof/Word.lean ====
section
/-! DEFINITION. The plain types of the part: words, bytes, numbers of stations, slots, streams and pages, and sets of
up to 32 elements. -/

namespace Sys2Proof

/-- A word of the local port or a value of a 32-bit counter (chapter 10). -/
abbrev Word := BitVec 32

/-- A byte of a page, a frame or a record. -/
abbrev Byte := BitVec 8

/-- A 16-bit field or counter. -/
abbrev Half := BitVec 16

/-- A station number, 0 to 31 (00, "Stations, streams and pages"). -/
abbrev Station := Fin 32

/-- A slot number, 0 to 31 (R1). -/
abbrev SlotNum := Fin 32

/-- An index into the stream table, 0 to 15 (R20). -/
abbrev EntryIx := Fin 16

/-- A stream identifier; 1 to 63, and 0 means "none". -/
abbrev StreamId := BitVec 6

/-- A page number, 0 to 65535, which wraps (R30). -/
abbrev PageNum := BitVec 16

/-- A value of the Time Base or an instant on it, in microseconds modulo 2^32 (R165). -/
abbrev Micros := BitVec 32

/-- A set of station numbers; bit n stands for station n (R174). -/
abbrev StationSet := BitVec 32

/-- A set of segment numbers; bit n stands for segment n (R174). -/
abbrev SegSet := BitVec 32

end Sys2Proof
end

