-- ==== Sys2Proof/Config.lean ====
section
/-! DEFINITION. What the part fixes: capacities, default parameters and codes of identification (00, "Device
parameters at a glance"). The spec leaves no value open that would need a free value here. -/

namespace Sys2Proof.Config

/-- The ID word: vendor code 0C5Ah, part code 3216h, revision 1 (chapter 11.5). -/
def idWord : Word := 0xC5A32161

/-- Bytes of one slot (R1). -/
abbrev slotBytes : Nat := 4096

/-- Payload bytes of a full segment (R1). -/
abbrev segmentBytes : Nat := 128

/-- Places of the command queue (R159). -/
abbrev cmdQueueMax : Nat := 8

/-- Places of the response queue (R161). -/
abbrev respQueueMax : Nat := 8

/-- Places of the Event Queue (R166). -/
abbrev eventMax : Nat := 64

/-- Places of the Publish Queue (R38). -/
abbrev publishMax : Nat := 16

/-- Places of the NOTE out-queue (R153). -/
abbrev noteMax : Nat := 8

/-- Stations of a member set, and targets of an ADMIT or CUT list (R95, R97). -/
abbrev memberMax : Nat := 8

/-- Page numbers of a GONE list (R89). -/
abbrev goneMax : Nat := 4

/-- GAPs a consumer sends for one page, and passes a producer starts for one page (R69, R91). -/
abbrev repairMax : Nat := 2

/-- TAKEs of one join (R98). -/
abbrev joinTriesMax : Nat := 3

/-- Attempts of one frame (R140). -/
abbrev attemptMax : Nat := 4

/-- Consecutive drops that lead to MUTED (R142). -/
abbrev dropMax : Nat := 8

/-- Upper bound of the pace estimate, in milliseconds (R105). -/
abbrev paceMax : Nat := 1000

/-- The greatest time of the page-memory clearing, t_clear, in microseconds (R170). -/
abbrev clearMicros : Nat := 80

/-- Default roll period in milliseconds (R118). -/
abbrev defaultR : Nat := 10

/-- Default release floor in milliseconds (R118). -/
abbrev defaultF : Nat := 20

/-- Default release multiplier (R118). -/
abbrev defaultM : Nat := 4

/-- Default reception wait multiplier (R118). -/
abbrev defaultW : Nat := 1

/-! ### Offsets in the register window (chapter 11.5) -/

/-- One past the last offset of the window. -/
abbrev windowEnd : Nat := 0x2000

/-- ID. -/
abbrev regId : Nat := 0x0000

/-- STATUS. -/
abbrev regStatus : Nat := 0x0004

/-- WINDOW. -/
abbrev regWindow : Nat := 0x0008

/-- CMD0; CMD1 to CMD7 follow. -/
abbrev regCmd : Nat := 0x0010

/-- SUBMIT. -/
abbrev regSubmit : Nat := 0x0030

/-- RESP0; RESP1 to RESP3 follow. -/
abbrev regResp : Nat := 0x0040

/-- RESP_NEXT. -/
abbrev regRespNext : Nat := 0x0050

/-- EVT0; EVT1 to EVT3 follow. -/
abbrev regEvt : Nat := 0x0060

/-- EVT_NEXT. -/
abbrev regEvtNext : Nat := 0x0070

/-- Byte 0 of the page window. -/
abbrev regPage : Nat := 0x1000

end Sys2Proof.Config
end

