-- ==== Sys2Proof/Syntax.lean ====
section
/-! DEFINITION. The events the part takes: one constructor of Instr for each row of spec/opcode_table.json, with
the operands the spec gives the row. An operand has the width of its field in the layouts of chapter 11, so that every
value the field can hold, also one the part turns away, can be written. -/

namespace Sys2Proof

/-- Width of a bus access; the port takes 32-bit accesses only (R156). -/
inductive AccessWidth where
  | byte | half | word
  deriving DecidableEq, Repr

/-- One access of the local bus, as the port sees it (R156). The address is the offset from the base of the register
window; the byte enables and the data of a read are not examined. -/
structure BusAccess where
  write : Bool
  width : AccessWidth
  addr : Word
  enables : BitVec 4
  data : Word
  deriving DecidableEq, Repr

/-- One stream declaration of a configuration record: its byte in CMD1 or CMD2 (mode in bit 7, stream id in bits 5-0)
and its declared maximum length in CMD3 to CMD6 (chapter 11.3). -/
structure RawDecl where
  mode : Bool
  stream : StreamId
  length : Half
  deriving DecidableEq, Repr

/-- One claim of a ROLL frame, three bytes: mode in bit 7, page-present in bit 6, stream id in bits 5-0, then the last
closed page number (chapter 11.1). -/
structure RawClaim where
  mode : Bool
  present : Bool
  stream : StreamId
  page : PageNum
  deriving DecidableEq, Repr

/-- Why the Link Controller discards a received frame (R144). -/
inductive DiscardCause where
  | framing | abortMark | truncated | badCheck
  deriving DecidableEq, Repr

/-- An event the part takes. In the frame events `src` is the station number of the arbitration key, `zeros` are the
bits of byte 1 that the layout gives as zero, and the other operands are the fields of the layout (chapter 11.1). -/
inductive Instr where
  -- command records (R160); `tag` is the tag of the record
  /-- CONFIGURE (R119): R, F, M, W, the declaration count and the eight declarations of the record. -/
  | configure (tag : Byte) (r : Byte) (f : BitVec 10) (m : BitVec 4) (w : BitVec 3) (count : BitVec 4)
      (decls : Vector RawDecl 8)
  /-- START (R120). -/
  | start (tag : Byte)
  /-- LEAVE (R122). -/
  | leave (tag : Byte)
  /-- REJOIN (R124). -/
  | rejoin (tag : Byte)
  /-- RESTART (R133). -/
  | restart (tag : Byte)
  /-- CLAIM (R18). -/
  | claim (tag : Byte)
  /-- DISCARD of a slot (R19). -/
  | discard (tag slot : Byte)
  /-- PUBLISH without the PAUSE flag (R40). -/
  | publish (tag stream slot : Byte) (report note : Bool) (length : Half) (target code : Byte)
  /-- PUBLISH with the PAUSE flag (R41); the other fields are not examined. -/
  | publishPause (tag stream : Byte)
  /-- RESUME (R43). -/
  | resume (tag stream : Byte)
  /-- CANCEL (R53). -/
  | cancel (tag stream : Byte)
  /-- SUBSCRIBE (R34). -/
  | subscribe (tag stream mode : Byte)
  /-- UNSUBSCRIBE (R35). -/
  | unsubscribe (tag stream : Byte)
  /-- ACQUIRE (R78). -/
  | acquire (tag stream selector : Byte)
  /-- RELEASE (R80). -/
  | release (tag stream : Byte)
  /-- SEND_NOTE (R155). -/
  | sendNote (tag target : Byte) (code : Word)
  /-- CLEAR_NOTICE (R152). -/
  | clearNotice (tag : Byte) (sources : Word)
  /-- READ_STATUS (R163). -/
  | readStatus (tag selector index part : Byte)
  /-- A record whose kind code names no command (R160). -/
  | unknownCommand (tag kind : Byte)
  -- accesses of the local bus
  /-- A write to SUBMIT (R158). -/
  | submit (enables : BitVec 4) (data : Word)
  /-- A write to RESP_NEXT (R161). -/
  | respNext (enables : BitVec 4) (data : Word)
  /-- A write to EVT_NEXT (R166). -/
  | evtNext (enables : BitVec 4) (data : Word)
  /-- A write to WINDOW (R14). -/
  | windowWrite (enables : BitVec 4) (data : Word)
  /-- A 32-bit read of the page window (R15). -/
  | pageWindowRead (offset : BitVec 12)
  /-- A 32-bit write of the page window (R15). -/
  | pageWindowWrite (offset : BitVec 12) (enables : BitVec 4) (data : Word)
  /-- Any other access: a staging word, a register read, or one that ends with the bus error response (R156). -/
  | registerWrite (access : BusAccess)
  -- the reset input
  /-- Assertion of the reset input (R170). -/
  | pinReset
  /-- Release of the reset input, with the levels of the straps (R170, R132, R146). -/
  | pinResetRelease (station : Station) (rate : BitVec 2)
  /-- End of the page-memory clearing (R13). -/
  | pageMemoryClearingEnd
  -- the line
  /-- The line is idle and no start mark has appeared (R135). -/
  | opportunity
  /-- A recessive key bit of the attempt reads dominant (R136). -/
  | arbitrationLost
  /-- The last bit of the attempt has gone out with a good echo and frame check (R139). -/
  | attemptSent
  /-- The abort mark ends, or the last bit goes out with a bad-check echo (R140). -/
  | attemptFailed
  /-- The consecutive-drop count has reached 8 (R124). -/
  | muted
  /-- A received frame is discarded by the Link Controller (R144). -/
  | frameDiscarded (cause : DiscardCause)
  -- received frames
  /-- A received SEG (R63). -/
  | segFrame (src : Station) (zeros : BitVec 1) (stream : StreamId) (page : PageNum) (segment segCount : Byte)
      (pageLength : Half) (payload : List Byte)
  /-- A received CLOSE (R70). -/
  | closeFrame (src : Station) (zeros : BitVec 1) (stream : StreamId) (page : PageNum) (length : Half) (kind : Byte)
      (check : Word)
  /-- A received ADMIT (R99). -/
  | admitFrame (src : Station) (zeros : BitVec 1) (stream : StreamId) (target result : Byte) (first : PageNum)
  /-- A received CUT (R114). -/
  | cutFrame (src : Station) (zeros : BitVec 1) (stream : StreamId) (target reason : Byte)
  /-- A received PROMPT (R112); its count is the number of its stations. -/
  | promptFrame (src : Station) (zeros : BitVec 1) (stream : StreamId) (page : PageNum) (stations : List Byte)
  /-- A received GONE (R85). -/
  | goneFrame (src : Station) (zeros : BitVec 1) (stream : StreamId) (page : PageNum)
  /-- A received TAKE (R95). -/
  | takeFrame (src : Station) (zeros : BitVec 1) (stream : StreamId) (station : Byte)
  /-- A received DROP (R108). -/
  | dropFrame (src : Station) (zeros : BitVec 1) (stream : StreamId) (station : Byte)
  /-- A received FREE (R103). -/
  | freeFrame (src : Station) (lost : Bool) (stream : StreamId) (station : Byte) (page : PageNum)
  /-- A received GAP (R88); its count is the number of its segment numbers. -/
  | gapFrame (src : Station) (zeros : BitVec 1) (stream : StreamId) (station : Byte) (page : PageNum)
      (segments : List Byte)
  /-- A received ROLL (R127); its claim count is the number of its claims. -/
  | rollFrame (src : Station) (leaving : Bool) (zeros : BitVec 2) (rollCount : Byte) (claims : List RawClaim)
  /-- A received NOTE (R151). -/
  | noteFrame (src : Station) (all : Bool) (zeros : BitVec 1) (target : BitVec 5) (source code : Byte)
  -- timers
  /-- A due instant of the roll timer (R125). -/
  | rollTimerDue
  /-- Expiry of the listen timer (R121). -/
  | listenTimerExpiry
  /-- Expiry of a peer's silence timer (R128). -/
  | silenceTimerExpiry (peer : Station)
  /-- Expiry of a consumer entry's reception timer in RECEIVING (R68). -/
  | receptionTimerExpiry (entry : EntryIx)
  /-- Expiry of the join wait (R98). -/
  | joinWaitExpiry (entry : EntryIx)
  /-- Expiry of the release timer (R106). -/
  | releaseTimerExpiry (entry : EntryIx)
  /-- Half of T has elapsed (R102). -/
  | releaseTimerHalf (entry : EntryIx)
  -- the attempt, between its start mark and its outcome
  /-- A driven bit reads otherwise, and the abort mark starts (R140). -/
  | echoMismatch
  /-- The key has been driven to its end without losing (R136). -/
  | arbitrationWon
  deriving DecidableEq, Repr

end Sys2Proof
end

