-- ==== Sys2Proof/Decode.lean ====
section
/-! DEFINITION. The host's word decoder. No row of spec/opcode_table.json gives bits (every "fields" is empty and no row has a
"fixed" part), so no word spells an event. -/

namespace Sys2Proof

/-- The event that a word of the table's bits spells: none, for every word. -/
def decodeTableWord (_nbits _w : Nat) : Option Instr := none

end Sys2Proof
end

