-- ==== Sys2Proof/Machine/State.lean ====
section
/-! DEFINITION. Everything the spec gives the part to hold, block by block, as plain data, and the state right after
reset. -/

namespace Sys2Proof.Machine

/-! ### Stations and streams -/

/-- The station state (R116). -/
inductive StationState where
  | unconfigured | configured | listening | active | leaving | quiet | muted | conflict
  deriving DecidableEq, Repr

/-- Mode of a stream (00, free-run and lock-step). -/
inductive Mode where
  | freeRun | lockStep
  deriving DecidableEq, Repr

/-- State of a producer entry (R23). -/
inductive ProducerState where
  | declared | opened | disputed
  deriving DecidableEq, Repr

/-- Page phase of an OPEN producer entry (R24). -/
inductive PagePhase where
  | idle | sending | awaitingRelease
  deriving DecidableEq, Repr

/-- State of a consumer entry (R26). -/
inductive ConsumerState where
  | waiting | joining | receiving | expelled | departing
  deriving DecidableEq, Repr

/-- The configuration in effect, after defaults (R118): R and F in milliseconds. -/
structure StationConfig where
  rollPeriod : Nat
  floor : Nat
  mult : Nat
  wait : Nat
  declarations : Nat
  deriving DecidableEq, Repr

/-! ### Slots -/

/-- A slot record (R2): each state with the fields that are present in it. `len` of a FILLING slot is absent until
known (R6). -/
inductive Slot where
  | free
  | writing
  | queued (owner : EntryIx) (len : Nat)
  | sending (owner : EntryIx) (page : PageNum) (len : Nat)
  | retained (owner : EntryIx) (page : PageNum) (len : Nat)
  | filling (owner : EntryIx) (page : PageNum) (len : Option Nat) (received : SegSet) (gaps : Nat)
  | ready (owner : EntryIx) (page : PageNum) (len : Nat)
  | held (owner : EntryIx) (page : PageNum) (len : Nat)
  deriving DecidableEq, Repr

/-- The Slot Manager (chapter 1): the 32 records, the free list from head to tail, and page memory, byte a of slot n
at address 4096 n + a. Page memory lists the bytes that are not 00h, in rising address. -/
structure SlotManager where
  records : Vector Slot 32
  free : List SlotNum
  mem : List Host.Cell
  deriving DecidableEq, Repr

/-! ### Reasons and results -/

/-- Reason of PAGE_LOST (R76). -/
inductive LossReason where
  | superseded | withdrawn | check | noSlot | repairTimeout | gone | producerLost
  deriving DecidableEq, Repr

/-- Completion result of a page descriptor (R51). -/
inductive SentResult where
  | done | doneNoteDropped | cancelled | disputed | failed
  deriving DecidableEq, Repr

/-- Reason of JOIN_FAILED (R98, R99). -/
inductive JoinFailure where
  | noAnswer | full | notLockstep
  deriving DecidableEq, Repr

/-- Reason of a CUT (R97). -/
inductive CutReason where
  | timeout | notMember
  deriving DecidableEq, Repr

/-- Reason of PEER_DOWN (R128). -/
inductive DownReason where
  | silent | left | renewed
  deriving DecidableEq, Repr

/-- Direction of a refused window access (R16). -/
inductive AccessKind where
  | read | write
  deriving DecidableEq, Repr

/-- Result of a response (R162). -/
inductive Result where
  | ok | badState | badArg | noSlot | full | notFound | exists_ | notProducer | notConsumer | held | noNewer | disputed
  deriving DecidableEq, Repr

/-- Kind of a CLOSE frame (chapter 11.1). -/
inductive CloseKind where
  | normal | repair | withdrawn
  deriving DecidableEq, Repr

/-- Result of an ADMIT; ACCEPTED carries the first page number (R96). -/
inductive AdmitResult where
  | accepted (first : PageNum)
  | full
  | notLockstep
  deriving DecidableEq, Repr

/-- Target of a note (R149). -/
inductive NoteTarget where
  | all
  | one (station : Station)
  deriving DecidableEq, Repr

/-- A note of the NOTE out-queue, or the tail note of a page (R153, R39). -/
structure Note where
  target : NoteTarget
  code : Byte
  deriving DecidableEq, Repr

/-! ### Events -/

/-- The events the host reads, each with the fields its kind carries (R165). -/
inductive Event where
  | pageReady (stream : StreamId) (page : PageNum) (slot : SlotNum)
  | pageLost (stream : StreamId) (page : PageNum) (slot : Option SlotNum) (reason : LossReason)
  | sent (stream : StreamId) (slot : SlotNum) (page : Option PageNum) (result : SentResult) (tag : Byte)
  | paused (stream : StreamId) (tag : Byte)
  | joined (stream : StreamId) (producer : Station) (first : PageNum)
  | joinFailed (stream : StreamId) (producer : Option Station) (reason : JoinFailure)
  | memberCut (stream : StreamId) (member : Station) (page : Option PageNum) (reason : CutReason)
  | cutReceived (stream : StreamId) (producer : Station) (reason : CutReason)
  | peerUp (peer : Station)
  | peerDown (peer : Station) (reason : DownReason)
  | notePending (source : Station) (code : Byte)
  | streamDisputed (stream : StreamId) (claimant : Station)
  | stationState (previous new : StationState)
  | accessFault (slot : SlotNum) (kind : AccessKind) (stream : Option StreamId) (page : Option PageNum)
  | lost (count : Half)
  deriving DecidableEq, Repr

/-- A record of the Event Queue: an event and its time stamp (R165). -/
structure EventRecord where
  event : Event
  time : Micros
  deriving DecidableEq, Repr

/-- The Event Queue (R166, R167). -/
structure EventQueue where
  records : List EventRecord
  lost : Half
  deriving DecidableEq, Repr

/-! ### Stream entries -/

/-- The five counters of an entry (R28). -/
structure Counters where
  closed : Half
  completed : Half
  skipped : Half
  lost : Half
  repairs : Half
  deriving DecidableEq, Repr

/-- A running release timer (R101): the barrier's start time, the time of its last start or restart, and its expiry
time. -/
structure ReleaseTimer where
  barrierStart : Micros
  started : Micros
  expiry : Micros
  deriving DecidableEq, Repr

/-- A producer entry (R22). -/
structure Producer where
  stream : StreamId
  mode : Mode
  maxLen : Nat
  state : ProducerState
  phase : Option PagePhase
  nextPage : PageNum
  lastClosed : Option PageNum
  sending : Option SlotNum
  retained : Option SlotNum
  paused : Bool
  members : StationSet
  awaited : StationSet
  released : StationSet
  timer : Option ReleaseTimer
  promptSent : Bool
  pace : Nat
  repairSet : SegSet
  repairTag : Option PageNum
  repairPasses : Nat
  admits : List (Station × AdmitResult)
  cuts : List (Station × CutReason)
  gones : List PageNum
  prompt : Bool
  counters : Counters
  deriving DecidableEq, Repr

/-- Which page numbers of a consumer entry an earlier producer of record gave: that of the page in its READY slot, of the page in
its HELD slot, and its last released one. R33 keeps those pages, and no number of theirs is compared with one of the present
producer of record (R30, R81). -/
structure Earlier where
  ready : Bool
  held : Bool
  released : Bool
  deriving DecidableEq, Repr

/-- A consumer entry (R25). `earlier` is the model's own record of what R30 and R81 tell apart (log 42). -/
structure Consumer where
  stream : StreamId
  mode : Mode
  state : ConsumerState
  producer : Option Station
  firstAdmitted : Option PageNum
  lastCompleted : Option PageNum
  lastReleased : Option PageNum
  filling : Option SlotNum
  ready : Option SlotNum
  held : Option SlotNum
  earlier : Earlier
  readyNotified : Bool
  skipCount : Half
  joinTries : Nat
  timer : Option Micros
  take : Bool
  drop : Bool
  free : Option (PageNum × Bool)
  gap : Option (PageNum × SegSet)
  counters : Counters
  deriving DecidableEq, Repr

/-- An entry in use (R20). -/
inductive Entry where
  | producer (p : Producer)
  | consumer (c : Consumer)
  deriving DecidableEq, Repr

/-! ### Publish Queue and Segmenter -/

/-- What a descriptor holds besides its entry and tag (R39). -/
inductive DescriptorBody where
  | page (slot : SlotNum) (len : Nat) (report : Bool) (tail : Option Note)
  | pause
  deriving DecidableEq, Repr

/-- A descriptor of the Publish Queue (R39). `seq` is the model's own stamp of its place in posting order (R38, R51;
DESIGN CHOICE, log 14). -/
structure Descriptor where
  entry : EntryIx
  tag : Byte
  seq : Nat
  body : DescriptorBody
  deriving DecidableEq, Repr

/-- The Publish Queue (R38), oldest first, and the model's next posting stamp. -/
structure PublishQueue where
  queue : List Descriptor
  nextSeq : Nat
  deriving DecidableEq, Repr

/-- The page in flight (R46); `seq` is the stamp of its descriptor. -/
structure Flight where
  entry : EntryIx
  slot : SlotNum
  page : PageNum
  len : Nat
  check : Word
  next : Nat
  report : Bool
  tail : Option Note
  tag : Byte
  seq : Nat
  closeOffered : Bool
  withdrawAtClose : Bool
  deriving DecidableEq, Repr

/-- A withdrawn close (R46). -/
structure WithdrawnClose where
  stream : StreamId
  page : PageNum
  len : Nat
  check : Word
  deriving DecidableEq, Repr

/-- The repair pass in progress (R91); the position is absent for "none". `closing`: its REPAIR CLOSE has been offered, so
that numbers which join the set wait for its end (R92), also while MUTED has taken that CLOSE back (R94). -/
structure Pass where
  entry : EntryIx
  page : PageNum
  position : Option Nat
  closing : Bool
  deriving DecidableEq, Repr

/-- A frame as it is built (chapter 11.1); its source is the station's own number, which the key carries. -/
inductive Frame where
  | seg (stream : StreamId) (page : PageNum) (segment segCount : Nat) (len : Nat) (payload : List Byte)
  | close (stream : StreamId) (page : PageNum) (len : Nat) (kind : CloseKind) (check : Word)
  | admission (stream : StreamId) (target : Station) (result : AdmitResult)
  | cut (stream : StreamId) (target : Station) (reason : CutReason)
  | gone (stream : StreamId) (page : PageNum)
  | prompt (stream : StreamId) (page : PageNum) (stations : List Station)
  | take (stream : StreamId) (station : Station)
  | drop (stream : StreamId) (station : Station)
  | free (stream : StreamId) (station : Station) (page : PageNum) (lost : Bool)
  | gap (stream : StreamId) (station : Station) (page : PageNum) (missing : SegSet)
  | roll (leaving : Bool) (rollCount : Byte) (claims : List RawClaim)
  | note (source : Station) (target : NoteTarget) (code : Byte)
  deriving DecidableEq, Repr

/-- What the Segmenter's offered frame is (R47, R92); a pass SEG keeps the position it replaced (R94). -/
inductive OfferedKind where
  | pageSeg (segment : Nat)
  | pageClose
  | withdrawnClose
  | passSeg (segment : Nat) (before : Option Nat)
  | passClose
  deriving DecidableEq, Repr

/-- The Segmenter's offered frame (R46). -/
structure Offered where
  kind : OfferedKind
  frame : Frame
  deriving DecidableEq, Repr

/-- The Segmenter (R46). -/
structure Segmenter where
  flight : Option Flight
  offered : Option Offered
  withdrawn : Option WithdrawnClose
  pass : Option Pass
  deriving DecidableEq, Repr

/-! ### Link Controller and Notice Table -/

/-- The pending element a frame of the holding frame was taken from (R137). -/
inductive FrameSource where
  | cut (entry : EntryIx) (target : Station)
  | admission (entry : EntryIx) (target : Station)
  | prompt (entry : EntryIx)
  | gone (entry : EntryIx) (page : PageNum)
  | drop (entry : EntryIx)
  | take (entry : EntryIx)
  | free (entry : EntryIx)
  | gap (entry : EntryIx)
  | roll
  | note
  | segmenter
  deriving DecidableEq, Repr

/-- State of a holding frame that is not EMPTY (R138). -/
inductive HoldPhase where
  | held | contending | transmitting | aborting
  deriving DecidableEq, Repr

/-- A frame in the holding frame (R138): its state, source and content; `orphan` when its source removed the element
while the attempt was on the line; `replaced` when a request replaced the element's content during the attempt. -/
structure HeldFrame where
  phase : HoldPhase
  source : FrameSource
  frame : Frame
  orphan : Bool
  replaced : Bool
  deriving DecidableEq, Repr

/-- The station counters (R145). -/
structure StationCounters where
  framesReceived : Word
  checkFailures : Word
  retries : Word
  framesDropped : Word
  arbitrationLosses : Word
  staleSegments : Word
  lateFrees : Word
  eventsLost : Word
  deriving DecidableEq, Repr

/-- The Link Controller (chapter 8); the holding frame is EMPTY when absent. The line counts as idle from an opportunity until
a frame has been on it (R135; DEDUCED, log 27). -/
structure LinkController where
  holding : Option HeldFrame
  attempts : Nat
  drops : Nat
  counters : StationCounters
  lineIdle : Bool
  notes : List Note
  deriving DecidableEq, Repr

/-- An entry of the Notice Table (R150). -/
structure Notice where
  pending : Bool
  count : Byte
  lastCode : Option Byte
  deriving DecidableEq, Repr

/-! ### Presence Unit -/

/-- A claim as the peer table keeps it (R125, R126). -/
structure Claim where
  stream : StreamId
  mode : Mode
  lastClosed : Option PageNum
  deriving DecidableEq, Repr

/-- An entry of the peer table (R126). -/
structure Peer where
  isPresent : Bool
  silence : Option Micros
  lastCount : Option Byte
  leaving : Bool
  claims : List Claim
  deriving DecidableEq, Repr

/-- The Presence Unit (chapter 7). The roll timer holds its next due instant. -/
structure Presence where
  station : Station
  rate : BitVec 2
  state : StationState
  config : Option StationConfig
  rollTimer : Option Micros
  listenTimer : Option Micros
  rollCount : Byte
  rollPending : Bool
  leavingPlaced : Bool
  conflictCount : Option Byte
  peers : Vector Peer 32
  deriving DecidableEq, Repr

/-! ### Local Port -/

/-- A record of the command queue (R158). -/
structure CmdRecord where
  kind : Byte
  tag : Byte
  words : Vector Word 8
  deriving DecidableEq, Repr

/-- A response record (R161), with the presence bits and the paused bit that READ_STATUS adds (R174). -/
structure Response where
  tag : Byte
  kind : Byte
  result : Result
  presence : BitVec 4
  paused : Bool
  value1 : Word
  value2 : Word
  deriving DecidableEq, Repr

/-- How a bus access ended (R156): with the error response or not, and the read data. -/
structure BusResponse where
  error : Bool
  data : Word
  deriving DecidableEq, Repr

/-- The Local Port (chapter 10). `bus` is the answer to the last access, the model's own field (log 24). -/
structure Port where
  inReset : Bool
  clearing : Bool
  staging : Vector Word 8
  cmdQueue : List CmdRecord
  respQueue : List Response
  refused : Bool
  window : SlotNum
  bus : Option BusResponse
  deriving DecidableEq, Repr

/-! ### The whole part -/

/-- The part: its blocks, the Time Base, and the queue of events that wait to be taken, first in first out. -/
structure State where
  port : Port
  events : EventQueue
  time : Micros
  slots : SlotManager
  streams : Vector (Option Entry) 16
  publish : PublishQueue
  seg : Segmenter
  link : LinkController
  notices : Vector Notice 32
  presence : Presence
  pending : List Instr
  deriving DecidableEq, Repr

/-- The part never stops with a fault: every access and every frame it turns away is answered or counted, as the spec
says (R156, R162, R144). So there is no fault; safe. -/
inductive Fault where
  deriving DecidableEq, Repr

/-- Why an event has no meaning. -/
inductive Refusal where
  /-- Raised by exec for a row without a meaning; no arm of this model uses it. Safe. -/
  | notModelled (mnemonic : String)
  deriving DecidableEq, Repr

/-! ### Reset -/

/-- Counters of a new entry (R28). -/
def Counters.zero : Counters := ⟨0, 0, 0, 0, 0⟩

/-- Station counters after reset (R145). -/
def StationCounters.zero : StationCounters := ⟨0, 0, 0, 0, 0, 0, 0, 0⟩

/-- The slot numbers 0 to 31 in ascending order (R13). -/
def allSlots : List SlotNum := List.finRange 32

/-- Every slot FREE, the free list 0 to 31, page memory 00h (R13). -/
def SlotManager.reset : SlotManager := ⟨Vector.replicate 32 .free, allSlots, []⟩

/-- Notice Table entry after reset (R150). -/
def Notice.reset : Notice := ⟨false, 0, none⟩

/-- Peer table entry after reset (R126). -/
def Peer.reset : Peer := ⟨false, none, none, false, []⟩

/-- The Segmenter after reset (R46). -/
def Segmenter.reset : Segmenter := ⟨none, none, none, none⟩

/-- The Link Controller after pin reset (R148, R154): the line counts as busy. -/
def LinkController.reset : LinkController := ⟨none, 0, 0, .zero, false, []⟩

/-- The Local Port at the release of the reset input (R170). -/
def Port.reset : Port := ⟨false, true, Vector.replicate 8 0, [], [], false, 0, none⟩

/-- The Presence Unit after pin reset with the given straps (R132). -/
def Presence.reset (station : Station) (rate : BitVec 2) : Presence :=
  ⟨station, rate, .unconfigured, none, none, none, 0, false, false, none, Vector.replicate 32 .reset⟩

/-- The part in the event in which the reset input is released with the given straps (R170); page memory `mem` is still
to be cleared. -/
def State.atRelease (station : Station) (rate : BitVec 2) (mem : List Host.Cell) (pending : List Instr) : State where
  port := .reset
  events := ⟨[], 0⟩
  time := 0
  slots := { SlotManager.reset with mem := mem }
  streams := Vector.replicate 16 none
  publish := ⟨[], 0⟩
  seg := .reset
  link := .reset
  notices := Vector.replicate 32 .reset
  presence := .reset station rate
  pending := pending

/-- The part right after reset: the reset input has just been released (R170), with both strap groups at 0
(DESIGN CHOICE, log 6) and no event waiting. -/
def State.reset : State := .atRelease 0 0 [] []

end Sys2Proof.Machine
end

