-- ==== Sys2Proof/Machine/Ops.lean ====
section
/-! DEFINITION. The named operations the meanings share: sets, page numbers, page memory and its check, saturating
counters, timers, the Event Queue, slot records and the free list, and access to stream entries. -/

namespace Sys2Proof.Machine

/-! ### Sets of up to 32 elements (R174) -/

/-- The set that holds `n` alone. -/
def setOf (n : Nat) : BitVec 32 := 1#32 <<< n

/-- Whether `n` is an element. -/
def hasElem (x : BitVec 32) (n : Nat) : Bool := x.getLsbD n

/-- `x` with `n`. -/
def addElem (x : BitVec 32) (n : Nat) : BitVec 32 := x ||| setOf n

/-- `x` without `n`. -/
def dropElem (x : BitVec 32) (n : Nat) : BitVec 32 := x &&& ~~~(setOf n)

/-- Elements of `x` that are not in `y`. -/
def setMinus (x y : BitVec 32) : BitVec 32 := x &&& ~~~y

/-- Whether every element of `x` is in `y`. -/
def isSubset (x y : BitVec 32) : Bool := setMinus x y == 0

/-- The numbers below `n`, for n up to 32. -/
def setBelow (n : Nat) : BitVec 32 := BitVec.ofNat 32 (2 ^ n - 1)

/-- The elements in ascending order, as stations. -/
def stationsOf (x : StationSet) : List Station := (List.finRange 32).filter fun n => hasElem x n

/-- The elements in ascending order, as numbers. -/
def elemsOf (x : BitVec 32) : List Nat := (stationsOf x).map fun n => n.val

/-- The number of elements. -/
def cardOf (x : BitVec 32) : Nat := (stationsOf x).length

/-- The set of the numbers of a list. -/
def setOfList (l : List Nat) : BitVec 32 := l.foldl addElem 0

/-! ### Page numbers (R30, R31) -/

/-- Page `b` is newer than page `a`. -/
def isNewer (b a : PageNum) : Bool := 1 ≤ (b - a).toNat && (b - a).toNat ≤ 32767

/-- Page `b` is older than page `a`. -/
def isOlder (b a : PageNum) : Bool := 32768 ≤ (b - a).toNat

/-- Page `b` is newer than the page number field `a`; newer than an absent one (R31). -/
def newerThan (b : PageNum) : Option PageNum → Bool
  | none => true
  | some a => isNewer b a

/-- Page `b` is not older than the page number field `a`; not older than an absent one (R31). -/
def notOlderThan (b : PageNum) : Option PageNum → Bool
  | none => true
  | some a => !isOlder b a

/-! ### Counters -/

/-- Rises by one and stays at the greatest value (R28, R145). -/
def satInc {w : Nat} (c : BitVec w) : BitVec w := if c = BitVec.allOnes w then c else c + 1

/-! ### Time (R165) -/

/-- `t` milliseconds in microseconds. -/
def millis (t : Nat) : Micros := BitVec.ofNat 32 (1000 * t)

/-- Whether instant `t` has been reached at `now`, modulo 2^32; no timer runs for 2^31 microseconds. -/
def isDue (now t : Micros) : Bool := t == now || (t - now).msb

/-- The Time Base carried forward to instant `t` unless it is past it (log 3). -/
def State.reach (s : State) (t : Micros) : State := { s with time := if isDue s.time t then s.time else t }

/-- Remaining time of a timer; 0 while stopped (R164). -/
def State.remaining (s : State) : Option Micros → Word
  | none => 0
  | some t => if isDue s.time t then 0 else t - s.time

/-! ### The configuration in effect -/

/-- R in milliseconds. -/
def State.rollPeriod (s : State) : Nat := (s.presence.config.map (·.rollPeriod)).getD Config.defaultR

/-- F in milliseconds. -/
def State.floor (s : State) : Nat := (s.presence.config.map (·.floor)).getD Config.defaultF

/-- M. -/
def State.mult (s : State) : Nat := (s.presence.config.map (·.mult)).getD Config.defaultM

/-- W. -/
def State.wait (s : State) : Nat := (s.presence.config.map (·.wait)).getD Config.defaultW

/-- The instant `n` roll periods from now. -/
def State.afterRolls (s : State) (n : Nat) : Micros := s.time + millis (n * s.rollPeriod)

/-- The instant one reception wait W × R from now (R68). -/
def State.receptionEnd (s : State) : Micros := s.time + millis (s.wait * s.rollPeriod)

/-! ### Page memory (R1) -/

/-- What an unlisted byte of page memory reads as: the value the clearing leaves (R13). -/
def memDefault : Byte := 0

/-- One past the last address of page memory. -/
def memSize : Nat := 32 * Config.slotBytes

/-- Address of byte `off` of slot `n`. -/
def slotAddr (n : SlotNum) (off : Nat) : Nat := n.val * Config.slotBytes + off

/-- The byte at an address. -/
def memRead : List Host.Cell → Nat → Byte
  | [], _ => memDefault
  | (k, v) :: rest, a => if k = a then v else if a < k then memDefault else memRead rest a

/-- Puts a listed byte into its place. -/
def memInsert : List Host.Cell → Nat → Byte → List Host.Cell
  | [], a, b => [(a, b)]
  | (k, v) :: rest, a, b =>
    if a < k then (a, b) :: (k, v) :: rest
    else if a = k then (k, b) :: rest
    else (k, v) :: memInsert rest a b

/-- Takes an address out of the list. -/
def memErase : List Host.Cell → Nat → List Host.Cell
  | [], _ => []
  | (k, v) :: rest, a => if k = a then rest else if a < k then (k, v) :: rest else (k, v) :: memErase rest a

/-- Writes one byte; an address outside page memory does not exist and no operation reaches it. -/
def memWrite (m : List Host.Cell) (a : Nat) (b : Byte) : List Host.Cell :=
  if memSize ≤ a then m else if b = memDefault then memErase m a else memInsert m a b

/-- Writes bytes from an address on. -/
def memWriteList (m : List Host.Cell) (a : Nat) : List Byte → List Host.Cell
  | [] => m
  | b :: bs => memWriteList (memWrite m a b) (a + 1) bs

/-- `n` bytes from an address on. -/
def memReadList (m : List Host.Cell) (a : Nat) : Nat → List Byte
  | 0 => []
  | n + 1 => memRead m a :: memReadList m (a + 1) n

/-- The canonical form of page memory: rising addresses, all inside, no byte listed that an unlisted one reads as. -/
def memWfFrom : Nat → List Host.Cell → Bool
  | _, [] => true
  | low, (k, v) :: rest => decide (low ≤ k) && decide (k < memSize) && decide (v ≠ memDefault) && memWfFrom (k + 1) rest

/-- Page memory is in its canonical form. -/
def Memory.wf (m : List Host.Cell) : Bool := memWfFrom 0 m

/-- The first `len` bytes of a slot. -/
def State.slotBytes (s : State) (n : SlotNum) (len : Nat) : List Byte := memReadList s.slots.mem (slotAddr n 0) len

/-! ### The checks (R173) -/

/-- One bit of the page check: reflected polynomial EDB88320h. -/
def crc32Bit (c : Word) : Word := if c.getLsbD 0 then (c >>> 1) ^^^ 0xEDB88320#32 else c >>> 1

/-- One byte of the page check, least significant bit first. -/
def crc32Byte (c : Word) (b : Byte) : Word :=
  crc32Bit <| crc32Bit <| crc32Bit <| crc32Bit <| crc32Bit <| crc32Bit <| crc32Bit <| crc32Bit (c ^^^ b.setWidth 32)

/-- The page check of a page's bytes. -/
def pageCheck (l : List Byte) : Word := ~~~(l.foldl crc32Byte 0xFFFFFFFF#32)

/-- One bit of the frame check: x^16 + x^12 + x^5 + 1. -/
def crc16Bit (c : Half) : Half := if c.msb then (c <<< 1) ^^^ 0x1021#16 else c <<< 1

/-- One byte of the frame check, most significant bit first. -/
def crc16Byte (c : Half) (b : Byte) : Half :=
  crc16Bit <| crc16Bit <| crc16Bit <| crc16Bit <| crc16Bit <| crc16Bit <| crc16Bit <| crc16Bit (c ^^^ (b.setWidth 16 <<< 8))

/-- The frame check of a frame's bytes before the check. -/
def frameCheck (l : List Byte) : Half := l.foldl crc16Byte 0xFFFF#16

/-- ceil(len/128), the segment count of a page (00). -/
def segmentCount (len : Nat) : Nat := (len + (Config.segmentBytes - 1)) / Config.segmentBytes

/-- Payload bytes of segment `k` of a page of length `len` (R10, R48). -/
def segmentLength (len k : Nat) : Nat := min Config.segmentBytes (len - Config.segmentBytes * k)

/-! ### Vectors -/

/-- Replaces one element. -/
def vput {α : Type} {n : Nat} (v : Vector α n) (i : Fin n) (x : α) : Vector α n := v.set i.val x i.isLt

/-! ### Station counters (R145) -/

/-- Changes the station counters. -/
def State.count (s : State) (f : StationCounters → StationCounters) : State :=
  { s with link := { s.link with counters := f s.link.counters } }

/-- One more stale segment (R65, R74). -/
def State.countStale (s : State) : State := s.count fun c => { c with staleSegments := satInc c.staleSegments }

/-- One more receive check failure (R144, R172). -/
def State.countCheckFailure (s : State) : State := s.count fun c => { c with checkFailures := satInc c.checkFailures }

/-! ### The Event Queue (R167) -/

/-- The queue and the number of events not stored (0 or 1) after an insertion, by the table of R167. -/
def EventQueue.insert (q : EventQueue) (now : Micros) (e : Event) : EventQueue × Bool :=
  let free := Config.eventMax - q.records.length
  if q.lost = 0 then
    if 1 ≤ free then (⟨q.records ++ [⟨e, now⟩], 0⟩, false) else (⟨q.records, 1⟩, true)
  else if 2 ≤ free then (⟨q.records ++ [⟨.lost q.lost, now⟩, ⟨e, now⟩], 0⟩, false)
  else if free = 1 then (⟨q.records ++ [⟨.lost q.lost, now⟩], 1⟩, true)
  else (⟨q.records, satInc q.lost⟩, true)

/-- Inserts an event; an event that is not stored raises the events lost counter (R167). -/
def State.insertEvent (s : State) (e : Event) : State :=
  let r := s.events.insert s.time e
  let t := { s with events := r.1 }
  if r.2 then t.count fun c => { c with eventsLost := satInc c.eventsLost } else t

/-- Inserts events in the order of the list. -/
def State.insertEvents (s : State) (l : List Event) : State := l.foldl State.insertEvent s

/-! ### Slots (R2 to R13) -/

/-- The record of slot `n`. -/
def State.slot (s : State) (n : SlotNum) : Slot := s.slots.records[n]

/-- Owner stream of a record, where present (R2). -/
def Slot.owner? : Slot → Option EntryIx
  | .free | .writing => none
  | .queued o _ | .sending o _ _ | .retained o _ _ | .filling o _ _ _ _ | .ready o _ _ | .held o _ _ => some o

/-- Page number of a record, where present (R2). -/
def Slot.page? : Slot → Option PageNum
  | .free | .writing | .queued _ _ => none
  | .sending _ p _ | .retained _ p _ | .filling _ p _ _ _ | .ready _ p _ | .held _ p _ => some p

/-- Length of a record, where present (R2). -/
def Slot.len? : Slot → Option Nat
  | .free | .writing => none
  | .queued _ l | .sending _ _ l | .retained _ _ l | .ready _ _ l | .held _ _ l => some l
  | .filling _ _ l _ _ => l

/-- Changes a record between two states other than FREE. A slot enters FREE only by `SlotManager.giveBack` and leaves it
only by `SlotManager.grant` (R3), so a change from or to FREE asked of this operation is not made. -/
def SlotManager.change (m : SlotManager) (n : SlotNum) (r : Slot) : SlotManager :=
  if m.records[n] = .free ∨ r = .free then m else { m with records := vput m.records n r }

/-- Frees a slot, which joins the free list tail (R3). A slot that is FREE already is on the list and stays there. -/
def SlotManager.giveBack (m : SlotManager) (n : SlotNum) : SlotManager :=
  if m.records[n] = .free then m
  else { m with records := vput m.records n .free, free := m.free ++ [n] }

/-- Grants the head of the free list, whose record becomes `r`; none if the list is empty (R5). -/
def SlotManager.grant (m : SlotManager) (r : Slot) : Option (SlotNum × SlotManager) :=
  match m.free with
  | [] => none
  | n :: rest => if r = .free then none else some (n, { m with records := vput m.records n r, free := rest })

/-- `SlotManager.change` on the part. -/
def State.changeSlot (s : State) (n : SlotNum) (r : Slot) : State := { s with slots := s.slots.change n r }

/-- `SlotManager.giveBack` on the part. -/
def State.freeSlot (s : State) (n : SlotNum) : State := { s with slots := s.slots.giveBack n }

/-- Frees the slot a reference names, if it names one. -/
def State.freeRef (s : State) : Option SlotNum → State
  | none => s
  | some n => s.freeSlot n

/-- Puts a number into its place in an ascending list. -/
def insertAscending (n : SlotNum) : List SlotNum → List SlotNum
  | [] => [n]
  | m :: rest => if n ≤ m then n :: m :: rest else m :: insertAscending n rest

/-- The list in ascending order. -/
def ascending (l : List SlotNum) : List SlotNum := l.foldr insertAscending []

/-- The free list with everything behind its first `k` elements in ascending order. -/
def SlotManager.sortBehind (m : SlotManager) (k : Nat) : SlotManager :=
  { m with free := m.free.take k ++ ascending (m.free.drop k) }

/-- The slots that one event frees join the tail in ascending slot number (R3): `t` is the state after an event that grants
no slot, `s` the state before it. -/
def State.joinAscending (s t : State) : State := { t with slots := t.slots.sortBehind s.slots.free.length }

/-- Writes payload bytes into page memory. -/
def State.writeMem (s : State) (a : Nat) (l : List Byte) : State :=
  { s with slots := { s.slots with mem := memWriteList s.slots.mem a l } }

/-! ### Stream entries -/

/-- The indexes 0 to 15. -/
def allEntries : List EntryIx := List.finRange 16

/-- Entry `i`, absent when unused. -/
def State.entry (s : State) (i : EntryIx) : Option Entry := s.streams[i]

/-- Puts an entry in place of entry `i`. -/
def State.setEntry (s : State) (i : EntryIx) (e : Option Entry) : State := { s with streams := vput s.streams i e }

/-- Stream identifier of an entry. -/
def Entry.stream : Entry → StreamId
  | .producer p => p.stream
  | .consumer c => c.stream

/-- The entry in use for a stream identifier (R20). -/
def State.findStream (s : State) (id : StreamId) : Option EntryIx :=
  allEntries.find? fun i => match s.entry i with
    | some e => e.stream == id
    | none => false

/-- Stream identifier of entry `i`; 0, "none", for an unused one. -/
def State.streamOf (s : State) (i : EntryIx) : StreamId :=
  match s.entry i with
  | some e => e.stream
  | none => 0

/-- Producer entry `i`. -/
def State.producer (s : State) (i : EntryIx) : Option Producer :=
  match s.entry i with
  | some (.producer p) => some p
  | _ => none

/-- Consumer entry `i`. -/
def State.consumer (s : State) (i : EntryIx) : Option Consumer :=
  match s.entry i with
  | some (.consumer c) => some c
  | _ => none

/-- Changes producer entry `i`. -/
def State.modProducer (s : State) (i : EntryIx) (f : Producer → Producer) : State :=
  match s.entry i with
  | some (.producer p) => s.setEntry i (some (.producer (f p)))
  | _ => s

/-- Changes consumer entry `i`. -/
def State.modConsumer (s : State) (i : EntryIx) (f : Consumer → Consumer) : State :=
  match s.entry i with
  | some (.consumer c) => s.setEntry i (some (.consumer (f c)))
  | _ => s

/-- Does something for each entry in ascending index. -/
def State.forEntries (s : State) (f : EntryIx → State → State) : State := allEntries.foldl (fun t i => f i t) s

/-- One more page lost by entry's counter (R28). -/
def Counters.addLost (c : Counters) : Counters := { c with lost := satInc c.lost }

/-- A producer entry as it is in DECLARED (R22). -/
def Producer.declared (stream : StreamId) (mode : Mode) (maxLen floor : Nat) (counters : Counters) : Producer where
  stream := stream
  mode := mode
  maxLen := maxLen
  state := .declared
  phase := none
  nextPage := 0
  lastClosed := none
  sending := none
  retained := none
  paused := false
  members := 0
  awaited := 0
  released := 0
  timer := none
  promptSent := false
  pace := floor
  repairSet := 0
  repairTag := none
  repairPasses := 0
  admits := []
  cuts := []
  gones := []
  prompt := false
  counters := counters

/-- No number of an earlier producer of record. -/
def Earlier.none : Earlier := ⟨false, false, false⟩

/-- A consumer entry as SUBSCRIBE creates it (R25). -/
def Consumer.created (stream : StreamId) (mode : Mode) : Consumer where
  stream := stream
  mode := mode
  state := .waiting
  producer := none
  firstAdmitted := none
  lastCompleted := none
  lastReleased := none
  filling := none
  ready := none
  held := none
  earlier := .none
  readyNotified := false
  skipCount := 0
  joinTries := 0
  timer := none
  take := false
  drop := false
  free := none
  gap := none
  counters := .zero

/-! ### The station state -/

/-- Whether the station transmits frames (R116). -/
def State.transmits (s : State) : Bool := s.presence.state == .active || s.presence.state == .leaving

/-- Changes the Presence Unit. -/
def State.modPresence (s : State) (f : Presence → Presence) : State := { s with presence := f s.presence }

/-- Changes the station state and inserts STATION_STATE (R116). -/
def State.enterState (s : State) (n : StationState) : State :=
  (s.modPresence fun p => { p with state := n }).insertEvent (.stationState s.presence.state n)

/-- The station's own number. -/
def State.own (s : State) : Station := s.presence.station

end Sys2Proof.Machine
end

