-- ==== Sys2Proof/Machine/Operands.lean ====
section
/-! DEFINITION. How operands are read: the fields of command words (chapter 11.3), the codes of chapter 11.2 and 11.1, and
the range checks of received frames (R61, R172). -/

namespace Sys2Proof.Machine

/-! ### Fields of words -/

/-- Bits lo + width − 1 to lo of a word, as a number. -/
def fieldOf (w : Word) (lo width : Nat) : Nat := (w >>> lo).toNat % 2 ^ width

/-- A number placed at bit `lo` of a word in a field of the given width. -/
def placed (lo width v : Nat) : Word := BitVec.ofNat 32 ((v % 2 ^ width) <<< lo)

/-- One bit placed in a word. -/
def placedBit (lo : Nat) (b : Bool) : Word := placed lo 1 b.toNat

/-- A word from its fields; a bit that no field of the layout covers reads 0 (DEDUCED, log 41). -/
def wordOf (l : List Word) : Word := l.foldl (· ||| ·) 0

/-! ### Numbers with a range -/

/-- A station number from a byte; none above 31. -/
def stationOf? (b : Byte) : Option Station := if h : b.toNat < 32 then some ⟨b.toNat, h⟩ else none

/-- A slot or station number from a number; none above 31. -/
def below32? (n : Nat) : Option (Fin 32) := if h : n < 32 then some ⟨n, h⟩ else none

/-- A stream table index from a number; none above 15. -/
def below16? (n : Nat) : Option EntryIx := if h : n < 16 then some ⟨n, h⟩ else none

/-- A stream identifier of a command: none for 0 or above 63. -/
def streamOf? (n : Nat) : Option StreamId := if 1 ≤ n ∧ n ≤ 63 then some (BitVec.ofNat 6 n) else none

/-- A note's target from a command: a station number, or 32 for ALL (chapter 11.3). -/
def noteTarget? (n : Nat) : Option NoteTarget := if n = 32 then some .all else (below32? n).map .one

/-- A mode from a command's code (chapter 11.2). -/
def modeOf? (n : Nat) : Option Mode := if n = 0 then some .freeRun else if n = 1 then some .lockStep else none

/-! ### Codes of chapter 11.2 -/

/-- Code of a station state. -/
def StationState.code : StationState → Nat
  | .unconfigured => 0 | .configured => 1 | .listening => 2 | .active => 3
  | .leaving => 4 | .quiet => 5 | .muted => 6 | .conflict => 7

/-- Code of a slot state. -/
def Slot.code : Slot → Nat
  | .free => 0 | .writing => 1 | .queued _ _ => 2 | .sending _ _ _ => 3
  | .retained _ _ _ => 4 | .filling _ _ _ _ _ => 5 | .ready _ _ _ => 6 | .held _ _ _ => 7

/-- Code of a producer entry state. -/
def ProducerState.code : ProducerState → Nat
  | .declared => 0 | .opened => 1 | .disputed => 2

/-- Code of a consumer entry state. -/
def ConsumerState.code : ConsumerState → Nat
  | .waiting => 0 | .joining => 1 | .receiving => 2 | .expelled => 3 | .departing => 4

/-- Code of a page phase; 3 for none. -/
def phaseCode : Option PagePhase → Nat
  | some .idle => 0 | some .sending => 1 | some .awaitingRelease => 2 | none => 3

/-- Code of a mode. -/
def Mode.code : Mode → Nat
  | .freeRun => 0 | .lockStep => 1

/-- Code of a result. -/
def Result.code : Result → Nat
  | .ok => 0 | .badState => 1 | .badArg => 2 | .noSlot => 3 | .full => 4 | .notFound => 5
  | .exists_ => 6 | .notProducer => 7 | .notConsumer => 8 | .held => 9 | .noNewer => 10 | .disputed => 11

/-- Code of a PAGE_LOST reason. -/
def LossReason.code : LossReason → Nat
  | .superseded => 0 | .withdrawn => 1 | .check => 2 | .noSlot => 3 | .repairTimeout => 4 | .gone => 5 | .producerLost => 6

/-- Code of a SENT reason. -/
def SentResult.code : SentResult → Nat
  | .done => 0 | .doneNoteDropped => 1 | .cancelled => 2 | .disputed => 3 | .failed => 4

/-- Code of a JOIN_FAILED reason. -/
def JoinFailure.code : JoinFailure → Nat
  | .noAnswer => 0 | .full => 1 | .notLockstep => 2

/-- Code of a CUT reason, in the frame and in the events. -/
def CutReason.code : CutReason → Nat
  | .timeout => 0 | .notMember => 1

/-- Code of a PEER_DOWN reason. -/
def DownReason.code : DownReason → Nat
  | .silent => 0 | .left => 1 | .renewed => 2

/-- Code of an ACCESS_FAULT reason. -/
def AccessKind.code : AccessKind → Nat
  | .read => 0 | .write => 1

/-- Code of a CLOSE kind. -/
def CloseKind.code : CloseKind → Nat
  | .normal => 0 | .repair => 1 | .withdrawn => 2

/-- A CLOSE kind from its code; none outside the codes listed (R172). -/
def closeKind? (b : Byte) : Option CloseKind :=
  if b = 0 then some .normal else if b = 1 then some .repair else if b = 2 then some .withdrawn else none

/-- A CUT reason from its code. -/
def cutReason? (b : Byte) : Option CutReason := if b = 0 then some .timeout else if b = 1 then some .notMember else none

/-- An ADMIT result from its code; the first page number counts with ACCEPTED only (R172). -/
def admitResult? (b : Byte) (first : PageNum) : Option AdmitResult :=
  if b = 0 then some (.accepted first) else if b = 1 then some .full else if b = 2 then some .notLockstep else none

/-- Code of an ADMIT result. -/
def AdmitResult.code : AdmitResult → Nat
  | .accepted _ => 0 | .full => 1 | .notLockstep => 2

/-! ### Range checks of received frames (R61, R172) -/

/-- Every element is smaller than the one behind it. -/
def strictlyRising : List Nat → Bool
  | [] => true
  | [_] => true
  | a :: b :: rest => decide (a < b) && strictlyRising (b :: rest)

/-- The checks of a SEG (R61). -/
def segOk (zeros : BitVec 1) (stream : StreamId) (k segCount len bytes : Nat) : Bool :=
  zeros == 0 && stream != 0 && decide (1 ≤ len) && decide (len ≤ Config.slotBytes) && segCount == segmentCount len &&
    decide (k < segCount) && bytes == segmentLength len k

/-- The checks of a CLOSE. -/
def closeOk (zeros : BitVec 1) (stream : StreamId) (len : Nat) (kind : Byte) : Bool :=
  zeros == 0 && stream != 0 && decide (len ≤ Config.slotBytes) && (closeKind? kind).isSome

/-- The checks of an ADMIT; its first page number is ignored unless the result is ACCEPTED (R172). -/
def admitOk (zeros : BitVec 1) (stream : StreamId) (target result : Byte) : Bool :=
  zeros == 0 && stream != 0 && (stationOf? target).isSome && (admitResult? result 0).isSome

/-- The checks of a CUT. -/
def cutOk (zeros : BitVec 1) (stream : StreamId) (target reason : Byte) : Bool :=
  zeros == 0 && stream != 0 && (stationOf? target).isSome && (cutReason? reason).isSome

/-- The checks of a PROMPT: 1 to 8 stations in strictly ascending order, each at most 31. -/
def promptOk (zeros : BitVec 1) (stream : StreamId) (stations : List Byte) : Bool :=
  zeros == 0 && stream != 0 && decide (1 ≤ stations.length) && decide (stations.length ≤ 8) &&
    stations.all (fun b => (stationOf? b).isSome) && strictlyRising (stations.map BitVec.toNat)

/-- The checks of a GONE. -/
def goneOk (zeros : BitVec 1) (stream : StreamId) : Bool := zeros == 0 && stream != 0

/-- The checks of a TAKE, DROP or FREE. -/
def stationFrameOk (zeros : BitVec 1) (stream : StreamId) (station : Byte) : Bool :=
  zeros == 0 && stream != 0 && (stationOf? station).isSome

/-- The checks of a GAP: at most 32 segment numbers in strictly ascending order, each at most 31. -/
def gapOk (zeros : BitVec 1) (stream : StreamId) (station : Byte) (segments : List Byte) : Bool :=
  stationFrameOk zeros stream station && decide (segments.length ≤ 32) &&
    segments.all (fun b => decide (b.toNat < 32)) && strictlyRising (segments.map BitVec.toNat)

/-- The checks of a ROLL: at most 8 claims, in strictly ascending stream id, none of them 0 (R126). A claim whose
page-present bit is clear carries no page number (R172); the frame is taken whatever stands in its field (DEDUCED, log 37). -/
def rollOk (zeros : BitVec 2) (claims : List RawClaim) : Bool :=
  zeros == 0 && decide (claims.length ≤ 8) && claims.all (fun c => c.stream != 0) &&
    strictlyRising (claims.map fun c => c.stream.toNat)

/-- The checks of a NOTE: the target bits are zero when ALL, the source byte names the key's station (R149). -/
def noteOk (src : Station) (all : Bool) (zeros : BitVec 1) (target : BitVec 5) (source : Byte) : Bool :=
  zeros == 0 && (!all || target == 0) && source.toNat == src.val

end Sys2Proof.Machine
end

