-- ==== Sys2Proof/Machine/Flags.lean ====
section
/-! DEFINITION. What the host and the line read off the state: the STATUS word and the interrupt output (R168, R169), the
words of the head response and the head event (chapter 11.3), and the transceiver outputs (R147). -/

namespace Sys2Proof.Machine

/-! ### Interrupt and STATUS -/

/-- The interrupt output (R168): deasserted during pin reset and the page-memory clearing. -/
def State.interrupt (s : State) : Bool := !s.port.inReset && !s.port.clearing && !s.events.records.isEmpty

/-- The word STATUS reads (R169, 11.5): while the clearing field is set, the other fields read 0. -/
def State.statusWord (s : State) : Word :=
  if s.port.clearing then placedBit 0 true
  else wordOf [
    placedBit 1 s.port.refused,
    placedBit 2 (s.events.lost != 0),
    placedBit 3 s.interrupt,
    placed 4 4 s.presence.state.code,
    placed 8 4 s.port.cmdQueue.length,
    placed 12 4 s.port.respQueue.length,
    placed 16 7 s.events.records.length]

/-! ### Response words (11.3) -/

/-- Word `k` of a response record (R161, 11.3, R174); bits that no field covers read 0 (DEDUCED, log 41). -/
def Response.word (r : Response) (k : Nat) : Word :=
  match k with
  | 0 => wordOf [placed 0 8 r.tag.toNat, placed 8 8 r.kind.toNat]
  | 1 => wordOf [placed 0 8 r.result.code, placed 8 4 r.presence.toNat, placedBit 16 r.paused]
  | 2 => r.value1
  | _ => r.value2

/-- Word `k` of the head response; 0 while the queue is empty (R161). -/
def State.respWord (s : State) (k : Nat) : Word :=
  match s.port.respQueue with
  | r :: _ => r.word k
  | [] => 0

/-! ### Event words (11.3, R165, R174) -/

/-- The fields of an event record; an absent one takes its none value in the words. -/
structure EventFields where
  kind : Nat
  reason : Option Nat
  stream : StreamId
  station : Option Station
  page : Option PageNum
  slot : Option SlotNum
  value : Word
  deriving DecidableEq, Repr

/-- The fields each kind of event carries (the table after R165). -/
def Event.fields : Event → EventFields
  | .pageReady id page slot => ⟨1, none, id, none, some page, some slot, 0⟩
  | .pageLost id page slot r => ⟨2, some r.code, id, none, some page, slot, 0⟩
  | .sent id slot page r tag => ⟨3, some r.code, id, none, page, some slot, placed 0 8 tag.toNat⟩
  | .paused id tag => ⟨4, none, id, none, none, none, placed 0 8 tag.toNat⟩
  | .joined id n first => ⟨5, none, id, some n, some first, none, 0⟩
  | .joinFailed id n r => ⟨6, some r.code, id, n, none, none, 0⟩
  | .memberCut id n page r => ⟨7, some r.code, id, some n, page, none, 0⟩
  | .cutReceived id n r => ⟨8, some r.code, id, some n, none, none, 0⟩
  | .peerUp n => ⟨9, none, 0, some n, none, none, 0⟩
  | .peerDown n r => ⟨10, some r.code, 0, some n, none, none, 0⟩
  | .notePending n code => ⟨11, none, 0, some n, none, none, placed 0 8 code.toNat⟩
  | .streamDisputed id n => ⟨12, none, id, some n, none, none, 0⟩
  | .stationState old new => ⟨13, none, 0, none, none, none, wordOf [placed 0 8 old.code, placed 8 8 new.code]⟩
  | .accessFault slot k id page => ⟨14, some k.code, id.getD 0, none, page, some slot, 0⟩
  | .lost count => ⟨15, none, 0, none, none, none, placed 0 16 count.toNat⟩

/-- A station or slot field: 32 when absent (R174). -/
def numberOr32 (n : Option (Fin 32)) : Nat := (n.map Fin.val).getD 32

/-- Word `k` of an event record (R165, 11.3, R174); bits that no field covers read 0 (DEDUCED, log 41). -/
def EventRecord.word (e : EventRecord) (k : Nat) : Word :=
  let f := e.event.fields
  match k with
  | 0 => wordOf [placed 0 8 f.kind, placed 8 8 (f.reason.getD 0xFF), placed 16 6 f.stream.toNat,
      placed 24 6 (numberOr32 f.station)]
  | 1 => e.time
  | 2 => wordOf [placed 0 16 (f.page.getD 0).toNat, placed 16 8 (numberOr32 f.slot), placedBit 24 f.page.isSome]
  | _ => f.value

/-- Word `k` of the head event; 0 while the queue is empty (R166). -/
def State.evtWord (s : State) (k : Nat) : Word :=
  match s.events.records with
  | e :: _ => e.word k
  | [] => 0

/-! ### The transceiver outputs (R147) -/

/-- LINK_DE: asserted from the start mark of an attempt to its end; not during pin reset and the clearing. -/
def State.linkDE (s : State) : Bool :=
  !s.port.inReset && !s.port.clearing &&
    match s.link.holding with
    | some h => h.phase != .held
    | none => false

/-- What LINK_TX carries: outside an attempt it is high; in an attempt it carries the frame's bits; after an echo mismatch
the abort mark holds it low (R147, R140). -/
inductive LinkDrive where
  | high | frame | abort
  deriving DecidableEq, Repr

/-- The drive of LINK_TX. -/
def State.linkDrive (s : State) : LinkDrive :=
  if s.linkDE then
    match s.link.holding with
    | some h => if h.phase = .aborting then .abort else .frame
    | none => .high
  else .high

/-- The bit time in nanoseconds that the link-rate straps select (R146). -/
def State.bitTime (s : State) : Nat :=
  match s.presence.rate.toNat with
  | 0 => 400
  | 1 => 200
  | 2 => 100
  | _ => 800

end Sys2Proof.Machine
end

