-- ==== Sys2Proof/Machine/Pending.lean ====
section
/-! DEFINITION. The pending control sets of the stream entries (R27), the holding frame's view of them (R138), the
transmit selector (R137) and the building of frames. -/

namespace Sys2Proof.Machine

/-! ### The holding frame and its source (R138) -/

/-- The entry whose pending control set an element belongs to. -/
def FrameSource.entry? : FrameSource → Option EntryIx
  | .cut i _ | .admission i _ | .prompt i | .gone i _ | .drop i | .take i | .free i | .gap i => some i
  | .roll | .note | .segmenter => none

/-- The station drives the line: an attempt of its own is between its start mark and its outcome (R138). -/
def State.driving (s : State) : Bool :=
  match s.link.holding with
  | some h => h.phase != .held
  | none => false

/-- Makes the holding frame EMPTY with attempt count 0. -/
def State.emptyHolding (s : State) : State := { s with link := { s.link with holding := none, attempts := 0 } }

/-- The sources that `p` names have removed their element: a HELD frame is released, and an attempt on the line runs to
its end but is reported to no source (R138). -/
def State.sourceRemoved (s : State) (p : FrameSource → Bool) : State :=
  match s.link.holding with
  | some h =>
    if p h.source && !h.orphan then
      if h.phase = .held then s.emptyHolding
      else { s with link := { s.link with holding := some { h with orphan := true } } }
    else s
  | none => s

/-- A source has removed one element. -/
def State.elementRemoved (s : State) (src : FrameSource) : State := s.sourceRemoved (· == src)

/-- A request has replaced the content of an element with that of `f`. An attempt of the element that is on the line does
not carry it, and its report places the element again (R138); content equal to what the attempt carries is not new
(DEDUCED, log 16). -/
def State.contentReplaced (s : State) (src : FrameSource) (f : Frame) : State :=
  match s.link.holding with
  | some h =>
    if h.source = src ∧ h.orphan = false ∧ h.phase ≠ .held then
      { s with link := { s.link with holding := some { h with replaced := decide (f ≠ h.frame) } } }
    else s
  | none => s

/-! ### Elements of consumer entries -/

/-- Places TAKE pending (R98). -/
def State.setTake (s : State) (i : EntryIx) : State := s.modConsumer i fun c => { c with take := true }

/-- Removes a pending TAKE. -/
def State.clearTake (s : State) (i : EntryIx) : State :=
  (s.modConsumer i fun c => { c with take := false }).elementRemoved (.take i)

/-- Places DROP pending (R115). -/
def State.setDrop (s : State) (i : EntryIx) : State := s.modConsumer i fun c => { c with drop := true }

/-- Removes a pending DROP. -/
def State.clearDrop (s : State) (i : EntryIx) : State :=
  (s.modConsumer i fun c => { c with drop := false }).elementRemoved (.drop i)

/-- Places FREE pending; it replaces a pending one (R27, R111). -/
def State.setFree (s : State) (i : EntryIx) (page : PageNum) (lost : Bool) : State :=
  (s.modConsumer i fun c => { c with free := some (page, lost) }).contentReplaced (.free i)
    (.free (s.streamOf i) s.own page lost)

/-- Removes a pending FREE. -/
def State.clearFree (s : State) (i : EntryIx) : State :=
  (s.modConsumer i fun c => { c with free := none }).elementRemoved (.free i)

/-- Places GAP pending; it replaces a pending one (R27, R69). -/
def State.setGap (s : State) (i : EntryIx) (page : PageNum) (missing : SegSet) : State :=
  (s.modConsumer i fun c => { c with gap := some (page, missing) }).contentReplaced (.gap i)
    (.gap (s.streamOf i) s.own page missing)

/-- Removes a pending GAP. -/
def State.clearGap (s : State) (i : EntryIx) : State :=
  (s.modConsumer i fun c => { c with gap := none }).elementRemoved (.gap i)

/-! ### Elements of producer entries -/

/-- Puts a target and what it carries into an ascending target list, or replaces what a listed target carries (R27). -/
def putTarget {α : Type} (t : Station) (v : α) : List (Station × α) → List (Station × α)
  | [] => [(t, v)]
  | (u, w) :: rest =>
    if t < u then (t, v) :: (u, w) :: rest
    else if t = u then (t, v) :: rest
    else (u, w) :: putTarget t v rest

/-- Whether a target list takes a target: it is listed, or there is a place (R97). -/
def hasPlace {α : Type} (t : Station) (l : List (Station × α)) : Bool :=
  l.any (fun e => e.1 == t) || decide (l.length < Config.memberMax)

/-- Takes a target out of a list. -/
def dropTarget {α : Type} (t : Station) (l : List (Station × α)) : List (Station × α) := l.filter fun e => e.1 != t

/-- Removes a target from the ADMIT list. -/
def State.removeAdmit (s : State) (i : EntryIx) (t : Station) : State :=
  (s.modProducer i fun p => { p with admits := dropTarget t p.admits }).elementRemoved (.admission i t)

/-- Removes a target from the CUT list. -/
def State.removeCut (s : State) (i : EntryIx) (t : Station) : State :=
  (s.modProducer i fun p => { p with cuts := dropTarget t p.cuts }).elementRemoved (.cut i t)

/-- Places ADMIT for a target; a listed target takes the new result (R27). The caller has tested the place (R97). -/
def State.placeAdmit (s : State) (i : EntryIx) (t : Station) (r : AdmitResult) : State :=
  (s.modProducer i fun p => { p with admits := putTarget t r p.admits }).contentReplaced (.admission i t)
    (.admission (s.streamOf i) t r)

/-- Places CUT for a target; a listed target keeps its place and takes the new reason, and a ninth target is not placed
(R27, R97). -/
def State.placeCut (s : State) (i : EntryIx) (t : Station) (r : CutReason) : State :=
  match s.producer i with
  | some p =>
    if hasPlace t p.cuts then
      (s.modProducer i fun q => { q with cuts := putTarget t r q.cuts }).contentReplaced (.cut i t) (.cut (s.streamOf i) t r)
    else s
  | none => s

/-- Removes a page number from the GONE list. -/
def State.removeGone (s : State) (i : EntryIx) (page : PageNum) : State :=
  (s.modProducer i fun p => { p with gones := p.gones.filter (· != page) }).elementRemoved (.gone i page)

/-- Places a page number in the GONE list: a listed one keeps its place; a fifth makes the earliest leave (R89). -/
def State.placeGone (s : State) (i : EntryIx) (page : PageNum) : State :=
  match s.producer i with
  | some p =>
    if p.gones.contains page then s
    else
      let t := match p.gones with
        | oldest :: _ => if p.gones.length < Config.goneMax then s else s.removeGone i oldest
        | [] => s
      t.modProducer i fun q => { q with gones := q.gones ++ [page] }
  | none => s

/-- Places PROMPT pending (R102). -/
def State.setPrompt (s : State) (i : EntryIx) : State := s.modProducer i fun p => { p with prompt := true }

/-- Removes a pending PROMPT. -/
def State.clearPrompt (s : State) (i : EntryIx) : State :=
  (s.modProducer i fun p => { p with prompt := false }).elementRemoved (.prompt i)

/-! ### Whole sets -/

/-- An entry with an empty pending control set. -/
def Entry.withoutPending : Entry → Entry
  | .producer p => .producer { p with admits := [], cuts := [], gones := [], prompt := false }
  | .consumer c => .consumer { c with take := false, drop := false, free := none, gap := none }

/-- Empties the pending control set of entry `i` (R27). -/
def State.emptyPending (s : State) (i : EntryIx) : State :=
  (s.setEntry i ((s.entry i).map Entry.withoutPending)).sourceRemoved fun src => src.entry? == some i

/-- Removes entry `i` with its pending control set (R20, R36). -/
def State.removeEntry (s : State) (i : EntryIx) : State := (s.emptyPending i).setEntry i none

/-! ### The transmit selector (R137) -/

/-- The first pending element of a producer entry: CUT, ADMIT, PROMPT, GONE (R97). -/
def Producer.firstElement (i : EntryIx) (p : Producer) : Option FrameSource :=
  match p.cuts, p.admits, p.prompt, p.gones with
  | (t, _) :: _, _, _, _ => some (.cut i t)
  | [], (t, _) :: _, _, _ => some (.admission i t)
  | [], [], true, _ => some (.prompt i)
  | [], [], false, page :: _ => some (.gone i page)
  | [], [], false, [] => none

/-- The first pending element of a consumer entry: DROP, TAKE, FREE, GAP (R111). -/
def Consumer.firstElement (i : EntryIx) (c : Consumer) : Option FrameSource :=
  if c.drop then some (.drop i)
  else if c.take then some (.take i)
  else if c.free.isSome then some (.free i)
  else if c.gap.isSome then some (.gap i)
  else none

/-- Among the entries for which `f` gives something, what it gives for the one with the lowest stream id. -/
def State.lowestStream {α : Type} (s : State) (f : EntryIx → Option α) : Option α :=
  (allEntries.foldl (fun best i =>
    match f i, best with
    | none, _ => best
    | some x, none => some (s.streamOf i, x)
    | some x, some (id, y) => if s.streamOf i < id then some (s.streamOf i, x) else some (id, y))
    (none : Option (StreamId × α))).map (·.2)

/-- The transmit selector's choice among the pending frames of all sources (R137). -/
def State.selectSource (s : State) : Option FrameSource :=
  match s.lowestStream fun i => (s.producer i).bind (Producer.firstElement i) with
  | some src => some src
  | none =>
    match s.lowestStream fun i => (s.consumer i).bind (Consumer.firstElement i) with
    | some src => some src
    | none =>
      if s.presence.rollPending then some .roll
      else if s.link.notes ≠ [] then some .note
      else if s.seg.offered.isSome then some .segmenter
      else none

/-! ### Building a frame from its source as it stands (R138) -/

/-- Mode bit of a claim (chapter 11.1). -/
def Mode.bit : Mode → Bool
  | .freeRun => false
  | .lockStep => true

/-- The claim of one OPEN producer entry (R125). -/
def Producer.claim (p : Producer) : RawClaim := ⟨p.mode.bit, p.lastClosed.isSome, p.stream, p.lastClosed.getD 0⟩

/-- Puts a claim into its place by stream id. -/
def insertClaim (c : RawClaim) : List RawClaim → List RawClaim
  | [] => [c]
  | d :: rest => if c.stream < d.stream then c :: d :: rest else d :: insertClaim c rest

/-- The claims list of the station's ROLL: the OPEN producer entries in ascending stream id (R125). -/
def State.ownClaims (s : State) : List RawClaim :=
  allEntries.foldl (fun l i =>
    match s.producer i with
    | some p => if p.state = .opened then insertClaim p.claim l else l
    | none => l) []

/-- The station's ROLL as it stands (R125). -/
def State.rollFrame (s : State) : Frame := .roll s.presence.leavingPlaced s.presence.rollCount s.ownClaims

/-- The frame of a pending element, built from its source as it now stands; none if the element is not there. -/
def State.buildFrame (s : State) : FrameSource → Option Frame
  | .cut i t => (s.producer i).bind fun p => (p.cuts.find? (fun e => e.1 == t)).map fun e => .cut p.stream t e.2
  | .admission i t => (s.producer i).bind fun p => (p.admits.find? (fun e => e.1 == t)).map fun e => .admission p.stream t e.2
  | .prompt i => (s.producer i).bind fun p =>
      if p.prompt then some (.prompt p.stream (p.lastClosed.getD 0) (stationsOf (setMinus p.awaited p.released))) else none
  | .gone i page => (s.producer i).bind fun p => if p.gones.contains page then some (.gone p.stream page) else none
  | .drop i => (s.consumer i).bind fun c => if c.drop then some (.drop c.stream s.own) else none
  | .take i => (s.consumer i).bind fun c => if c.take then some (.take c.stream s.own) else none
  | .free i => (s.consumer i).bind fun c => c.free.map fun e => .free c.stream s.own e.1 e.2
  | .gap i => (s.consumer i).bind fun c => c.gap.map fun e => .gap c.stream s.own e.1 e.2
  | .roll => if s.presence.rollPending then some s.rollFrame else none
  | .note => s.link.notes.head?.map fun n => .note s.own n.target n.code
  | .segmenter => s.seg.offered.map (·.frame)

end Sys2Proof.Machine
end

