-- ==== Sys2Proof/WellFormed.lean ====
section
/-! DEFINITION. Which events can be spelled at all: operands that the layouts of chapter 11 have room for, and rows that do
not stand for an event another row owns. The meanings are total and do not rest on it. -/

namespace Sys2Proof

/-- The bus rows that a write has of its own: SUBMIT, RESP_NEXT, EVT_NEXT, WINDOW and the page window. -/
def writeOwned (addr : Nat) : Bool :=
  addr == Config.regSubmit || addr == Config.regRespNext || addr == Config.regEvtNext || addr == Config.regWindow ||
    (decide (Config.regPage ≤ addr) && decide (addr < Config.windowEnd))

/-- The bus rows that a read has of its own: the page window. -/
def readOwned (addr : Nat) : Bool := decide (Config.regPage ≤ addr) && decide (addr < Config.windowEnd)

/-- A 32-bit access at a word-aligned address that has a row of its own. -/
def BusAccess.owned (a : BusAccess) : Bool :=
  a.width == .word && a.addr.toNat % 4 == 0 && if a.write then writeOwned a.addr.toNat else readOwned a.addr.toNat

/-- Payload bytes of a SEG, which a receiver finds from its page length and segment number (R172): L − 128k bytes,
at most 128; none when 128k reaches L, for which the spec gives no length (DEDUCED, log 36). -/
def payloadBytes (pageLength : Half) (segment : Byte) : Nat :=
  min Config.segmentBytes (pageLength.toNat - Config.segmentBytes * segment.toNat)

/-- An event that can be spelled. -/
def Instr.wellFormed : Instr → Bool
  | .unknownCommand _ kind => kind == 0 || decide (17 < kind.toNat)
  | .pageWindowRead offset => offset.toNat % 4 == 0
  | .pageWindowWrite offset _ _ => offset.toNat % 4 == 0
  | .registerWrite access => !access.owned
  | .segFrame _ _ _ _ segment _ pageLength payload => payload.length == payloadBytes pageLength segment
  | .promptFrame _ _ _ _ stations => decide (stations.length < 256)
  | .gapFrame _ _ _ _ _ segments => decide (segments.length < 256)
  | .rollFrame _ _ _ _ claims => decide (claims.length < 16)
  | _ => true

end Sys2Proof
end

