-- ==== Sys2Proof/Machine/Frames.lean ====
section
/-! DEFINITION. Frames as bytes and as bits on the line (chapter 11.1, R134, R172, R173): the bytes a frame event stands for,
the event that received bytes make, the ten levels of each byte, and what LINK_TX carries in the station's own attempt. -/

namespace Sys2Proof.Machine

/-! ### From an event to bytes -/

/-- A frame before its check: class, kind within the class, source, bits 6 to 0 of byte 1, and the bytes from 2 onward. -/
structure RawFrame where
  cls : BitVec 2
  kind : BitVec 2
  src : Station
  low : BitVec 7
  body : List Byte
  deriving DecidableEq, Repr

/-- A 16-bit field, most significant byte first. -/
def halfBytes (h : Half) : List Byte := [h.extractLsb' 8 8, h.extractLsb' 0 8]

/-- A 32-bit field, most significant byte first. -/
def wordBytes (w : Word) : List Byte := [w.extractLsb' 24 8, w.extractLsb' 16 8, w.extractLsb' 8 8, w.extractLsb' 0 8]

/-- One flag as a bit. -/
def bit (b : Bool) : BitVec 1 := BitVec.ofBool b

/-- The three bytes of a claim. -/
def claimBytes (c : RawClaim) : List Byte := (bit c.mode ++ bit c.present ++ c.stream) :: halfBytes c.page

/-- The frame that a frame event is the arrival of (the table of 11.1); none for the other events. -/
def rawOf : Instr → Option RawFrame
  | .admitFrame src z id target result first => some ⟨0, 0, src, z ++ id, [target, result] ++ halfBytes first⟩
  | .cutFrame src z id target reason => some ⟨0, 1, src, z ++ id, [target, reason]⟩
  | .goneFrame src z id page => some ⟨0, 2, src, z ++ id, halfBytes page⟩
  | .promptFrame src z id page stations =>
    some ⟨0, 3, src, z ++ id, halfBytes page ++ BitVec.ofNat 8 stations.length :: stations⟩
  | .takeFrame src z id station => some ⟨1, 0, src, z ++ id, [station]⟩
  | .dropFrame src z id station => some ⟨1, 1, src, z ++ id, [station]⟩
  | .freeFrame src lost id station page => some ⟨1, 2, src, bit lost ++ id, station :: halfBytes page⟩
  | .gapFrame src z id station page segments =>
    some ⟨1, 3, src, z ++ id, station :: halfBytes page ++ BitVec.ofNat 8 segments.length :: segments⟩
  | .rollFrame src leaving z count claims =>
    some ⟨2, 0, src, bit leaving ++ z ++ BitVec.ofNat 4 claims.length, count :: claims.flatMap claimBytes⟩
  | .noteFrame src all z target source code => some ⟨2, 1, src, bit all ++ z ++ target, [source, code]⟩
  | .segFrame src z id page segment segCount len payload =>
    some ⟨3, 0, src, z ++ id, halfBytes page ++ [segment, segCount] ++ halfBytes len ++ payload⟩
  | .closeFrame src z id page len kind check =>
    some ⟨3, 1, src, z ++ id, halfBytes page ++ halfBytes len ++ kind :: wordBytes check⟩
  | _ => none

/-- A station number in five bits. -/
def stationBits (n : Station) : BitVec 5 := BitVec.ofFin n

/-- The arbitration key (R134): class × 32 + station. -/
def RawFrame.key (r : RawFrame) : BitVec 7 := r.cls ++ stationBits r.src

/-- Bytes 0 and 1: the key with kind bit K1, then K0 with bits 6 to 0. -/
def RawFrame.head (r : RawFrame) : List Byte := [r.key ++ r.kind.extractLsb' 1 1, r.kind.extractLsb' 0 1 ++ r.low]

/-- The bytes the frame check covers. -/
def RawFrame.covered (r : RawFrame) : List Byte := r.head ++ r.body

/-- The frame's bytes, closed by its check, high byte first (R173). -/
def RawFrame.bytes (r : RawFrame) : List Byte := r.covered ++ halfBytes (frameCheck r.covered)

/-- The bytes on the line of the frame that a frame event is the arrival of. -/
def frameBytes (i : Instr) : Option (List Byte) := (rawOf i).map RawFrame.bytes

/-! ### From bytes to an event -/

/-- A 16-bit field from its bytes. -/
def halfOf (hi lo : Byte) : Half := hi ++ lo

/-- Number of bytes between byte 1 and the check, from the kind and the fields that tell it (R172); none when they have not
arrived, or when the kind is not in the table. -/
def bodyLength (cls kind : BitVec 2) (low : BitVec 7) (rest : List Byte) : Option Nat :=
  match cls.toNat, kind.toNat with
  | 0, 0 => some 4
  | 0, 1 => some 2
  | 0, 2 => some 2
  | 0, 3 => rest[2]?.map fun n => 3 + n.toNat
  | 1, 0 => some 1
  | 1, 1 => some 1
  | 1, 2 => some 3
  | 1, 3 => rest[3]?.map fun n => 4 + n.toNat
  | 2, 0 => some (1 + 3 * (low.extractLsb' 0 4).toNat)
  | 2, 1 => some 2
  | 3, 0 =>
    match rest with
    | _ :: _ :: k :: _ :: hi :: lo :: _ => some (6 + payloadBytes (halfOf hi lo) k)
    | _ => none
  | 3, 1 => some 9
  | _, _ => none

/-- The claims of a ROLL from their bytes. -/
def claimsOf : List Byte → List RawClaim
  | b :: hi :: lo :: rest => ⟨b.msb, b.getLsbD 6, b.extractLsb' 0 6, halfOf hi lo⟩ :: claimsOf rest
  | _ => []

/-- The frame event of a good frame; none when the bytes are not those of a kind in the table. -/
def rowOf (r : RawFrame) : Option Instr :=
  let z := r.low.extractLsb' 6 1
  let id := r.low.extractLsb' 0 6
  match r.cls.toNat, r.kind.toNat, r.body with
  | 0, 0, [target, result, hi, lo] => some (.admitFrame r.src z id target result (halfOf hi lo))
  | 0, 1, [target, reason] => some (.cutFrame r.src z id target reason)
  | 0, 2, [hi, lo] => some (.goneFrame r.src z id (halfOf hi lo))
  | 0, 3, hi :: lo :: _ :: stations => some (.promptFrame r.src z id (halfOf hi lo) stations)
  | 1, 0, [station] => some (.takeFrame r.src z id station)
  | 1, 1, [station] => some (.dropFrame r.src z id station)
  | 1, 2, [station, hi, lo] => some (.freeFrame r.src r.low.msb id station (halfOf hi lo))
  | 1, 3, station :: hi :: lo :: _ :: segments => some (.gapFrame r.src z id station (halfOf hi lo) segments)
  | 2, 0, count :: claims => some (.rollFrame r.src r.low.msb (r.low.extractLsb' 4 2) count (claimsOf claims))
  | 2, 1, [source, code] =>
    some (.noteFrame r.src r.low.msb (r.low.extractLsb' 5 1) (r.low.extractLsb' 0 5) source code)
  | 3, 0, hi :: lo :: segment :: segCount :: lhi :: llo :: payload =>
    some (.segFrame r.src z id (halfOf hi lo) segment segCount (halfOf lhi llo) payload)
  | 3, 1, [hi, lo, lhi, llo, kind, c3, c2, c1, c0] =>
    some (.closeFrame r.src z id (halfOf hi lo) (halfOf lhi llo) kind (c3 ++ c2 ++ c1 ++ c0))
  | _, _, _ => none

/-- The frame that two head bytes and a body make. -/
def rawFrom (b0 b1 : Byte) (body : List Byte) : RawFrame where
  cls := b0.extractLsb' 6 2
  kind := b0.extractLsb' 0 1 ++ b1.extractLsb' 7 1
  src := (b0.extractLsb' 1 5).toFin
  low := b1.extractLsb' 0 7
  body := body

/-- The event that bytes received up to the idle line make (R144, R172): a frame event, or a discarded frame when they stop
short, or fail the frame check. A kind the table does not list has no end a receiver could find, and is discarded
(DEDUCED, log 29). -/
def lineEvent (l : List Byte) : Instr :=
  match l with
  | b0 :: b1 :: rest =>
    let r := rawFrom b0 b1 []
    match bodyLength r.cls r.kind r.low rest with
    | none => .frameDiscarded .truncated
    | some n =>
      if rest.length < n + 2 then .frameDiscarded .truncated
      else
        let good := rawFrom b0 b1 (rest.take n)
        if (rest.drop n).take 2 = halfBytes (frameCheck (b0 :: b1 :: rest.take n)) then
          (rowOf good).getD (.frameDiscarded .badCheck)
        else .frameDiscarded .badCheck
  | _ => .frameDiscarded .truncated

/-! ### The station's own frames -/

/-- A number as a byte. -/
def byteOf (n : Nat) : Byte := BitVec.ofNat 8 n

/-- First page number field of an ADMIT: 0 unless ACCEPTED. -/
def AdmitResult.first : AdmitResult → PageNum
  | .accepted p => p
  | .full => 0
  | .notLockstep => 0

/-- The event that the station's own frame is at a receiver: every bit the layout gives as zero is zero (R172). -/
def Frame.row (own : Station) : Frame → Instr
  | .seg id page k n len payload => .segFrame own 0 id page (byteOf k) (byteOf n) (BitVec.ofNat 16 len) payload
  | .close id page len kind check => .closeFrame own 0 id page (BitVec.ofNat 16 len) (byteOf kind.code) check
  | .admission id t r => .admitFrame own 0 id (byteOf t.val) (byteOf r.code) r.first
  | .cut id t r => .cutFrame own 0 id (byteOf t.val) (byteOf r.code)
  | .gone id page => .goneFrame own 0 id page
  | .prompt id page stations => .promptFrame own 0 id page (stations.map fun n => byteOf n.val)
  | .take id n => .takeFrame own 0 id (byteOf n.val)
  | .drop id n => .dropFrame own 0 id (byteOf n.val)
  | .free id n page lost => .freeFrame own lost id (byteOf n.val) page
  | .gap id n page missing => .gapFrame own 0 id (byteOf n.val) page ((elemsOf missing).map byteOf)
  | .roll leaving count claims => .rollFrame own leaving 0 count claims
  | .note source .all code => .noteFrame own true 0 0 (byteOf source.val) code
  | .note source (.one t) code => .noteFrame own false 0 (stationBits t) (byteOf source.val) code

/-- The bytes of a frame the station drives. -/
def Frame.bytes (own : Station) (f : Frame) : List Byte := (frameBytes (f.row own)).getD []

/-- The bytes of the attempt on the line, if one is (R138). -/
def State.driven (s : State) : Option (List Byte) :=
  match s.link.holding with
  | some h => if h.phase = .held then none else some (h.frame.bytes s.own)
  | none => none

/-! ### Bits on the line (R134, R140, R144, R147) -/

/-- A level of the line: low is dominant, high is recessive (chapter 8.8). -/
inductive Level where
  | dominant | recessive
  deriving DecidableEq, Repr

/-- The level of a data bit: the lower key survives, so 0 is dominant (R134, R136). -/
def Level.ofBit (b : Bool) : Level := if b then .recessive else .dominant

/-- The data bit of a level. -/
def Level.toBit : Level → BitVec 1
  | .dominant => 0
  | .recessive => 1

/-- The ten bit times of a byte (R134): a dominant start bit, eight data bits most significant first, a recessive stop bit. -/
def byteLevels (b : Byte) : List Level :=
  .dominant :: (List.finRange 8).map (fun j => .ofBit (b.getMsbD j)) ++ [.recessive]

/-- The levels of a sequence of bytes, one per bit time. -/
def levelsOf (l : List Byte) : List Level := l.flatMap byteLevels

/-- The bytes that received levels carry; none when a stop bit reads dominant (R144). They end at the first bit time with no
start bit, also at a gap shorter than t_ifs, and a dominant stop bit behind a complete frame discards it too (DEDUCED, log
45). -/
def bytesOfLevels : List Level → Option (List Byte)
  | .dominant :: a :: b :: c :: d :: e :: f :: g :: h :: .recessive :: rest =>
    (bytesOfLevels rest).map fun l =>
      (a.toBit ++ b.toBit ++ c.toBit ++ d.toBit ++ e.toBit ++ f.toBit ++ g.toBit ++ h.toBit) :: l
  | .dominant :: _ => none
  | _ => some []

/-- The interframe space t_ifs in bit times: so long recessive, the line is idle (R135). -/
def interframeSpace : List Level := List.replicate 12 .recessive

/-- The abort mark t_abort in bit times, dominant (R140). -/
def abortMark : List Level := List.replicate 11 .dominant

/-- The event that the levels received from a start mark up to the idle line make (R144). -/
def levelEvent (l : List Level) : Instr :=
  match bytesOfLevels l with
  | some bytes => lineEvent bytes
  | none => .frameDiscarded (if List.replicate 10 .dominant <:+: l then .abortMark else .framing)

/-- What LINK_TX carries, bit time by bit time, from the start mark of the attempt, or from the start of its abort mark; empty
outside an attempt, where LINK_TX is high (R134, R140, R147). A lost key bit or RESTART ends the attempt before the last of
them (R136, R143). -/
def State.linkTX (s : State) : List Level :=
  match s.linkDrive with
  | .high => []
  | .frame => levelsOf (s.driven.getD [])
  | .abort => abortMark

end Sys2Proof.Machine
end

