-- ==== Sys2Proof/Machine/Publish.lean ====
section
/-! DEFINITION. The Publish Queue (chapter 3): pause markers, completion of descriptors and the order of SENT; and the
barrier of a lock-step stream (chapter 6), whose completion lets a marker take effect. -/

namespace Sys2Proof.Machine

/-! ### Descriptors (R39) -/

/-- Whether a descriptor is a pause marker. -/
def Descriptor.isPause (d : Descriptor) : Bool :=
  match d.body with
  | .pause => true
  | .page _ _ _ _ => false

/-- Changes the Publish Queue's descriptors. -/
def State.setQueue (s : State) (q : List Descriptor) : State := { s with publish := { s.publish with queue := q } }

/-- Appends a descriptor at the tail and stamps its place in posting order (R38). -/
def State.appendDescriptor (s : State) (i : EntryIx) (tag : Byte) (b : DescriptorBody) : State :=
  { s with publish := ⟨s.publish.queue ++ [⟨i, tag, s.publish.nextSeq, b⟩], s.publish.nextSeq + 1⟩ }

/-! ### Pause markers (R42) -/

/-- The pause markers of entry `i` that nothing of its stream stands ahead of. -/
def State.leadingMarkers (s : State) (i : EntryIx) : List Descriptor :=
  (s.publish.queue.filter fun d => d.entry == i).takeWhile Descriptor.isPause

/-- One marker of entry `i` takes effect: it leaves the queue, the paused flag is set, PAUSED is inserted (R42). -/
def State.markerEffect (i : EntryIx) (s : State) (d : Descriptor) : State :=
  ((s.setQueue (s.publish.queue.erase d)).modProducer i fun p => { p with paused := true }).insertEvent
    (.paused (s.streamOf i) d.tag)

/-- The oldest markers of entry `i` take effect if the entry is OPEN and its page phase IDLE (R42). -/
def State.applyMarkers (i : EntryIx) (s : State) : State :=
  match s.producer i with
  | some p =>
    if p.state = .opened ∧ p.phase = some .idle then (s.leadingMarkers i).foldl (State.markerEffect i) s else s
  | none => s

/-! ### Completion of descriptors (R51) -/

/-- Puts a stamped event into its place in posting order. -/
def insertBySeq (x : Nat × Event) : List (Nat × Event) → List (Nat × Event)
  | [] => [x]
  | y :: rest => if x.1 ≤ y.1 then x :: y :: rest else y :: insertBySeq x rest

/-- The SENT of a queued page descriptor with its posting stamp; none for a marker (R51). -/
def State.queuedSent (s : State) (r : SentResult) (d : Descriptor) : Option (Nat × Event) :=
  match d.body with
  | .page slot _ _ _ => some (d.seq, .sent (s.streamOf d.entry) slot none r d.tag)
  | .pause => none

/-- A queued page descriptor's slot returns to WRITING (R8). -/
def State.returnSlot (s : State) (d : Descriptor) : State :=
  match d.body with
  | .page slot _ _ _ => s.changeSlot slot .writing
  | .pause => s

/-- Every descriptor that `p` names leaves the queue, and their slots return to WRITING (R8, R38). -/
def State.returnQueued (s : State) (p : Descriptor → Bool) : State :=
  ((s.publish.queue.filter p).foldl State.returnSlot s).setQueue (s.publish.queue.filter fun d => !p d)

/-- The SENT events of the queued descriptors that `p` names, in posting order, with their stamps. -/
def State.sentOf (s : State) (p : Descriptor → Bool) (r : SentResult) : List (Nat × Event) :=
  (s.publish.queue.filter p).filterMap (s.queuedSent r)

/-- The SENT of the page in flight with its stamp (R51). -/
def State.flightSent (s : State) (f : Flight) (r : SentResult) : Nat × Event :=
  (f.seq, .sent (s.streamOf f.entry) f.slot (some f.page) r f.tag)

/-- Inserts stamped events in posting order (R51): `l` stands in posting order, `x` is the page in flight's, if any. -/
def State.insertSents (s : State) (l : List (Nat × Event)) (x : Option (Nat × Event)) : State :=
  s.insertEvents ((match x with | some e => insertBySeq e l | none => l).map Prod.snd)

/-! ### The barrier (R101 to R108) -/

/-- T of an entry in microseconds: M times the pace estimate (R101). -/
def State.releaseTime (s : State) (p : Producer) : Micros := millis (s.mult * p.pace)

/-- A barrier begins (R101). -/
def State.beginBarrier (s : State) (i : EntryIx) : State :=
  s.modProducer i fun p => { p with
    phase := some .awaitingRelease
    awaited := p.members
    released := 0
    promptSent := false
    timer := some ⟨s.time, s.time, s.time + s.releaseTime p⟩ }

/-- The release timer is restarted in the event of a REPAIR CLOSE sent (R107). -/
def State.restartBarrier (s : State) (i : EntryIx) : State :=
  s.modProducer i fun p =>
    if p.phase = some .awaitingRelease then
      { p with promptSent := false
               timer := p.timer.map fun t => { t with started := s.time, expiry := s.time + s.releaseTime p } }
    else p

/-- The new pace estimate from the measured milliseconds (R105). -/
def newPace (floor estimate measured : Nat) : Nat := min Config.paceMax (max floor ((3 * estimate + measured) / 4))

/-- Milliseconds from the barrier's start to now (R105). -/
def State.measured (s : State) (t : ReleaseTimer) : Nat := (s.time - t.barrierStart).toNat / 1000

/-- The barrier of entry `i` completes (R104); `byFree` when a FREE completes it, which updates the pace estimate
(R105). A pause marker of the stream may then take effect (R42). -/
def State.completeBarrier (s : State) (i : EntryIx) (byFree : Bool) : State :=
  ((s.modProducer i fun p => { p with
    phase := some .idle
    timer := none
    promptSent := false
    pace := if byFree then (p.timer.map fun t => newPace s.floor p.pace (s.measured t)).getD p.pace else p.pace }).clearPrompt
      i).applyMarkers i

/-- The barrier of entry `i` is tested for completion (R104). -/
def State.testBarrier (s : State) (i : EntryIx) (byFree : Bool) : State :=
  match s.producer i with
  | some p =>
    if p.phase = some .awaitingRelease ∧ isSubset p.awaited p.released then s.completeBarrier i byFree else s
  | none => s

/-- A member leaves the member set, the release-awaited set and the release set, and the barrier is tested (R108). -/
def State.removeMember (s : State) (i : EntryIx) (n : Station) : State :=
  (s.modProducer i fun p => { p with
    members := dropElem p.members n, awaited := dropElem p.awaited n, released := dropElem p.released n }).testBarrier i false

end Sys2Proof.Machine
end

