-- ==== Sys2Proof/Machine/Segmenter.lean ====
section
/-! DEFINITION. The Segmenter (chapters 3 and 5): selection, the frames of a page and of a repair pass, closing, withdrawal,
and what every event may lead to at its end: pause markers, a boundary, the end of the LEAVING work. -/

namespace Sys2Proof.Machine

/-- Changes the Segmenter. -/
def State.modSeg (s : State) (f : Segmenter → Segmenter) : State := { s with seg := f s.seg }

/-! ### Frames of a page -/

/-- Segment `k` of the page of length `len` in a slot, as a SEG frame (R48, R92). -/
def State.segFrame (s : State) (stream : StreamId) (slot : SlotNum) (page : PageNum) (len k : Nat) : Frame :=
  .seg stream page k (segmentCount len) len
    (memReadList s.slots.mem (slotAddr slot (Config.segmentBytes * k)) (segmentLength len k))

/-- Offers a frame to the transmit selector (R47). -/
def State.offer (s : State) (k : OfferedKind) (f : Frame) : State := s.modSeg fun g => { g with offered := some ⟨k, f⟩ }

/-- The page in flight offers its next SEG, or its CLOSE NORMAL when all have been offered (R47, R49, R52). -/
def State.offerFlight (s : State) (f : Flight) : State :=
  if f.next < segmentCount f.len then
    s.offer (.pageSeg f.next) (s.segFrame (s.streamOf f.entry) f.slot f.page f.len f.next)
  else
    (s.modSeg fun g => { g with flight := some { f with closeOffered := true } }).offer .pageClose
      (.close (s.streamOf f.entry) f.page f.len .normal f.check)

/-! ### Selection (R44, R45) -/

/-- Whether a repair pass of entry `i` is in progress. -/
def State.inPass (s : State) (i : EntryIx) : Bool :=
  match s.seg.pass with
  | some p => p.entry == i
  | none => false

/-- Whether entry `i` is an eligible producer entry (R44). -/
def State.eligible (s : State) (i : EntryIx) : Bool :=
  match s.producer i with
  | some p =>
    decide (p.state = .opened ∧ p.phase = some .idle ∧ p.paused = false ∧ s.presence.state = .active) && !s.inPass i
  | none => false

/-- The earliest posted descriptor of the eligible entries (R45). -/
def State.selectable (s : State) : Option Descriptor := s.publish.queue.find? fun d => s.eligible d.entry

/-- Selects a descriptor: steps 1 to 4 of R45. A marker is not selected, since it takes effect before (R42). -/
def State.selectDescriptor (s : State) (d : Descriptor) : State :=
  match d.body, s.producer d.entry with
  | .page slot len report tail, some p =>
    let f : Flight :=
      { entry := d.entry, slot := slot, page := p.nextPage, len := len, check := pageCheck (s.slotBytes slot len),
        next := 0, report := report, tail := tail, tag := d.tag, seq := d.seq, closeOffered := false,
        withdrawAtClose := false }
    ((((s.setQueue (s.publish.queue.erase d)).changeSlot slot (.sending d.entry p.nextPage len)).modProducer d.entry
      fun q => { q with nextPage := q.nextPage + 1, sending := some slot, phase := some .sending }).modSeg
      fun g => { g with flight := some f }).offerFlight f
  | _, _ => s

/-- Selection of a descriptor, if one can be selected (R45). -/
def State.select (s : State) : State :=
  match s.selectable with
  | some d => s.selectDescriptor d
  | none => s

/-! ### Repair passes (R91 to R93) -/

/-- Whether segment `k` lies above a pass's position. -/
def abovePosition (position : Option Nat) (k : Nat) : Bool :=
  match position with
  | none => true
  | some p => decide (p < k)

/-- The lowest number of the repair set above the position (R92). -/
def nextRepair (set : SegSet) (position : Option Nat) : Option Nat := (elemsOf set).find? (abovePosition position)

/-- The next number a pass sends: none once its REPAIR CLOSE has been offered (R92), which MUTED may take back and the pass
offers again (R94; what joins the set meanwhile waits as R92 says; DEDUCED, log 30). -/
def Pass.nextNumber (ps : Pass) (set : SegSet) : Option Nat := if ps.closing then none else nextRepair set ps.position

/-- Offers the next frame of a pass: the lowest number of the set above the position, or the REPAIR CLOSE (R92). -/
def State.offerPass (s : State) (ps : Pass) (p : Producer) (slot : SlotNum) : State :=
  let len := ((s.slot slot).len?).getD 0
  match ps.nextNumber p.repairSet with
  | some k =>
    ((s.modProducer ps.entry fun q => { q with repairSet := dropElem q.repairSet k }).modSeg
      fun g => { g with pass := some { ps with position := some k } }).offer (.passSeg k ps.position)
      (s.segFrame p.stream slot ps.page len k)
  | none =>
    (s.modSeg fun g => { g with pass := some { ps with closing := true } }).offer .passClose
      (.close p.stream ps.page len .repair (pageCheck (s.slotBytes slot len)))

/-- The page number of the RETAINED page of a producer entry. -/
def State.retainedPage (s : State) (p : Producer) : Option PageNum := p.retained.bind fun n => (s.slot n).page?

/-- Entry `i` asks for a repair pass: OPEN, its tag names its RETAINED page, and it has a pass left (R91). -/
def State.passWanted (s : State) (i : EntryIx) : Option EntryIx :=
  match s.producer i with
  | some p =>
    if p.state = .opened ∧ p.repairTag.isSome ∧ p.repairTag = s.retainedPage p ∧ p.repairPasses < Config.repairMax then some i
    else none
  | none => none

/-- A pass of entry `i` begins (R91). -/
def State.beginPass (s : State) (i : EntryIx) : State :=
  match s.producer i with
  | some p =>
    match p.repairTag, p.retained with
    | some page, some slot =>
      let t := (s.modProducer i fun q => { q with
        repairPasses := q.repairPasses + 1
        counters := { q.counters with repairs := satInc q.counters.repairs } }).modSeg
        fun g => { g with pass := some ⟨i, page, none, false⟩ }
      t.offerPass ⟨i, page, none, false⟩ p slot
    | _, _ => s
  | none => s

/-- The pass in progress still has its page: its entry is OPEN with the tag of the pass (R56, R94). -/
def State.passAlive (s : State) (ps : Pass) : Bool :=
  match s.producer ps.entry with
  | some p => decide (p.state = .opened ∧ p.repairTag = some ps.page ∧ p.retained.isSome)
  | none => false

/-- Continues the pass in progress (R92). -/
def State.continuePass (s : State) (ps : Pass) : State :=
  match s.producer ps.entry with
  | some p =>
    match p.retained with
    | some slot => s.offerPass ps p slot
    | none => s
  | none => s

/-- A pass ends with the report of its REPAIR CLOSE (R93). -/
def State.endPass (s : State) (ps : Pass) : State :=
  let t := s.modSeg fun g => { g with pass := none }
  match t.producer ps.entry with
  | some p =>
    if p.repairTag = some ps.page then
      if p.repairSet = 0 then t.modProducer ps.entry fun q => { q with repairTag := none }
      else if p.repairPasses < Config.repairMax then t
      else (t.modProducer ps.entry fun q => { q with repairSet := 0, repairTag := none }).placeGone ps.entry ps.page
    else t
  | none => t

/-! ### The boundary (R47) -/

/-- What the Segmenter offers after repair work: the withdrawn close, the page in flight, or a selection (R47). -/
def State.boundaryRest (s : State) : State :=
  match s.seg.withdrawn, s.seg.flight with
  | some w, _ => s.offer .withdrawnClose (.close w.stream w.page w.len .withdrawn w.check)
  | none, some f => s.offerFlight f
  | none, none => s.select

/-- What the Segmenter offers when no pass is in progress: a pass that is asked for comes first (R47, R91). -/
def State.boundaryNew (s : State) : State :=
  match s.lowestStream s.passWanted with
  | some i => s.beginPass i
  | none => s.boundaryRest

/-- A boundary, if the event is one: the Segmenter chooses its next frame (R47). A pass whose stream has been disputed
ends here without its REPAIR CLOSE (R56). -/
def State.boundary (s : State) : State :=
  if s.transmits ∧ s.seg.offered = none then
    match s.seg.pass with
    | some ps =>
      if s.passAlive ps then s.continuePass ps else (s.modSeg fun g => { g with pass := none }).boundaryNew
    | none => s.boundaryNew
  else s

/-! ### Closing, withdrawal (R49, R54) -/

/-- Changes the NOTE out-queue. -/
def State.setNotes (s : State) (l : List Note) : State := { s with link := { s.link with notes := l } }

/-- Step 2 of R49 and the repair passes of R87, at the CLOSE NORMAL that replaces the RETAINED page `old`. -/
def State.closeRepair (s : State) (i : EntryIx) (old : Option PageNum) : State :=
  match s.producer i with
  | some p =>
    let t := s.modProducer i fun q => { q with repairPasses := 0 }
    if p.repairTag.isSome ∧ p.repairTag = old then
      let u := t.modProducer i fun q => { q with repairSet := 0, repairTag := none }
      if p.repairSet = 0 then u else u.placeGone i (p.repairTag.getD 0)
    else t
  | none => s

/-- Step 4 of R49: the page phase after the close (R24, R101). -/
def State.closePhase (s : State) (i : EntryIx) : State :=
  match s.producer i with
  | some p =>
    if p.mode = .lockStep ∧ p.members ≠ 0 then s.beginBarrier i
    else s.modProducer i fun q => { q with phase := some .idle }
  | none => s

/-- Step 5 of R49: the tail note is placed, or not (R50). -/
def State.placeTail (s : State) (tail : Option Note) : State × SentResult :=
  match tail with
  | none => (s, .done)
  | some n =>
    if s.link.notes.length < Config.noteMax then (s.setNotes (s.link.notes ++ [n]), .done) else (s, .doneNoteDropped)

/-- A page completes at its CLOSE NORMAL, sent or dropped (R49). -/
def State.completeFlight (s : State) (f : Flight) : State :=
  match s.producer f.entry with
  | some p =>
    let old := s.retainedPage p
    -- step 1: the slots
    let s1 := ((s.changeSlot f.slot (.retained f.entry f.page f.len)).freeRef p.retained).modProducer f.entry
      fun q => { q with sending := none, retained := some f.slot }
    -- step 2: the repair state
    let s2 := s1.closeRepair f.entry old
    -- step 3: last closed page number and counter
    let s3 := s2.modProducer f.entry fun q => { q with
      lastClosed := some f.page
      counters := { q.counters with closed := satInc q.counters.closed } }
    -- step 4: the page phase
    let s4 := s3.closePhase f.entry
    -- step 5: the tail note
    let s5 := s4.placeTail f.tail
    -- step 6: SENT
    let s6 := if s5.2 = .done ∧ f.report = false then s5.1
      else s5.1.insertEvent (.sent p.stream f.slot (some f.page) s5.2 f.tag)
    -- step 7: no page in flight; a marker of the stream may take effect
    (s6.modSeg fun g => { g with flight := none }).applyMarkers f.entry
  | none => s.modSeg fun g => { g with flight := none }

/-- The CLOSE NORMAL of a page marked for withdrawal is sent or dropped (R54). -/
def State.withdrawAtClose (s : State) (f : Flight) : State :=
  (((s.changeSlot f.slot .writing).modProducer f.entry fun p => { p with
    sending := none, counters := p.counters.addLost }).modSeg fun g => { g with flight := none }).insertEvent
    (s.flightSent f .disputed).2

/-- The report of the CLOSE NORMAL of the page in flight (R49, R54). -/
def State.closeReported (s : State) (f : Flight) : State :=
  if f.withdrawAtClose then s.withdrawAtClose f else s.completeFlight f

/-- What leaves with a page taken out of flight: the SENDING reference, the repair set tagged with the page (R90), and the
lost counter rises (R28); the page phase of an OPEN entry becomes `phase` (R23, R24). -/
def Producer.withoutFlight (p : Producer) (page : PageNum) (phase : Option PagePhase) : Producer :=
  { p with
    sending := none
    phase := if p.state = .opened then phase else p.phase
    repairSet := if p.repairTag = some page then 0 else p.repairSet
    repairTag := if p.repairTag = some page then none else p.repairTag
    counters := p.counters.addLost }

/-- The page in flight is withdrawn (R54): `phase` is the page phase afterwards. The caller inserts its SENT. -/
def State.withdrawFlight (s : State) (f : Flight) (phase : Option PagePhase) : State :=
  ((s.changeSlot f.slot .writing).modProducer f.entry fun p => p.withoutFlight f.page phase).modSeg fun g => { g with
    flight := none
    withdrawn := some ⟨s.streamOf f.entry, f.page, f.len, f.check⟩ }

/-- The page in flight is abandoned at CONFLICT (R58): no CLOSE. The caller inserts its SENT. -/
def State.abandonFlight (s : State) (f : Flight) : State :=
  ((s.changeSlot f.slot .writing).modProducer f.entry fun p => p.withoutFlight f.page (some .idle)).modSeg
    fun g => { g with flight := none }

/-! ### Reports of the offered frame (R47, R48, R55, R92) -/

/-- The Link Controller reports the offered frame sent or dropped. -/
def State.segmenterReport (s : State) (sent : Bool) : State :=
  match s.seg.offered with
  | none => s
  | some o =>
    let t := s.modSeg fun g => { g with offered := none }
    match o.kind, t.seg.flight, t.seg.pass with
    | .pageSeg k, some f, _ => t.modSeg fun g => { g with flight := some { f with next := k + 1 } }
    | .pageSeg _, none, _ => t
    | .pageClose, some f, _ => t.closeReported f
    | .pageClose, none, _ => t
    | .withdrawnClose, _, _ => t.modSeg fun g => { g with withdrawn := none }
    | .passSeg _ _, _, _ => t
    | .passClose, _, some ps => (if sent then t.restartBarrier ps.entry else t).endPass ps
    | .passClose, _, none => t

/-! ### The end of the LEAVING work (R123) -/

/-- Whether nothing of the LEAVING work is left (R123). -/
def State.leavingDone (s : State) : Bool :=
  s.seg.flight.isNone && s.seg.withdrawn.isNone && s.seg.pass.isNone &&
    allEntries.all fun i => match s.entry i with
      | some (.producer p) => p.repairTag.isNone
      | some (.consumer c) => !c.drop
      | none => true

/-- In the first event of LEAVING in which the work is complete, the roll timer stops and the leaving ROLL is placed; a
ROLL already pending becomes it, unless its attempt is on the line (R123). -/
def State.testLeaving (s : State) : State :=
  if s.presence.state = .leaving ∧ s.presence.leavingPlaced = false ∧ s.leavingDone then
    s.modPresence fun p => { p with rollTimer := none, leavingPlaced := true, rollPending := true }
  else s

/-! ### The end of an event -/

/-- What an event leads to at its end: markers whose three conditions now hold (R42), the boundary (R47) with a selection
(R45), and the test of the LEAVING work (R123). The PAUSED events of the markers that take effect here stand after the other
events of the same event, such as the STREAM_DISPUTED and SENT events at entry to ACTIVE (DEDUCED, logs 25 and 40). -/
def State.settle (s : State) : State := ((s.forEntries State.applyMarkers).boundary).testLeaving

end Sys2Proof.Machine
end

