-- ==== Sys2Proof/Machine/Reception.lean ====
section
/-! DEFINITION. What happens to a consumer entry: loss and completion of pages (chapter 4), the request for repair
(chapter 5), the choice and loss of its producer of record (chapter 2), expulsion and removal. -/

namespace Sys2Proof.Machine

/-! ### Losing a page (R76) -/

/-- Whether a loss for this reason is released to a lock-step producer (R76). -/
def LossReason.setsFree : LossReason → Bool
  | .superseded | .check | .noSlot | .repairTimeout | .gone => true
  | .withdrawn | .producerLost => false

/-- The entry loses a page (R76): PAGE_LOST, the lost counter, the reception timer, a GAP pending for the page, and FREE
with the lost flag on a LOCK_STEP entry in RECEIVING. The slot is the caller's. -/
def State.pageLost (s : State) (i : EntryIx) (page : PageNum) (slot : Option SlotNum) (r : LossReason) : State :=
  match s.consumer i with
  | some c =>
    let t := (s.insertEvent (.pageLost c.stream page slot r)).modConsumer i fun d =>
      { d with timer := none, counters := d.counters.addLost }
    let u := match c.gap with
      | some (q, _) => if q = page then t.clearGap i else t
      | none => t
    if c.mode = .lockStep ∧ c.state = .receiving ∧ r.setsFree then u.setFree i page true else u
  | none => s

/-- The FILLING slot of an entry becomes FREE and its reception timer stops (R11, R68). -/
def State.dropFilling (s : State) (i : EntryIx) : State :=
  match s.consumer i with
  | some c => (s.freeRef c.filling).modConsumer i fun d => { d with filling := none, timer := none }
  | none => s

/-- Page number of the entry's FILLING slot. -/
def State.fillingPage (s : State) (c : Consumer) : Option PageNum := c.filling.bind fun n => (s.slot n).page?

/-- The FILLING page of an entry is lost and its slot freed (R76). -/
def State.loseFilling (s : State) (i : EntryIx) (r : LossReason) : State :=
  match s.consumer i with
  | some c =>
    match c.filling, s.fillingPage c with
    | some n, some page => (s.pageLost i page (some n) r).dropFilling i
    | _, _ => s
  | none => s

/-! ### Unfinished pages (R69) -/

/-- The missing set of a FILLING record; empty when the length is absent (R69). -/
def Slot.missing : Slot → SegSet
  | .filling _ _ (some len) received _ => setMinus (setBelow (segmentCount len)) received
  | _ => 0

/-- GAP count of a FILLING record. -/
def Slot.gaps? : Slot → Option Nat
  | .filling _ _ _ _ g => some g
  | _ => none

/-- Received-segment set of a FILLING record. -/
def Slot.received? : Slot → Option SegSet
  | .filling _ _ _ r _ => some r
  | _ => none

/-- The FILLING page of an entry is found unfinished: a GAP is set pending, or the page is lost (R69). -/
def State.unfinished (s : State) (i : EntryIx) : State :=
  match s.consumer i with
  | some c =>
    match c.filling with
    | some n =>
      match s.slot n with
      | .filling _ page _ _ gaps =>
        if gaps < Config.repairMax then s.setGap i page (s.slot n).missing else s.loseFilling i .repairTimeout
      | _ => s
    | none => s
  | none => s

/-! ### Completion (R72, R77) -/

/-- The FILLING page of an entry completes (R72): the skip of an older READY page, the counters, PAGE_READY (R77). -/
def State.completePage (s : State) (i : EntryIx) : State :=
  match s.consumer i with
  | some c =>
    match c.filling with
    | some n =>
      match s.slot n with
      | .filling o page (some len) _ _ =>
        let t := (s.changeSlot n (.ready o page len)).freeRef c.ready
        let u := (t.modConsumer i fun d => { d with
          filling := none
          ready := some n
          earlier := { d.earlier with ready := false }
          lastCompleted := some page
          timer := none
          skipCount := if c.ready.isSome then satInc d.skipCount else d.skipCount
          readyNotified := d.readyNotified || c.ready.isNone
          counters := { d.counters with
            completed := satInc d.counters.completed
            skipped := if c.ready.isSome then satInc d.counters.skipped else d.counters.skipped } }).clearGap i
        if c.ready.isNone ∧ c.readyNotified = false then u.insertEvent (.pageReady c.stream page n) else u
      | _ => s
    | none => s
  | none => s

/-- The page check of the FILLING page of known length is compared with the CLOSE's: the page completes, or is lost with
CHECK (R71 step 3, R74). -/
def State.verifyPage (s : State) (i : EntryIx) (n : SlotNum) (len : Nat) (check : Word) : State :=
  if pageCheck (s.slotBytes n len) = check then s.completePage i else s.loseFilling i .check

/-! ### Claims of reception (R5, R6, R64, R74, R113) -/

/-- A claim for a consumer entry: granted, the head free slot becomes FILLING as given; refused, the page is lost with
NO_SLOT (R66). `andThen` is done on a grant. -/
def State.claimFor (s : State) (i : EntryIx) (page : PageNum) (len : Option Nat) (andThen : SlotNum → State → State) :
    State :=
  match s.slots.grant (.filling i page len 0 0) with
  | some (n, m) => andThen n ({ s with slots := m }.modConsumer i fun c => { c with filling := some n })
  | none => s.pageLost i page none .noSlot

/-- A full repair begins: the page is found unfinished at once (R113). -/
def State.fullRepair (s : State) (i : EntryIx) (page : PageNum) (len : Option Nat) : State :=
  s.claimFor i page len fun _ t => t.unfinished i

/-- The FILLING slot of an entry is reused for a newer page (R7). -/
def State.reuseFilling (s : State) (i : EntryIx) (n : SlotNum) (page : PageNum) (len : Nat) : State :=
  s.changeSlot n (.filling i page (some len) 0 0)

/-- The FILLING page is superseded (R67 steps 1 and 2): it is lost, and its slot is reused. -/
def State.supersede (s : State) (i : EntryIx) (n : SlotNum) (page : PageNum) (len : Nat) : State :=
  match (s.slot n).page? with
  | some old => (s.pageLost i old (some n) .superseded).reuseFilling i n page len
  | none => s

/-! ### Writing a segment (R10, R64, R68, R83) -/

/-- The write checks of R10 against the record's length, an absent one taken from the SEG. -/
def writeChecks (len : Option Nat) (segLen segCount k bytes : Nat) : Bool :=
  let l := len.getD segLen
  segLen == l && segCount == segmentCount l && decide (k < segmentCount l) && bytes == segmentLength l k

/-- A segment is written into the FILLING slot (R10); it leaves a pending GAP (R83); the reception timer is armed (R68). -/
def State.writeSegment (s : State) (i : EntryIx) (n : SlotNum) (k segLen : Nat) (payload : List Byte) : State :=
  match s.slot n with
  | .filling o page len received gaps =>
    ((s.changeSlot n (.filling o page (some (len.getD segLen)) (addElem received k) gaps)).writeMem
      (slotAddr n (Config.segmentBytes * k)) payload).modConsumer i fun c => { c with
        timer := some s.receptionEnd
        gap := c.gap.map fun g => (g.1, dropElem g.2 k) }
  | _ => s

/-! ### The producer of record (R32, R33) -/

/-- Whether a list of claims names a stream. -/
def claimsName (l : List Claim) (id : StreamId) : Bool := l.any fun c => c.stream == id

/-- The claimants of a stream, in ascending station number: the PRESENT peers whose claims name it (chapter 2.6). -/
def State.claimants (s : State) (id : StreamId) : List Station :=
  (List.finRange 32).filter fun n => s.presence.peers[n].isPresent && claimsName s.presence.peers[n].claims id

/-- The producer of record of an entry is chosen: the lowest claimant, if the entry has none; not for a LOCK_STEP entry
while the station is LEAVING or QUIET (R32, R26). -/
def State.chooseProducer (s : State) (i : EntryIx) : State :=
  match s.consumer i with
  | some c =>
    match c.producer, s.claimants c.stream with
    | none, n :: _ =>
      match c.mode with
      | .freeRun => s.modConsumer i fun d => { d with producer := some n, state := .receiving, timer := none }
      | .lockStep =>
        if s.presence.state = .leaving ∨ s.presence.state = .quiet then s
        else s.modConsumer i fun d =>
          { d with producer := some n, state := .joining, joinTries := 0, take := true, timer := none }
    | _, _ => s
  | none => s

/-- An entry loses its producer of record (R33): steps 1 to 4, without the new choice. What it has READY and HELD is from then on
of an earlier one. -/
def State.dropProducer (s : State) (i : EntryIx) : State :=
  let t := s.loseFilling i .producerLost
  (((t.clearTake i).clearGap i).clearFree i).modConsumer i fun c => { c with
    timer := none
    firstAdmitted := none
    lastCompleted := none
    lastReleased := none
    earlier := ⟨c.ready.isSome, c.held.isSome, false⟩
    joinTries := 0
    producer := none
    state := .waiting }

/-- An entry loses its producer of record, and another claimant is chosen if there is one (R33); a DEPARTING entry is
removed instead (R36). -/
def State.loseProducer (s : State) (i : EntryIx) : State :=
  match s.consumer i with
  | some c => if c.state = .departing then s.removeEntry i else (s.dropProducer i).chooseProducer i
  | none => s

/-- The DROP of an entry is sent, dropped by the link, or discarded at MUTED (R36, R115): a DEPARTING entry is removed; a
DROP set at LEAVING makes the entry WAITING without a producer of record (R26, R33). -/
def State.dropDone (s : State) (i : EntryIx) : State :=
  match s.consumer i with
  | some c => if c.state = .departing then s.removeEntry i else (s.clearDrop i).dropProducer i
  | none => s

/-! ### Expulsion (R26) -/

/-- An entry becomes EXPELLED: its FILLING slot is freed, its timer stops, pending TAKE, GAP and FREE are removed (R26,
R99, R114). -/
def State.expel (s : State) (i : EntryIx) : State :=
  ((((s.dropFilling i).clearTake i).clearGap i).clearFree i).modConsumer i fun c =>
    { c with state := .expelled, timer := none }

end Sys2Proof.Machine
end

