-- ==== Sys2Proof/Machine/Presence.lean ====
section
/-! DEFINITION. The Presence Unit (chapter 7): entry to ACTIVE, MUTED, QUIET and CONFLICT, disputes, the peer table, and what
these do to the other blocks. -/

namespace Sys2Proof.Machine

/-! ### Disputes (R23, R56, R130) -/

/-- A producer entry that has become DISPUTED (R23, R87): the fields the rules do not name are kept (log 21). -/
def Producer.toDisputed (p : Producer) : Producer :=
  { p with
    state := .disputed
    phase := none
    timer := none
    members := 0
    awaited := 0
    released := 0
    repairSet := 0
    repairTag := none
    repairPasses := 0 }

/-- Entry `i` becomes DISPUTED (R23): its RETAINED slot is freed (R9), its pending control set emptied, its page in flight is
withdrawn, or marked when its CLOSE NORMAL is offered (R54). -/
def State.disputeEntry (s : State) (i : EntryIx) : State :=
  match s.producer i with
  | some p =>
    let t := (((s.freeRef p.retained).modProducer i fun q => { q.toDisputed with retained := none })).emptyPending i
    match s.seg.flight with
    | some f =>
      if f.entry = i then
        if f.closeOffered then t.modSeg fun g => { g with flight := some { f with withdrawAtClose := true } }
        else t.withdrawFlight f none
      else t
    | none => t
  | none => s

/-- The page in flight is withdrawn at once by a dispute of the entries `l` (R56). -/
def State.flightDisputed (s : State) (l : List EntryIx) : Option Flight :=
  s.seg.flight.filter fun f => l.contains f.entry && !f.closeOffered

/-- The entries of `l`, each with the lower claimant, become DISPUTED in one event (R56): the STREAM_DISPUTED events in the
order of the list (R121; at a ROLL DEDUCED, log 38), then the SENT events in posting order (R51; over several streams DESIGN
CHOICE, log 14). -/
def State.disputeAll (s : State) (l : List (EntryIx × Station)) : State :=
  let is := l.map Prod.fst
  let mine := fun d : Descriptor => is.contains d.entry
  let t := l.foldl (fun u e => u.insertEvent (.streamDisputed (s.streamOf e.1) e.2)) s
  let u := (is.foldl State.disputeEntry t).returnQueued mine
  u.insertSents (s.sentOf mine .disputed) ((s.flightDisputed is).map fun f => s.flightSent f .disputed)

/-- The lowest PRESENT peer below the station's own number that claims a stream (R130; DEDUCED, log 15). -/
def State.lowerClaimant (s : State) (id : StreamId) : Option Station := (s.claimants id).find? fun n => decide (n < s.own)

/-- A DECLARED entry becomes OPEN (R22, R23). -/
def Producer.toOpen (p : Producer) (floor : Nat) : Producer :=
  { p with state := .opened, phase := some .idle, nextPage := 0, pace := floor }

/-! ### Entry to ACTIVE (R121) -/

/-- The producer entries found in dispute at entry to ACTIVE, in ascending index, each with its claimant. -/
def State.disputesAtActive (s : State) : List (EntryIx × Station) :=
  allEntries.filterMap fun i =>
    match s.producer i with
    | some p => if p.state = .disputed then none else (s.lowerClaimant p.stream).map fun n => (i, n)
    | none => none

/-- A DECLARED entry that is not in dispute opens. -/
def State.openEntry (i : EntryIx) (s : State) : State :=
  s.modProducer i fun p => if p.state = .declared then p.toOpen s.floor else p

/-- At entry to ACTIVE a LOCK_STEP entry in WAITING has its producer of record chosen (R32, R121 step 4). -/
def State.chooseWaiting (i : EntryIx) (s : State) : State :=
  match s.consumer i with
  | some c => if c.mode = .lockStep ∧ c.state = .waiting then s.chooseProducer i else s
  | none => s

/-- The station enters ACTIVE (R121 steps 1 to 4); the boundary of step 5 is the event's end. -/
def State.enterActive (s : State) : State :=
  let t := (s.enterState .active).modPresence fun p => { p with
    listenTimer := none
    rollTimer := some (s.afterRolls 1)
    rollPending := true
    leavingPlaced := false }
  (((t.disputeAll s.disputesAtActive).forEntries State.openEntry).forEntries State.chooseWaiting)

/-! ### MUTED (R124) -/

/-- The Segmenter takes back its offered frame at MUTED (R57, R94). -/
def State.takeBack (s : State) : State :=
  let t := match s.seg.offered, s.seg.pass with
    | some ⟨.passSeg k before, _⟩, some ps =>
      if s.passAlive ps then
        (s.modProducer ps.entry fun p => { p with repairSet := addElem p.repairSet k }).modSeg
          fun g => { g with pass := some { ps with position := before } }
      else s
    | _, _ => s
  t.modSeg fun g => { g with offered := none }

/-- The page in flight at MUTED: it restarts from segment 0 under its number, or is withdrawn if its withdraw-at-close flag
is set (R57). -/
def State.restartFlight (s : State) : State :=
  match s.seg.flight with
  | some f =>
    if f.withdrawAtClose then (s.withdrawFlight f none).insertEvent (s.flightSent f .disputed).2
    else s.modSeg fun g => { g with flight := some { f with next := 0, closeOffered := false } }
  | none => s

/-- A pending DROP takes effect as if it had been sent (R27). -/
def State.dropPending (i : EntryIx) (s : State) : State :=
  match s.consumer i with
  | some c => if c.drop then s.dropDone i else s
  | none => s

/-- The station enters MUTED (R124); pending DROPs take effect in ascending entry index (DEDUCED, log 35), after the page in
flight has restarted or been withdrawn, so the SENT of a page withdrawn there stands before their PAGE_LOST events (DEDUCED,
log 39). -/
def State.enterMuted (s : State) : State :=
  let t := (s.enterState .muted).modPresence fun p => { p with
    rollTimer := none, rollPending := false, leavingPlaced := false }
  ((t.takeBack).restartFlight).forEntries State.dropPending

/-! ### QUIET (R123) -/

/-- An OPEN producer entry returns to DECLARED and its RETAINED slot becomes FREE (R23, R9). -/
def State.closeEntry (i : EntryIx) (s : State) : State :=
  match s.producer i with
  | some p =>
    if p.state = .opened then
      (s.freeRef p.retained).modProducer i fun q => .declared q.stream q.mode q.maxLen s.floor q.counters
    else s
  | none => s

/-- `State.emptyPending` with its arguments as `State.forEntries` gives them. -/
def State.emptyPendingOf (i : EntryIx) (s : State) : State := s.emptyPending i

/-- The station enters QUIET (R123). -/
def State.enterQuiet (s : State) : State :=
  let t := (s.enterState .quiet).modPresence fun p => { p with rollTimer := none, rollPending := false, leavingPlaced := false }
  (((t.forEntries State.emptyPendingOf).forEntries State.closeEntry).modSeg fun g => { g with offered := none, pass := none })

/-! ### CONFLICT (R131) -/

/-- What CONFLICT does to an entry: an OPEN producer entry stops its release timer and is IDLE; a consumer entry's FILLING
slot is freed and its timer stops; a DEPARTING entry is removed; pending control sets are emptied. -/
def State.conflictEntry (i : EntryIx) (s : State) : State :=
  match s.entry i with
  | some (.producer _) =>
    (s.modProducer i fun p => if p.state = .opened then { p with timer := none, phase := some .idle } else p).emptyPending i
  | some (.consumer c) => if c.state = .departing then s.removeEntry i else (s.dropFilling i).emptyPending i
  | none => s

/-- A HELD frame is released with no report (R143). -/
def State.releaseHolding (s : State) : State :=
  match s.link.holding with
  | some h => if h.phase = .held then s.emptyHolding else s
  | none => s

/-- What a discarded pass on page `page` leaves: the tag of an emptied repair set becomes absent with the pass (R22, R87); a set
that still holds numbers keeps its tag (R94; DEDUCED, log 43). -/
def Producer.withoutPass (p : Producer) (page : PageNum) : Producer :=
  { p with repairTag := if p.repairTag = some page ∧ p.repairSet = 0 then none else p.repairTag }

/-- The repair pass in progress is discarded (R58, R94). -/
def State.discardPass (s : State) : State :=
  match s.seg.pass with
  | some ps => (s.modProducer ps.entry fun p => p.withoutPass ps.page).modSeg fun g => { g with pass := none }
  | none => s

/-- Every descriptor completes FAILED, the page in flight is abandoned and the pass in progress discarded (R58). -/
def State.abandonAll (s : State) : State :=
  let t := s.returnQueued fun _ => true
  let u := match s.seg.flight with
    | some f => t.abandonFlight f
    | none => t
  (u.discardPass.modSeg fun _ => .reset).insertSents (s.sentOf (fun _ => true) .failed)
    (s.seg.flight.map fun f => s.flightSent f .failed)

/-- The station enters CONFLICT by a ROLL with its own number and the given roll count (R131, R58, R143, R154). -/
def State.enterConflict (s : State) (rollCount : Byte) : State :=
  let t := (s.enterState .conflict).modPresence fun p => { p with
    conflictCount := some rollCount
    rollTimer := none
    listenTimer := none
    rollPending := false
    leavingPlaced := false }
  ((t.abandonAll.releaseHolding.forEntries State.conflictEntry).setNotes [])

/-! ### The peer table (R126 to R129) -/

/-- The peer table entry of a station. -/
def State.peer (s : State) (n : Station) : Peer := s.presence.peers[n]

/-- Puts a peer table entry in place. -/
def State.setPeer (s : State) (n : Station) (p : Peer) : State :=
  s.modPresence fun q => { q with peers := vput q.peers n p }

/-- Mode of a mode bit (chapter 11.2). -/
def Mode.ofBit (b : Bool) : Mode := if b then .lockStep else .freeRun

/-- A claim of a ROLL as the peer table records it (R172). -/
def claimOf (c : RawClaim) : Claim := ⟨c.stream, Mode.ofBit c.mode, if c.present then some c.page else none⟩

/-- What the absence of a peer does to a producer entry (R128 step 3): as a DROP if it is a member (R108; DEDUCED, log 20), and
it leaves the ADMIT and CUT lists (R27). -/
def State.absentForProducer (n : Station) (i : EntryIx) (s : State) : State :=
  match s.producer i with
  | some p =>
    let t := (s.removeAdmit i n).removeCut i n
    if hasElem p.members n then t.removeMember i n else t
  | none => s

/-- What the absence of a peer does to a consumer entry (R128 step 4). -/
def State.absentForConsumer (n : Station) (i : EntryIx) (s : State) : State :=
  match s.consumer i with
  | some c => if c.producer = some n then s.loseProducer i else s
  | none => s

/-- Steps 3 and 4 of R128 for one entry. -/
def State.absentForEntry (n : Station) (i : EntryIx) (s : State) : State := (s.absentForProducer n i).absentForConsumer n i

/-- A PRESENT peer becomes ABSENT; what its entries insert follows PEER_DOWN in ascending entry index (R128). -/
def State.peerAbsent (s : State) (n : Station) (r : DownReason) : State :=
  let t := (s.setPeer n { s.peer n with isPresent := false, silence := none, claims := [] }).insertEvent (.peerDown n r)
  t.forEntries (State.absentForEntry n)

/-- What a change of peer `n`'s claims from `old` to the recorded ones does to a consumer entry (R129): its producer of
record may have dropped its claim; an added claim lets an entry without one choose. -/
def State.claimsChanged (n : Station) (old : List Claim) (i : EntryIx) (s : State) : State :=
  match s.consumer i with
  | some c =>
    let named := claimsName (s.peer n).claims c.stream
    if c.producer = some n ∧ named = false then s.loseProducer i
    else if c.producer = none ∧ named = true ∧ claimsName old c.stream = false then s.chooseProducer i
    else s
  | none => s

/-- An ABSENT peer becomes PRESENT by a ROLL (R127). -/
def State.peerPresent (s : State) (n : Station) (rollCount : Byte) (claims : List Claim) : State :=
  ((s.setPeer n ⟨true, some (s.afterRolls 3), some rollCount, false, claims⟩).insertEvent (.peerUp n)).forEntries
    (State.claimsChanged n [])

/-- A ROLL of a PRESENT peer that is neither its leaving nor its renewal (R127); the entries whose claim it drops or adds are
taken in ascending index (R129; DEDUCED, log 34). -/
def State.peerRolled (s : State) (n : Station) (rollCount : Byte) (claims : List Claim) : State :=
  (s.setPeer n ⟨true, some (s.afterRolls 3), some rollCount, false, claims⟩).forEntries
    (State.claimsChanged n (s.peer n).claims)

/-- Records the roll count and the leaving flag of a ROLL (R127). -/
def State.recordRoll (s : State) (n : Station) (rollCount : Byte) (leaving : Bool) : State :=
  s.setPeer n { s.peer n with lastCount := some rollCount, leaving := leaving }

/-- The effects of a ROLL on peer table entry `n`, first row that applies (R127). -/
def State.rollOnPeer (s : State) (n : Station) (leaving : Bool) (rollCount : Byte) (claims : List Claim) : State :=
  let p := s.peer n
  if p.isPresent = false then
    if leaving then s.recordRoll n rollCount true else s.peerPresent n rollCount claims
  else if leaving then (s.recordRoll n rollCount true).peerAbsent n .left
  else if (match p.lastCount with | some c => decide (rollCount < c) | none => false) then
    (s.peerAbsent n .renewed).peerPresent n rollCount claims
  else s.peerRolled n rollCount claims

/-- The OPEN producer entries a ROLL of peer `n` puts in dispute (R130), in ascending entry index, which is the order of their
STREAM_DISPUTED events (R23, R56; DEDUCED, log 38). -/
def State.disputesAtRoll (s : State) (n : Station) : List (EntryIx × Station) :=
  if s.transmits ∧ n < s.own ∧ (s.peer n).isPresent then
    allEntries.filterMap fun i =>
      match s.producer i with
      | some p => if p.state = .opened ∧ claimsName (s.peer n).claims p.stream then some (i, n) else none
      | none => none
  else []

/-- Whether the station takes ROLL frames of other stations (R116). -/
def StationState.takesRoll : StationState → Bool
  | .unconfigured | .configured => false
  | .listening | .active | .leaving | .quiet | .muted | .conflict => true

/-- Whether a ROLL with the own number leads to CONFLICT (R116). -/
def StationState.conflicts : StationState → Bool
  | .listening | .active | .leaving | .muted => true
  | .unconfigured | .configured | .quiet | .conflict => false

/-- The Presence Unit takes a ROLL that has passed its range checks (R127, R130, R131). -/
def State.takeRoll (s : State) (n : Station) (leaving : Bool) (rollCount : Byte) (claims : List Claim) : State :=
  if n = s.own then
    if s.presence.state.conflicts then s.joinAscending (s.enterConflict rollCount) else s
  else if s.presence.state.takesRoll then
    let t := s.rollOnPeer n leaving rollCount claims
    s.joinAscending (t.disputeAll (t.disputesAtRoll n))
  else s

end Sys2Proof.Machine
end

