-- ==== Sys2Proof/Machine/Link.lean ====
section
/-! DEFINITION. The Link Controller (chapter 8): the opportunity, the attempt and its outcomes, the reports to the sources,
and MUTED; with the meanings of the line events. -/

namespace Sys2Proof.Machine

/-! ### Reports to the sources (R139, R141) -/

/-- The GAP of an entry is reported (R83): the GAP count of the FILLING slot rises and never passes 2 (R10), the repair wait
starts, and a sent GAP counts as a repair asked for. -/
def State.gapReported (s : State) (i : EntryIx) (sent : Bool) : State :=
  match s.consumer i with
  | some c =>
    match c.filling with
    | some n =>
      match s.slot n with
      | .filling o page len received gaps =>
        (s.changeSlot n (.filling o page len received (min Config.repairMax (gaps + 1)))).modConsumer i fun d => { d with
          timer := some s.receptionEnd
          counters := if sent then { d.counters with repairs := satInc d.counters.repairs } else d.counters }
      | _ => s
    | none => s
  | none => s

/-- The TAKE of an entry is reported (R98): join tries count the TAKEs of the join, 0 to 3 (R25). -/
def State.takeReported (s : State) (i : EntryIx) : State :=
  s.modConsumer i fun c => { c with
    take := false, joinTries := min Config.joinTriesMax (c.joinTries + 1), timer := some (s.afterRolls 2) }

/-- The ROLL is reported (R125): the roll count rises; a ROLL whose attempt carried the leaving flag leads to QUIET, and one
that did not is followed by the leaving ROLL when the LEAVING work is complete (R123). -/
def State.rollReported (s : State) (f : Frame) : State :=
  let t := s.modPresence fun p => { p with rollPending := p.leavingPlaced, rollCount := satInc p.rollCount }
  match f with
  | .roll true _ _ => t.enterQuiet
  | _ => t

/-- After the GAP that is reported now the entry may send one more for its FILLING page: two at most (R83). -/
def State.asksAgain (s : State) (i : EntryIx) : Bool :=
  ((s.consumer i).bind fun c => c.filling.bind fun n => (s.slot n).gaps?).any fun g => decide (g + 1 < Config.repairMax)

/-- The report of an attempt to the source of its frame; `keep` when the element is placed again with the content that
replaced it during the attempt (R138): a GAP replaced so is placed again only while the page may have another (R83; DEDUCED,
log 32). -/
def State.report (s : State) (src : FrameSource) (f : Frame) (keep sent : Bool) : State :=
  match src with
  | .cut i t => if keep then s else s.removeCut i t
  | .admission i t => if keep then s else s.removeAdmit i t
  | .prompt i => s.clearPrompt i
  | .gone i page => s.removeGone i page
  | .drop i => s.dropDone i
  | .take i => s.takeReported i
  | .free i => if keep then s else s.clearFree i
  | .gap i => (if keep && s.asksAgain i then s else s.clearGap i).gapReported i sent
  | .roll => s.rollReported f
  | .note => s.setNotes s.link.notes.tail
  | .segmenter => s.segmenterReport sent

/-! ### Attempts (R135 to R142) -/

/-- Changes the Link Controller. -/
def State.modLink (s : State) (f : LinkController → LinkController) : State := { s with link := f s.link }

/-- An attempt starts: the frame is built from its source as it stands and the start mark driven (R138). -/
def State.startAttempt (s : State) (src : FrameSource) : State :=
  match s.buildFrame src with
  | some f => s.modLink fun l => { l with holding := some ⟨.contending, src, f, false, false⟩, lineIdle := false }
  | none => s.emptyHolding

/-- The station takes an opportunity if it transmits and has a frame (R135, R137, R138). -/
def State.takeOpportunity (s : State) : State :=
  let t := s.modLink fun l => { l with lineIdle := true }
  if s.transmits then
    match s.link.holding with
    | some h => t.startAttempt h.source
    | none =>
      match s.selectSource with
      | some src => (t.modLink fun l => { l with attempts := 0 }).startAttempt src
      | none => t
  else t

/-- The holding frame moves to another state. -/
def State.holdPhase (s : State) (h : HeldFrame) (ph : HoldPhase) : State :=
  s.modLink fun l => { l with holding := some { h with phase := ph } }

/-- Arbitration is lost (R136): the frame is HELD, or released with attempt count 0 if its source has removed
its element (R138; DEDUCED, log 17). -/
def State.loseArbitration (s : State) (h : HeldFrame) : State :=
  let t := s.count fun c => { c with arbitrationLosses := satInc c.arbitrationLosses }
  if h.orphan then t.emptyHolding else t.holdPhase h .held

/-- An attempt is sent (R139). -/
def State.sentAttempt (s : State) (h : HeldFrame) : State :=
  let t := s.emptyHolding.modLink fun l => { l with drops := 0, lineIdle := false }
  if h.orphan then t else t.report h.source h.frame h.replaced true

/-- A frame is dropped (R141); at the eighth consecutive drop a station that transmits enters MUTED (R142), after the
report (R57), and not at the drop of the leaving ROLL, whose report has led to QUIET (R123). -/
def State.dropFrame (s : State) (h : HeldFrame) : State :=
  let t := (s.emptyHolding.count fun c => { c with framesDropped := satInc c.framesDropped }).modLink
    fun l => { l with drops := min Config.dropMax (l.drops + 1), lineIdle := false }
  let u := if h.orphan then t else t.report h.source h.frame h.replaced false
  if u.transmits ∧ Config.dropMax ≤ u.link.drops then u.enterMuted else u

/-- A failed attempt is complete (R140): the frame stays HELD, or is dropped at its fourth; a frame whose source has removed
it is released (R138; DEDUCED, log 17). -/
def State.failAttempt (s : State) (h : HeldFrame) : State :=
  if s.link.attempts + 1 < Config.attemptMax then
    let t := s.count fun c => { c with retries := satInc c.retries }
    if h.orphan then t.emptyHolding.modLink fun l => { l with lineIdle := false }
    else t.modLink fun l => { l with
      holding := some { h with phase := .held, replaced := false }, attempts := s.link.attempts + 1, lineIdle := false }
  else s.dropFrame h

/-! ### Meanings of the line events -/

/-- An event that happens only while the reset input is not asserted (R170; log 7). -/
def State.awake (s : State) (f : State → State) : State := if s.port.inReset then s else f s

/-- An event of the attempt on the line: `f` acts on the holding frame when it is in one of the phases `p` names; in any
other state the event cannot happen and changes nothing (log 8). -/
def State.attempt (s : State) (p : HoldPhase → Bool) (f : State → HeldFrame → State) : State :=
  match s.link.holding with
  | some h => if p h.phase then f s h else s
  | none => s

/-- OPPORTUNITY (R135, R137, R138). -/
def execOpportunity (s : State) : Host.Outcome State Fault Refusal :=
  .next (s.awake fun s => if s.driving then s else s.takeOpportunity)

/-- ARBITRATION_LOST (R136). -/
def execArbitrationLost (s : State) : Host.Outcome State Fault Refusal :=
  .next (s.awake fun s => s.attempt (· == .contending) State.loseArbitration)

/-- ARBITRATION_WON (R136). -/
def execArbitrationWon (s : State) : Host.Outcome State Fault Refusal :=
  .next (s.awake fun s => s.attempt (· == .contending) fun s h => s.holdPhase h .transmitting)

/-- ECHO_MISMATCH (R138, R140). -/
def execEchoMismatch (s : State) : Host.Outcome State Fault Refusal :=
  .next (s.awake fun s => s.attempt (fun p => p == .contending || p == .transmitting) fun s h => s.holdPhase h .aborting)

/-- ATTEMPT_SENT (R139). -/
def execAttemptSent (s : State) : Host.Outcome State Fault Refusal :=
  .next (s.awake fun s => s.attempt (· == .transmitting) fun s h => s.joinAscending (s.sentAttempt h).settle)

/-- ATTEMPT_FAILED (R140, R141): after the abort mark, or at the last bit of a bad-check echo. -/
def execAttemptFailed (s : State) : Host.Outcome State Fault Refusal :=
  .next (s.awake fun s => s.attempt (fun p => p == .aborting || p == .transmitting)
    fun s h => s.joinAscending (s.failAttempt h).settle)

/-- MUTED (R124, R142): the consecutive-drop count has reached 8 on a station that transmits. The event of the eighth drop
does this itself (R142), so the row finds nothing left to do after it (log 9). -/
def execMuted (s : State) : Host.Outcome State Fault Refusal :=
  .next (s.awake fun s =>
    if s.transmits ∧ Config.dropMax ≤ s.link.drops then s.joinAscending s.enterMuted.settle else s)

/-- FRAME_DISCARDED (R144): counted in every station state, while the station is not driving a frame of its own. -/
def execFrameDiscarded (_cause : DiscardCause) (s : State) : Host.Outcome State Fault Refusal :=
  .next (s.awake fun s => if s.driving then s else (s.modLink fun l => { l with lineIdle := false }).countCheckFailure)

end Sys2Proof.Machine
end

