-- ==== Sys2Proof/Machine/Receive.lean ====
section
/-! DEFINITION. Received frames: the way from the Link Controller to the block a frame is for (R144, R61), what each block does
with it (chapters 4 to 7 and 9), and the meanings of the twelve frame events. -/

namespace Sys2Proof.Machine

/-! ### From the line to the block (R144, R61, R172) -/

/-- A good frame arrives while the station is not driving (R144): it is counted; in UNCONFIGURED it goes no further; one that
fails its range checks `ok` is counted again and discarded (R172); any other is taken by its block. -/
def State.receive (s : State) (ok : Bool) (take : State → State) : State :=
  s.awake fun s =>
    if s.driving then s
    else
      let t := (s.modLink fun l => { l with lineIdle := false }).count fun c =>
        { c with framesReceived := satInc c.framesReceived }
      if t.presence.state = .unconfigured then t else if ok then take t else t.countCheckFailure

/-- A stream frame is taken for the consumer entry in use for its stream; for any other entry, or none, it is ignored (R20,
R62). -/
def State.forConsumer (s : State) (id : StreamId) (f : EntryIx → Consumer → State) : State :=
  match s.findStream id with
  | some i =>
    match s.consumer i with
    | some c => f i c
    | none => s
  | none => s

/-- A stream frame is taken for the OPEN producer entry of its stream, and not in CONFLICT (R88, R95, R103, R108). -/
def State.forProducer (s : State) (id : StreamId) (f : EntryIx → Producer → State) : State :=
  match s.findStream id with
  | some i =>
    match s.producer i with
    | some p => if p.state = .opened ∧ s.presence.state ≠ .conflict then f i p else s
    | none => s
  | none => s

/-! ### SEG (R62 to R67) -/

/-- The entry is RECEIVING from this source, and on a LOCK_STEP entry the page is not older than the first admitted page
(the first three tests of R63). -/
def Consumer.hears (c : Consumer) (src : Station) (page : PageNum) : Bool :=
  decide (c.state = .receiving) && decide (c.producer = some src) &&
    (decide (c.mode = .freeRun) || notOlderThan page c.firstAdmitted)

/-- A SEG that the consumer entry hears is accepted or left aside (R63 to R65). A segment already in the set is a duplicate
before the write checks are looked at (R65's order, log 11). -/
def State.segForEntry (s : State) (i : EntryIx) (c : Consumer) (page : PageNum) (k segCount len : Nat)
    (payload : List Byte) : State :=
  if c.lastCompleted = some page then s
  else
    match c.filling with
    | none =>
      if newerThan page c.lastCompleted then s.claimFor i page (some len) fun n t => t.writeSegment i n k len payload
      else s.countStale
    | some n =>
      match s.slot n with
      | .filling _ f flen received _ =>
        if page = f then
          if hasElem received k then s
          else if writeChecks flen len segCount k payload.length then s.writeSegment i n k len payload
          else s.countStale
        else if isNewer page f ∧ newerThan page c.lastCompleted then
          (s.supersede i n page len).writeSegment i n k len payload
        else s.countStale
      | _ => s.countStale

/-- The Stream Controller takes a SEG (R62). -/
def State.takeSeg (s : State) (src : Station) (id : StreamId) (page : PageNum) (k segCount len : Nat)
    (payload : List Byte) : State :=
  if s.presence.state = .conflict then s
  else s.forConsumer id fun i c =>
    if c.hears src page then s.segForEntry i c page k segCount len payload else s.countStale

/-! ### CLOSE (R70 to R75) -/

/-- A CLOSE NORMAL or REPAIR CLOSE for the FILLING page (R71). -/
def State.closeFilling (s : State) (i : EntryIx) (n : SlotNum) (len : Nat) (check : Word) : State :=
  match s.slot n with
  | .filling o f flen received gaps =>
    match flen with
    | some l =>
      if l ≠ len then s.loseFilling i .check
      else if (s.slot n).missing ≠ 0 then s.unfinished i
      else s.verifyPage i n len check
    | none =>
      let t := s.changeSlot n (.filling o f (some len) received gaps)
      if (t.slot n).missing ≠ 0 then t.unfinished i else t.verifyPage i n len check
  | _ => s

/-- A CLOSE NORMAL or REPAIR CLOSE for a page newer than the last completed one that is not the FILLING page (R74); `filling`
is the FILLING slot of an older page. -/
def State.closeNewer (s : State) (i : EntryIx) (c : Consumer) (filling : Option SlotNum) (page : PageNum) (len : Nat)
    (check : Word) : State :=
  if len = 0 then
    match filling with
    | none => s.claimFor i page (some 0) fun n t => t.verifyPage i n 0 check
    | some n => (s.supersede i n page 0).verifyPage i n 0 check
  else if c.mode = .lockStep ∧ filling = none then s.fullRepair i page (some len)
  else s.countStale

/-- A CLOSE that the entry considers (R70): the table of p against the FILLING page and the last completed page. -/
def State.closeForEntry (s : State) (i : EntryIx) (c : Consumer) (page : PageNum) (len : Nat) (kind : CloseKind)
    (check : Word) : State :=
  match c.filling, s.fillingPage c with
  | some n, some f =>
    if page = f then
      if kind = .withdrawn then s.loseFilling i .withdrawn else s.closeFilling i n len check
    else if kind ≠ .withdrawn ∧ newerThan page c.lastCompleted ∧ isOlder f page then s.closeNewer i c (some n) page len check
    else s
  | _, _ =>
    if kind ≠ .withdrawn ∧ newerThan page c.lastCompleted then s.closeNewer i c none page len check else s

/-- The Stream Controller takes a CLOSE (R62, R70). -/
def State.takeClose (s : State) (src : Station) (id : StreamId) (page : PageNum) (len : Nat) (kind : CloseKind)
    (check : Word) : State :=
  if s.presence.state = .conflict then s
  else s.forConsumer id fun i c => if c.hears src page then s.closeForEntry i c page len kind check else s

/-! ### ADMIT, CUT, PROMPT, GONE (R99, R114, R112, R85) -/

/-- The Stream Controller takes an ADMIT (R99). -/
def State.takeAdmit (s : State) (src : Station) (id : StreamId) (target : Station) (r : AdmitResult) : State :=
  s.forConsumer id fun i c =>
    if c.state = .joining ∧ c.producer = some src ∧ target = s.own then
      match r with
      | .accepted first =>
        ((s.clearTake i).modConsumer i fun d =>
          { d with state := .receiving, firstAdmitted := some first, timer := none }).insertEvent (.joined id src first)
      | .full => (s.expel i).insertEvent (.joinFailed id (some src) .full)
      | .notLockstep => (s.expel i).insertEvent (.joinFailed id (some src) .notLockstep)
    else s

/-- The Stream Controller takes a CUT (R114). -/
def State.takeCut (s : State) (src : Station) (id : StreamId) (target : Station) (r : CutReason) : State :=
  s.forConsumer id fun i c =>
    if c.state = .receiving ∧ c.producer = some src ∧ target = s.own then (s.expel i).insertEvent (.cutReceived id src r)
    else s

/-- Page `page` of the producer of record is the entry's last released one, told apart from a number of an earlier producer
(R30; log 42). -/
def Consumer.hasReleased (c : Consumer) (page : PageNum) : Bool :=
  decide (c.lastReleased = some page) && !c.earlier.released

/-- Page `page` of the producer of record is in the entry's READY or HELD slot; a page of an earlier producer with the same number
is another page (R30). -/
def State.hasPage (s : State) (c : Consumer) (page : PageNum) : Bool :=
  (decide ((c.ready.bind fun n => (s.slot n).page?) = some page) && !c.earlier.ready) ||
    (decide ((c.held.bind fun n => (s.slot n).page?) = some page) && !c.earlier.held)

/-- The answer to a PROMPT for page `page`, first row that applies (R112). -/
def State.answerPrompt (s : State) (i : EntryIx) (c : Consumer) (page : PageNum) : State :=
  if c.hasReleased page then s.setFree i page false
  else if s.fillingPage c = some page then s.unfinished i
  else if s.hasPage c page then s
  else if c.filling = none ∧ newerThan page c.lastCompleted ∧ notOlderThan page c.firstAdmitted then s.fullRepair i page none
  else s

/-- The Stream Controller takes a PROMPT (R112). -/
def State.takePrompt (s : State) (src : Station) (id : StreamId) (page : PageNum) (stations : List Nat) : State :=
  s.forConsumer id fun i c =>
    if c.state = .receiving ∧ c.producer = some src ∧ stations.contains s.own.val then s.answerPrompt i c page else s

/-- The Stream Controller takes a GONE (R85). -/
def State.takeGone (s : State) (src : Station) (id : StreamId) (page : PageNum) : State :=
  s.forConsumer id fun i c =>
    if c.state = .receiving ∧ c.producer = some src ∧ s.fillingPage c = some page then s.loseFilling i .gone else s

/-! ### TAKE, DROP, FREE, GAP (R95, R108, R103, R88) -/

/-- The first page number of an ADMIT ACCEPTED for a target (R96). -/
def State.firstPage (s : State) (p : Producer) (t : Station) : PageNum :=
  match p.phase with
  | some .awaitingRelease =>
    if hasElem p.awaited t ∧ hasElem p.released t = false then p.lastClosed.getD p.nextPage else p.nextPage
  | some .sending => ((p.sending.bind fun n => (s.slot n).page?)).getD p.nextPage
  | _ => p.nextPage

/-- The Stream Controller takes a TAKE (R95 to R97). Only ACCEPTED removes a pending CUT: a target told FULL may stand in the
CUT list as well (DEDUCED, log 33). -/
def State.takeTake (s : State) (src : Station) (id : StreamId) (station : Station) : State :=
  s.forProducer id fun i p =>
    if src ≠ s.own ∧ station = src ∧ (s.peer src).isPresent ∧ hasPlace src p.admits then
      if p.mode = .freeRun then s.placeAdmit i src .notLockstep
      else if hasElem p.members src = false ∧ Config.memberMax ≤ cardOf p.members then s.placeAdmit i src .full
      else
        ((s.modProducer i fun q => { q with members := addElem q.members src }).removeCut i src).placeAdmit i src
          (.accepted (s.firstPage p src))
    else s

/-- The Stream Controller takes a DROP (R108). -/
def State.takeDrop (s : State) (src : Station) (id : StreamId) (station : Station) : State :=
  s.forProducer id fun i p =>
    if p.mode = .lockStep ∧ station = src ∧ hasElem p.members src then
      ((s.removeAdmit i src).removeCut i src).removeMember i src
    else s

/-- One more late free (R103). -/
def State.countLateFree (s : State) : State := s.count fun c => { c with lateFrees := satInc c.lateFrees }

/-- The Stream Controller takes a FREE, first row that applies (R103). -/
def State.takeFree (s : State) (src : Station) (id : StreamId) (station : Station) (page : PageNum) : State :=
  s.forProducer id fun i p =>
    if p.mode = .lockStep ∧ station = src then
      if hasElem p.members src = false then s.placeCut i src .notMember
      else if p.lastClosed = some page then
        if p.phase = some .awaitingRelease ∧ hasElem p.awaited src ∧ hasElem p.released src = false then
          (s.modProducer i fun q => { q with released := addElem q.released src }).testBarrier i true
        else s
      else if (match p.lastClosed with | some c => isOlder page c | none => false) then s.countLateFree
      else s
    else s

/-- A GAP for the RETAINED page `page` of entry `i` with the segment numbers `want` (R88, R92). -/
def State.gapRetained (s : State) (i : EntryIx) (p : Producer) (page : PageNum) (want : SegSet) : State :=
  if s.inPass i then
    let offered : SegSet := match s.seg.offered with
      | some ⟨.passSeg k _, _⟩ => setOf k
      | _ => 0
    s.modProducer i fun q => { q with repairSet := q.repairSet ||| setMinus want offered }
  else if Config.repairMax ≤ p.repairPasses then s.placeGone i page
  else if p.repairTag = none ∨ p.repairTag = some page then
    s.modProducer i fun q => { q with repairSet := q.repairSet ||| want, repairTag := some page }
  else s

/-- A GAP for the page in flight of entry `i` (R90): only numbers below the next segment number join. -/
def State.gapSending (s : State) (i : EntryIx) (p : Producer) (page : PageNum) (next : Nat) (want : SegSet) : State :=
  let joined := want &&& setBelow next
  if (p.repairTag = none ∨ p.repairTag = some page) ∧ joined ≠ 0 then
    s.modProducer i fun q => { q with repairSet := q.repairSet ||| joined, repairTag := some page }
  else s

/-- The page in flight of entry `i`. -/
def State.flightOf (s : State) (i : EntryIx) : Option Flight := s.seg.flight.filter fun f => f.entry == i

/-- Segment count of the RETAINED page of a producer entry. -/
def State.retainedSegments (s : State) (p : Producer) : Nat :=
  segmentCount ((p.retained.bind fun n => (s.slot n).len?).getD 0)

/-- The Stream Controller takes a GAP (R88, R90, R92). -/
def State.takeGap (s : State) (id : StreamId) (page : PageNum) (want : SegSet) : State :=
  s.forProducer id fun i p =>
    if s.retainedPage p = some page then s.gapRetained i p page (want &&& setBelow (s.retainedSegments p))
    else
      match s.flightOf i with
      | some f =>
        if f.page = page then s.gapSending i p page f.next (want &&& setBelow (segmentCount f.len)) else s.placeGone i page
      | none => s.placeGone i page

/-! ### NOTE (R149, R151) -/

/-- The Notice Table takes a NOTE for this station (R151). -/
def State.takeNotice (s : State) (src : Station) (code : Byte) : State :=
  let e := s.notices[src]
  let t := { s with notices := vput s.notices src ⟨true, satInc e.count, some code⟩ }
  if e.pending then t else t.insertEvent (.notePending src code)

/-- A NOTE is taken when it is addressed to this station or to ALL (R149). -/
def State.takeNote (s : State) (src : Station) (target : NoteTarget) (code : Byte) : State :=
  if target = .all ∨ target = .one s.own then s.takeNotice src code else s

/-! ### Meanings of the frame events -/

/-- SEG_FRAME (R63). -/
def execSegFrame (src : Station) (zeros : BitVec 1) (stream : StreamId) (page : PageNum) (segment segCount : Byte)
    (pageLength : Half) (payload : List Byte) (s : State) : Host.Outcome State Fault Refusal :=
  .next (s.receive (segOk zeros stream segment.toNat segCount.toNat pageLength.toNat payload.length) fun t =>
    t.takeSeg src stream page segment.toNat segCount.toNat pageLength.toNat payload)

/-- CLOSE_FRAME (R70). -/
def execCloseFrame (src : Station) (zeros : BitVec 1) (stream : StreamId) (page : PageNum) (length : Half) (kind : Byte)
    (check : Word) (s : State) : Host.Outcome State Fault Refusal :=
  .next (s.receive (closeOk zeros stream length.toNat kind) fun t =>
    match closeKind? kind with
    | some k => t.takeClose src stream page length.toNat k check
    | none => t)

/-- ADMIT_FRAME (R99). -/
def execAdmitFrame (src : Station) (zeros : BitVec 1) (stream : StreamId) (target result : Byte) (first : PageNum)
    (s : State) : Host.Outcome State Fault Refusal :=
  .next (s.receive (admitOk zeros stream target result) fun t =>
    match stationOf? target, admitResult? result first with
    | some n, some r => t.takeAdmit src stream n r
    | _, _ => t)

/-- CUT_FRAME (R114). -/
def execCutFrame (src : Station) (zeros : BitVec 1) (stream : StreamId) (target reason : Byte) (s : State) :
    Host.Outcome State Fault Refusal :=
  .next (s.receive (cutOk zeros stream target reason) fun t =>
    match stationOf? target, cutReason? reason with
    | some n, some r => t.takeCut src stream n r
    | _, _ => t)

/-- PROMPT_FRAME (R112). -/
def execPromptFrame (src : Station) (zeros : BitVec 1) (stream : StreamId) (page : PageNum) (stations : List Byte)
    (s : State) : Host.Outcome State Fault Refusal :=
  .next (s.receive (promptOk zeros stream stations) fun t => t.takePrompt src stream page (stations.map BitVec.toNat))

/-- GONE_FRAME (R85). -/
def execGoneFrame (src : Station) (zeros : BitVec 1) (stream : StreamId) (page : PageNum) (s : State) :
    Host.Outcome State Fault Refusal :=
  .next (s.receive (goneOk zeros stream) fun t => t.takeGone src stream page)

/-- TAKE_FRAME (R95). -/
def execTakeFrame (src : Station) (zeros : BitVec 1) (stream : StreamId) (station : Byte) (s : State) :
    Host.Outcome State Fault Refusal :=
  .next (s.receive (stationFrameOk zeros stream station) fun t =>
    match stationOf? station with
    | some n => t.takeTake src stream n
    | none => t)

/-- DROP_FRAME (R108). -/
def execDropFrame (src : Station) (zeros : BitVec 1) (stream : StreamId) (station : Byte) (s : State) :
    Host.Outcome State Fault Refusal :=
  .next (s.receive (stationFrameOk zeros stream station) fun t =>
    match stationOf? station with
    | some n => (t.takeDrop src stream n).settle
    | none => t)

/-- FREE_FRAME (R103). -/
def execFreeFrame (src : Station) (_lost : Bool) (stream : StreamId) (station : Byte) (page : PageNum) (s : State) :
    Host.Outcome State Fault Refusal :=
  .next (s.receive (stationFrameOk 0 stream station) fun t =>
    match stationOf? station with
    | some n => (t.takeFree src stream n page).settle
    | none => t)

/-- GAP_FRAME (R88). -/
def execGapFrame (_src : Station) (zeros : BitVec 1) (stream : StreamId) (station : Byte) (page : PageNum)
    (segments : List Byte) (s : State) : Host.Outcome State Fault Refusal :=
  .next (s.receive (gapOk zeros stream station segments) fun t =>
    (t.takeGap stream page (setOfList (segments.map BitVec.toNat))).settle)

/-- ROLL_FRAME (R127, R130, R131). -/
def execRollFrame (src : Station) (leaving : Bool) (zeros : BitVec 2) (rollCount : Byte) (claims : List RawClaim)
    (s : State) : Host.Outcome State Fault Refusal :=
  .next (s.receive (rollOk zeros claims) fun t => (t.takeRoll src leaving rollCount (claims.map claimOf)).settle)

/-- NOTE_FRAME (R151). -/
def execNoteFrame (src : Station) (all : Bool) (zeros : BitVec 1) (target : BitVec 5) (source code : Byte) (s : State) :
    Host.Outcome State Fault Refusal :=
  .next (s.receive (noteOk src all zeros target source) fun t =>
    t.takeNote src (if all then .all else .one target.toFin) code)

end Sys2Proof.Machine
end

