-- ==== Sys2Proof/Machine/ReadStatus.lean ====
section
/-! DEFINITION. Answers to commands, and READ_STATUS (R162 to R164, R174, chapter 11.4). -/

namespace Sys2Proof.Machine

/-! ### Answers -/

/-- What a command answers besides its tag and kind (R161, R174). -/
structure Reply where
  result : Result
  value1 : Word
  value2 : Word
  presence : BitVec 4
  paused : Bool
  deriving DecidableEq, Repr

/-- An answer with two value words and no presence bits. -/
def Reply.of (r : Result) (v1 v2 : Word) : Reply := ⟨r, v1, v2, 0, false⟩

/-- A refusal with both value words 0 (R162). -/
def Reply.plain (r : Result) : Reply := .of r 0 0

/-- A number as a value word. -/
def number (n : Nat) : Word := BitVec.ofNat 32 n

/-! ### Half words with a page number (R174) -/

/-- The two value words of a part, with the presence bits of the page numbers in them. -/
structure Part where
  value1 : Word
  value2 : Word
  presence : BitVec 4
  paused : Bool
  deriving DecidableEq, Repr

/-- A part without page numbers. -/
def Part.plain (v1 v2 : Word) : Part := ⟨v1, v2, 0, false⟩

/-- A part that holds no field: two zero words (R164). -/
def Part.zero : Part := .plain 0 0

/-- A page number in a half word: 0 when absent. -/
def pageAt (lo : Nat) (p : Option PageNum) : Word := placed lo 16 (p.getD 0).toNat

/-- Presence bit `k` (8 + k of RESP1) of a page number. -/
def presentBit (k : Nat) (p : Option PageNum) : BitVec 4 := if p.isSome then 1#4 <<< k else 0

/-! ### STATION and COUNTERS -/

/-- STATION parts 0 to 2. -/
def State.stationPart (s : State) (part : Nat) : Part :=
  match part with
  | 0 => .plain
      (wordOf [placed 0 8 s.presence.state.code, placed 8 8 s.own.val, placed 16 8 s.presence.rate.toNat,
        placed 24 8 s.presence.rollCount.toNat])
      (wordOf [placed 0 8 s.link.drops, placed 8 8 s.slots.free.length, placed 16 8 s.publish.queue.length,
        placed 24 8 s.link.notes.length])
  | 1 =>
    match s.presence.config with
    | some c => .plain (wordOf [placed 0 8 c.rollPeriod, placed 8 8 c.wait, placed 16 8 c.mult])
        (wordOf [placed 0 16 c.floor, placed 16 8 c.declarations])
    | none => .zero
  | _ => .plain (s.remaining s.presence.listenTimer)
      (placed 0 16 ((s.presence.conflictCount.map BitVec.toNat).getD 0xFFFF))

/-- COUNTERS parts 0 to 3. -/
def State.counterPart (s : State) (part : Nat) : Part :=
  let c := s.link.counters
  match part with
  | 0 => .plain c.framesReceived c.checkFailures
  | 1 => .plain c.retries c.framesDropped
  | 2 => .plain c.arbitrationLosses c.staleSegments
  | _ => .plain c.lateFrees c.eventsLost

/-! ### PEER -/

/-- A claim in a value word. Beyond the peer's claims the stream is 0 (R164), the mode all ones and the page number 0 with its
presence bit clear (R174; DEDUCED, log 18). -/
def claimWord : Option Claim → Word
  | some c => wordOf [placed 0 6 c.stream.toNat, placed 7 1 c.mode.code, pageAt 16 c.lastClosed]
  | none => placed 7 1 1

/-- PEER parts 0 to 4 of station `n`. -/
def State.peerPart (s : State) (n : Station) (part : Nat) : Part :=
  let p := s.presence.peers[n]
  match part with
  | 0 =>
    let e := s.notices[n]
    .plain
      (wordOf [placedBit 0 p.isPresent, placedBit 1 p.leaving, placed 4 4 p.claims.length,
        placed 16 16 ((p.lastCount.map BitVec.toNat).getD 0xFFFF)])
      (wordOf [placedBit 0 e.pending, placed 8 8 e.count.toNat,
        placed 16 16 ((e.lastCode.map BitVec.toNat).getD 0xFFFF)])
  | k + 1 =>
    let a := p.claims[2 * k]?
    let b := p.claims[2 * k + 1]?
    ⟨claimWord a, claimWord b, presentBit 1 (a.bind (·.lastClosed)) ||| presentBit 3 (b.bind (·.lastClosed)), false⟩

/-! ### SLOT -/

/-- SLOT parts 0 and 1 of slot `n`; an absent set and its number read all ones (R174; DEDUCED, log 18). -/
def State.slotPart (s : State) (n : SlotNum) (part : Nat) : Part :=
  let r := s.slot n
  match part with
  | 0 =>
    ⟨wordOf [placed 0 4 r.code, placed 4 5 ((r.owner?.map Fin.val).getD 0x1F), placed 9 2 (r.gaps?.getD 3),
        placed 16 13 (r.len?.getD 0x1FFF)],
      pageAt 0 r.page?, presentBit 2 r.page?, false⟩
  | _ => .plain (r.received?.getD 0xFFFFFFFF#32) (placed 0 8 ((r.received?.map cardOf).getD 0xFF))

/-! ### STREAM -/

/-- Three slot references of STREAM part 0, 32 for an absent one. -/
def slotRefs (a b c : Option SlotNum) : Word :=
  wordOf [placed 0 6 (numberOr32 a), placed 8 6 (numberOr32 b), placed 16 6 (numberOr32 c)]

/-- STREAM parts 0 to 5 of producer entry `i`. -/
def State.producerPart (s : State) (i : EntryIx) (p : Producer) (part : Nat) : Part :=
  match part with
  | 0 => .plain
      (wordOf [placedBit 0 true, placed 2 6 p.stream.toNat, placed 8 1 p.mode.code, placed 9 3 p.state.code,
        placed 12 2 (phaseCode p.phase)])
      (slotRefs p.sending p.retained none)
  | 1 => ⟨wordOf [pageAt 0 (some p.nextPage), pageAt 16 p.lastClosed], placed 0 16 p.pace,
      presentBit 0 (some p.nextPage) ||| presentBit 1 p.lastClosed, p.paused⟩
  | 2 => .plain (wordOf [placed 0 16 p.counters.closed.toNat, placed 16 16 p.counters.skipped.toNat])
      (wordOf [placed 0 16 p.counters.lost.toNat, placed 16 16 p.counters.repairs.toNat])
  | 3 => .plain p.members p.awaited
  | 4 => .plain p.released p.repairSet
  | _ => ⟨wordOf [pageAt 0 p.repairTag, placed 16 2 p.repairPasses,
        placedBit 18 (match s.seg.pass with | some ps => ps.entry == i | none => false),
        placedBit 19 p.promptSent, placed 20 4 p.admits.length, placed 24 4 p.cuts.length, placed 28 3 p.gones.length,
        placedBit 31 p.prompt],
      s.remaining (p.timer.map (·.expiry)), presentBit 0 p.repairTag, false⟩

/-- STREAM parts 0 to 5 of a consumer entry. -/
def State.consumerPart (s : State) (c : Consumer) (part : Nat) : Part :=
  match part with
  | 0 => .plain
      (wordOf [placedBit 0 true, placedBit 1 true, placed 2 6 c.stream.toNat, placed 8 1 c.mode.code,
        placed 9 3 c.state.code, placed 12 2 (phaseCode none)])
      (slotRefs c.filling c.ready c.held)
  | 1 => ⟨wordOf [placed 0 6 (numberOr32 c.producer), pageAt 16 c.firstAdmitted],
      wordOf [pageAt 0 c.lastCompleted, pageAt 16 c.lastReleased],
      presentBit 1 c.firstAdmitted ||| presentBit 2 c.lastCompleted ||| presentBit 3 c.lastReleased, false⟩
  | 2 => .plain (wordOf [placed 0 16 c.counters.completed.toNat, placed 16 16 c.counters.skipped.toNat])
      (wordOf [placed 0 16 c.counters.lost.toNat, placed 16 16 c.counters.repairs.toNat])
  | 3 => .plain (s.remaining c.timer)
      (wordOf [placed 0 16 c.skipCount.toNat, placed 16 2 c.joinTries, placedBit 18 c.readyNotified, placedBit 19 c.take,
        placedBit 20 c.drop, placedBit 21 c.free.isSome, placedBit 22 c.gap.isSome])
  | _ => .zero

/-- STREAM part 0 of an unused entry: in use clear, every other field at its none value (R20, R174; DEDUCED, log 18). -/
def unusedPart : Part :=
  .plain (wordOf [placedBit 1 true, placed 8 1 1, placed 9 3 7, placed 12 2 (phaseCode none)]) (slotRefs none none none)

/-- STREAM parts of entry `i`. -/
def State.streamPart (s : State) (i : EntryIx) (part : Nat) : Part :=
  match s.entry i with
  | some (.producer p) => s.producerPart i p part
  | some (.consumer c) => s.consumerPart c part
  | none => if part = 0 then unusedPart else .zero

/-! ### READ_STATUS (R163) -/

/-- The part a selector, index and part number name; none when one of the three checks fails. -/
def State.statusPart (s : State) (selector index part : Nat) : Option Part :=
  match selector with
  | 0 => if index = 0 ∧ part ≤ 2 then some (s.stationPart part) else none
  | 1 => if part ≤ 4 then (below32? index).map fun n => s.peerPart n part else none
  | 2 => if part ≤ 5 then (below16? index).map fun i => s.streamPart i part else none
  | 3 => if part ≤ 1 then (below32? index).map fun n => s.slotPart n part else none
  | 4 => if index = 0 ∧ part ≤ 3 then some (s.counterPart part) else none
  | _ => none

/-- READ_STATUS (R163): it changes no state. -/
def State.readStatus (s : State) (selector index part : Nat) : Reply :=
  match s.statusPart selector index part with
  | some p => ⟨.ok, p.value1, p.value2, p.presence, p.paused⟩
  | none => .plain .badArg

end Sys2Proof.Machine
end

