-- ==== Sys2Proof/Machine/Commands.lean ====
section
/-! DEFINITION. The commands (R160): each acts on the state and gives its answer. The chapters that own the state own the
rules; the record's words are read as chapter 11.3 lays them out. -/

namespace Sys2Proof.Machine

/-! ### Shared checks -/

/-- The station is UNCONFIGURED. -/
def State.isUnconfigured (s : State) : Bool := s.presence.state == .unconfigured

/-- BAD_STATE with the code of the station state (R117). -/
def State.badStation (s : State) : State × Reply := (s, .of .badState (number s.presence.state.code) 0)

/-- BAD_STATE with a slot and the code of its state (R19, R40 step 7). -/
def State.badSlot (s : State) (n : SlotNum) : State × Reply :=
  (s, .of .badState (number n.val) (number (s.slot n).code))

/-- A refusal that changes nothing. -/
def State.refuse (s : State) (r : Result) : State × Reply := (s, .plain r)

/-- The checks that name a producer entry: range of the identifier, entry in use, role, DISPUTED (R40, R43, R53). -/
def State.withProducer (s : State) (stream : Nat) (f : EntryIx → Producer → State × Reply) : State × Reply :=
  match streamOf? stream with
  | none => s.refuse .badArg
  | some id =>
    match s.findStream id with
    | none => s.refuse .notFound
    | some i =>
      match s.producer i with
      | none => s.refuse .notProducer
      | some p => if p.state = .disputed then s.refuse .disputed else f i p

/-- The checks that name a consumer entry: range of the identifier, entry in use, role (R35, R78, R80). -/
def State.withConsumer (s : State) (stream : Nat) (f : EntryIx → Consumer → State × Reply) : State × Reply :=
  match streamOf? stream with
  | none => s.refuse .badArg
  | some id =>
    match s.findStream id with
    | none => s.refuse .notFound
    | some i =>
      match s.consumer i with
      | none => s.refuse .notConsumer
      | some c => f i c

/-! ### CONFIGURE (R118, R119) -/

/-- A timing parameter: 0 selects the default, a value outside the range is none (R118). -/
def parameter (v low high default : Nat) : Option Nat :=
  if v = 0 then some default else if low ≤ v ∧ v ≤ high then some v else none

/-- A declaration of a configuration record, as the record's bytes give it. -/
def declarationAt (words : Vector Word 8) (i : Nat) : RawDecl :=
  let b := fieldOf (words[1 + i / 4]?.getD 0) (8 * (i % 4)) 8
  let len := fieldOf (words[3 + i / 2]?.getD 0) (16 * (i % 2)) 16
  ⟨b.testBit 7, BitVec.ofNat 6 b, BitVec.ofNat 16 len⟩

/-- Declaration `d` is in range and does not repeat the ids before it. -/
def declarationOk (before : List RawDecl) (d : RawDecl) : Bool :=
  d.stream != 0 && decide (d.length.toNat ≤ Config.slotBytes) && before.all fun e => e.stream != d.stream

/-- The index of the first declaration that fails, counted from `i`. -/
def firstBad (i : Nat) (before : List RawDecl) : List RawDecl → Option Nat
  | [] => none
  | d :: rest => if declarationOk before d then firstBad (i + 1) (before ++ [d]) rest else some i

/-- The configuration record's values, or the position of the first failing field (R119). -/
def checkRecord (words : Vector Word 8) : Except Nat (StationConfig × List RawDecl) :=
  let w := words[0]
  let count := fieldOf w 25 4
  match parameter (fieldOf w 0 8) 2 250 Config.defaultR, parameter (fieldOf w 8 10) 1 1000 Config.defaultF,
    parameter (fieldOf w 18 4) 2 8 Config.defaultM, parameter (fieldOf w 22 3) 1 4 Config.defaultW with
  | none, _, _, _ => .error 1
  | some _, none, _, _ => .error 2
  | some _, some _, none, _ => .error 3
  | some _, some _, some _, none => .error 4
  | some r, some f, some m, some t =>
    if 8 < count then .error 5
    else
      let decls := (List.range count).map (declarationAt words)
      match firstBad 0 [] decls with
      | some i => .error (16 + i)
      | none => .ok (⟨r, f, m, t, count⟩, decls)

/-- The stream table that declarations make (R21). -/
def declaredTable (floor : Nat) (decls : List RawDecl) : Vector (Option Entry) 16 :=
  Vector.ofFn fun i => (decls[i.val]?).map fun d =>
    .producer (.declared d.stream (Mode.ofBit d.mode) d.length.toNat floor .zero)

/-- CONFIGURE (R119). -/
def State.cmdConfigure (s : State) (words : Vector Word 8) : State × Reply :=
  if s.isUnconfigured then
    match checkRecord words with
    | .error position => (s, .of .badArg (number position) 0)
    | .ok (c, decls) =>
      let t := { s.modPresence (fun p => { p with config := some c }) with streams := declaredTable c.floor decls }
      (t.enterState .configured, .of .ok (number c.declarations) (number s.own.val))
  else s.badStation

/-! ### START, LEAVE, REJOIN, RESTART (chapter 7) -/

/-- Number of PRESENT peers. -/
def State.presentPeers (s : State) : Nat := ((List.finRange 32).filter fun n => s.presence.peers[n].isPresent).length

/-- The station becomes LISTENING and the listen timer starts for 2R; the consecutive-drop count is cleared (R120, R124,
R142). -/
def State.enterListening (s : State) : State :=
  let t := (s.enterState .listening).modPresence fun p => { p with listenTimer := some (s.afterRolls 2) }
  { t with link := { t.link with drops := 0 } }

/-- START (R120). -/
def State.cmdStart (s : State) : State × Reply :=
  if s.presence.state = .configured ∨ s.presence.state = .quiet then
    (s.enterListening.modPresence fun p => { p with rollCount := 0, leavingPlaced := false },
      .of .ok (number s.presentPeers) 0)
  else s.badStation

/-- Whether LEAVE places DROP for an entry (R122). -/
def Consumer.leaves (c : Consumer) : Bool := c.mode == .lockStep && (c.state == .joining || c.state == .receiving)

/-- The consumer entries for which LEAVE places DROP. -/
def State.leavers (s : State) : List EntryIx :=
  allEntries.filter fun i => match s.consumer i with
    | some c => c.leaves
    | none => false

/-- LEAVE (R122, R59). -/
def State.cmdLeave (s : State) : State × Reply :=
  if s.presence.state = .active then
    let sents := s.sentOf (fun _ => true) .cancelled
    let t := ((s.enterState .leaving).returnQueued fun _ => true).insertSents sents none
    let u := s.leavers.foldl State.setDrop t
    (u.settle, .of .ok (number sents.length) (number s.leavers.length))
  else s.badStation

/-- REJOIN (R124). -/
def State.cmdRejoin (s : State) : State × Reply :=
  if s.presence.state = .muted then (s.enterListening, .plain .ok) else s.badStation

/-- An entry after RESTART (R37): a producer entry as at DECLARED with its counters cleared; no consumer entry. -/
def restartEntry (floor : Nat) : Option Entry → Option Entry
  | some (.producer p) => some (.producer (.declared p.stream p.mode p.maxLen floor .zero))
  | some (.consumer _) => none
  | none => none

/-- What RESTART resets besides the station state (R133, R13, R37, R60, R82, R148, R150, R154): page memory, the
configuration, the straps, the port, the events and the state of the line are kept. -/
def State.restartBlocks (s : State) : State :=
  { s with
    slots := { SlotManager.reset with mem := s.slots.mem }
    streams := s.streams.map (restartEntry s.floor)
    publish := ⟨[], 0⟩
    seg := .reset
    link := { LinkController.reset with lineIdle := s.link.lineIdle }
    notices := Vector.replicate 32 .reset
    presence := { s.presence with
      rollTimer := none, listenTimer := none, rollCount := 0, rollPending := false, leavingPlaced := false,
      conflictCount := none, peers := Vector.replicate 32 .reset } }

/-- RESTART (R133): STATION_STATE first, then the reset, the station counters with it (log 19). -/
def State.cmdRestart (s : State) : State × Reply :=
  if s.isUnconfigured then s.badStation else ((s.enterState .configured).restartBlocks, .plain .ok)

/-! ### CLAIM and DISCARD (R18, R19) -/

/-- CLAIM (R18). -/
def State.cmdClaim (s : State) : State × Reply :=
  if s.isUnconfigured then s.refuse .badState
  else
    match s.slots.grant .writing with
    | some (n, m) => ({ s with slots := m }, .of .ok (number n.val) (number m.free.length))
    | none => s.refuse .noSlot

/-- DISCARD (R19). -/
def State.cmdDiscard (s : State) (slot : Nat) : State × Reply :=
  if s.isUnconfigured then s.refuse .badState
  else
    match below32? slot with
    | none => s.refuse .badArg
    | some n =>
      if s.slot n = .writing then
        let t := s.freeSlot n
        (t, .of .ok (number n.val) (number t.slots.free.length))
      else s.badSlot n

/-! ### PUBLISH, RESUME, CANCEL (chapter 3) -/

/-- PUBLISH is refused in UNCONFIGURED, LEAVING and CONFLICT (R40 step 1). -/
def StationState.noPublish : StationState → Bool
  | .unconfigured | .leaving | .conflict => true
  | .configured | .listening | .active | .quiet | .muted => false

/-- Number of descriptors of entry `i`. -/
def State.queuedOf (s : State) (i : EntryIx) : Nat := (s.publish.queue.filter fun d => d.entry == i).length

/-- A descriptor is appended and answered (R40, R41): `t` is the state with the slot changed. -/
def State.post (s t : State) (i : EntryIx) (tag : Byte) (b : DescriptorBody) : State × Reply :=
  ((t.appendDescriptor i tag b).settle, .of .ok (number (s.publish.queue.length + 1)) (number (s.queuedOf i)))

/-- The tail note of a PUBLISH: none without the NOTE flag, an error when the target is out of range (R40 step 6). -/
def tailNote (note : Bool) (target : Nat) (code : Byte) : Option (Option Note) :=
  if note then (noteTarget? target).map fun t => some ⟨t, code⟩ else some none

/-- PUBLISH without PAUSE from step 6 on (R40). -/
def State.publishPage (s : State) (tag : Byte) (i : EntryIx) (p : Producer) (slot len : Nat) (report : Bool)
    (tail : Option (Option Note)) : State × Reply :=
  match below32? slot, tail with
  | some n, some note =>
    if p.maxLen < len then s.refuse .badArg
    else if s.slot n ≠ .writing then s.badSlot n
    else if Config.publishMax ≤ s.publish.queue.length then s.refuse .full
    else s.post (s.changeSlot n (.queued i len)) i tag (.page n len report note)
  | _, _ => s.refuse .badArg

/-- PUBLISH with PAUSE from step 8 on (R41). -/
def State.publishMarker (s : State) (tag : Byte) (i : EntryIx) : State × Reply :=
  if Config.publishMax ≤ s.publish.queue.length then s.refuse .full else s.post s i tag .pause

/-- PUBLISH (R40, R41). -/
def State.cmdPublish (s : State) (tag : Byte) (words : Vector Word 8) : State × Reply :=
  if s.presence.state.noPublish then s.refuse .badState
  else s.withProducer (fieldOf words[0] 0 8) fun i p =>
    if words[0].getLsbD 18 then s.publishMarker tag i
    else s.publishPage tag i p (fieldOf words[0] 8 8) (fieldOf words[1] 0 16) (words[0].getLsbD 16)
      (tailNote (words[0].getLsbD 17) (fieldOf words[2] 0 8) (BitVec.ofNat 8 (fieldOf words[2] 8 8)))

/-- RESUME (R43); the second value word counts the descriptors before a selection that follows (DEDUCED, log 31). -/
def State.cmdResume (s : State) (stream : Nat) : State × Reply :=
  if s.isUnconfigured then s.refuse .badState
  else s.withProducer stream fun i p =>
    ((s.modProducer i fun q => { q with paused := false }).settle,
      .of .ok (number p.paused.toNat) (number (s.queuedOf i)))

/-- The page in flight that a CANCEL of entry `i` withdraws (R53). -/
def State.cancellable (s : State) (i : EntryIx) : Option Flight :=
  s.seg.flight.filter fun f => f.entry == i && !f.closeOffered

/-- CANCEL (R53, R54). -/
def State.cmdCancel (s : State) (stream : Nat) : State × Reply :=
  if s.isUnconfigured then s.refuse .badState
  else s.withProducer stream fun i _ =>
    let mine := fun d : Descriptor => d.entry == i
    let t := s.returnQueued mine
    let u := match s.cancellable i with
      | some f => t.withdrawFlight f (some .idle)
      | none => t
    let v := u.insertSents (s.sentOf mine .cancelled) ((s.cancellable i).map fun f => s.flightSent f .cancelled)
    (v.settle, .of .ok (number (s.queuedOf i)) (number (s.cancellable i).isSome.toNat))

/-! ### SUBSCRIBE and UNSUBSCRIBE (R34, R35) -/

/-- The lowest-numbered unused entry. -/
def State.unusedEntry (s : State) : Option EntryIx := allEntries.find? fun i => (s.entry i).isNone

/-- SUBSCRIBE (R34). -/
def State.cmdSubscribe (s : State) (stream mode : Nat) : State × Reply :=
  if s.isUnconfigured then s.refuse .badState
  else
    match streamOf? stream, modeOf? mode with
    | some id, some m =>
      match s.findStream id with
      | some i => (s, .of .exists_ (number i.val) 0)
      | none =>
        match s.unusedEntry with
        | none => s.refuse .full
        | some i =>
          let t := (s.setEntry i (some (.consumer (.created id m)))).chooseProducer i
          (t, .of .ok (number i.val) (number (numberOr32 ((t.consumer i).bind (·.producer)))))
    | _, _ => s.refuse .badArg

/-- What UNSUBSCRIBE takes from an entry (R35): READY and FILLING slots, the timer, pending TAKE, GAP and FREE. -/
def State.stripConsumer (s : State) (i : EntryIx) (c : Consumer) : State :=
  (((((s.freeRef c.ready).freeRef c.filling).clearTake i).clearGap i).clearFree i).modConsumer i fun d =>
    { d with ready := none, earlier := { d.earlier with ready := false }, filling := none, timer := none }

/-- UNSUBSCRIBE (R35). -/
def State.cmdUnsubscribe (s : State) (stream : Nat) : State × Reply :=
  if s.isUnconfigured then s.refuse .badState
  else s.withConsumer stream fun i c =>
    if c.state = .departing then s.refuse .badState
    else
      match c.held with
      | some n => (s, .of .held (number n.val) 0)
      | none =>
        let t := s.stripConsumer i c
        if c.leaves ∧ s.transmits then
          (s.joinAscending ((t.modConsumer i fun d => { d with state := .departing }).setDrop i).settle,
            .of .ok (number i.val) (number 1))
        else (s.joinAscending (t.removeEntry i).settle, .of .ok (number i.val) (number 0))

/-! ### ACQUIRE and RELEASE (R78 to R81) -/

/-- A slot and a page number in one value word (11.3). -/
def slotAndPage (slot : Nat) (page : Option PageNum) : Word := wordOf [placed 0 8 slot, pageAt 16 page]

/-- The record of a READY slot that becomes HELD (R12). -/
def Slot.toHeld : Slot → Slot
  | .ready o p l => .held o p l
  | r => r

/-- The entry's READY slot becomes HELD (R12, R79): the skip count becomes 0 and the ready-notified flag is cleared. -/
def State.acquireReady (s : State) (i : EntryIx) (c : Consumer) (n : SlotNum) : State × Reply :=
  let r := s.slot n
  (((s.freeRef c.held).changeSlot n r.toHeld).modConsumer i fun d =>
      { d with
        ready := none, held := some n, earlier := ⟨false, d.earlier.ready, d.earlier.released⟩, skipCount := 0,
        readyNotified := false },
    .of .ok (slotAndPage n.val r.page?) (wordOf [placed 0 16 (r.len?.getD 0), placed 16 16 c.skipCount.toNat]))

/-- Page number of the slot a reference names. -/
def State.pageOfRef (s : State) (r : Option SlotNum) : Option PageNum := r.bind fun n => (s.slot n).page?

/-- ACQUIRE (R78, R79): selector 0 is NEWEST, 1 is KEEP. -/
def State.cmdAcquire (s : State) (stream selector : Nat) : State × Reply :=
  if s.isUnconfigured then s.refuse .badState
  else if (streamOf? stream).isSome ∧ 1 < selector then s.refuse .badArg
  else s.withConsumer stream fun i c =>
    match c.ready with
    | none => (s.modConsumer i fun d => { d with readyNotified := false },
        .of .noNewer (slotAndPage (numberOr32 c.held) (s.pageOfRef c.held)) (placed 16 16 c.skipCount.toNat))
    | some n =>
      match c.held with
      | some h =>
        if c.mode = .freeRun ∧ selector = 0 then s.acquireReady i c n
        else (s, .of .held (slotAndPage h.val (s.slot h).page?)
          (wordOf [pageAt 0 (s.slot n).page?, placed 16 16 c.skipCount.toNat]))
      | none => s.acquireReady i c n

/-- RELEASE (R80, R81). A page held from a producer of record that has since been replaced is released without FREE, whatever the
last completed page of the new one (R30, R81). -/
def State.cmdRelease (s : State) (stream : Nat) : State × Reply :=
  if s.isUnconfigured then s.refuse .badState
  else s.withConsumer stream fun i c =>
    match c.held with
    | none => s.refuse .badState
    | some n =>
      let page := (s.slot n).page?
      let t := (s.freeSlot n).modConsumer i fun d => { d with
        held := none, lastReleased := page, earlier := { d.earlier with held := false, released := d.earlier.held } }
      match page with
      | some p =>
        if c.mode = .lockStep ∧ c.state = .receiving ∧ c.lastCompleted = some p ∧ c.earlier.held = false then
          (t.setFree i p false, .of .ok (slotAndPage n.val page) (number 1))
        else (t, .of .ok (slotAndPage n.val page) (number 0))
      | none => (t, .of .ok (slotAndPage n.val page) (number 0))

/-! ### SEND_NOTE and CLEAR_NOTICE (R155, R152) -/

/-- SEND_NOTE is refused in UNCONFIGURED and CONFLICT (R155). -/
def StationState.noNotes : StationState → Bool
  | .unconfigured | .conflict => true
  | .configured | .listening | .active | .leaving | .quiet | .muted => false

/-- SEND_NOTE (R155). -/
def State.cmdSendNote (s : State) (target : Nat) (code : Word) : State × Reply :=
  if s.presence.state.noNotes then s.refuse .badState
  else if 255 < code.toNat then s.refuse .badArg
  else
    match noteTarget? target with
    | none => s.refuse .badArg
    | some t =>
      if Config.noteMax ≤ s.link.notes.length then s.refuse .full
      else
        ({ s with link := { s.link with notes := s.link.notes ++ [⟨t, code.setWidth 8⟩] } },
          .of .ok (number (s.link.notes.length + 1)) 0)

/-- The sources CLEAR_NOTICE clears: the pending ones of the set, at most four, ascending (R152). -/
def State.clearedSources (s : State) (sources : StationSet) : List Station :=
  ((stationsOf sources).filter fun n => s.notices[n].pending).take 4

/-- An entry cleared by CLEAR_NOTICE keeps its last code (R152). -/
def Notice.cleared (e : Notice) : Notice := { e with pending := false, count := 0 }

/-- The codes of cleared sources, one per byte. -/
def codesWord (l : List Byte) : Word :=
  wordOf (l.mapIdx fun k code => placed (8 * k) 8 code.toNat)

/-- CLEAR_NOTICE (R152). -/
def State.cmdClearNotice (s : State) (sources : StationSet) : State × Reply :=
  if s.isUnconfigured then s.refuse .badState
  else if sources = 0 then s.refuse .badArg
  else
    let l := s.clearedSources sources
    ({ s with notices := l.foldl (fun v n => vput v n v[n].cleared) s.notices },
      .of .ok (setOfList (l.map Fin.val)) (codesWord (l.map fun n => (s.notices[n].lastCode).getD 0)))

/-! ### Every kind (R160) -/

/-- A command record acts and is answered, by its kind code (11.2); a code that names no command is BAD_ARG. -/
def State.runCommand (s : State) (r : CmdRecord) : State × Reply :=
  let w := r.words
  match r.kind.toNat with
  | 1 => s.cmdConfigure w
  | 2 => s.cmdStart
  | 3 => s.cmdLeave
  | 4 => s.cmdRejoin
  | 5 => s.cmdRestart
  | 6 => s.cmdClaim
  | 7 => s.cmdDiscard (fieldOf w[0] 0 8)
  | 8 => s.cmdPublish r.tag w
  | 9 => s.cmdResume (fieldOf w[0] 0 8)
  | 10 => s.cmdCancel (fieldOf w[0] 0 8)
  | 11 => s.cmdSubscribe (fieldOf w[0] 0 8) (fieldOf w[0] 8 8)
  | 12 => s.cmdUnsubscribe (fieldOf w[0] 0 8)
  | 13 => s.cmdAcquire (fieldOf w[0] 0 8) (fieldOf w[0] 8 8)
  | 14 => s.cmdRelease (fieldOf w[0] 0 8)
  | 15 => s.cmdSendNote (fieldOf w[0] 0 8) w[1]
  | 16 => s.cmdClearNotice w[0]
  | 17 => (s, s.readStatus (fieldOf w[0] 0 8) (fieldOf w[0] 8 8) (fieldOf w[0] 16 8))
  | _ => s.refuse .badArg

end Sys2Proof.Machine
end

