-- ==== Sys2Proof/Machine/Port.lean ====
section
/-! DEFINITION. The Local Port (chapter 10): the command and response queues, the register window, the page window (chapter 1.8)
and the resets of the port; with the meanings of the command rows, the bus rows and the reset rows. -/

namespace Sys2Proof.Machine

/-! ### The command and response queues (R158, R159, R161) -/

/-- Changes the port. -/
def State.modPort (s : State) (f : Port → Port) : State := { s with port := f s.port }

/-- The response of a taken command. -/
def CmdRecord.response (r : CmdRecord) (a : Reply) : Response := ⟨r.tag, r.kind, a.result, a.presence, a.paused, a.value1, a.value2⟩

/-- The head command is taken: it acts and its response joins the response queue, in one event (R159, R160, R161). -/
def State.takeCommand (s : State) (r : CmdRecord) (rest : List CmdRecord) : State :=
  let a := (s.modPort fun p => { p with cmdQueue := rest }).runCommand r
  a.1.modPort fun p => { p with respQueue := p.respQueue ++ [r.response a.2] }

/-- The Command Processor takes commands while the command queue is not empty and the response queue has a free place (R159);
at most `fuel` of them. -/
def State.takeCommands : Nat → State → State
  | 0, s => s
  | fuel + 1, s =>
    match s.port.cmdQueue with
    | [] => s
    | r :: rest =>
      if s.port.respQueue.length < Config.respQueueMax then State.takeCommands fuel (s.takeCommand r rest) else s

/-- A record reaches the command queue (R158): it joins the tail and clears the refused flag, or a full queue refuses it. -/
def State.enqueue (s : State) (r : CmdRecord) : State :=
  if s.port.cmdQueue.length < Config.cmdQueueMax then
    State.takeCommands Config.cmdQueueMax (s.modPort fun p => { p with cmdQueue := p.cmdQueue ++ [r], refused := false })
  else s.modPort fun p => { p with refused := true }

/-- A command row: its record reaches the command queue as by an accepted write of SUBMIT (log 2). During pin reset and the
clearing no record reaches it (R170). -/
def State.submitRecord (s : State) (r : CmdRecord) : State :=
  s.awake fun s => if s.port.clearing then s else s.enqueue r

/-! ### Records of the command rows (11.3) -/

/-- A record with the given first words; the other words are 0 and not read. -/
def record (kind : Nat) (tag : Byte) (words : List Word) : CmdRecord :=
  ⟨BitVec.ofNat 8 kind, tag, Vector.ofFn fun k => (words[k.val]?).getD 0⟩

/-- The byte of declaration `i` in CMD1 or CMD2. -/
def declarationByte (d : RawDecl) (i : Nat) : Word :=
  wordOf [placedBit (8 * (i % 4) + 7) d.mode, placed (8 * (i % 4)) 6 d.stream.toNat]

/-- The length of declaration `i` in CMD3 to CMD6. -/
def declarationLength (d : RawDecl) (i : Nat) : Word := placed (16 * (i % 2)) 16 d.length.toNat

/-- The words of a configuration record (11.3). -/
def configureWords (r : Byte) (f : BitVec 10) (m : BitVec 4) (w : BitVec 3) (count : BitVec 4) (decls : Vector RawDecl 8) :
    List Word :=
  let byteAt := fun k : Fin 8 => declarationByte decls[k] k.val
  let lengthAt := fun k : Fin 8 => declarationLength decls[k] k.val
  [wordOf [placed 0 8 r.toNat, placed 8 10 f.toNat, placed 18 4 m.toNat, placed 22 3 w.toNat, placed 25 4 count.toNat],
    wordOf [byteAt 0, byteAt 1, byteAt 2, byteAt 3], wordOf [byteAt 4, byteAt 5, byteAt 6, byteAt 7],
    wordOf [lengthAt 0, lengthAt 1], wordOf [lengthAt 2, lengthAt 3], wordOf [lengthAt 4, lengthAt 5],
    wordOf [lengthAt 6, lengthAt 7]]

/-- Up to four bytes in one word, byte 0 lowest. -/
def bytesWord (l : List Byte) : Word := codesWord l

/-- The words of PUBLISH. -/
def publishWords (stream slot : Byte) (report note pause : Bool) (length : Half) (target code : Byte) : List Word :=
  [wordOf [bytesWord [stream, slot], placedBit 16 report, placedBit 17 note, placedBit 18 pause], placed 0 16 length.toNat,
    bytesWord [target, code]]

/-! ### Meanings of the command rows -/

/-- CONFIGURE (R119). -/
def execConfigure (tag : Byte) (r : Byte) (f : BitVec 10) (m : BitVec 4) (w : BitVec 3) (count : BitVec 4)
    (decls : Vector RawDecl 8) (s : State) : Host.Outcome State Fault Refusal :=
  .next (s.submitRecord (record 1 tag (configureWords r f m w count decls)))

/-- START (R120). -/
def execStart (tag : Byte) (s : State) : Host.Outcome State Fault Refusal := .next (s.submitRecord (record 2 tag []))

/-- LEAVE (R122). -/
def execLeave (tag : Byte) (s : State) : Host.Outcome State Fault Refusal := .next (s.submitRecord (record 3 tag []))

/-- REJOIN (R124). -/
def execRejoin (tag : Byte) (s : State) : Host.Outcome State Fault Refusal := .next (s.submitRecord (record 4 tag []))

/-- RESTART (R133). -/
def execRestart (tag : Byte) (s : State) : Host.Outcome State Fault Refusal := .next (s.submitRecord (record 5 tag []))

/-- CLAIM (R18). -/
def execClaim (tag : Byte) (s : State) : Host.Outcome State Fault Refusal := .next (s.submitRecord (record 6 tag []))

/-- DISCARD (R19). -/
def execDiscard (tag slot : Byte) (s : State) : Host.Outcome State Fault Refusal :=
  .next (s.submitRecord (record 7 tag [bytesWord [slot]]))

/-- PUBLISH without the PAUSE flag (R40). -/
def execPublish (tag stream slot : Byte) (report note : Bool) (length : Half) (target code : Byte) (s : State) :
    Host.Outcome State Fault Refusal :=
  .next (s.submitRecord (record 8 tag (publishWords stream slot report note false length target code)))

/-- PUBLISH with the PAUSE flag (R41). -/
def execPublishPause (tag stream : Byte) (s : State) : Host.Outcome State Fault Refusal :=
  .next (s.submitRecord (record 8 tag (publishWords stream 0 false false true 0 0 0)))

/-- RESUME (R43). -/
def execResume (tag stream : Byte) (s : State) : Host.Outcome State Fault Refusal :=
  .next (s.submitRecord (record 9 tag [bytesWord [stream]]))

/-- CANCEL (R53). -/
def execCancel (tag stream : Byte) (s : State) : Host.Outcome State Fault Refusal :=
  .next (s.submitRecord (record 10 tag [bytesWord [stream]]))

/-- SUBSCRIBE (R34). -/
def execSubscribe (tag stream mode : Byte) (s : State) : Host.Outcome State Fault Refusal :=
  .next (s.submitRecord (record 11 tag [bytesWord [stream, mode]]))

/-- UNSUBSCRIBE (R35). -/
def execUnsubscribe (tag stream : Byte) (s : State) : Host.Outcome State Fault Refusal :=
  .next (s.submitRecord (record 12 tag [bytesWord [stream]]))

/-- ACQUIRE (R78). -/
def execAcquire (tag stream selector : Byte) (s : State) : Host.Outcome State Fault Refusal :=
  .next (s.submitRecord (record 13 tag [bytesWord [stream, selector]]))

/-- RELEASE (R80). -/
def execRelease (tag stream : Byte) (s : State) : Host.Outcome State Fault Refusal :=
  .next (s.submitRecord (record 14 tag [bytesWord [stream]]))

/-- SEND_NOTE (R155). -/
def execSendNote (tag target : Byte) (code : Word) (s : State) : Host.Outcome State Fault Refusal :=
  .next (s.submitRecord (record 15 tag [bytesWord [target], code]))

/-- CLEAR_NOTICE (R152). -/
def execClearNotice (tag : Byte) (sources : Word) (s : State) : Host.Outcome State Fault Refusal :=
  .next (s.submitRecord (record 16 tag [sources]))

/-- READ_STATUS (R163). -/
def execReadStatus (tag selector index part : Byte) (s : State) : Host.Outcome State Fault Refusal :=
  .next (s.submitRecord (record 17 tag [bytesWord [selector, index, part]]))

/-- A record whose kind code names no command (R160). -/
def execUnknownCommand (tag kind : Byte) (s : State) : Host.Outcome State Fault Refusal :=
  .next (s.submitRecord (record kind.toNat tag []))

/-! ### The page window (R15, R16) -/

/-- The port's answer to an access. -/
def State.answer (s : State) (error : Bool) (data : Word) : State := s.modPort fun p => { p with bus := some ⟨error, data⟩ }

/-- The bus error response: read data 0 (R156). -/
def State.busError (s : State) : State := s.answer true 0

/-- A refused window access: ACCESS_FAULT and the bus error response (R16). -/
def State.accessFault (s : State) (k : AccessKind) : State :=
  let n := s.port.window
  (s.insertEvent (.accessFault n k ((s.slot n).owner?.map s.streamOf) (s.slot n).page?)).busError

/-- The word of four bytes, the byte at the lowest offset in bits 7–0 (DESIGN CHOICE, log 10). -/
def wordOfBytes (b0 b1 b2 b3 : Byte) : Word := b3 ++ b2 ++ b1 ++ b0

/-- Byte `o` of a HELD slot of length `len`, as the window shows it (R15). -/
def State.heldByte (s : State) (n : SlotNum) (len o : Nat) : Byte := if o < len then memRead s.slots.mem (slotAddr n o) else 0

/-- A read of the page window (R15). -/
def State.windowReadAt (s : State) (o : Nat) : State :=
  let n := s.port.window
  let word := fun byteAt : Nat → Byte => wordOfBytes (byteAt o) (byteAt (o + 1)) (byteAt (o + 2)) (byteAt (o + 3))
  match s.slot n with
  | .writing => s.answer false (word fun a => memRead s.slots.mem (slotAddr n a))
  | .held _ _ len => s.answer false (word (s.heldByte n len))
  | _ => s.accessFault .read

/-- Stores the enabled bytes of a word: byte lane `k` is bits 8k + 7 to 8k and byte enable `k` (log 10). -/
def storeLanes (m : List Host.Cell) (a : Nat) (enables : BitVec 4) (data : Word) : List Host.Cell :=
  [0, 1, 2, 3].foldl (fun m k => if enables.getLsbD k then memWrite m (a + k) (data.extractLsb' (8 * k) 8) else m) m

/-- A write of the page window (R15). -/
def State.windowWriteAt (s : State) (o : Nat) (enables : BitVec 4) (data : Word) : State :=
  let n := s.port.window
  match s.slot n with
  | .writing =>
    { s with slots := { s.slots with mem := storeLanes s.slots.mem (slotAddr n o) enables data } }.answer false 0
  | _ => s.accessFault .write

/-! ### The register window (R156) -/

/-- Whether an address is one of `n` words from `base` on. -/
def isWordOf (base n addr : Nat) : Bool := decide (base ≤ addr) && decide (addr < base + 4 * n)

/-- A read of the register at a word-aligned address. -/
def State.readAt (s : State) (a : Nat) : State :=
  if a = Config.regId then s.answer false Config.idWord
  else if a = Config.regStatus then s.answer false s.statusWord
  else if a = Config.regWindow then s.answer false (number s.port.window.val)
  else if isWordOf Config.regCmd 8 a then s.answer false (s.port.staging[(a - Config.regCmd) / 4]?.getD 0)
  else if isWordOf Config.regResp 4 a then s.answer false (s.respWord ((a - Config.regResp) / 4))
  else if isWordOf Config.regEvt 4 a then s.answer false (s.evtWord ((a - Config.regEvt) / 4))
  else if isWordOf Config.regPage 1024 a then s.windowReadAt (a - Config.regPage)
  else s.busError

/-- The staging words with word `k` replaced; word numbers are 0 to 7. -/
def setStaging (v : Vector Word 8) (k : Nat) (w : Word) : Vector Word 8 := v.setIfInBounds k w

/-- A write of SUBMIT (R158): the record carries kind code, tag and the staging words. -/
def State.submitWrite (s : State) (data : Word) : State :=
  (s.enqueue ⟨data.extractLsb' 0 8, data.extractLsb' 8 8, s.port.staging⟩).answer false 0

/-- A write of RESP_NEXT (R161): the head response leaves, and the next command may be taken. -/
def State.respNextWrite (s : State) : State :=
  (State.takeCommands Config.cmdQueueMax (s.modPort fun p => { p with respQueue := p.respQueue.tail })).answer false 0

/-- A write of EVT_NEXT (R166). -/
def State.evtNextWrite (s : State) : State :=
  { s with events := { s.events with records := s.events.records.tail } }.answer false 0

/-- A write of WINDOW (R14). -/
def State.windowSelect (s : State) (data : Word) : State :=
  match below32? data.toNat with
  | some n => (s.modPort fun p => { p with window := n }).answer false 0
  | none => s.busError

/-- A write at a word-aligned address: the page window takes any byte enables, a register all four. -/
def State.writeAt (s : State) (a : Nat) (enables : BitVec 4) (data : Word) : State :=
  if isWordOf Config.regPage 1024 a then s.windowWriteAt (a - Config.regPage) enables data
  else if enables ≠ 0xF then s.busError
  else if isWordOf Config.regCmd 8 a then
    (s.modPort fun p => { p with staging := setStaging p.staging ((a - Config.regCmd) / 4) data }).answer false 0
  else if a = Config.regSubmit then s.submitWrite data
  else if a = Config.regRespNext then s.respNextWrite
  else if a = Config.regEvtNext then s.evtNextWrite
  else if a = Config.regWindow then s.windowSelect data
  else s.busError

/-- One bus access (R156, R170): none is answered while the reset input is asserted, and during the clearing a read of STATUS
alone succeeds. -/
def State.busAccess (s : State) (b : BusAccess) : State :=
  let a := b.addr.toNat
  if s.port.inReset then s.modPort fun p => { p with bus := none }
  else if b.width ≠ .word ∨ a % 4 ≠ 0 ∨ Config.windowEnd ≤ a then s.busError
  else if s.port.clearing then
    if b.write = false ∧ a = Config.regStatus then s.answer false s.statusWord else s.busError
  else if b.write then s.writeAt a b.enables b.data
  else s.readAt a

/-! ### Meanings of the bus rows -/

/-- A 32-bit write at an offset of the window. -/
def writeOf (addr : Nat) (enables : BitVec 4) (data : Word) : BusAccess := ⟨true, .word, BitVec.ofNat 32 addr, enables, data⟩

/-- SUBMIT (R158). -/
def execSubmit (enables : BitVec 4) (data : Word) (s : State) : Host.Outcome State Fault Refusal :=
  .next (s.busAccess (writeOf Config.regSubmit enables data))

/-- RESP_NEXT (R161). -/
def execRespNext (enables : BitVec 4) (data : Word) (s : State) : Host.Outcome State Fault Refusal :=
  .next (s.busAccess (writeOf Config.regRespNext enables data))

/-- EVT_NEXT (R166). -/
def execEvtNext (enables : BitVec 4) (data : Word) (s : State) : Host.Outcome State Fault Refusal :=
  .next (s.busAccess (writeOf Config.regEvtNext enables data))

/-- WINDOW_WRITE (R14). -/
def execWindowWrite (enables : BitVec 4) (data : Word) (s : State) : Host.Outcome State Fault Refusal :=
  .next (s.busAccess (writeOf Config.regWindow enables data))

/-- PAGE_WINDOW_READ (R15). -/
def execPageWindowRead (offset : BitVec 12) (s : State) : Host.Outcome State Fault Refusal :=
  .next (s.busAccess ⟨false, .word, BitVec.ofNat 32 (Config.regPage + offset.toNat), 0, 0⟩)

/-- PAGE_WINDOW_WRITE (R15). -/
def execPageWindowWrite (offset : BitVec 12) (enables : BitVec 4) (data : Word) (s : State) :
    Host.Outcome State Fault Refusal :=
  .next (s.busAccess (writeOf (Config.regPage + offset.toNat) enables data))

/-- REGISTER_WRITE (R156): any other access (log 24). -/
def execRegisterWrite (access : BusAccess) (s : State) : Host.Outcome State Fault Refusal := .next (s.busAccess access)

/-! ### Meanings of the reset rows (R170, R13) -/

/-- PIN_RESET: the reset input is asserted; the rest happens at its release (log 7). -/
def execPinReset (s : State) : Host.Outcome State Fault Refusal := .next (s.modPort fun p => { p with inReset := true })

/-- PIN_RESET_RELEASE: everything takes its reset value, with the straps as sampled (R170). Page memory is cleared from
here on. -/
def execPinResetRelease (station : Station) (rate : BitVec 2) (s : State) : Host.Outcome State Fault Refusal :=
  .next (.atRelease station rate s.slots.mem s.pending)

/-- PAGE_MEMORY_CLEARING_END: every byte of page memory is 00h and the clearing field is clear (R13, R170; log 5). -/
def execPageMemoryClearingEnd (s : State) : Host.Outcome State Fault Refusal :=
  .next (s.awake fun s =>
    if s.port.clearing then
      { s with slots := { s.slots with mem := [] }, port := { s.port with clearing := false } }
    else s)

end Sys2Proof.Machine
end

