-- ==== Sys2Proof/Machine/Timers.lean ====
section
/-! DEFINITION. The timers (R165 and the rules of each timer): the meanings of the timer rows, and the event that is due when
no event waits: the start of a station that has a frame on an idle line, or a timer's. A timer row happens at its due instant, to which it carries the Time Base (log 3); a row whose timer does
not run changes nothing (log 8). -/

namespace Sys2Proof.Machine

/-! ### Roll timer and listen timer (R125, R121) -/

/-- At a due instant the ROLL element is placed pending, and the next due instant is R later (R125). -/
def State.rollDue (s : State) (due : Micros) : State :=
  (s.reach due).modPresence fun p => { p with rollPending := true, rollTimer := some (due + millis s.rollPeriod) }

/-- ROLL_TIMER_DUE (R125). -/
def execRollTimerDue (s : State) : Host.Outcome State Fault Refusal :=
  .next (s.awake fun s =>
    match s.presence.rollTimer with
    | some due => s.rollDue due
    | none => s)

/-- LISTEN_TIMER_EXPIRY (R121). -/
def execListenTimerExpiry (s : State) : Host.Outcome State Fault Refusal :=
  .next (s.awake fun s =>
    match s.presence.listenTimer with
    | some due =>
      if s.presence.state = .listening then s.joinAscending (s.reach due).enterActive.settle else s
    | none => s)

/-! ### Silence timers (R128) -/

/-- SILENCE_TIMER_EXPIRY (R128). -/
def execSilenceTimerExpiry (peer : Station) (s : State) : Host.Outcome State Fault Refusal :=
  .next (s.awake fun s =>
    match (s.peer peer).silence with
    | some due =>
      if (s.peer peer).isPresent then s.joinAscending ((s.reach due).peerAbsent peer .silent).settle else s
    | none => s)

/-! ### The timer of a consumer entry (R68, R98) -/

/-- RECEPTION_TIMER_EXPIRY (R68, R69). -/
def execReceptionTimerExpiry (entry : EntryIx) (s : State) : Host.Outcome State Fault Refusal :=
  .next (s.awake fun s =>
    match s.consumer entry with
    | some c =>
      match c.timer with
      | some due =>
        if c.state = .receiving ∧ c.filling.isSome then
          ((s.reach due).modConsumer entry fun d => { d with timer := none }).unfinished entry
        else s
      | none => s
    | none => s)

/-- The join wait expires (R98): TAKE again, or EXPELLED after the third; so also while the station is LEAVING (DEDUCED,
log 44). -/
def State.joinExpired (s : State) (i : EntryIx) (c : Consumer) : State :=
  if c.joinTries < Config.joinTriesMax then (s.modConsumer i fun d => { d with timer := none }).setTake i
  else (s.expel i).insertEvent (.joinFailed c.stream c.producer .noAnswer)

/-- JOIN_WAIT_EXPIRY (R98). -/
def execJoinWaitExpiry (entry : EntryIx) (s : State) : Host.Outcome State Fault Refusal :=
  .next (s.awake fun s =>
    match s.consumer entry with
    | some c =>
      match c.timer with
      | some due => if c.state = .joining then (s.reach due).joinExpired entry c else s
      | none => s
    | none => s)

/-! ### The release timer (R102, R106) -/

/-- An outstanding member is cut (R106). -/
def State.cutMember (i : EntryIx) (s : State) (n : Station) : State :=
  match s.producer i with
  | some p =>
    (((s.modProducer i fun q => { q with members := dropElem q.members n }).removeAdmit i n).placeCut i n .timeout).insertEvent
      (.memberCut p.stream n p.lastClosed .timeout)
  | none => s

/-- The outstanding members: in the release-awaited set and not in the release set. -/
def Producer.outstanding (p : Producer) : List Station := stationsOf (setMinus p.awaited p.released)

/-- RELEASE_TIMER_EXPIRY (R106, R104). -/
def execReleaseTimerExpiry (entry : EntryIx) (s : State) : Host.Outcome State Fault Refusal :=
  .next (s.awake fun s =>
    match s.producer entry with
    | some p =>
      match p.timer with
      | some t =>
        if p.phase = some .awaitingRelease then
          ((p.outstanding.foldl (State.cutMember entry) (s.reach t.expiry)).completeBarrier entry false).settle
        else s
      | none => s
    | none => s)

/-- Half of T from the last start of a release timer, to the microsecond (R102). -/
def ReleaseTimer.half (t : ReleaseTimer) : Micros := t.started + ((t.expiry - t.started) >>> 1)

/-- RELEASE_TIMER_HALF (R102). -/
def execReleaseTimerHalf (entry : EntryIx) (s : State) : Host.Outcome State Fault Refusal :=
  .next (s.awake fun s =>
    match s.producer entry with
    | some p =>
      match p.timer with
      | some t =>
        if p.phase = some .awaitingRelease ∧ p.promptSent = false then
          ((s.reach t.half).setPrompt entry).modProducer entry fun q => { q with promptSent := true }
        else s
      | none => s
    | none => s)

/-! ### The event that is due (logs 4 and 27) -/

/-- The event of a consumer entry whose timer is due. -/
def State.dueConsumer (s : State) (i : EntryIx) : Option Instr :=
  match s.consumer i with
  | some c =>
    match c.timer with
    | some t =>
      if isDue s.time t then
        if c.state = .joining then some (.joinWaitExpiry i)
        else if c.state = .receiving ∧ c.filling.isSome then some (.receptionTimerExpiry i)
        else none
      else none
    | none => none
  | none => none

/-- The event of a producer entry whose release timer, or its half, is due; the half comes first. -/
def State.dueProducer (s : State) (i : EntryIx) : Option Instr :=
  match s.producer i with
  | some p =>
    match p.timer with
    | some t =>
      if p.phase = some .awaitingRelease then
        if p.promptSent = false ∧ isDue s.time t.half then some (.releaseTimerHalf i)
        else if isDue s.time t.expiry then some (.releaseTimerExpiry i)
        else none
      else none
    | none => none
  | none => none

/-- The lowest PRESENT peer whose silence timer is due. -/
def State.dueSilence (s : State) : Option Instr :=
  ((List.finRange 32).find? fun n => (s.peer n).isPresent && (match (s.peer n).silence with
    | some t => isDue s.time t
    | none => false)).map .silenceTimerExpiry

/-- Whether a timer that may be stopped is due. -/
def State.timerDue (s : State) : Option Micros → Bool
  | some t => isDue s.time t
  | none => false

/-- Whether the station starts at once (R135): the line is idle, the station drives no frame and takes opportunities, and it
has a frame, in its holding frame or from the transmit selector. -/
def State.startDue (s : State) : Bool :=
  s.link.lineIdle && !s.driving && s.transmits && (s.link.holding.isSome || s.selectSource.isSome)

/-- The timer event that is due, in a fixed order: the end of the clearing, the listen timer, the roll timer, the silence
timers, the consumer entries, the producer entries (log 4). -/
def State.dueTimer (s : State) : Option Instr :=
  if s.port.clearing ∧ isDue s.time (BitVec.ofNat 32 Config.clearMicros) then some .pageMemoryClearingEnd
  else if s.presence.state = .listening ∧ s.timerDue s.presence.listenTimer then some .listenTimerExpiry
  else if s.timerDue s.presence.rollTimer then some .rollTimerDue
  else s.dueSilence <|> allEntries.findSome? s.dueConsumer <|> allEntries.findSome? s.dueProducer

/-- The event that is due with none waiting: the opportunity of a station that has a frame on an idle line, which starts before
any time passes (R135, log 27); else the timer event that is due. -/
def State.dueEvent (s : State) : Option Instr := if s.startDue then some .opportunity else s.dueTimer

/-- One microsecond passes (R165). -/
def State.tick (s : State) : State := { s with time := s.time + 1 }

end Sys2Proof.Machine
end

