-- ==== Sys2Proof/Machine/Dispatch.lean ====
section
/-! DEFINITION. The meaning of each event: one arm per row of the table. -/

namespace Sys2Proof.Machine

def exec (i : Instr) (s : State) : Host.Outcome State Fault Refusal :=
  match i with
  -- command records
  | .configure tag r f m w count decls => Sys2Proof.Machine.execConfigure tag r f m w count decls s
  | .start tag => Sys2Proof.Machine.execStart tag s
  | .leave tag => Sys2Proof.Machine.execLeave tag s
  | .rejoin tag => Sys2Proof.Machine.execRejoin tag s
  | .restart tag => Sys2Proof.Machine.execRestart tag s
  | .claim tag => Sys2Proof.Machine.execClaim tag s
  | .discard tag slot => Sys2Proof.Machine.execDiscard tag slot s
  | .publish tag stream slot report note length target code => Sys2Proof.Machine.execPublish tag stream slot report note length target code s
  | .publishPause tag stream => Sys2Proof.Machine.execPublishPause tag stream s
  | .resume tag stream => Sys2Proof.Machine.execResume tag stream s
  | .cancel tag stream => Sys2Proof.Machine.execCancel tag stream s
  | .subscribe tag stream mode => Sys2Proof.Machine.execSubscribe tag stream mode s
  | .unsubscribe tag stream => Sys2Proof.Machine.execUnsubscribe tag stream s
  | .acquire tag stream selector => Sys2Proof.Machine.execAcquire tag stream selector s
  | .release tag stream => Sys2Proof.Machine.execRelease tag stream s
  | .sendNote tag target code => Sys2Proof.Machine.execSendNote tag target code s
  | .clearNotice tag sources => Sys2Proof.Machine.execClearNotice tag sources s
  | .readStatus tag selector index part => Sys2Proof.Machine.execReadStatus tag selector index part s
  | .unknownCommand tag kind => Sys2Proof.Machine.execUnknownCommand tag kind s
  -- accesses of the local bus
  | .submit enables data => Sys2Proof.Machine.execSubmit enables data s
  | .respNext enables data => Sys2Proof.Machine.execRespNext enables data s
  | .evtNext enables data => Sys2Proof.Machine.execEvtNext enables data s
  | .windowWrite enables data => Sys2Proof.Machine.execWindowWrite enables data s
  | .pageWindowRead offset => Sys2Proof.Machine.execPageWindowRead offset s
  | .pageWindowWrite offset enables data => Sys2Proof.Machine.execPageWindowWrite offset enables data s
  | .registerWrite access => Sys2Proof.Machine.execRegisterWrite access s
  -- the reset input
  | .pinReset => Sys2Proof.Machine.execPinReset s
  | .pinResetRelease station rate => Sys2Proof.Machine.execPinResetRelease station rate s
  | .pageMemoryClearingEnd => Sys2Proof.Machine.execPageMemoryClearingEnd s
  -- the line
  | .opportunity => Sys2Proof.Machine.execOpportunity s
  | .arbitrationLost => Sys2Proof.Machine.execArbitrationLost s
  | .attemptSent => Sys2Proof.Machine.execAttemptSent s
  | .attemptFailed => Sys2Proof.Machine.execAttemptFailed s
  | .muted => Sys2Proof.Machine.execMuted s
  | .frameDiscarded cause => Sys2Proof.Machine.execFrameDiscarded cause s
  -- received frames
  | .segFrame src zeros stream page segment segCount pageLength payload => Sys2Proof.Machine.execSegFrame src zeros stream page segment segCount pageLength payload s
  | .closeFrame src zeros stream page length kind check => Sys2Proof.Machine.execCloseFrame src zeros stream page length kind check s
  | .admitFrame src zeros stream target result first => Sys2Proof.Machine.execAdmitFrame src zeros stream target result first s
  | .cutFrame src zeros stream target reason => Sys2Proof.Machine.execCutFrame src zeros stream target reason s
  | .promptFrame src zeros stream page stations => Sys2Proof.Machine.execPromptFrame src zeros stream page stations s
  | .goneFrame src zeros stream page => Sys2Proof.Machine.execGoneFrame src zeros stream page s
  | .takeFrame src zeros stream station => Sys2Proof.Machine.execTakeFrame src zeros stream station s
  | .dropFrame src zeros stream station => Sys2Proof.Machine.execDropFrame src zeros stream station s
  | .freeFrame src lost stream station page => Sys2Proof.Machine.execFreeFrame src lost stream station page s
  | .gapFrame src zeros stream station page segments => Sys2Proof.Machine.execGapFrame src zeros stream station page segments s
  | .rollFrame src leaving zeros rollCount claims => Sys2Proof.Machine.execRollFrame src leaving zeros rollCount claims s
  | .noteFrame src all zeros target source code => Sys2Proof.Machine.execNoteFrame src all zeros target source code s
  -- timers
  | .rollTimerDue => Sys2Proof.Machine.execRollTimerDue s
  | .listenTimerExpiry => Sys2Proof.Machine.execListenTimerExpiry s
  | .silenceTimerExpiry peer => Sys2Proof.Machine.execSilenceTimerExpiry peer s
  | .receptionTimerExpiry entry => Sys2Proof.Machine.execReceptionTimerExpiry entry s
  | .joinWaitExpiry entry => Sys2Proof.Machine.execJoinWaitExpiry entry s
  | .releaseTimerExpiry entry => Sys2Proof.Machine.execReleaseTimerExpiry entry s
  | .releaseTimerHalf entry => Sys2Proof.Machine.execReleaseTimerHalf entry s
  -- the attempt
  | .echoMismatch => Sys2Proof.Machine.execEchoMismatch s
  | .arbitrationWon => Sys2Proof.Machine.execArbitrationWon s

end Sys2Proof.Machine
end

