-- ==== Sys2Proof/Machine/Step.lean ====
section
/-! DEFINITION. One step: the event at the front of the queue; with none waiting, the start of a station that has a frame on an
idle line, the timer event that is due, or one microsecond of time. -/

namespace Sys2Proof.Machine

/-- With no event waiting, the station starts on an idle line if it has a frame (R135), or the timer event that is due happens,
or one microsecond passes; while the reset input is asserted nothing happens (DESIGN CHOICE, logs 3, 4 and 7; DEDUCED, log
27). -/
def idle (s : State) : Host.Outcome State Fault Refusal :=
  if s.port.inReset then .next s
  else
    match s.dueEvent with
    | some i => exec i s
    | none => .next s.tick

/-- One step of the part. -/
def step (s : State) : Host.Outcome State Fault Refusal :=
  match s.pending with
  | c :: rest => exec c { s with pending := rest }
  | [] => idle s

/-- The state with the event that a word of the table's bits spells put at the front of the queue; no word spells one. -/
def State.withFetchWord (s : State) (nbits w : Nat) : State :=
  match decodeTableWord nbits w with
  | some c => { s with pending := c :: s.pending }
  | none => s

end Sys2Proof.Machine
end

