-- ==== Sys2Proof/Safety.lean ====
section
/-! DEFINITION. What a safe state of the part is, and the words the statements about it use. -/

namespace Sys2Proof.Machine

/-! ### What every step keeps -/

/-- The free list holds every FREE slot exactly once and no other slot (R3). -/
def SlotManager.listsFree (m : SlotManager) : Prop := m.free.Nodup ∧ ∀ n : SlotNum, n ∈ m.free ↔ m.records[n] = .free

/-- The bounds of the queues, counts and lists (R38, R140, R142, R153, R158, R161, R166). -/
structure State.Bounded (s : State) : Prop where
  commands : s.port.cmdQueue.length ≤ Config.cmdQueueMax
  responses : s.port.respQueue.length ≤ Config.respQueueMax
  events : s.events.records.length ≤ Config.eventMax
  descriptors : s.publish.queue.length ≤ Config.publishMax
  notes : s.link.notes.length ≤ Config.noteMax
  attempts : s.link.attempts < Config.attemptMax
  drops : s.link.drops ≤ Config.dropMax

/-- A safe state: page memory in its canonical form, the free list as R3 says, every queue and count in its bounds. -/
structure State.Safe (s : State) : Prop where
  memory : Memory.wf s.slots.mem = true
  slots : s.slots.listsFree
  bounded : s.Bounded

/-! ### Words of the statements -/

/-- The part is out of pin reset and of the clearing. -/
def State.running (s : State) : Prop := s.port.inReset = false ∧ s.port.clearing = false

/-- A command that reaches the queue now is taken in its own event (R159): the part runs, the command queue is empty and the
response queue has a free place. -/
def State.ready (s : State) : Prop :=
  s.running ∧ s.port.cmdQueue = [] ∧ s.port.respQueue.length < Config.respQueueMax

/-- The state in which an accepted command acts: the refused flag is clear (R158). -/
def State.accepted (s : State) : State := { s with port := { s.port with refused := false } }

/-- The state with one more response at the tail of the response queue (R161). -/
def State.respond (s : State) (tag : Byte) (kind : Byte) (r : Result) (v1 v2 : Word) : State :=
  { s with port := { s.port with respQueue := s.port.respQueue ++ [⟨tag, kind, r, 0, false, v1, v2⟩] } }

/-- The answer of a taken command joins the response queue (R161). -/
def State.answered (s : State) (r : CmdRecord) : State :=
  let a := s.runCommand r
  a.1.modPort fun p => { p with respQueue := p.respQueue ++ [r.response a.2] }

/-- The record that a command row carries; none for the rows of other families (R158, 11.3). -/
def commandRecord : Instr → Option CmdRecord
  | .configure tag r f m w count decls => some (record 1 tag (configureWords r f m w count decls))
  | .start tag => some (record 2 tag [])
  | .leave tag => some (record 3 tag [])
  | .rejoin tag => some (record 4 tag [])
  | .restart tag => some (record 5 tag [])
  | .claim tag => some (record 6 tag [])
  | .discard tag slot => some (record 7 tag [bytesWord [slot]])
  | .publish tag stream slot report note length target code =>
    some (record 8 tag (publishWords stream slot report note false length target code))
  | .publishPause tag stream => some (record 8 tag (publishWords stream 0 false false true 0 0 0))
  | .resume tag stream => some (record 9 tag [bytesWord [stream]])
  | .cancel tag stream => some (record 10 tag [bytesWord [stream]])
  | .subscribe tag stream mode => some (record 11 tag [bytesWord [stream, mode]])
  | .unsubscribe tag stream => some (record 12 tag [bytesWord [stream]])
  | .acquire tag stream selector => some (record 13 tag [bytesWord [stream, selector]])
  | .release tag stream => some (record 14 tag [bytesWord [stream]])
  | .sendNote tag target code => some (record 15 tag [bytesWord [target], code])
  | .clearNotice tag sources => some (record 16 tag [sources])
  | .readStatus tag selector index part => some (record 17 tag [bytesWord [selector, index, part]])
  | .unknownCommand tag kind => some (record kind.toNat tag [])
  | _ => none

/-- The station takes a frame from the line: the part is not in pin reset, drives no frame of its own, and is configured
(R144). -/
def State.hearing (s : State) : Prop :=
  s.port.inReset = false ∧ s.driving = false ∧ s.presence.state ≠ .unconfigured

/-- The state after a good frame has been counted (R144). -/
def State.heard (s : State) : State :=
  { s with link := { s.link with
      lineIdle := false
      counters := { s.link.counters with framesReceived := satInc s.link.counters.framesReceived } } }

/-- What is outside the reach of every event but those of the port and the resets: the port, the waiting events and the
straps. -/
def State.fixed (s : State) : Port × List Instr × Station × BitVec 2 :=
  (s.port, s.pending, s.presence.station, s.presence.rate)

end Sys2Proof.Machine
end

