-- ==== Sys2Proof/Certificates/Slice0/Obligations.lean ====
section
/-! DEFINITION. The statements about the part. Each is about every state and every operand that meets its hypotheses; its text in
OBLIGATIONS.json says the same in words. -/

open Sys2Proof
open Sys2Proof.Machine

/-- For every event c and every state s, a step of s with c at the front of its queue of waiting events is exec of c
on s with the rest of the queue (the queue is the model's own, log 1). (98_reader.md; 10_the_local_port.md (R159,
R160)) -/
def Obligations.StepTakesTheFront : Prop :=
  ∀ (c : Instr) (rest : List Instr) (s : State), step { s with pending := c :: rest } = exec c { s with pending := rest }

/-- Model's choice (logs 3, 4, 7 and 27). On an empty queue of waiting events a step does nothing while the reset
input is asserted; otherwise it is the event that is due, in the order of log 4, or, when none is due, the Time Base
alone rises by one. A station that is ACTIVE or LEAVING, drives no frame, finds the line idle and has a frame, in its
holding frame or from the transmit selector, takes the opportunity before any timer event and any passing of time
(R135: it starts at once; log 27). Otherwise: model's choice of the order among timers due at one instant (log 4), of
what counts as due (log 3: the instant is the present one or up to 2^31 microseconds behind it) and of the instant at
which a clearing ends of itself (log 5: 80 microseconds, the bound of R170). First the end of a clearing at 80
microseconds; else the listen timer of a LISTENING station; else the roll timer; else the silence timer of the lowest
PRESENT peer whose timer is due; else the timer of the lowest consumer entry whose timer is due, as the join wait in
JOINING and as the reception timer in RECEIVING with a FILLING slot; else the release timer of the lowest producer
entry in AWAITING_RELEASE that is due, as its half while no prompt is sent and half of the time from its last start
has passed, and as its expiry otherwise; else no timer event is due. (10_the_local_port.md (R165);
08_the_exchange_link.md (R135, R137); 07_presence_and_station_states.md (R121, R125, R128);
04_receiving_and_delivery.md (R68); 06_lock_step_streams.md (R98, R102, R106); 10_the_local_port.md (R165, R170)) -/
def Obligations.EmptyQueueTakesTheDueTimer : Prop :=
  (∀ s : State, s.pending = [] →
     (s.port.inReset = true → step s = .next s) ∧
     (s.port.inReset = false → ∀ i, s.dueEvent = some i → step s = exec i s) ∧
     (s.port.inReset = false → s.dueEvent = none → step s = .next { s with time := s.time + 1 })) ∧
  (∀ s : State,
     let due := fun t : Micros => isDue s.time t = true
     let clears := s.port.clearing = true ∧ due (BitVec.ofNat 32 80)
     let listens := s.presence.state = .listening ∧ ∃ t, s.presence.listenTimer = some t ∧ due t
     let rolls := ∃ t, s.presence.rollTimer = some t ∧ due t
     let silent := fun n : Station => (s.peer n).isPresent = true ∧ ∃ t, (s.peer n).silence = some t ∧ due t
     let waits := fun (i : EntryIx) (x : Instr) => ∃ c t, s.entry i = some (.consumer c) ∧ c.timer = some t ∧ due t ∧
       (c.state = .joining ∧ x = .joinWaitExpiry i ∨ c.state = .receiving ∧ c.filling ≠ none ∧ x = .receptionTimerExpiry i)
     let bars := fun (i : EntryIx) (x : Instr) => ∃ p t, s.entry i = some (.producer p) ∧ p.timer = some t ∧
       p.phase = some .awaitingRelease ∧
       let half := p.promptSent = false ∧ due (t.started + (t.expiry - t.started) >>> 1)
       (half ∧ x = .releaseTimerHalf i ∨ ¬ half ∧ due t.expiry ∧ x = .releaseTimerExpiry i)
     (∀ now t : Micros, isDue now t = true ↔ (now - t).toNat ≤ 2 ^ 31) ∧
     let starts := s.link.lineIdle = true ∧ s.driving = false ∧ s.presence.state ∈ [.active, .leaving] ∧
       (s.link.holding ≠ none ∨ s.selectSource ≠ none)
     (starts → s.dueEvent = some .opportunity) ∧
     (¬ starts → clears → s.dueEvent = some .pageMemoryClearingEnd) ∧
     (¬ starts → ¬ clears → listens → s.dueEvent = some .listenTimerExpiry) ∧
     (¬ starts → ¬ clears → ¬ listens → rolls → s.dueEvent = some .rollTimerDue) ∧
     (¬ starts → ¬ clears → ¬ listens → ¬ rolls →
       (∀ n, silent n → (∀ m, m < n → ¬ silent m) → s.dueEvent = some (.silenceTimerExpiry n)) ∧
       ((∀ n, ¬ silent n) →
         (∀ i x, waits i x → (∀ j y, j < i → ¬ waits j y) → s.dueEvent = some x) ∧
         ((∀ i x, ¬ waits i x) →
           (∀ i x, bars i x → (∀ j y, j < i → ¬ bars j y) → s.dueEvent = some x) ∧
           ((∀ i x, ¬ bars i x) → s.dueEvent = none)))))

/-- For every event i and every state s, exec i s answers a next state t (never a fault or a refusal); t has the same
waiting events as s; and unless i is the release of the reset input, t has the same station number and link-rate
straps as s. (07_presence_and_station_states.md (R132); 10_the_local_port.md (R156, R160)) -/
def Obligations.EveryEventAnswersNext : Prop :=
  ∀ (i : Instr) (s : State), ∃ t, exec i s = .next t ∧ t.pending = s.pending ∧
    ((∀ n r, i ≠ .pinResetRelease n r) → t.presence.station = s.presence.station ∧ t.presence.rate = s.presence.rate)

/-- Model's choice for the time between the edges of the reset input (log 7). In a state whose reset input is
asserted, every event other than its release leaves everything as it was, but for the model's own record of the answer
to the last bus access (log 24), which can only become none. (10_the_local_port.md (R170)) -/
def Obligations.NothingActsWhileResetIsAsserted : Prop :=
  ∀ (i : Instr) (s : State), s.port.inReset = true → (∀ n r, i ≠ .pinResetRelease n r) →
    exec i s = .next s ∨ exec i s = .next { s with port := { s.port with bus := none } }

/-- At the release of the reset input every slot is FREE and the free list holds 0 to 31 in order; no stream entry is
in use; the Publish Queue, Segmenter, NOTE out-queue, command, response and Event Queues are empty; staging words,
WINDOW, Time Base, lost count and every station counter are 0; the refused flag is clear and the clearing field set;
the holding frame is empty with attempt and drop counts 0 and the line counts as busy; no notice is pending, with
count 0 and no last code. Page memory and the waiting events are kept as they are until the clearing ends (log 5). The
assertion of the reset input changes nothing else (log 7). The end of the clearing, on a part that is clearing, leaves
every byte of page memory 00h and the clearing field clear and changes nothing else (log 5); on a part that is not
clearing it changes nothing (log 8). State.reset is the state in the event in which the reset input is released, with
strap levels 0, no byte listed in page memory and no event waiting (the strap levels and the empty queue are the
model's choice, log 6). (10_the_local_port.md (R157, R161, R165, R166, R170); 01_page_slots_and_page_memory.md (R13,
R14); 02_streams_and_page_numbers.md (R37); 03_publishing.md (R60); 08_the_exchange_link.md (R148); 09_notices.md
(R150, R154); 10_the_local_port.md (R170); 01_page_slots_and_page_memory.md (R13)) -/
def Obligations.ResetsPutTheBlocksInOrder : Prop :=
  (∀ (n : Station) (r : BitVec 2) (s : State), ∃ t, exec (.pinResetRelease n r) s = .next t ∧
     (∀ k : SlotNum, t.slot k = .free) ∧ t.slots.free = List.finRange 32 ∧ (∀ i : EntryIx, t.entry i = none) ∧
     t.publish.queue = [] ∧ t.seg = ⟨none, none, none, none⟩ ∧ t.link.notes = [] ∧ t.port.cmdQueue = [] ∧
     t.port.respQueue = [] ∧ t.events.records = [] ∧ t.events.lost = 0 ∧ (∀ k : Fin 8, t.port.staging[k] = 0) ∧
     t.port.window = 0 ∧ t.time = 0 ∧ t.link.counters = ⟨0, 0, 0, 0, 0, 0, 0, 0⟩ ∧ t.port.refused = false ∧
     t.port.inReset = false ∧ t.port.clearing = true ∧ t.link.holding = none ∧ t.link.attempts = 0 ∧ t.link.drops = 0 ∧
     t.link.lineIdle = false ∧ (∀ k : Station, t.notices[k] = ⟨false, 0, none⟩) ∧ t.slots.mem = s.slots.mem ∧
     t.pending = s.pending) ∧
  (∀ s : State,
     exec .pinReset s = .next { s with port := { s.port with inReset := true } } ∧
     (s.port.inReset = false → s.port.clearing = true → ∃ m, (∀ a, memRead m a = 0) ∧ Memory.wf m = true ∧
       exec .pageMemoryClearingEnd s =
         .next { s with slots := { s.slots with mem := m }, port := { s.port with clearing := false } }) ∧
     (s.port.inReset = false → s.port.clearing = false → exec .pageMemoryClearingEnd s = .next s)) ∧
  (State.reset = State.atRelease 0 0 [] [] ∧ State.reset.pending = [] ∧ State.reset.slots.mem = [] ∧
     State.reset.presence.state = .unconfigured ∧ State.reset.port.clearing = true ∧ State.reset.port.inReset = false)

/-- At the release of the reset input the station number and link rate take the strap levels, the station is
UNCONFIGURED without a configuration, every peer table entry has its reset value (ABSENT, silence timer stopped, no
roll count, leaving flag clear, no claims), the roll and listen timers are stopped, the roll count is 0, the roll
count recorded at CONFLICT is none, no ROLL is pending, and no event is inserted; the station number is kept by every
other event. (R132) -/
def Obligations.ReleaseResetsThePresenceUnit : Prop :=
  (∀ (n : Station) (r : BitVec 2) (s : State), ∃ t, exec (.pinResetRelease n r) s = .next t ∧
    t.presence.station = n ∧ t.presence.rate = r ∧ t.presence.state = .unconfigured ∧ t.presence.config = none ∧
    (∀ k : Station, (t.peer k).isPresent = false ∧ (t.peer k).silence = none ∧ (t.peer k).lastCount = none ∧
      (t.peer k).leaving = false ∧ (t.peer k).claims = []) ∧
    t.presence.rollTimer = none ∧ t.presence.listenTimer = none ∧ t.presence.rollCount = 0 ∧
    t.presence.conflictCount = none ∧ t.presence.rollPending = false ∧ t.events = ⟨[], 0⟩) ∧
  (∀ (i : Instr) (s t : State), (∀ n r, i ≠ .pinResetRelease n r) → exec i s = .next t →
    t.presence.station = s.presence.station ∧ t.presence.rate = s.presence.rate)

/-- State.reset has page memory in its canonical form, a free list that holds every FREE slot exactly once and no
other slot, and every queue and count within its bounds. (01_page_slots_and_page_memory.md (R3, R13);
10_the_local_port.md (R158, R161, R166)) -/
def Obligations.ResetIsSafe : Prop :=
  State.reset.Safe

/-- If a state is safe (page memory canonical; the free list holds every FREE slot exactly once and no other; at most
8 commands, 8 responses, 64 event records, 16 descriptors, 8 notes; attempt count below 4, consecutive-drop count at
most 8) and a step of it answers a next state, that state is safe. (01_page_slots_and_page_memory.md (R1, R3);
03_publishing.md (R38); 08_the_exchange_link.md (R138, R140, R142); 09_notices.md (R153); 10_the_local_port.md (R158,
R159, R161, R166)) -/
def Obligations.StepKeepsSafe : Prop :=
  ∀ s t : State, s.Safe → step s = .next t → t.Safe

/-- For every well-formed frame event, the event that the frame's bytes make at a receiver (key, kind bits, fields,
counts, payload and frame check of chapter 11.1) is that same event, with every operand at every value its field can
hold. (A SEG whose segment lies beyond its page length is spelled without payload, model's choice, log 36.) The first
byte of a frame holds the key, class times 32 plus station number, in its upper seven bits. Bytes take ten bit times
each on the line: a dominant start bit, the eight data bits most significant first, a 0 dominant and a 1 recessive,
and a recessive stop bit; so no ten bit times in a row are all recessive or all dominant within a frame. The bits of
bytes, up to the line recessive for twelve bit times, make the event at a receiver that the bytes make; with a
dominant stop bit after them they make a discarded frame (behind a complete frame too, model's reading, log 45), and
with the abort mark of eleven dominant bit times one discarded for an abort mark. (11_formats_and_register_map.md
(R172, R173); 08_the_exchange_link.md (R134, R144); 08_the_exchange_link.md (R134, R140, R144)) -/
def Obligations.FramesReadBack : Prop :=
  (∀ (i : Instr) (l : List Byte), i.wellFormed = true → frameBytes i = some l → lineEvent l = i) ∧
  ((∀ r : RawFrame, ∃ rest,
     r.bytes = BitVec.ofNat 8 (2 * (32 * r.cls.toNat + r.src.val) + (r.kind.getLsbD 1).toNat) :: rest) ∧
   (∀ l : List Byte,
     let bits := levelsOf l
     bits.length = 10 * l.length ∧
     (∀ k b, l[k]? = some b → bits[10 * k]? = some Level.dominant ∧ bits[10 * k + 9]? = some Level.recessive ∧
       ∀ j : Fin 8, bits[10 * k + 1 + j.val]? = some (if b.getLsbD (7 - j.val) then .recessive else .dominant)) ∧
     (∀ k, k + 10 ≤ bits.length →
       (∃ j, j < 10 ∧ bits[k + j]? = some .dominant) ∧ ∃ j, j < 10 ∧ bits[k + j]? = some .recessive) ∧
     levelEvent (bits ++ List.replicate 12 .recessive) = lineEvent l ∧
     (∀ (data rest : List Level), data.length = 8 →
       ∃ cause, levelEvent (bits ++ .dominant :: data ++ .dominant :: rest) = .frameDiscarded cause) ∧
     (∀ rest, levelEvent (bits ++ List.replicate 11 .dominant ++ rest) = .frameDiscarded .abortMark)))

/-- For every command row i with record r on a running part: with an empty command queue and a free place in the
response queue, the refused flag is cleared, the command acts by its kind and its response joins the response queue,
in the one event; with 8 responses waiting and fewer than 8 commands queued, the record joins the tail of the command
queue and the refused flag is cleared, and nothing else changes; with 8 commands queued the record is refused and the
refused flag is set, and nothing else changes. (A command row stands for a record that reaches the queue with its own
argument words, log 2.) On a part that is ready, a record whose kind code is 0 or above 17 is answered with BAD_ARG
and zeros in every station state and acts on nothing. (10_the_local_port.md (R158, R159, R161); 10_the_local_port.md
(R160, R162); 07_presence_and_station_states.md (R117)) -/
def Obligations.CommandsReachTheQueue : Prop :=
  (∀ (i : Instr) (r : CmdRecord) (s : State), commandRecord i = some r → s.running →
     (s.ready → exec i s = .next (s.accepted.answered r)) ∧
     (s.port.cmdQueue.length < 8 → s.port.respQueue.length = 8 →
       exec i s = .next { s with port := { s.port with cmdQueue := s.port.cmdQueue ++ [r], refused := false } }) ∧
     (s.port.cmdQueue.length = 8 → exec i s = .next { s with port := { s.port with refused := true } })) ∧
  (∀ (tag kind : Byte) (s : State), s.ready → kind = 0 ∨ 17 < kind.toNat →
     exec (.unknownCommand tag kind) s = .next (s.accepted.respond tag kind .badArg 0 0))

/-- With all four byte enables set on a running part, a write of SUBMIT carries its kind code (bits 7-0), its tag
(bits 15-8) and the eight staging words as they stand: taken at once when the queue is empty and a response place is
free, joined to the queue's tail when the response queue holds 8 records, refused with the refused flag set when the
command queue holds 8. The access ends without the error response and the staging words keep their values in the last
two cases. With fewer byte enables it ends with the bus error response and changes nothing. (10_the_local_port.md
(R156, R157, R158, R159, R161)) -/
def Obligations.SubmitTakesTheStagingWords : Prop :=
  ∀ (enables : BitVec 4) (data : Word) (s : State), s.running →
    let r : CmdRecord := ⟨data.extractLsb' 0 8, data.extractLsb' 8 8, s.port.staging⟩
    (enables ≠ 0xF → exec (.submit enables data) s = .next { s with port := { s.port with bus := some ⟨true, 0⟩ } }) ∧
    (enables = 0xF → s.ready → exec (.submit enables data) s = .next ((s.accepted.answered r).answer false 0)) ∧
    (enables = 0xF → s.port.cmdQueue.length < 8 → s.port.respQueue.length = 8 → exec (.submit enables data) s =
      .next { s with port := { s.port with
        cmdQueue := s.port.cmdQueue ++ [r], refused := false, bus := some ⟨false, 0⟩ } }) ∧
    (enables = 0xF → s.port.cmdQueue.length = 8 → exec (.submit enables data) s =
      .next { s with port := { s.port with refused := true, bus := some ⟨false, 0⟩ } })

/-- On a running part a write of RESP_NEXT with all byte enables removes the head response and changes nothing else
while no command waits (on an empty response queue it changes nothing but ends without the error response); with
commands waiting behind a full response queue, the head command is taken in the same event and no further one. On a
running part a write of EVT_NEXT with all byte enables removes the head event record and changes nothing else (on an
empty queue it changes nothing but ends without the error response); the interrupt output after it is asserted exactly
when a record is left. With fewer byte enables it ends with the error response and the queue keeps its records.
(10_the_local_port.md (R156, R159, R161); 10_the_local_port.md (R156, R166, R168)) -/
def Obligations.RecordsLeaveFromTheHead : Prop :=
  (∀ (data : Word) (s : State), s.running →
     (s.port.cmdQueue = [] → exec (.respNext 0xF data) s =
       .next { s with port := { s.port with respQueue := s.port.respQueue.tail, bus := some ⟨false, 0⟩ } }) ∧
     (∀ r rest a l, s.port.cmdQueue = r :: rest → s.port.respQueue = a :: l → l.length = 7 →
       exec (.respNext 0xF data) s = .next (({ s with port := { s.port with
         cmdQueue := rest, respQueue := l } } : State).answered r |>.answer false 0)) ∧
     (∀ e, e ≠ 0xF → exec (.respNext e data) s = .next { s with port := { s.port with bus := some ⟨true, 0⟩ } })) ∧
  (∀ (data : Word) (s : State), s.running → ∃ t,
     exec (.evtNext 0xF data) s = .next t ∧
     t = { s with events := { s.events with records := s.events.records.tail },
                  port := { s.port with bus := some ⟨false, 0⟩ } } ∧
     (t.interrupt = true ↔ s.events.records.tail ≠ []) ∧
     (∀ e, e ≠ 0xF → exec (.evtNext e data) s = .next { s with port := { s.port with bus := some ⟨true, 0⟩ } }))

/-- On a running part: a 32-bit write of a value from 0 to 31 sets WINDOW to it; a write of a value above 31 ends with
the bus error response, leaves WINDOW unchanged and inserts no event; a write with fewer than four byte enables ends
with the bus error response too (R156); none of these changes a slot record; a read returns WINDOW's value; pin reset
sets WINDOW to 0, and RESTART leaves it unchanged. (R14) -/
def Obligations.WindowSelectsASlot : Prop :=
  (∀ (data : Word) (s : State), s.running →
    (∀ n : SlotNum, data.toNat = n.val → exec (.windowWrite 0xF data) s =
      .next { s with port := { s.port with window := n, bus := some ⟨false, 0⟩ } }) ∧
    (31 < data.toNat → exec (.windowWrite 0xF data) s = .next { s with port := { s.port with bus := some ⟨true, 0⟩ } }) ∧
    (∀ e : BitVec 4, e ≠ 0xF → exec (.windowWrite e data) s = .next { s with port := { s.port with bus := some ⟨true, 0⟩ } })) ∧
  (∀ (e : BitVec 4) (data : Word) (s : State), s.running →
    exec (.registerWrite ⟨false, .word, 0x0008, e, data⟩) s =
      .next { s with port := { s.port with bus := some ⟨false, BitVec.ofNat 32 s.port.window.val⟩ } }) ∧
  (∀ (n : Station) (r : BitVec 2) (s : State), ∃ t, exec (.pinResetRelease n r) s = .next t ∧ t.port.window = 0) ∧
  (∀ (tag : Byte) (s : State), s.ready → ∃ t, exec (.restart tag) s = .next t ∧ t.port.window = s.port.window)

/-- On a running part, a read at word-aligned offset o of the page window answers without error and changes nothing
else when WINDOW selects a WRITING slot (bytes o to o+3) or a HELD slot (the same bytes, 00h at every offset not below
the page's length). The byte at offset o is in bits 7-0 of the word (DESIGN CHOICE, log 10). On a running part whose
page memory is canonical and whose WINDOW selects a WRITING slot, a write at word-aligned offset o ends without error,
changes page memory and the bus answer alone, and keeps page memory canonical: byte o+k of the slot, for k from 0 to
3, becomes byte k of the data when byte enable k is set and keeps its value when not, and every byte at any other
address keeps its value. Byte k is bits 8k+7 to 8k (DESIGN CHOICE, log 10). On a running part, a page-window read of a
slot that is neither WRITING nor HELD, and a page-window write of a slot that is not WRITING, ends with the bus error
response and read data 0; ACCESS_FAULT is inserted with the slot number, the direction, and the stream identifier and
page number that the slot has; no slot record and no byte of page memory changes. (01_page_slots_and_page_memory.md
(R15); 10_the_local_port.md (R156); 01_page_slots_and_page_memory.md (R1, R15); 01_page_slots_and_page_memory.md (R15,
R16); 10_the_local_port.md (R156, R167)) -/
def Obligations.WindowAccessesThePage : Prop :=
  (∀ (offset : BitVec 12) (s : State), s.running → offset.toNat % 4 = 0 →
     let o := offset.toNat
     let at' := fun k => memRead s.slots.mem (4096 * s.port.window.val + o + k)
     (s.slot s.port.window = .writing → exec (.pageWindowRead offset) s =
       .next { s with port := { s.port with bus := some ⟨false, at' 3 ++ at' 2 ++ at' 1 ++ at' 0⟩ } }) ∧
     (∀ i page len, s.slot s.port.window = .held i page len →
       let shown := fun k => if o + k < len then at' k else 0
       exec (.pageWindowRead offset) s =
         .next { s with port := { s.port with bus := some ⟨false, shown 3 ++ shown 2 ++ shown 1 ++ shown 0⟩ } })) ∧
  (∀ (offset : BitVec 12) (enables : BitVec 4) (data : Word) (s : State), s.running → Memory.wf s.slots.mem = true →
     offset.toNat % 4 = 0 → s.slot s.port.window = .writing → ∃ m,
       exec (.pageWindowWrite offset enables data) s =
         .next { s with slots := { s.slots with mem := m }, port := { s.port with bus := some ⟨false, 0⟩ } } ∧
       Memory.wf m = true ∧
       (∀ k : Fin 4, memRead m (4096 * s.port.window.val + offset.toNat + k.val) =
         if enables.getLsbD k.val then data.extractLsb' (8 * k.val) 8
         else memRead s.slots.mem (4096 * s.port.window.val + offset.toNat + k.val)) ∧
       (∀ a, (a < 4096 * s.port.window.val + offset.toNat ∨ 4096 * s.port.window.val + offset.toNat + 4 ≤ a) →
         memRead m a = memRead s.slots.mem a)) ∧
  (∀ (offset : BitVec 12) (enables : BitVec 4) (data : Word) (s : State), s.running → offset.toNat % 4 = 0 →
     let n := s.port.window
     let fault := fun k => s.insertEvent (.accessFault n k ((s.slot n).owner?.map s.streamOf) (s.slot n).page?)
     (s.slot n ≠ .writing → (∀ i page len, s.slot n ≠ .held i page len) →
       exec (.pageWindowRead offset) s =
         .next { fault .read with port := { s.port with bus := some ⟨true, 0⟩ } }) ∧
     (s.slot n ≠ .writing → exec (.pageWindowWrite offset enables data) s =
       .next { fault .write with port := { s.port with bus := some ⟨true, 0⟩ } }) ∧
     (∀ k, (fault k).slots = s.slots))

/-- On a running part, a 32-bit read of ID, STATUS, CMDk, RESPk or EVTk answers without error with the identification
word C5A32161h, the status word, staging word k, word k of the head response or word k of the head event (0 while the
queue is empty), and changes nothing else; a 32-bit write of CMDk with all byte enables stores staging word k and
changes no other register, and with fewer byte enables it ends with the error response and stores nothing. Word 0 of a
response holds the tag in bits 7-0 and the kind in bits 15-8, word 1 the result code in bits 7-0, the presence bits in
bits 11-8 and the paused bit in bit 16, words 2 and 3 the value words, and every other bit is 0. Word 0 of an event
holds the kind in bits 7-0, the reason or FFh in bits 15-8, the stream in bits 21-16 and the station or 32 in bits
29-24, word 1 the time stamp, word 2 the page number or 0 in bits 15-0, the slot or 32 in bits 23-16 and the page's
presence in bit 24, word 3 the kind's value, and every other bit is 0 (that bits no field covers read 0 is the model's
reading, log 41). The fields that each of the fifteen kinds carries, and the codes of kinds, reasons, results, station
states and slot states, are those of the tables. (10_the_local_port.md (R156, R157, R161, R166, R169);
11_formats_and_register_map.md (11.5); 11_formats_and_register_map.md (11.2, 11.3, R174); 10_the_local_port.md (R161,
R165)) -/
def Obligations.RegistersReadAndStage : Prop :=
  (∀ (e : BitVec 4) (data : Word) (s : State), s.running →
     let shows := fun (addr value : Word) =>
       exec (.registerWrite ⟨false, .word, addr, e, data⟩) s = .next { s with port := { s.port with bus := some ⟨false, value⟩ } }
     shows 0x0000 0xC5A32161 ∧ shows 0x0004 s.statusWord ∧
     (∀ k : Fin 8, shows (BitVec.ofNat 32 (0x10 + 4 * k.val)) s.port.staging[k]) ∧
     (∀ k : Fin 4, (s.port.respQueue = [] → shows (BitVec.ofNat 32 (0x40 + 4 * k.val)) 0) ∧
       (∀ a l, s.port.respQueue = a :: l → shows (BitVec.ofNat 32 (0x40 + 4 * k.val)) (a.word k.val)) ∧
       (s.events.records = [] → shows (BitVec.ofNat 32 (0x60 + 4 * k.val)) 0) ∧
       (∀ a l, s.events.records = a :: l → shows (BitVec.ofNat 32 (0x60 + 4 * k.val)) (a.word k.val))) ∧
     (∀ k : Fin 8, exec (.registerWrite ⟨true, .word, BitVec.ofNat 32 (0x10 + 4 * k.val), 0xF, data⟩) s =
         .next { s with port := { s.port with staging := vput s.port.staging k data, bus := some ⟨false, 0⟩ } } ∧
       (e ≠ 0xF → exec (.registerWrite ⟨true, .word, BitVec.ofNat 32 (0x10 + 4 * k.val), e, data⟩) s =
         .next { s with port := { s.port with bus := some ⟨true, 0⟩ } }))) ∧
  (∀ (r : Response) (e : EventRecord),
     ((r.word 0).extractLsb' 0 8 = r.tag ∧ (r.word 0).extractLsb' 8 8 = r.kind ∧ (r.word 0).extractLsb' 16 16 = 0 ∧
      ((r.word 1).extractLsb' 0 8).toNat = r.result.code ∧ (r.word 1).extractLsb' 8 4 = r.presence ∧
      (r.word 1).extractLsb' 12 4 = 0 ∧ (r.word 1).getLsbD 16 = r.paused ∧ (r.word 1).extractLsb' 17 15 = 0 ∧
      r.word 2 = r.value1 ∧ r.word 3 = r.value2) ∧
     (let f := e.event.fields
      ((e.word 0).extractLsb' 0 8).toNat = f.kind ∧ ((e.word 0).extractLsb' 8 8).toNat = f.reason.getD 0xFF ∧
      (e.word 0).extractLsb' 16 6 = f.stream ∧ ((e.word 0).extractLsb' 24 6).toNat = (f.station.map Fin.val).getD 32 ∧
      (e.word 0).extractLsb' 22 2 = 0 ∧ (e.word 0).extractLsb' 30 2 = 0 ∧ e.word 1 = e.time ∧
      (e.word 2).extractLsb' 0 16 = f.page.getD 0 ∧ ((e.word 2).extractLsb' 16 8).toNat = (f.slot.map Fin.val).getD 32 ∧
      (e.word 2).getLsbD 24 = f.page.isSome ∧ (e.word 2).extractLsb' 25 7 = 0 ∧ e.word 3 = f.value) ∧
     (∀ id page slot, (Event.pageReady id page slot).fields = ⟨1, none, id, none, some page, some slot, 0⟩) ∧
     (∀ id page slot x, (Event.pageLost id page slot x).fields = ⟨2, some x.code, id, none, some page, slot, 0⟩) ∧
     (∀ id slot page x tag, (Event.sent id slot page x tag).fields = ⟨3, some x.code, id, none, page, some slot, tag.setWidth 32⟩) ∧
     (∀ id tag, (Event.paused id tag).fields = ⟨4, none, id, none, none, none, tag.setWidth 32⟩) ∧
     (∀ id n first, (Event.joined id n first).fields = ⟨5, none, id, some n, some first, none, 0⟩) ∧
     (∀ id n x, (Event.joinFailed id n x).fields = ⟨6, some x.code, id, n, none, none, 0⟩) ∧
     (∀ id n page x, (Event.memberCut id n page x).fields = ⟨7, some x.code, id, some n, page, none, 0⟩) ∧
     (∀ id n x, (Event.cutReceived id n x).fields = ⟨8, some x.code, id, some n, none, none, 0⟩) ∧
     (∀ n, (Event.peerUp n).fields = ⟨9, none, 0, some n, none, none, 0⟩) ∧
     (∀ n x, (Event.peerDown n x).fields = ⟨10, some x.code, 0, some n, none, none, 0⟩) ∧
     (∀ n code, (Event.notePending n code).fields = ⟨11, none, 0, some n, none, none, code.setWidth 32⟩) ∧
     (∀ id n, (Event.streamDisputed id n).fields = ⟨12, none, id, some n, none, none, 0⟩) ∧
     (∀ old new, (Event.stationState old new).fields =
       ⟨13, none, 0, none, none, none, BitVec.ofNat 32 (old.code + 256 * new.code)⟩) ∧
     (∀ slot x id page, (Event.accessFault slot x id page).fields = ⟨14, some x.code, id.getD 0, none, page, some slot, 0⟩) ∧
     (∀ count, (Event.lost count).fields = ⟨15, none, 0, none, none, none, count.setWidth 32⟩) ∧
     ([LossReason.superseded, .withdrawn, .check, .noSlot, .repairTimeout, .gone, .producerLost].map LossReason.code =
       List.range 7) ∧
     ([SentResult.done, .doneNoteDropped, .cancelled, .disputed, .failed].map SentResult.code = List.range 5) ∧
     ([JoinFailure.noAnswer, .full, .notLockstep].map JoinFailure.code = List.range 3) ∧
     ([CutReason.timeout, .notMember].map CutReason.code = List.range 2) ∧
     ([DownReason.silent, .left, .renewed].map DownReason.code = List.range 3) ∧
     ([AccessKind.read, .write].map AccessKind.code = List.range 2) ∧
     ([Result.ok, .badState, .badArg, .noSlot, .full, .notFound, .exists_, .notProducer, .notConsumer, .held, .noNewer,
       .disputed].map Result.code = List.range 12) ∧
     ([StationState.unconfigured, .configured, .listening, .active, .leaving, .quiet, .muted, .conflict].map
       StationState.code = List.range 8) ∧
     (∀ (o : EntryIx) (p : PageNum) (l : Nat) (k : Option Nat) (g : SegSet) (n : Nat),
       [Slot.free, .writing, .queued o l, .sending o p l, .retained o p l, .filling o p k g n, .ready o p l, .held o p l].map
         Slot.code = List.range 8))

/-- On a part that is not in pin reset, an access that is not 32 bits wide, not word aligned or outside the window
ends with the error response, read data 0, and changes nothing; so does, while page memory is being cleared, every
access but a read of STATUS, which answers the clearing bit alone; and, on a running part, a read of SUBMIT, RESP_NEXT
or EVT_NEXT, a write of ID, STATUS, RESPk or EVTk, and any access to an offset of the window at which no register
stands. The same holds of the rows SUBMIT, RESP_NEXT, EVT_NEXT, WINDOW_WRITE, PAGE_WINDOW_READ and PAGE_WINDOW_WRITE
while page memory is being cleared, and of the page-window rows at an offset that is not word aligned at any time: the
refused flag stays and no ACCESS_FAULT is inserted. A 32-bit access by REGISTER_WRITE to an offset that has a row of
its own acts as that row (model's choice, log 24). (10_the_local_port.md (R156, R158, R170);
01_page_slots_and_page_memory.md (R16); 11_formats_and_register_map.md (11.5)) -/
def Obligations.RefusedAccessesChangeNothing : Prop :=
  ∀ (b : BusAccess) (s : State), s.port.inReset = false →
    let refused := exec (.registerWrite b) s = .next { s with port := { s.port with bus := some ⟨true, 0⟩ } }
    (b.width ≠ .word → refused) ∧ (b.addr.toNat % 4 ≠ 0 → refused) ∧ (0x2000 ≤ b.addr.toNat → refused) ∧
    (s.port.clearing = true → ¬ (b.write = false ∧ b.addr = 0x0004) → refused) ∧
    (s.port.clearing = true → b.write = false → b.addr = 0x0004 → b.width = .word →
      exec (.registerWrite b) s = .next { s with port := { s.port with bus := some ⟨false, 1⟩ } }) ∧
    (s.port.clearing = false → b.write = false → b.addr ∈ [0x0030, 0x0050, 0x0070] → refused) ∧
    (s.port.clearing = false → b.write = true →
      b.addr ∈ [0x0000, 0x0004, 0x0040, 0x0044, 0x0048, 0x004C, 0x0060, 0x0064, 0x0068, 0x006C] → refused) ∧
    (s.port.clearing = false → (b.addr = 0x000C ∨ 0x0034 ≤ b.addr.toNat ∧ b.addr.toNat < 0x0040 ∨
      0x0054 ≤ b.addr.toNat ∧ b.addr.toNat < 0x0060 ∨ 0x0074 ≤ b.addr.toNat ∧ b.addr.toNat < 0x1000) → refused) ∧
    (∀ (e : BitVec 4) (data : Word) (o : BitVec 12),
      let error : Host.Outcome State Fault Refusal := .next { s with port := { s.port with bus := some ⟨true, 0⟩ } }
      (s.port.clearing = true → ∀ i ∈ [Instr.submit e data, .respNext e data, .evtNext e data, .windowWrite e data,
        .pageWindowRead o, .pageWindowWrite o e data], exec i s = error) ∧
      (o.toNat % 4 ≠ 0 → exec (.pageWindowRead o) s = error ∧ exec (.pageWindowWrite o e data) s = error)) ∧
    (b.width = .word →
      (b.write = true →
        (b.addr = 0x0008 → exec (.registerWrite b) s = exec (.windowWrite b.enables b.data) s) ∧
        (b.addr = 0x0030 → exec (.registerWrite b) s = exec (.submit b.enables b.data) s) ∧
        (b.addr = 0x0050 → exec (.registerWrite b) s = exec (.respNext b.enables b.data) s) ∧
        (b.addr = 0x0070 → exec (.registerWrite b) s = exec (.evtNext b.enables b.data) s)) ∧
      (∀ o : BitVec 12, b.addr = BitVec.ofNat 32 (0x1000 + o.toNat) →
        (b.write = true → exec (.registerWrite b) s = exec (.pageWindowWrite o b.enables b.data) s) ∧
        (b.write = false → exec (.registerWrite b) s = exec (.pageWindowRead o) s)))

/-- A read of STATUS on a part that is not in pin reset answers its word without the error response and changes
nothing else; in a state whose queues are within their bounds the word's fields are: clearing (bit 0), refused (bit
1), lost waiting (bit 2), interrupt (bit 3), station state (bits 7-4), command queue records (bits 11-8), response
queue records (bits 15-12), event queue records (bits 22-16), each as it stands in the event of the read, at the
places of 11.5, and bits 31-23 read 0 (model's reading, log 41); while the clearing field is set, the other fields
read as 0. Outside pin reset and the page-memory clearing the interrupt output is asserted exactly while the Event
Queue holds at least one record; it is asserted in the event that stores a record in an empty queue and not by an
event that is not stored, deasserted by the EVT_NEXT write that removes the last record and still asserted after one
that leaves a record; it does not depend on the responses; during pin reset and the clearing it is deasserted.
(10_the_local_port.md (R156, R169); 11_formats_and_register_map.md (11.2, 11.5); 10_the_local_port.md (R168)) -/
def Obligations.StatusAndInterrupt : Prop :=
  (∀ (e : BitVec 4) (data : Word) (s : State), s.port.inReset = false → s.Bounded → ∃ w : Word,
     exec (.registerWrite ⟨false, .word, 0x0004, e, data⟩) s = .next { s with port := { s.port with bus := some ⟨false, w⟩ } } ∧
     (s.port.clearing = true → w = 1) ∧
     (s.port.clearing = false → w.getLsbD 0 = false ∧ w.getLsbD 1 = s.port.refused ∧
       (w.getLsbD 2 = true ↔ 0 < s.events.lost.toNat) ∧ w.getLsbD 3 = s.interrupt ∧
       (w.extractLsb' 4 4).toNat = s.presence.state.code ∧ (w.extractLsb' 8 4).toNat = s.port.cmdQueue.length ∧
       (w.extractLsb' 12 4).toNat = s.port.respQueue.length ∧ (w.extractLsb' 16 7).toNat = s.events.records.length ∧
       w.extractLsb' 23 9 = 0)) ∧
  ((∀ s : State, s.running → (s.interrupt = true ↔ s.events.records ≠ [])) ∧
   (∀ s : State, (s.port.inReset = true ∨ s.port.clearing = true) → s.interrupt = false) ∧
   (∀ (s : State) (e : Event), s.running → s.events = ⟨[], 0⟩ → (s.insertEvent e).interrupt = true) ∧
   (∀ (s : State) (e : Event), (s.insertEvent e).events.records = s.events.records →
     (s.insertEvent e).interrupt = s.interrupt) ∧
   (∀ (s : State) (data : Word), s.running → ∃ t, exec (.evtNext 0xF data) s = .next t ∧
     ((∀ a, s.events.records = [a] → t.interrupt = false) ∧
       ∀ a b l, s.events.records = a :: b :: l → s.interrupt = true ∧ t.interrupt = true)) ∧
   (∀ (s : State) (l : List Response), ({ s with port := { s.port with respQueue := l } } : State).interrupt = s.interrupt))

/-- For every state s and event e, by the free places (64 less the records) and the lost count: lost 0 and a free
place, e is stored at the tail with the Time Base as its stamp; lost 0 and none, the lost count becomes 1; lost above
0 and two free places, a LOST record with the lost count and then e are stored and the count becomes 0; above 0 and
one, the LOST record is stored and the count becomes 1; above 0 and none, the count rises by one up to 65535. The
station's events lost counter rises by one, up to its greatest value, in exactly the three cases in which e is not
stored; nothing else changes. (10_the_local_port.md (R165, R167); 08_the_exchange_link.md (R145)) -/
def Obligations.EventsAreStoredOrCounted : Prop :=
  ∀ (s : State) (e : Event),
    let l := s.events.records
    let n := s.events.lost
    let more : State := { s with link := { s.link with counters :=
      { s.link.counters with eventsLost := satInc s.link.counters.eventsLost } } }
    (n = 0 → l.length < 64 → s.insertEvent e = { s with events := ⟨l ++ [⟨e, s.time⟩], 0⟩ }) ∧
    (n = 0 → l.length = 64 → s.insertEvent e = { more with events := ⟨l, 1⟩ }) ∧
    (n ≠ 0 → l.length ≤ 62 → s.insertEvent e = { s with events := ⟨l ++ [⟨.lost n, s.time⟩, ⟨e, s.time⟩], 0⟩ }) ∧
    (n ≠ 0 → l.length = 63 → s.insertEvent e = { more with events := ⟨l ++ [⟨.lost n, s.time⟩], 1⟩ }) ∧
    (n ≠ 0 → l.length = 64 → s.insertEvent e = { more with events := ⟨l, if n = 0xFFFF then n else n + 1⟩ })

/-- On a part that is ready, in order: UNCONFIGURED (for PUBLISH also LEAVING and CONFLICT) gives BAD_STATE; a stream
identifier of 0 or above 63 gives BAD_ARG, as does an ACQUIRE selector above 1 with an identifier in range; no entry
in use for the identifier gives NOT_FOUND; an entry of the other role gives NOT_PRODUCER (PUBLISH with or without
PAUSE, RESUME, CANCEL) or NOT_CONSUMER (UNSUBSCRIBE, ACQUIRE, RELEASE); a DISPUTED producer entry gives DISPUTED. Each
refusal changes nothing but the response queue (and the refused flag that the accepted submit clears), with both value
words 0. (03_publishing.md (R40, R41, R43, R53); 02_streams_and_page_numbers.md (R35); 04_receiving_and_delivery.md
(R78, R80); 10_the_local_port.md (R162)) -/
def Obligations.CommandsOnAStreamRefuse : Prop :=
  ∀ (tag b slot target code sel : Byte) (report note : Bool) (length : Half) (s : State), s.ready →
    let refuse := fun (i : Instr) (kind : Byte) (r : Result) => exec i s = .next (s.accepted.respond tag kind r 0 0)
    let publishes : List Instr := [.publish tag b slot report note length target code, .publishPause tag b]
    let producers : List (Instr × Byte) := [(.resume tag b, 9), (.cancel tag b, 10)]
    let consumers : List (Instr × Byte) := [(.unsubscribe tag b, 12), (.acquire tag b sel, 13), (.release tag b, 14)]
    let posts := fun (r : Result) => ∀ i ∈ publishes, refuse i 8 r
    let actsOnProducer := fun (r : Result) =>
      (s.presence.state ∉ [.leaving, .conflict] → posts r) ∧ ∀ e ∈ producers, refuse e.1 e.2 r
    let actsOnConsumer := fun (r : Result) => ∀ e ∈ consumers, refuse e.1 e.2 r
    let names := fun (i : EntryIx) (e : Entry) =>
      ∃ id : StreamId, b.toNat = id.toNat ∧ id ≠ 0 ∧ s.findStream id = some i ∧ s.entry i = some e
    (s.presence.state = .unconfigured → actsOnProducer .badState ∧ actsOnConsumer .badState) ∧
    (s.presence.state = .leaving ∨ s.presence.state = .conflict → posts .badState) ∧
    (s.presence.state ≠ .unconfigured →
      (b = 0 ∨ 63 < b.toNat → actsOnProducer .badArg ∧ actsOnConsumer .badArg) ∧
      (1 < sel.toNat → refuse (.acquire tag b sel) 13 .badArg) ∧
      (∀ id : StreamId, b.toNat = id.toNat → id ≠ 0 → s.findStream id = none →
        actsOnProducer .notFound ∧ (sel.toNat ≤ 1 → actsOnConsumer .notFound)) ∧
      (∀ i c, names i (.consumer c) → actsOnProducer .notProducer) ∧
      (∀ i p, sel.toNat ≤ 1 → names i (.producer p) → actsOnConsumer .notConsumer) ∧
      (∀ i p, names i (.producer p) → p.state = .disputed → actsOnProducer .disputed))

/-- On a part that is ready: in any state but UNCONFIGURED it is BAD_STATE with the state's code and changes nothing.
In UNCONFIGURED, an R of 1 or above 250, else an F above 1000, else an M of 1 or above 8, else a W above 4, else a
count above 8 is BAD_ARG at position 1 to 5; else the first declaration below the count whose stream id is 0, whose
length is above 4096 or whose stream id repeats an earlier one is BAD_ARG at position 16 plus its index; a refused
record changes nothing. Otherwise a zero R, F, M or W takes its default 10, 20, 4 or 1, the configuration is set,
entry k below the count becomes a DECLARED producer entry of declaration k and every other entry is unused, the
station becomes CONFIGURED with STATION_STATE inserted, and the answer is OK with the count and the station number.
(07_presence_and_station_states.md (R117, R118, R119); 02_streams_and_page_numbers.md (R21);
11_formats_and_register_map.md (11.3)) -/
def Obligations.ConfigureSetsTheStation : Prop :=
  ∀ (tag : Byte) (r : Byte) (f : BitVec 10) (m : BitVec 4) (w : BitVec 3) (count : BitVec 4) (decls : Vector RawDecl 8)
    (s : State), s.ready →
    let go := exec (.configure tag r f m w count decls) s
    let badArg := fun position : Nat => go = .next (s.accepted.respond tag 1 .badArg (BitVec.ofNat 32 position) 0)
    let okR := r.toNat ≠ 1 ∧ r.toNat ≤ 250
    let okF := f.toNat ≤ 1000
    let okM := m.toNat ≠ 1 ∧ m.toNat ≤ 8
    let okW := w.toNat ≤ 4
    let bad := fun k : Fin 8 => decls[k].stream = 0 ∨ 4096 < decls[k].length.toNat ∨
      ∃ j : Fin 8, j < k ∧ decls[j].stream = decls[k].stream
    (s.presence.state ≠ .unconfigured →
      go = .next (s.accepted.respond tag 1 .badState (BitVec.ofNat 32 s.presence.state.code) 0)) ∧
    (s.presence.state = .unconfigured →
      (¬ okR → badArg 1) ∧ (okR → ¬ okF → badArg 2) ∧ (okR → okF → ¬ okM → badArg 3) ∧
      (okR → okF → okM → ¬ okW → badArg 4) ∧ (okR → okF → okM → okW → 8 < count.toNat → badArg 5) ∧
      (okR → okF → okM → okW → count.toNat ≤ 8 →
        (∀ k : Fin 8, k.val < count.toNat → bad k → (∀ j : Fin 8, j < k → ¬ bad j) → badArg (16 + k.val)) ∧
        ((∀ k : Fin 8, k.val < count.toNat → ¬ bad k) →
          let c : StationConfig := ⟨if r = 0 then 10 else r.toNat, if f = 0 then 20 else f.toNat,
            if m = 0 then 4 else m.toNat, if w = 0 then 1 else w.toNat, count.toNat⟩
          let table : Vector (Option Entry) 16 := Vector.ofFn fun i => if h : i.val < 8 then
            if i.val < count.toNat then some (.producer (.declared decls[i.val].stream (if decls[i.val].mode then .lockStep else .freeRun)
              decls[i.val].length.toNat c.floor .zero)) else none else none
          go = .next ((({ s.accepted with
              streams := table
              presence := { s.presence with config := some c, state := .configured } } : State).insertEvent
            (.stationState .unconfigured .configured)).respond tag 1 .ok (BitVec.ofNat 32 count.toNat)
              (BitVec.ofNat 32 s.presence.station.val)))))

/-- On a part that is ready: START in CONFIGURED or QUIET, and REJOIN in MUTED, make the station LISTENING with
STATION_STATE inserted, start the listen timer to expire 2R after the event and clear the consecutive-drop count;
START makes the roll count 0 and answers OK with the number of PRESENT peers, REJOIN keeps the roll count and answers
OK with zeros. In any other state each is BAD_STATE with the state's code and changes nothing. (START also clears the
model's mark that a leaving ROLL was placed, which is clear in every state a run reaches.)
(07_presence_and_station_states.md (R120, R124); 08_the_exchange_link.md (R142)) -/
def Obligations.StartAndRejoinListen : Prop :=
  ∀ (tag : Byte) (s : State), s.ready →
    let code := BitVec.ofNat 32 s.presence.state.code
    let due := s.time + BitVec.ofNat 32 (1000 * (2 * s.rollPeriod))
    let peers := ((List.finRange 32).filter fun n => (s.peer n).isPresent).length
    (s.presence.state = .configured ∨ s.presence.state = .quiet → ∃ t : State,
      exec (.start tag) s = .next (t.respond tag 2 .ok (BitVec.ofNat 32 peers) 0) ∧
      t.presence = { s.presence with state := .listening, listenTimer := some due, rollCount := 0, leavingPlaced := false } ∧
      t.events = (s.insertEvent (.stationState s.presence.state .listening)).events ∧ t.link.drops = 0 ∧
      t = { s.accepted.insertEvent (.stationState s.presence.state .listening) with presence := t.presence, link := t.link } ∧
      t.link = { (s.insertEvent (.stationState s.presence.state .listening)).link with drops := 0 }) ∧
    (s.presence.state ≠ .configured → s.presence.state ≠ .quiet →
      exec (.start tag) s = .next (s.accepted.respond tag 2 .badState code 0)) ∧
    (s.presence.state = .muted → ∃ t : State, exec (.rejoin tag) s = .next (t.respond tag 4 .ok 0 0) ∧
      t.presence = { s.presence with state := .listening, listenTimer := some due } ∧
      t.link = { (s.insertEvent (.stationState .muted .listening)).link with drops := 0 } ∧
      t = { s.accepted.insertEvent (.stationState .muted .listening) with presence := t.presence, link := t.link }) ∧
    (s.presence.state ≠ .muted → exec (.rejoin tag) s = .next (s.accepted.respond tag 4 .badState code 0))

/-- On a part that is ready: in ACTIVE the station becomes LEAVING with STATION_STATE inserted, the Publish Queue is
emptied with every queued page's slot back in WRITING, one SENT CANCELLED is inserted for each queued page in posting
order, DROP is placed for each LOCK_STEP consumer entry in JOINING or RECEIVING, and the event ends as every event
does (a boundary, and the test of the LEAVING work); the answer is OK with the numbers of pages cancelled and DROPs
placed. In any other state it is BAD_STATE with the state's code and changes nothing. The test of the LEAVING work
that ends every event: in LEAVING, with no leaving ROLL placed yet, no page in flight, withdrawn close or pass, no
producer entry with a repair tag and no consumer entry with DROP pending, the roll timer stops and the leaving ROLL is
placed, and nothing else changes; with any of that work left, with the leaving ROLL placed, or in any other state,
nothing changes. In LEAVING, with no marker queued, and a frame offered or no repair work and no page, this test is
all that the end of an event does: no page is selected, whatever the queue holds. (07_presence_and_station_states.md
(R122, R123); 03_publishing.md (R51, R59); 02_streams_and_page_numbers.md (R26); 07_presence_and_station_states.md
(R123); 03_publishing.md (R44, R47, R59)) -/
def Obligations.LeaveEntersLeaving : Prop :=
  (∀ (tag : Byte) (s : State), s.ready →
     let pages := s.publish.queue.filterMap fun d => match d.body with
       | .page slot _ _ _ => some (Event.sent (s.streamOf d.entry) slot none .cancelled d.tag, slot)
       | .pause => none
     let leavers := (List.finRange 16).filter fun i => match s.entry i with
       | some (.consumer c) => c.mode == .lockStep && (c.state == .joining || c.state == .receiving)
       | _ => false
     let entered := ({ s.accepted with presence := { s.presence with state := .leaving } } : State).insertEvent
       (.stationState .active .leaving)
     let returned := { pages.foldl (fun t e => t.changeSlot e.2 .writing) entered with publish := { s.publish with queue := [] } }
     let told := (pages.map Prod.fst).foldl State.insertEvent returned
     let dropped := leavers.foldl (fun t i => t.modConsumer i fun c => { c with drop := true }) told
     (s.presence.state = .active → exec (.leave tag) s =
       .next (dropped.settle.respond tag 3 .ok (BitVec.ofNat 32 pages.length) (BitVec.ofNat 32 leavers.length))) ∧
     (s.presence.state ≠ .active →
       exec (.leave tag) s = .next (s.accepted.respond tag 3 .badState (BitVec.ofNat 32 s.presence.state.code) 0))) ∧
  (∀ s : State,
     let work := s.seg.flight ≠ none ∨ s.seg.withdrawn ≠ none ∨ s.seg.pass ≠ none ∨
       (∃ i p, s.entry i = some (.producer p) ∧ p.repairTag ≠ none) ∨ ∃ i c, s.entry i = some (.consumer c) ∧ c.drop = true
     (s.presence.state ≠ .leaving ∨ s.presence.leavingPlaced = true ∨ work → s.testLeaving = s) ∧
     (s.presence.state = .leaving → s.presence.leavingPlaced = false → ¬ work → s.testLeaving = { s with
       presence := { s.presence with rollTimer := none, leavingPlaced := true, rollPending := true } }) ∧
     (s.presence.state = .leaving → (∀ d ∈ s.publish.queue, d.isPause = false) →
       s.seg.offered ≠ none ∨ (s.seg = ⟨none, none, none, none⟩ ∧ ∀ i, s.passWanted i = none) → s.settle = s.testLeaving))

/-- On a part that is ready: in UNCONFIGURED it is BAD_STATE with code 0 and changes nothing. In any other state it is
OK with zeros: STATION_STATE is inserted, the station is CONFIGURED; every slot is FREE with the free list 0 to 31 and
page memory kept; producer entries return to DECLARED at their indexes with counters 0, consumer entries are removed;
the Publish Queue, Segmenter, NOTE out-queue and holding frame are empty; peers, notices, timers, roll counts and
every counter are reset; the events lost counter is 0 even when STATION_STATE finds a full Event Queue (model's
reading of R133, log 19); the configuration, the straps, the command and response queues, staging words, WINDOW, the
Time Base and the line's idleness are kept. (07_presence_and_station_states.md (R133);
01_page_slots_and_page_memory.md (R13); 02_streams_and_page_numbers.md (R37); 03_publishing.md (R60);
08_the_exchange_link.md (R148); 10_the_local_port.md (R171)) -/
def Obligations.RestartResetsTheStation : Prop :=
  ∀ (tag : Byte) (s : State), s.ready →
    (s.presence.state = .unconfigured → exec (.restart tag) s = .next (s.accepted.respond tag 5 .badState 0 0)) ∧
    (s.presence.state ≠ .unconfigured → exec (.restart tag) s = .next (({ s.accepted with
        events := (s.insertEvent (.stationState s.presence.state .configured)).events
        slots := ⟨Vector.replicate 32 .free, List.finRange 32, s.slots.mem⟩
        streams := s.streams.map fun e => match e with
          | some (.producer p) => some (.producer (.declared p.stream p.mode p.maxLen s.floor .zero))
          | _ => none
        publish := ⟨[], 0⟩
        seg := ⟨none, none, none, none⟩
        link := ⟨none, 0, 0, .zero, s.link.lineIdle, []⟩
        notices := Vector.replicate 32 ⟨false, 0, none⟩
        presence := ⟨s.presence.station, s.presence.rate, .configured, s.presence.config, none, none, 0, false, false, none,
          Vector.replicate 32 ⟨false, none, none, false, []⟩⟩ } : State).respond tag 5 .ok 0 0))

/-- On a part that is ready: in UNCONFIGURED CLAIM is BAD_STATE and no slot changes; in every other state, with a free
list that is not empty, its head slot becomes WRITING and leaves the list and the answer is OK with the slot number
and the number of slots left on the list; with an empty free list it is NO_SLOT with both value words 0 and no slot
changes. A granted slot belongs to no stream. Nothing else changes. (R18) -/
def Obligations.ClaimGrantsTheHeadSlot : Prop :=
  ∀ (tag : Byte) (s : State), s.ready →
    (s.presence.state = .unconfigured → exec (.claim tag) s = .next (s.accepted.respond tag 6 .badState 0 0)) ∧
    (s.presence.state ≠ .unconfigured → s.slots.free = [] →
      exec (.claim tag) s = .next (s.accepted.respond tag 6 .noSlot 0 0)) ∧
    (∀ n rest, s.presence.state ≠ .unconfigured → s.slots.free = n :: rest → exec (.claim tag) s =
      .next (({ s.accepted with slots := { s.slots with records := vput s.slots.records n .writing, free := rest } } : State).respond
        tag 6 .ok (BitVec.ofNat 32 n.val) (BitVec.ofNat 32 rest.length))) ∧
    Slot.writing.owner? = none

/-- On a part that is ready, in this order: UNCONFIGURED gives BAD_STATE; a slot number above 31 gives BAD_ARG; a slot
not in WRITING gives BAD_STATE with the slot number and the code of its state; none of these changes a slot. Otherwise
the slot becomes FREE with every field absent and joins the free list tail, and the answer is OK with the slot number
and the number of slots then on the free list. Nothing else changes. (R19) -/
def Obligations.DiscardFreesAWritingSlot : Prop :=
  ∀ (tag slot : Byte) (s : State), s.ready →
    (s.presence.state = .unconfigured → exec (.discard tag slot) s = .next (s.accepted.respond tag 7 .badState 0 0)) ∧
    (s.presence.state ≠ .unconfigured → 31 < slot.toNat →
      exec (.discard tag slot) s = .next (s.accepted.respond tag 7 .badArg 0 0)) ∧
    (∀ n : SlotNum, s.presence.state ≠ .unconfigured → slot.toNat = n.val → s.slot n ≠ .writing → exec (.discard tag slot) s =
      .next (s.accepted.respond tag 7 .badState (BitVec.ofNat 32 n.val) (BitVec.ofNat 32 (s.slot n).code))) ∧
    (∀ n : SlotNum, s.presence.state ≠ .unconfigured → slot.toNat = n.val → s.slot n = .writing → exec (.discard tag slot) s =
      .next (({ s.accepted with slots :=
          { s.slots with records := vput s.slots.records n .free, free := s.slots.free ++ [n] } } : State).respond
        tag 7 .ok (BitVec.ofNat 32 n.val) (BitVec.ofNat 32 (s.slots.free.length + 1))))

/-- On a part that is ready, in a state other than UNCONFIGURED, LEAVING and CONFLICT, for a producer entry that is
not DISPUTED: a slot above 31, a length above the declared maximum or, with NOTE, a target above 32 gives BAD_ARG;
else a slot not in WRITING gives BAD_STATE with slot and state code; else a queue of 16 descriptors gives FULL; none
of these changes anything. Otherwise the slot becomes QUEUED with the entry and the length, a descriptor with the
slot, length, REPORT flag, tail note and tag joins the queue's tail, the event ends as every event does (markers,
boundary), and the answer is OK with the number of descriptors then in the queue and the number of the stream's
descriptors ahead. (03_publishing.md (R38, R39, R40); 01_page_slots_and_page_memory.md (R8)) -/
def Obligations.PublishPostsAPage : Prop :=
  ∀ (tag b slot target code : Byte) (report note : Bool) (length : Half) (id : StreamId) (i : EntryIx) (p : Producer) (s : State),
    s.ready → s.presence.state ∉ [.unconfigured, .leaving, .conflict] → b.toNat = id.toNat → id ≠ 0 →
    s.findStream id = some i → s.entry i = some (.producer p) → p.state ≠ .disputed →
    let go := exec (.publish tag b slot report note length target code) s
    let badTarget := note = true ∧ 32 < target.toNat
    let tail : Option Note := if note then
      if h : target.toNat < 32 then some ⟨.one ⟨target.toNat, h⟩, code⟩ else some ⟨.all, code⟩ else none
    (31 < slot.toNat ∨ p.maxLen < length.toNat ∨ badTarget → go = .next (s.accepted.respond tag 8 .badArg 0 0)) ∧
    (∀ n : SlotNum, slot.toNat = n.val → length.toNat ≤ p.maxLen → ¬ badTarget →
      (s.slot n ≠ .writing →
        go = .next (s.accepted.respond tag 8 .badState (BitVec.ofNat 32 n.val) (BitVec.ofNat 32 (s.slot n).code))) ∧
      (s.slot n = .writing → s.publish.queue.length = 16 → go = .next (s.accepted.respond tag 8 .full 0 0)) ∧
      (s.slot n = .writing → s.publish.queue.length < 16 →
        go = .next (({ s.accepted with
            slots := { s.slots with records := vput s.slots.records n (.queued i length.toNat) }
            publish := ⟨s.publish.queue ++ [⟨i, tag, s.publish.nextSeq, .page n length.toNat report tail⟩],
              s.publish.nextSeq + 1⟩ } : State).settle.respond tag 8 .ok (BitVec.ofNat 32 (s.publish.queue.length + 1))
              (BitVec.ofNat 32 (s.publish.queue.countP fun d => d.entry == i)))))

/-- On a part that is ready, in a state other than UNCONFIGURED, LEAVING and CONFLICT, for a producer entry that is
not DISPUTED: a queue of 16 descriptors gives FULL and changes nothing; otherwise a pause marker joins the queue's
tail, no slot changes, the event ends as every event does, and the answer is OK with the number of descriptors then in
the queue and the number of the stream's descriptors ahead. On a MUTED station with an empty queue and the entry OPEN
and IDLE, that end of the event is the marker's effect alone: the queue is empty again, the paused flag is set and
PAUSED with the tag is inserted. For an entry that is not an OPEN producer entry in IDLE, or of whose stream no marker
is the oldest descriptor, no marker takes effect. For an OPEN one in IDLE whose stream's oldest descriptor is a marker
that no further marker follows directly, the marker leaves the queue, the paused flag is set and PAUSED with the
marker's tag is inserted, and nothing else changes; with further markers of the stream directly behind it, they take
effect after it in the same event, each leaving the queue and inserting its own PAUSED. On a part that is ready, in a
state other than UNCONFIGURED, for a producer entry that is not DISPUTED: the paused flag is cleared, the event ends
as every event does (so a selection may follow), and the answer is OK with 1 if the flag was set and 0 if not, and the
number of the stream's descriptors in the queue before that selection (model's choice, log 31). (03_publishing.md
(R38, R39, R41, R42); 03_publishing.md (R42); 03_publishing.md (R43)) -/
def Obligations.PausesAreSetAndCleared : Prop :=
  (∀ (tag b : Byte) (id : StreamId) (i : EntryIx) (p : Producer) (s : State),
     s.ready → s.presence.state ∉ [.unconfigured, .leaving, .conflict] → b.toNat = id.toNat → id ≠ 0 →
     s.findStream id = some i → s.entry i = some (.producer p) → p.state ≠ .disputed →
     let go := exec (.publishPause tag b) s
     let ahead := BitVec.ofNat 32 (s.publish.queue.countP fun d => d.entry == i)
     (s.publish.queue.length = 16 → go = .next (s.accepted.respond tag 8 .full 0 0)) ∧
     (s.publish.queue.length < 16 → go = .next (({ s.accepted with
         publish := ⟨s.publish.queue ++ [⟨i, tag, s.publish.nextSeq, .pause⟩], s.publish.nextSeq + 1⟩ } : State).settle.respond
           tag 8 .ok (BitVec.ofNat 32 (s.publish.queue.length + 1)) ahead)) ∧
     (s.publish.queue = [] → s.presence.state = .muted → p.state = .opened → p.phase = some .idle → go = .next
       ((({ s.accepted with
           publish := ⟨[], s.publish.nextSeq + 1⟩
           streams := vput s.streams i (some (.producer { p with paused := true })) } : State).insertEvent
         (.paused id tag)).respond tag 8 .ok 1 0))) ∧
  (∀ (i : EntryIx) (s : State),
     let mine := s.publish.queue.filter fun d => d.entry == i
     ((∀ p, s.entry i = some (.producer p) → ¬ (p.state = .opened ∧ p.phase = some .idle)) → State.applyMarkers i s = s) ∧
     ((∀ d ∈ mine.head?, d.isPause = false) → State.applyMarkers i s = s) ∧
     (∀ p d rest, s.entry i = some (.producer p) → p.state = .opened → p.phase = some .idle → mine = d :: rest →
       d.isPause = true → (∀ e ∈ rest.head?, e.isPause = false) → State.applyMarkers i s = ({ s with
         publish := { s.publish with queue := s.publish.queue.erase d }
         streams := vput s.streams i (some (.producer { p with paused := true })) } : State).insertEvent (.paused p.stream d.tag)) ∧
     (∀ p d rest, s.entry i = some (.producer p) → p.state = .opened → p.phase = some .idle → mine = d :: rest →
       d.isPause = true → (∀ e ∈ rest.head?, e.isPause = true) → State.applyMarkers i s = State.applyMarkers i (({ s with
         publish := { s.publish with queue := s.publish.queue.erase d }
         streams := vput s.streams i (some (.producer { p with paused := true })) } : State).insertEvent (.paused p.stream d.tag)))) ∧
  (∀ (tag b : Byte) (id : StreamId) (i : EntryIx) (p : Producer) (s : State), s.ready → s.presence.state ≠ .unconfigured →
     b.toNat = id.toNat → id ≠ 0 → s.findStream id = some i → s.entry i = some (.producer p) → p.state ≠ .disputed →
     exec (.resume tag b) s = .next
       (({ s.accepted with streams := vput s.streams i (some (.producer { p with paused := false })) } : State).settle.respond
         tag 9 .ok (if p.paused then 1 else 0) (BitVec.ofNat 32 (s.publish.queue.countP fun d => d.entry == i))))

/-- On a part that is ready, in a state other than UNCONFIGURED, for a producer entry that is not DISPUTED. With no
page of the stream in flight, or one whose CLOSE NORMAL is offered: every descriptor of the stream leaves the queue,
its pages' slots return to WRITING, one SENT CANCELLED per page is inserted in posting order, the event ends as every
event does, and the answer is OK with the number of descriptors removed and 0. With a page of the stream in flight
whose close is not offered, posted before the queued ones: in addition the page is withdrawn (slot WRITING, no page in
flight, a withdrawn close with its page number, length and check, entry IDLE without its SENDING slot, its repair set
tagged with the page emptied and its tag made absent, one more page lost; R90 says so of this set and so qualifies
R53, by which the repair set does not change), its SENT CANCELLED with the page number comes first, and the second
value word is 1. (03_publishing.md (R51, R53, R54); 01_page_slots_and_page_memory.md (R8, R9); 05_repair.md (R90)) -/
def Obligations.CancelCompletesTheStream : Prop :=
  ∀ (tag b : Byte) (id : StreamId) (i : EntryIx) (p : Producer) (s : State), s.ready → s.presence.state ≠ .unconfigured →
    b.toNat = id.toNat → id ≠ 0 → s.findStream id = some i → s.entry i = some (.producer p) → p.state ≠ .disputed →
    let mine := s.publish.queue.filter fun d => d.entry == i
    let pages := mine.filterMap fun d => match d.body with
      | .page slot _ _ _ => some (Event.sent id slot none .cancelled d.tag, slot)
      | .pause => none
    let returned := { pages.foldl (fun t e => t.changeSlot e.2 .writing) s.accepted with
      publish := { s.publish with queue := s.publish.queue.filter fun d => !(d.entry == i) } }
    ((∀ f, s.seg.flight = some f → f.entry = i → f.closeOffered = true) → exec (.cancel tag b) s =
      .next (((pages.map Prod.fst).foldl State.insertEvent returned).settle.respond tag 10 .ok (BitVec.ofNat 32 mine.length) 0)) ∧
    (∀ f, s.seg.flight = some f → f.entry = i → f.closeOffered = false → p.state = .opened →
      (∀ d ∈ mine, f.seq < d.seq) →
      let withdrawn := ({ returned.changeSlot f.slot .writing with
        streams := vput s.streams i (some (.producer { p with
          sending := none, phase := some .idle, counters := { p.counters with lost := satInc p.counters.lost }
          repairSet := if p.repairTag = some f.page then 0 else p.repairSet
          repairTag := if p.repairTag = some f.page then none else p.repairTag }))
        seg := { s.seg with flight := none, withdrawn := some ⟨id, f.page, f.len, f.check⟩ } } : State)
      exec (.cancel tag b) s = .next
        (((Event.sent id f.slot (some f.page) .cancelled f.tag :: pages.map Prod.fst).foldl State.insertEvent withdrawn).settle.respond
          tag 10 .ok (BitVec.ofNat 32 mine.length) 1))

/-- On a part that is ready, in this order: UNCONFIGURED is BAD_STATE; a stream identifier of 0 or above 63, or a mode
above 1, is BAD_ARG; an entry in use for the identifier is EXISTS with its index; no unused entry is FULL; none of
these changes the table. Otherwise the lowest unused entry becomes a consumer entry of the identifier and mode:
WAITING with number 32 in the answer when no PRESENT peer claims the stream, or on a LOCK_STEP entry of a LEAVING or
QUIET station; else with the lowest claimant as producer of record, RECEIVING for FREE_RUN and JOINING with TAKE
pending for LOCK_STEP. The answer is OK with the entry's index and the producer of record.
(02_streams_and_page_numbers.md (R25, R32, R34)) -/
def Obligations.SubscribeCreatesAnEntry : Prop :=
  ∀ (tag b mode : Byte) (s : State), s.ready →
    let go := exec (.subscribe tag b mode) s
    let answer := fun (r : Result) (v1 v2 : Word) => (.next (s.accepted.respond tag 11 r v1 v2) : Host.Outcome State Fault Refusal)
    (s.presence.state = .unconfigured → go = answer .badState 0 0) ∧
    (s.presence.state ≠ .unconfigured → b = 0 ∨ 63 < b.toNat ∨ 1 < mode.toNat → go = answer .badArg 0 0) ∧
    (∀ id : StreamId, s.presence.state ≠ .unconfigured → b.toNat = id.toNat → id ≠ 0 → mode.toNat ≤ 1 →
      let m : Mode := if mode = 0 then .freeRun else .lockStep
      (∀ i, s.findStream id = some i → go = answer .exists_ (BitVec.ofNat 32 i.val) 0) ∧
      (s.findStream id = none → (∀ i : EntryIx, s.entry i ≠ none) → go = answer .full 0 0) ∧
      (∀ i : EntryIx, s.findStream id = none → s.entry i = none → (∀ j : EntryIx, j < i → s.entry j ≠ none) →
        let created := fun c : Consumer => ({ s.accepted with streams := vput s.streams i (some (.consumer c)) } : State)
        let fresh := Consumer.created id m
        (s.claimants id = [] ∨ (m = .lockStep ∧ s.presence.state ∈ [.leaving, .quiet]) → go =
          .next ((created fresh).respond tag 11 .ok (BitVec.ofNat 32 i.val) 32)) ∧
        (∀ n rest, s.claimants id = n :: rest → m = .freeRun → go = .next ((created { fresh with
          producer := some n, state := .receiving }).respond tag 11 .ok (BitVec.ofNat 32 i.val) (BitVec.ofNat 32 n.val))) ∧
        (∀ n rest, s.claimants id = n :: rest → m = .lockStep → s.presence.state ∉ [.leaving, .quiet] → go =
          .next ((created { fresh with producer := some n, state := .joining, take := true }).respond tag 11 .ok
            (BitVec.ofNat 32 i.val) (BitVec.ofNat 32 n.val)))))

/-- On a part that is ready, in a state other than UNCONFIGURED, for a consumer entry: DEPARTING is BAD_STATE; else a
HELD slot gives HELD with its number; neither changes anything. Otherwise, while the holding frame holds no frame of
the entry, its READY and FILLING slots become FREE in ascending order, and the entry is removed at once unless it is a
LOCK_STEP entry in JOINING or RECEIVING on a station that is ACTIVE or LEAVING, which becomes DEPARTING with DROP
pending, its timer stopped and no TAKE, GAP or FREE pending. The answer is OK with the index and 1 for DEPARTING, 0
for removed. The event ends as every event does. After it the free list is the old list with those of the two slots
that were not FREE behind it, in ascending number. Of any event whose slots join the free list in ascending order: the
list after it is the old list, then the slots it freed in ascending number, and nothing else changes by that order.
(02_streams_and_page_numbers.md (R35, R36); 01_page_slots_and_page_memory.md (R3, R12)) -/
def Obligations.UnsubscribeEndsAnEntry : Prop :=
  ∀ (tag b : Byte) (id : StreamId) (i : EntryIx) (c : Consumer) (s : State), s.ready → s.presence.state ≠ .unconfigured →
    b.toNat = id.toNat → id ≠ 0 → s.findStream id = some i → s.entry i = some (.consumer c) →
    let go := exec (.unsubscribe tag b) s
    let departs := c.mode = .lockStep ∧ (c.state = .joining ∨ c.state = .receiving) ∧ s.presence.state ∈ [.active, .leaving]
    (c.state = .departing → go = .next (s.accepted.respond tag 12 .badState 0 0)) ∧
    (∀ n, c.state ≠ .departing → c.held = some n → go = .next (s.accepted.respond tag 12 .held (BitVec.ofNat 32 n.val) 0)) ∧
    (c.state ≠ .departing → c.held = none → (∀ h, s.link.holding = some h → h.source.entry? ≠ some i) →
      let freed := (s.accepted.freeRef c.ready).freeRef c.filling
      (departs → go = .next ((s.joinAscending ({ freed with streams := vput s.streams i (some (.consumer { c with
          ready := none, earlier := { c.earlier with ready := false }, filling := none, timer := none, take := false, gap := none, free := none, state := .departing,
          drop := true })) } : State).settle).respond tag 12 .ok (BitVec.ofNat 32 i.val) 1)) ∧
      (¬ departs → go = .next ((s.joinAscending ({ freed with streams := vput s.streams i none } : State).settle).respond
        tag 12 .ok (BitVec.ofNat 32 i.val) 0))) ∧
    (c.state ≠ .departing → c.held = none → (∀ h, s.link.holding = some h → h.source.entry? ≠ some i) →
      ∃ t, go = .next t ∧ t.slots.free = s.slots.free ++ (List.finRange 32).filter fun n =>
        decide ((c.ready = some n ∨ c.filling = some n) ∧ s.slot n ≠ .free)) ∧
    (∀ (u : State) (freed : List SlotNum), u.slots.free = s.slots.free ++ freed → ∃ l : List SlotNum,
      l.Perm freed ∧ l.Pairwise (· ≤ ·) ∧ s.joinAscending u = { u with slots := { u.slots with free := s.slots.free ++ l } })

/-- On a part that is ready, in a state other than UNCONFIGURED, with selector NEWEST (0) or KEEP (1), for a consumer
entry. No READY slot: NO_NEWER, and only the ready-notified flag is cleared. A READY slot and no HELD slot: the READY
slot becomes HELD (a page of an earlier producer of record stays one), the skip count becomes 0, the ready-notified
flag is cleared, and the answer is OK with slot and page, length and skip count. Both, on a FREE_RUN entry with
NEWEST: the HELD slot becomes FREE first. Both, otherwise: HELD, and nothing changes. Bits of the answer that no field
covers are 0 (model's reading, log 41). (04_receiving_and_delivery.md (R78, R79); 01_page_slots_and_page_memory.md
(R12); 11_formats_and_register_map.md (11.3)) -/
def Obligations.AcquireHoldsTheReadyPage : Prop :=
  ∀ (tag b sel : Byte) (id : StreamId) (i : EntryIx) (c : Consumer) (s : State), s.ready → s.presence.state ≠ .unconfigured →
    b.toNat = id.toNat → id ≠ 0 → sel.toNat ≤ 1 → s.findStream id = some i → s.entry i = some (.consumer c) →
    let go := exec (.acquire tag b sel) s
    let slotPage := fun (n : Nat) (page : PageNum) => (BitVec.ofNat 32 n ||| page.setWidth 32 <<< 16)
    let pair := fun (low : Nat) => (BitVec.ofNat 32 low ||| c.skipCount.setWidth 32 <<< 16)
    let with' := fun (t : State) (d : Consumer) => ({ t with streams := vput s.streams i (some (.consumer d)) } : State)
    let taken := fun (t : State) (n : SlotNum) (j : EntryIx) (page : PageNum) (len : Nat) =>
      ((with' t { c with
        ready := none, held := some n, earlier := ⟨false, c.earlier.ready, c.earlier.released⟩, skipCount := 0, readyNotified := false }).changeSlot n
        (.held j page len)).respond tag 13 .ok (slotPage n.val page) (pair len)
    (c.ready = none → c.held = none → go =
      .next ((with' s.accepted { c with readyNotified := false }).respond tag 13 .noNewer 32 (pair 0))) ∧
    (∀ h j page len, c.ready = none → c.held = some h → s.slot h = .held j page len → go =
      .next ((with' s.accepted { c with readyNotified := false }).respond tag 13 .noNewer (slotPage h.val page) (pair 0))) ∧
    (∀ n j page len, c.ready = some n → s.slot n = .ready j page len → len ≤ 4096 →
      (c.held = none → go = .next (taken s.accepted n j page len)) ∧
      (∀ h, c.held = some h → h ≠ n → c.mode = .freeRun → sel = 0 →
        go = .next (taken (s.accepted.freeSlot h) n j page len)) ∧
      (∀ h k q m, c.held = some h → s.slot h = .held k q m → (c.mode = .lockStep ∨ sel = 1) → go =
        .next (s.accepted.respond tag 13 .held (slotPage h.val q) (pair page.toNat))))

/-- On a part that is ready, in a state other than UNCONFIGURED, for a consumer entry: no HELD slot is BAD_STATE and
changes nothing. Otherwise the HELD slot becomes FREE and joins the free list tail, the last released page number is
the released page's, and, on a LOCK_STEP entry in RECEIVING whose last completed page it is, FREE is set pending with
that number and the lost flag clear (never for a page held from a producer of record that has since been replaced,
whatever its number); the answer is OK with slot and page, and 1 or 0 for the FREE (bits that no field covers are 0,
log 41). Nothing else changes, but that an attempt of the entry's FREE that is on the line is marked as carrying
replaced content (R138). (04_receiving_and_delivery.md (R80, R81); 01_page_slots_and_page_memory.md (R12);
02_streams_and_page_numbers.md (R27)) -/
def Obligations.ReleaseFreesTheHeldPage : Prop :=
  ∀ (tag b : Byte) (id : StreamId) (i : EntryIx) (c : Consumer) (s : State), s.ready → s.presence.state ≠ .unconfigured →
    b.toNat = id.toNat → id ≠ 0 → s.findStream id = some i → s.entry i = some (.consumer c) →
    let go := exec (.release tag b) s
    let sets := fun page : PageNum => c.mode = .lockStep ∧ c.state = .receiving ∧ c.lastCompleted = some page ∧ c.earlier.held = false
    let next := fun (n : SlotNum) (page : PageNum) (free : Option (PageNum × Bool)) =>
      ({ s.accepted.freeSlot n with streams := vput s.streams i (some (.consumer { c with
          held := none, lastReleased := some page, earlier := ⟨c.earlier.ready, false, c.earlier.held⟩, free := free })) } : State)
    let slotPage := fun (n : SlotNum) (page : PageNum) => (BitVec.ofNat 32 n.val ||| page.setWidth 32 <<< 16)
    (c.held = none → go = .next (s.accepted.respond tag 14 .badState 0 0)) ∧
    (∀ n j page len, c.held = some n → s.slot n = .held j page len →
      (¬ sets page → go = .next ((next n page c.free).respond tag 14 .ok (slotPage n page) 0)) ∧
      (sets page → go = .next (((next n page (some (page, false))).contentReplaced (.free i)
        (.free id s.presence.station page false)).respond tag 14 .ok (slotPage n page) 1)) ∧
      ((∀ h, s.link.holding = some h → h.source ≠ .free i ∨ h.phase = .held) → ∀ x,
        (next n page x).contentReplaced (.free i) (.free id s.presence.station page false) = next n page x))

/-- On a part that is ready, in this order: UNCONFIGURED or CONFLICT is BAD_STATE; a target above 32 or a code above
255 is BAD_ARG; an out-queue of 8 notes is FULL; none of these changes anything. Otherwise the note (to a station 0 to
31, or to ALL for 32) joins the tail of the NOTE out-queue and nothing else changes, and the answer is OK with the
number of notes then in the out-queue. On a part that is ready: UNCONFIGURED is BAD_STATE and an empty set BAD_ARG,
and neither changes anything. Otherwise the sources of the set whose pending flag is set, the four lowest of them at
most, lose their pending flag, their count becomes 0 and their last code is kept; every other entry and everything
else keeps its value; the answer is OK with the set of the sources cleared and their last codes, the i-th cleared
source's in byte i. (09_notices.md (R153, R155); 09_notices.md (R152)) -/
def Obligations.NotesAreQueuedAndCleared : Prop :=
  (∀ (tag target : Byte) (code : Word) (s : State), s.ready →
     let go := exec (.sendNote tag target code) s
     let bad := 32 < target.toNat ∨ 255 < code.toNat
     (s.presence.state ∈ [.unconfigured, .conflict] → go = .next (s.accepted.respond tag 15 .badState 0 0)) ∧
     (s.presence.state ∉ [.unconfigured, .conflict] → bad → go = .next (s.accepted.respond tag 15 .badArg 0 0)) ∧
     (s.presence.state ∉ [.unconfigured, .conflict] → ¬ bad → s.link.notes.length = 8 →
       go = .next (s.accepted.respond tag 15 .full 0 0)) ∧
     (∀ t : NoteTarget, s.presence.state ∉ [.unconfigured, .conflict] → code.toNat ≤ 255 → s.link.notes.length < 8 →
       (target = 32 ∧ t = .all ∨ ∃ n : Station, target.toNat = n.val ∧ t = .one n) → go =
         .next (({ s.accepted with link := { s.link with notes := s.link.notes ++ [⟨t, code.setWidth 8⟩] } } : State).respond
           tag 15 .ok (BitVec.ofNat 32 (s.link.notes.length + 1)) 0))) ∧
  (∀ (tag : Byte) (sources : Word) (s : State), s.ready →
     let go := exec (.clearNotice tag sources) s
     let cleared := (((List.finRange 32).filter fun n : Station => sources.getLsbD n.val && s.notices[n].pending).take 4)
     (s.presence.state = .unconfigured → go = .next (s.accepted.respond tag 16 .badState 0 0)) ∧
     (s.presence.state ≠ .unconfigured → sources = 0 → go = .next (s.accepted.respond tag 16 .badArg 0 0)) ∧
     (s.presence.state ≠ .unconfigured → sources ≠ 0 → ∃ (v : Vector Notice 32) (set codes : Word),
       go = .next (({ s.accepted with notices := v } : State).respond tag 16 .ok set codes) ∧
       (∀ n : Station, v[n] = if n ∈ cleared then { s.notices[n] with pending := false, count := 0 } else s.notices[n]) ∧
       (∀ n : Station, set.getLsbD n.val = decide (n ∈ cleared)) ∧
       (∀ k : Fin 4, codes.extractLsb' (8 * k.val) 8 = ((cleared[k.val]?).bind fun n => s.notices[n].lastCode).getD 0)))

/-- On a part that is ready: a selector above 4, an index outside its range or a part above the last (2, 4, 5, 1, 3)
is BAD_ARG with zeros; any other is OK and answers that part; neither changes more than the response queue and the
refused flag. With queues and free list within their bounds: STATION 0 shows state code, station number, strap code
and roll count, then drop count and the numbers of free slots, descriptors and notes; COUNTERS 1 retries and frames
dropped; PEER 0 PRESENT, leaving flag, number of claims, last roll count or FFFFh, then the notice's pending flag,
count and last code or FFFFh; SLOT 0 state code, owner or 1Fh, GAP count or 3, length or 1FFFh, then the page number;
STREAM 3 of a producer entry its member and release-awaited sets, STREAM 4 its release and repair sets. In any state,
each number as far as its field reaches: STATION 1 shows R, W, M, F and the declaration count, zeros without a
configuration; STATION 2 the listen timer and the CONFLICT roll count or FFFFh; COUNTERS 0, 2, 3 their counters; PEER
1 to 4 two claims each, one beyond the list stream and page number 0, mode bit set (log 18); SLOT 1 of a FILLING slot
its received set and count, else all ones (log 18). STREAM 0 shows in use, role, stream, mode, state, page phase and
slots, of an unused entry not in use, stream 0, all ones and 32 for the slots (log 18); STREAM 1 of a producer entry
next and last closed page numbers, paused flag and pace estimate, of a consumer entry producer of record and its three
page numbers; STREAM 2 the counters; STREAM 3 of a consumer entry its timer, skip count, join tries, ready-notified
flag and what is pending; STREAM 5 of a producer entry the repair tag, passes, pass in progress, prompt-sent flag,
what is pending and the release timer; STREAM 4, 5 of a consumer entry, 1 to 5 of an unused one, zeros. An absent slot
or station reads 32, an absent page number or stopped timer 0, a running one its remainder. Bits that no field covers
are 0 (log 41). (10_the_local_port.md (R163, R164); 11_formats_and_register_map.md (11.4, R174); 10_the_local_port.md
(R164); 11_formats_and_register_map.md (11.2, 11.4, R174)) -/
def Obligations.ReadStatusReadsTheParts : Prop :=
  (∀ (tag selector index part : Byte) (s : State), s.ready →
     let inRange := match selector.toNat with
       | 0 => index = 0 ∧ part.toNat ≤ 2
       | 1 => index.toNat ≤ 31 ∧ part.toNat ≤ 4
       | 2 => index.toNat ≤ 15 ∧ part.toNat ≤ 5
       | 3 => index.toNat ≤ 31 ∧ part.toNat ≤ 1
       | 4 => index = 0 ∧ part.toNat ≤ 3
       | _ => False
     let answer := fun (r : Result) (x : Part) => ({ s.accepted with port := { s.accepted.port with respQueue :=
       s.port.respQueue ++ [⟨tag, 17, r, x.presence, x.paused, x.value1, x.value2⟩] } } : State)
     (¬ inRange → exec (.readStatus tag selector index part) s = .next (answer .badArg ⟨0, 0, 0, false⟩)) ∧
     (inRange → ∃ x, s.statusPart selector.toNat index.toNat part.toNat = some x ∧
       exec (.readStatus tag selector index part) s = .next (answer .ok x))) ∧
  (∀ s : State, s.Bounded → s.slots.free.length ≤ 32 →
     (∃ a b, s.statusPart 0 0 0 = some ⟨a, b, 0, false⟩ ∧ (a.extractLsb' 0 8).toNat = s.presence.state.code ∧
       (a.extractLsb' 8 8).toNat = s.presence.station.val ∧ (a.extractLsb' 16 8).toNat = s.presence.rate.toNat ∧
       a.extractLsb' 24 8 = s.presence.rollCount ∧ (b.extractLsb' 0 8).toNat = s.link.drops ∧
       (b.extractLsb' 8 8).toNat = s.slots.free.length ∧ (b.extractLsb' 16 8).toNat = s.publish.queue.length ∧
       (b.extractLsb' 24 8).toNat = s.link.notes.length) ∧
     s.statusPart 4 0 1 = some ⟨s.link.counters.retries, s.link.counters.framesDropped, 0, false⟩ ∧
     (∀ n : Station, ∃ a b, s.statusPart 1 n.val 0 = some ⟨a, b, 0, false⟩ ∧ a.getLsbD 0 = (s.peer n).isPresent ∧
       a.getLsbD 1 = (s.peer n).leaving ∧ a.extractLsb' 2 2 = 0 ∧
       (a.extractLsb' 4 4).toNat = (s.peer n).claims.length % 16 ∧ a.extractLsb' 8 8 = 0 ∧
       (a.extractLsb' 16 16).toNat = ((s.peer n).lastCount.map BitVec.toNat).getD 0xFFFF ∧
       b.getLsbD 0 = s.notices[n].pending ∧ b.extractLsb' 1 7 = 0 ∧ b.extractLsb' 8 8 = s.notices[n].count ∧
       (b.extractLsb' 16 16).toNat = (s.notices[n].lastCode.map BitVec.toNat).getD 0xFFFF) ∧
     (∀ (n : SlotNum), ((s.slot n).len?.getD 0) ≤ 4096 → ((s.slot n).gaps?.getD 0) ≤ 2 → ∃ a b pr,
       s.statusPart 3 n.val 0 = some ⟨a, b, pr, false⟩ ∧ (a.extractLsb' 0 4).toNat = (s.slot n).code ∧
       (a.extractLsb' 4 5).toNat = ((s.slot n).owner?.map Fin.val).getD 0x1F ∧
       (a.extractLsb' 9 2).toNat = (s.slot n).gaps?.getD 3 ∧ (a.extractLsb' 16 13).toNat = (s.slot n).len?.getD 0x1FFF ∧
       a.extractLsb' 11 5 = 0 ∧ a.extractLsb' 29 3 = 0 ∧
       b.extractLsb' 0 16 = (s.slot n).page?.getD 0 ∧ b.extractLsb' 16 16 = 0 ∧ (pr = if (s.slot n).page?.isSome then 4 else 0)) ∧
     (∀ (i : EntryIx) (p : Producer), s.entry i = some (.producer p) →
       s.statusPart 2 i.val 3 = some ⟨p.members, p.awaited, 0, false⟩ ∧
       s.statusPart 2 i.val 4 = some ⟨p.released, p.repairSet, 0, false⟩)) ∧
  (∀ s : State,
     let left := fun t : Option Micros => match t with | none => (0 : Word) | some x => if isDue s.time x then 0 else x - s.time
     let field := fun (w : Word) (lo width n : Nat) => (w.extractLsb' lo width).toNat = n % 2 ^ width
     let page := fun (w : Word) (lo : Nat) (p : Option PageNum) => w.extractLsb' lo 16 = p.getD 0
     let bit := fun (k : Nat) (p : Option PageNum) => (if p.isSome then 1#4 <<< k else 0)
     let number := fun n : Option (Fin 32) => (n.map Fin.val).getD 32
     let refs := fun (w : Word) (x y z : Option SlotNum) => field w 0 6 (number x) ∧ w.extractLsb' 6 2 = 0 ∧
       field w 8 6 (number y) ∧ w.extractLsb' 14 2 = 0 ∧ field w 16 6 (number z) ∧ w.extractLsb' 22 10 = 0
     let claim := fun (w : Word) (c : Option Claim) => match c with
       | none => w = 0x80
       | some c => w.extractLsb' 0 6 = c.stream ∧ w.getLsbD 6 = false ∧ w.getLsbD 7 = (c.mode == .lockStep) ∧
         w.extractLsb' 8 8 = 0 ∧ page w 16 c.lastClosed
     (∀ c, s.presence.config = some c → ∃ a b, s.statusPart 0 0 1 = some ⟨a, b, 0, false⟩ ∧ field a 0 8 c.rollPeriod ∧
       field a 8 8 c.wait ∧ field a 16 8 c.mult ∧ a.extractLsb' 24 8 = 0 ∧ field b 0 16 c.floor ∧
       field b 16 8 c.declarations ∧ b.extractLsb' 24 8 = 0) ∧
     (s.presence.config = none → s.statusPart 0 0 1 = some ⟨0, 0, 0, false⟩) ∧
     s.statusPart 0 0 2 = some ⟨left s.presence.listenTimer,
       ((s.presence.conflictCount.map fun x => x.setWidth 32).getD 0xFFFF), 0, false⟩ ∧
     s.statusPart 4 0 0 = some ⟨s.link.counters.framesReceived, s.link.counters.checkFailures, 0, false⟩ ∧
     s.statusPart 4 0 2 = some ⟨s.link.counters.arbitrationLosses, s.link.counters.staleSegments, 0, false⟩ ∧
     s.statusPart 4 0 3 = some ⟨s.link.counters.lateFrees, s.link.counters.eventsLost, 0, false⟩ ∧
     (∀ (n : Station) (k : Fin 4), let x := (s.peer n).claims[2 * k.val]?
       let y := (s.peer n).claims[2 * k.val + 1]?
       ∃ a b, s.statusPart 1 n.val (k.val + 1) =
         some ⟨a, b, bit 1 (x.bind (·.lastClosed)) ||| bit 3 (y.bind (·.lastClosed)), false⟩ ∧ claim a x ∧ claim b y) ∧
     (∀ (n : SlotNum), (∀ o p l r g, s.slot n = .filling o p l r g → s.statusPart 3 n.val 1 =
         some ⟨r, BitVec.ofNat 32 ((List.range 32).filter fun k => r.getLsbD k).length, 0, false⟩) ∧
       ((∀ o p l r g, s.slot n ≠ .filling o p l r g) → s.statusPart 3 n.val 1 = some ⟨0xFFFFFFFF, 0xFF, 0, false⟩)) ∧
     (∀ (i : EntryIx) (p : Producer), s.entry i = some (.producer p) →
       (∃ a b, s.statusPart 2 i.val 0 = some ⟨a, b, 0, false⟩ ∧ a.getLsbD 0 = true ∧ a.getLsbD 1 = false ∧
         a.extractLsb' 2 6 = p.stream ∧ a.getLsbD 8 = (p.mode == .lockStep) ∧
         field a 9 3 (match p.state with | .declared => 0 | .opened => 1 | .disputed => 2) ∧
         field a 12 2 (match p.phase with | some .idle => 0 | some .sending => 1 | some .awaitingRelease => 2 | none => 3) ∧
         a.extractLsb' 14 18 = 0 ∧ refs b p.sending p.retained none) ∧
       (∃ a b, s.statusPart 2 i.val 1 = some ⟨a, b, 1 ||| bit 1 p.lastClosed, p.paused⟩ ∧ page a 0 (some p.nextPage) ∧
         page a 16 p.lastClosed ∧ field b 0 16 p.pace ∧ b.extractLsb' 16 16 = 0) ∧
       (∃ a b, s.statusPart 2 i.val 2 = some ⟨a, b, 0, false⟩ ∧ a.extractLsb' 0 16 = p.counters.closed ∧
         a.extractLsb' 16 16 = p.counters.skipped ∧ b.extractLsb' 0 16 = p.counters.lost ∧
         b.extractLsb' 16 16 = p.counters.repairs) ∧
       (∃ a, s.statusPart 2 i.val 5 = some ⟨a, left (p.timer.map (·.expiry)), bit 0 p.repairTag, false⟩ ∧ page a 0 p.repairTag ∧
         field a 16 2 p.repairPasses ∧ (a.getLsbD 18 = true ↔ ∃ ps, s.seg.pass = some ps ∧ ps.entry = i) ∧
         a.getLsbD 19 = p.promptSent ∧ field a 20 4 p.admits.length ∧ field a 24 4 p.cuts.length ∧
         field a 28 3 p.gones.length ∧ a.getLsbD 31 = p.prompt)) ∧
     (∀ (i : EntryIx) (c : Consumer), s.entry i = some (.consumer c) →
       (∃ a b, s.statusPart 2 i.val 0 = some ⟨a, b, 0, false⟩ ∧ a.getLsbD 0 = true ∧ a.getLsbD 1 = true ∧
         a.extractLsb' 2 6 = c.stream ∧ a.getLsbD 8 = (c.mode == .lockStep) ∧
         field a 9 3 (match c.state with | .waiting => 0 | .joining => 1 | .receiving => 2 | .expelled => 3 | .departing => 4) ∧
         field a 12 2 3 ∧ a.extractLsb' 14 18 = 0 ∧ refs b c.filling c.ready c.held) ∧
       (∃ a b, s.statusPart 2 i.val 1 =
           some ⟨a, b, bit 1 c.firstAdmitted ||| bit 2 c.lastCompleted ||| bit 3 c.lastReleased, false⟩ ∧
         field a 0 6 (number c.producer) ∧ a.extractLsb' 6 10 = 0 ∧ page a 16 c.firstAdmitted ∧ page b 0 c.lastCompleted ∧ page b 16 c.lastReleased) ∧
       (∃ a b, s.statusPart 2 i.val 2 = some ⟨a, b, 0, false⟩ ∧ a.extractLsb' 0 16 = c.counters.completed ∧
         a.extractLsb' 16 16 = c.counters.skipped ∧ b.extractLsb' 0 16 = c.counters.lost ∧
         b.extractLsb' 16 16 = c.counters.repairs) ∧
       (∃ b, s.statusPart 2 i.val 3 = some ⟨left c.timer, b, 0, false⟩ ∧ b.extractLsb' 0 16 = c.skipCount ∧
         field b 16 2 c.joinTries ∧ b.getLsbD 18 = c.readyNotified ∧ b.getLsbD 19 = c.take ∧ b.getLsbD 20 = c.drop ∧
         b.getLsbD 21 = c.free.isSome ∧ b.getLsbD 22 = c.gap.isSome ∧ b.extractLsb' 23 9 = 0) ∧
       s.statusPart 2 i.val 4 = some ⟨0, 0, 0, false⟩ ∧ s.statusPart 2 i.val 5 = some ⟨0, 0, 0, false⟩) ∧
     (∀ i : EntryIx, s.entry i = none → s.statusPart 2 i.val 0 = some ⟨0x00003F02, 0x00202020, 0, false⟩) ∧
     (∀ (i : EntryIx) (k : Fin 5), s.entry i = none → s.statusPart 2 i.val (k.val + 1) = some ⟨0, 0, 0, false⟩))

/-- While no attempt of the station is on the line: a station that is neither ACTIVE nor LEAVING only finds the line
idle; a station with a HELD frame starts an attempt of the same element, built again from its source as it stands,
with the attempt count kept; a station with an empty holding frame starts an attempt of the element that the transmit
selector chooses, with attempt count 0, or only finds the line idle when none is pending. An attempt makes the holding
frame CONTENDING with that element and frame and the line busy; nothing else changes. While an attempt is on the line
the event cannot happen and changes nothing (log 8). The frame built from its source, as the event it is at a receiver
under the station's own number: a CUT or ADMIT its target with the reason or the result listed for it, the first page
number with ACCEPTED and 0 otherwise; a PROMPT the last closed page number and the awaited stations not yet released,
in ascending order; a GONE its listed number; a DROP or TAKE the own number; a FREE its page number and lost flag, a
GAP its page number and missing segments in ascending order, each with the own number; the ROLL the leaving flag, the
roll count and one claim for each OPEN producer entry in ascending stream identifier, with the mode and, when present,
the last closed page number; a NOTE the head of the out-queue, its target or ALL, with the own number; else the
Segmenter's offered frame. An element that is not there builds none. LINK_DE is asserted exactly while the holding
frame is CONTENDING, TRANSMITTING or ABORTING, and not during pin reset and the clearing. While it is not asserted
LINK_TX is high. While it is, LINK_TX carries the bits of the held frame in CONTENDING and TRANSMITTING, which are the
bytes of the frame by the layouts of chapter 11 under the station's own number in ten bit times each, and the abort
mark of eleven dominant bit times in ABORTING. (08_the_exchange_link.md (R135, R137, R138);
07_presence_and_station_states.md (R116); 05_repair.md (R83, R89); 06_lock_step_streams.md (R97, R98, R102, R111,
R115); 07_presence_and_station_states.md (R125); 09_notices.md (R153); 08_the_exchange_link.md (R138);
11_formats_and_register_map.md (11.1); 08_the_exchange_link.md (R134, R138, R140, R147); 10_the_local_port.md (R170))
-/
def Obligations.OpportunityStartsAnAttempt : Prop :=
  (∀ s : State, s.port.inReset = false →
     let go := exec .opportunity s
     let idle := { s with link := { s.link with lineIdle := true } }
     let starts := fun (src : FrameSource) (f : Frame) (attempts : Nat) => ({ s with link := { s.link with
       holding := some ⟨.contending, src, f, false, false⟩, attempts := attempts, lineIdle := false } } : State)
     (s.driving = true → go = .next s) ∧
     (s.driving = false →
       (s.presence.state ∉ [.active, .leaving] → go = .next idle) ∧
       (s.presence.state ∈ [.active, .leaving] →
         (∀ h f, s.link.holding = some h → s.buildFrame h.source = some f → go = .next (starts h.source f s.link.attempts)) ∧
         (∀ src f, s.link.holding = none → s.selectSource = some src → s.buildFrame src = some f → go = .next (starts src f 0)) ∧
         (s.link.holding = none → s.selectSource = none → go = .next idle)))) ∧
  (∀ s : State,
     let own := s.presence.station
     let row := fun src => (s.buildFrame src).map (Frame.row own)
     let byte := fun n : Nat => (BitVec.ofNat 8 n : Byte)
     let me := byte own.val
     let bytes := fun x : BitVec 32 => ((List.range 32).filter fun k => x.getLsbD k).map byte
     (∀ (i : EntryIx) (p : Producer), s.entry i = some (.producer p) →
       (∀ n r before after, p.cuts = before ++ (n, r) :: after → (∀ e ∈ before, e.1 ≠ n) →
         row (.cut i n) = some (.cutFrame own 0 p.stream (byte n.val) (match r with | .timeout => 0 | .notMember => 1))) ∧
       (∀ n r before after, p.admits = before ++ (n, r) :: after → (∀ e ∈ before, e.1 ≠ n) →
         row (.admission i n) = some (match r with
           | .accepted first => .admitFrame own 0 p.stream (byte n.val) 0 first
           | .full => .admitFrame own 0 p.stream (byte n.val) 1 0
           | .notLockstep => .admitFrame own 0 p.stream (byte n.val) 2 0)) ∧
       (∀ n, ((∀ e ∈ p.cuts, e.1 ≠ n) → row (.cut i n) = none) ∧ ((∀ e ∈ p.admits, e.1 ≠ n) → row (.admission i n) = none)) ∧
       row (.prompt i) = (if p.prompt then
         some (.promptFrame own 0 p.stream (p.lastClosed.getD 0) (bytes (p.awaited &&& ~~~p.released))) else none) ∧
       (∀ page, row (.gone i page) = if page ∈ p.gones then some (.goneFrame own 0 p.stream page) else none)) ∧
     (∀ (i : EntryIx) (c : Consumer), s.entry i = some (.consumer c) →
       row (.drop i) = (if c.drop then some (.dropFrame own 0 c.stream me) else none) ∧
       row (.take i) = (if c.take then some (.takeFrame own 0 c.stream me) else none) ∧
       row (.free i) = (c.free.map fun e => .freeFrame own e.2 c.stream me e.1) ∧
       row (.gap i) = (c.gap.map fun e => .gapFrame own 0 c.stream me e.1 (bytes e.2))) ∧
     (s.presence.rollPending = false → row .roll = none) ∧
     (s.presence.rollPending = true → ∃ l : List RawClaim,
       row .roll = some (.rollFrame own s.presence.leavingPlaced 0 s.presence.rollCount l) ∧
       l.Pairwise (fun a b => a.stream ≤ b.stream) ∧
       l.Perm ((List.finRange 16).filterMap fun i => match s.entry i with
         | some (.producer p) => if p.state = .opened then
             some ⟨p.mode == .lockStep, p.lastClosed.isSome, p.stream, p.lastClosed.getD 0⟩ else none
         | _ => none)) ∧
     row .note = (s.link.notes.head?.map fun n => match n.target with
       | .all => .noteFrame own true 0 0 me n.code
       | .one t => .noteFrame own false 0 (BitVec.ofNat 5 t.val) me n.code) ∧
     s.buildFrame .segmenter = (s.seg.offered.map fun o => o.frame) ∧
     (∀ id page k n len payload, Frame.row own (.seg id page k n len payload) =
       .segFrame own 0 id page (byte k) (byte n) (BitVec.ofNat 16 len) payload) ∧
     (∀ id page len kind check, Frame.row own (.close id page len kind check) =
       .closeFrame own 0 id page (BitVec.ofNat 16 len) (match kind with | .normal => 0 | .repair => 1 | .withdrawn => 2) check)) ∧
  (∀ s : State,
     let drives := s.port.inReset = false ∧ s.port.clearing = false ∧ ∃ h, s.link.holding = some h ∧ h.phase ≠ .held
     (s.linkDE = true ↔ drives) ∧ (¬ drives → s.linkDrive = .high ∧ s.linkTX = []) ∧
     (∀ h, drives → s.link.holding = some h →
       (h.phase = .aborting → s.linkDrive = .abort ∧ s.linkTX = List.replicate 11 .dominant) ∧
       (h.phase = .contending ∨ h.phase = .transmitting → s.linkDrive = .frame ∧
         s.driven = some ((frameBytes (h.frame.row s.presence.station)).getD []) ∧
         s.linkTX = levelsOf ((frameBytes (h.frame.row s.presence.station)).getD []))))

/-- The selector takes an element of a producer entry, if any entry has one, before one of a consumer entry, that
before the ROLL, that before the head of the NOTE out-queue, and that before the Segmenter's offered frame; among
entries the one with the lowest stream identifier; within a producer entry CUT targets, then ADMIT targets, then the
PROMPT, then GONE numbers, each list from its front; within a consumer entry DROP, TAKE, FREE, GAP.
(08_the_exchange_link.md (R137); 06_lock_step_streams.md (R97, R111)) -/
def Obligations.FramesAreChosenInOrder : Prop :=
  (∀ s : State,
    let fromProducer := fun i => (s.producer i).bind (Producer.firstElement i)
    let fromConsumer := fun i => (s.consumer i).bind (Consumer.firstElement i)
    let first := fun (f : EntryIx → Option FrameSource) (i : EntryIx) (src : FrameSource) =>
      f i = some src ∧ ∀ j, j ≠ i → f j ≠ none → s.streamOf i < s.streamOf j
    (∀ i src, first fromProducer i src → s.selectSource = some src) ∧
    ((∀ i, fromProducer i = none) →
      (∀ i src, first fromConsumer i src → s.selectSource = some src) ∧
      ((∀ i, fromConsumer i = none) →
        (s.presence.rollPending = true → s.selectSource = some .roll) ∧
        (s.presence.rollPending = false → s.link.notes ≠ [] → s.selectSource = some .note) ∧
        (s.presence.rollPending = false → s.link.notes = [] → s.seg.offered ≠ none → s.selectSource = some .segmenter) ∧
        (s.presence.rollPending = false → s.link.notes = [] → s.seg.offered = none → s.selectSource = none)))) ∧
  (∀ (i : EntryIx) (p : Producer),
    (∀ t r l, p.cuts = (t, r) :: l → p.firstElement i = some (.cut i t)) ∧
    (∀ t r l, p.cuts = [] → p.admits = (t, r) :: l → p.firstElement i = some (.admission i t)) ∧
    (p.cuts = [] → p.admits = [] → p.prompt = true → p.firstElement i = some (.prompt i)) ∧
    (∀ page l, p.cuts = [] → p.admits = [] → p.prompt = false → p.gones = page :: l → p.firstElement i = some (.gone i page)) ∧
    (p.cuts = [] → p.admits = [] → p.prompt = false → p.gones = [] → p.firstElement i = none)) ∧
  (∀ (i : EntryIx) (c : Consumer),
    (c.drop = true → c.firstElement i = some (.drop i)) ∧
    (c.drop = false → c.take = true → c.firstElement i = some (.take i)) ∧
    (c.drop = false → c.take = false → c.free ≠ none → c.firstElement i = some (.free i)) ∧
    (c.drop = false → c.take = false → c.free = none → c.gap ≠ none → c.firstElement i = some (.gap i)) ∧
    (c.drop = false → c.take = false → c.free = none → c.gap = none → c.firstElement i = none))

/-- On an attempt in CONTENDING: a lost arbitration raises the arbitration losses counter and leaves the frame HELD
with the attempt count kept, or the holding frame empty with attempt count 0 when its source has removed the element
(model's choice, log 17); a won one makes it TRANSMITTING. An echo mismatch makes an attempt in CONTENDING or
TRANSMITTING ABORTING. Nothing else changes. In any other state of the holding frame the event cannot happen and
changes nothing (log 8). On an attempt in TRANSMITTING: the holding frame is empty with attempt count 0, the
consecutive-drop count is 0 and the line is busy; the frame is reported sent to its source, unless the source has
removed the element; the event ends as every event does, with the slots it freed in ascending order. In any other
state of the holding frame the event cannot happen and changes nothing (log 8). When a source removes its element
while the frame is HELD, the holding frame is empty with attempt count 0; while the attempt is on the line, the
attempt runs on, marked as one that reports to no source. When a source replaces the content of its element while the
attempt is on the line, the attempt is marked by whether the new content differs from what it carries (log 16: the
same content is not new); a HELD frame is not marked. A frame of another source, or one already marked as removed,
stays as it is. Removing a CUT, ADMIT, PROMPT, GONE, TAKE, DROP, FREE or GAP, and emptying a pending set, remove the
element; placing an ADMIT, a CUT (with a place in its list), a FREE or a GAP that is on the line replaces its content.
(08_the_exchange_link.md (R136, R138, R140, R145); 08_the_exchange_link.md (R138, R139, R142); 08_the_exchange_link.md
(R138); 02_streams_and_page_numbers.md (R27)) -/
def Obligations.AttemptsEndAsTheLineSays : Prop :=
  (∀ s : State, s.port.inReset = false →
     let hold := fun (h : HeldFrame) (ph : HoldPhase) => some { h with phase := ph }
     let lost := { s.link.counters with arbitrationLosses := satInc s.link.counters.arbitrationLosses }
     (∀ h, s.link.holding = some h → h.phase = .contending →
       (h.orphan = false → exec .arbitrationLost s =
         .next { s with link := { s.link with holding := hold h .held, counters := lost } }) ∧
       (h.orphan = true → exec .arbitrationLost s =
         .next { s with link := { s.link with holding := none, attempts := 0, counters := lost } }) ∧
       exec .arbitrationWon s = .next { s with link := { s.link with holding := hold h .transmitting } }) ∧
     (∀ h, s.link.holding = some h → h.phase = .contending ∨ h.phase = .transmitting →
       exec .echoMismatch s = .next { s with link := { s.link with holding := hold h .aborting } }) ∧
     ((∀ h, s.link.holding = some h → h.phase ≠ .contending) →
       exec .arbitrationLost s = .next s ∧ exec .arbitrationWon s = .next s) ∧
     ((∀ h, s.link.holding = some h → h.phase ≠ .contending ∧ h.phase ≠ .transmitting) → exec .echoMismatch s = .next s)) ∧
  (∀ s : State, s.port.inReset = false →
     let released := ({ s with link := { s.link with holding := none, attempts := 0, drops := 0, lineIdle := false } } : State)
     (∀ h, s.link.holding = some h → h.phase = .transmitting →
       (h.orphan = false → exec .attemptSent s =
         .next (s.joinAscending (released.report h.source h.frame h.replaced true).settle)) ∧
       (h.orphan = true → exec .attemptSent s = .next (s.joinAscending released.settle))) ∧
     ((∀ h, s.link.holding = some h → h.phase ≠ .transmitting) → exec .attemptSent s = .next s)) ∧
  (∀ s : State,
     let hold := fun x : HeldFrame => ({ s with link := { s.link with holding := some x } } : State)
     let put := fun (i : EntryIx) (e : Entry) => ({ s with streams := vput s.streams i (some e) } : State)
     (∀ (p : FrameSource → Bool) (src : FrameSource) (f : Frame),
       (s.link.holding = none → s.sourceRemoved p = s ∧ s.contentReplaced src f = s) ∧
       (∀ h, s.link.holding = some h →
         (p h.source = false ∨ h.orphan = true → s.sourceRemoved p = s) ∧
         (p h.source = true → h.orphan = false →
           (h.phase = .held → s.sourceRemoved p = { s with link := { s.link with holding := none, attempts := 0 } }) ∧
           (h.phase ≠ .held → s.sourceRemoved p = hold { h with orphan := true })) ∧
         (h.source ≠ src ∨ h.orphan = true ∨ h.phase = .held → s.contentReplaced src f = s) ∧
         (h.source = src → h.orphan = false → h.phase ≠ .held →
           s.contentReplaced src f = hold { h with replaced := decide (f ≠ h.frame) }))) ∧
     (∀ i p, s.entry i = some (.producer p) →
       (∀ n, s.removeCut i n =
           (put i (.producer { p with cuts := p.cuts.filter (fun e => e.1 != n) })).sourceRemoved (· == .cut i n) ∧
         s.removeAdmit i n =
           (put i (.producer { p with admits := p.admits.filter (fun e => e.1 != n) })).sourceRemoved (· == .admission i n) ∧
         (∀ r, s.placeAdmit i n r = (put i (.producer { p with admits := putTarget n r p.admits })).contentReplaced
           (.admission i n) (.admission p.stream n r)) ∧
         (∀ r, (∃ e ∈ p.cuts, e.1 = n) ∨ p.cuts.length < 8 → s.placeCut i n r =
           (put i (.producer { p with cuts := putTarget n r p.cuts })).contentReplaced (.cut i n) (.cut p.stream n r))) ∧
       s.clearPrompt i = (put i (.producer { p with prompt := false })).sourceRemoved (· == .prompt i) ∧
       (∀ page, s.removeGone i page =
         (put i (.producer { p with gones := p.gones.filter (fun q => q != page) })).sourceRemoved (· == .gone i page))) ∧
     (∀ i c, s.entry i = some (.consumer c) →
       s.clearTake i = (put i (.consumer { c with take := false })).sourceRemoved (· == .take i) ∧
       s.clearDrop i = (put i (.consumer { c with drop := false })).sourceRemoved (· == .drop i) ∧
       s.clearFree i = (put i (.consumer { c with free := none })).sourceRemoved (· == .free i) ∧
       s.clearGap i = (put i (.consumer { c with gap := none })).sourceRemoved (· == .gap i) ∧
       (∀ page lost, s.setFree i page lost = (put i (.consumer { c with free := some (page, lost) })).contentReplaced
         (.free i) (.free c.stream s.presence.station page lost)) ∧
       (∀ page missing, s.setGap i page missing = (put i (.consumer { c with gap := some (page, missing) })).contentReplaced
         (.gap i) (.gap c.stream s.presence.station page missing))) ∧
     (∀ i e, s.entry i = some e → s.emptyPending i = (put i e.withoutPending).sourceRemoved fun src => src.entry? == some i))

/-- On an attempt in ABORTING or TRANSMITTING: with an attempt count below 3 the transmit retries counter rises and
the frame is HELD with the count one higher (or the holding frame is empty with count 0 when its source has removed
the element, log 17); at count 3 the frame is dropped: the holding frame is empty, the frames dropped counter and the
consecutive-drop count (up to 8) rise, the frame is reported dropped to its source unless the source has removed the
element, and a station that then transmits with a drop count of 8 enters MUTED. The event ends as every event does. In
any other state of the holding frame nothing changes (log 8). On a station that transmits with a consecutive-drop
count of 8, MUTED makes the station MUTED, stops the roll timer, removes a pending ROLL, takes back the offered frame
and sets a page in flight without the withdraw-at-close flag back to segment 0. With no page in flight, descriptor
queued or DROP pending, STATION_STATE is the one event and no slot record changes. On any other station nothing
changes (log 9). On the same stations: a pass SEG taken back, of an OPEN entry with the pass's tag and a RETAINED
page, and with no page marked for withdrawal, puts its number back into the repair set and the position returns; with
any other frame offered, a REPAIR CLOSE among them, the pass stays as it is. With no pass, descriptor queued or DROP
pending, a page in flight marked for withdrawal is withdrawn: its slot is WRITING, the withdrawn close holds its
stream, number, length and check, and SENT DISPUTED follows STATION_STATE. With no page in flight, no descriptor
queued and one DROP pending (several are taken by ascending index, model's choice, log 35), of an entry with no frame
in the holding frame: a DEPARTING entry is removed; any other (an EXPELLED one too, model's reading, log 28) becomes
WAITING without producer of record, timer, page numbers or pending element, its FILLING page lost with PRODUCER_LOST
and its slot freed. (08_the_exchange_link.md (R138, R140, R141, R142, R145); 07_presence_and_station_states.md (R124);
08_the_exchange_link.md (R142); 03_publishing.md (R57); 05_repair.md (R94); 02_streams_and_page_numbers.md (R26, R27,
R33, R36); 06_lock_step_streams.md (R115)) -/
def Obligations.FailedAttemptsLeadToMuted : Prop :=
  (∀ s : State, s.port.inReset = false →
     let ends := fun t : State => (.next (s.joinAscending t.settle) : Host.Outcome State Fault Refusal)
     let retried := { s.link.counters with retries := satInc s.link.counters.retries }
     let dropped := ({ s with link := { s.link with
       holding := none, attempts := 0, drops := min 8 (s.link.drops + 1), lineIdle := false
       counters := { s.link.counters with framesDropped := satInc s.link.counters.framesDropped } } } : State)
     (∀ h, s.link.holding = some h → h.phase = .aborting ∨ h.phase = .transmitting →
       (s.link.attempts < 3 → h.orphan = false → exec .attemptFailed s = ends { s with link := { s.link with
         holding := some { h with phase := .held, replaced := false }, attempts := s.link.attempts + 1, lineIdle := false
         counters := retried } }) ∧
       (s.link.attempts < 3 → h.orphan = true → exec .attemptFailed s = ends { s with link := { s.link with
         holding := none, attempts := 0, lineIdle := false, counters := retried } }) ∧
       (3 ≤ s.link.attempts →
         let u := if h.orphan then dropped else dropped.report h.source h.frame h.replaced false
         (u.transmits = true → 8 ≤ u.link.drops → exec .attemptFailed s = ends u.enterMuted) ∧
         (u.transmits = false ∨ u.link.drops < 8 → exec .attemptFailed s = ends u))) ∧
     ((∀ h, s.link.holding = some h → h.phase ≠ .aborting ∧ h.phase ≠ .transmitting) → exec .attemptFailed s = .next s)) ∧
  (∀ s : State, s.port.inReset = false →
     (s.transmits = true → 8 ≤ s.link.drops → ∃ t, exec .muted s = .next t ∧ t.presence.state = .muted ∧
       t.presence.rollTimer = none ∧ t.presence.rollPending = false ∧ t.presence.rollCount = s.presence.rollCount ∧
       t.presence.peers = s.presence.peers ∧ t.seg.offered = none ∧
       (∀ f, s.seg.flight = some f → f.withdrawAtClose = false →
         t.seg.flight = some { f with next := 0, closeOffered := false } ∧ t.seg.withdrawn = s.seg.withdrawn) ∧
       (s.seg.flight = none → t.seg.flight = none ∧ t.seg.withdrawn = s.seg.withdrawn) ∧
       (s.seg.flight = none → s.publish.queue = [] → (∀ i c, s.consumer i = some c → c.drop = false) →
         t.events = (s.insertEvent (.stationState s.presence.state .muted)).events ∧ t.slots.records = s.slots.records)) ∧
     (s.transmits = false ∨ s.link.drops < 8 → exec .muted s = .next s)) ∧
  (∀ s : State, s.port.inReset = false → s.transmits = true → 8 ≤ s.link.drops → ∃ t, exec .muted s = .next t ∧
     (∀ ps p k before fr, s.seg.pass = some ps → s.seg.offered = some ⟨.passSeg k before, fr⟩ →
       s.entry ps.entry = some (.producer p) → p.state = .opened → p.repairTag = some ps.page → p.retained ≠ none →
       (∀ f, s.seg.flight = some f → f.withdrawAtClose = false) →
       t.seg.pass = some { ps with position := before } ∧
       ∃ q, t.entry ps.entry = some (.producer q) ∧ q.repairSet = p.repairSet ||| (1#32 <<< k)) ∧
     ((∀ k before fr, s.seg.offered ≠ some ⟨.passSeg k before, fr⟩) → t.seg.pass = s.seg.pass) ∧
     (∀ f p, s.seg.pass = none → s.seg.flight = some f → f.withdrawAtClose = true → s.entry f.entry = some (.producer p) →
       s.publish.queue = [] → (∀ i c, s.consumer i = some c → c.drop = false) →
       t.seg.flight = none ∧ t.seg.withdrawn = some ⟨p.stream, f.page, f.len, f.check⟩ ∧
       (s.slot f.slot ≠ .free → t.slot f.slot = .writing) ∧
       t.events = ((s.insertEvent (.stationState s.presence.state .muted)).insertEvent
         (.sent p.stream f.slot (some f.page) .disputed f.tag)).events) ∧
     (∀ i c, s.seg.flight = none → s.publish.queue = [] → s.entry i = some (.consumer c) → c.drop = true →
       (∀ j d, j ≠ i → s.entry j = some (.consumer d) → d.drop = false) →
       (∀ x, s.link.holding = some x → x.source.entry? ≠ some i) →
       let told := s.insertEvent (.stationState s.presence.state .muted)
       let waiting : Consumer := { c with
         state := .waiting, producer := none, timer := none, firstAdmitted := none, lastCompleted := none, lastReleased := none, earlier := ⟨c.ready.isSome, c.held.isSome, false⟩
         joinTries := 0, take := false, drop := false, gap := none, free := none }
       (c.state = .departing → t.entry i = none ∧ t.events = told.events) ∧
       (c.state ≠ .departing → c.filling = none → t.entry i = some (.consumer waiting) ∧ t.events = told.events) ∧
       (∀ m o page len rcv g, c.state ≠ .departing → c.filling = some m → s.slot m = .filling o page len rcv g →
         t.entry i = some (.consumer { waiting with
           filling := none, counters := { c.counters with lost := satInc c.counters.lost } }) ∧
         t.slot m = .free ∧ t.events = (told.insertEvent (.pageLost c.stream page (some m) .producerLost)).events)))

/-- With an empty holding frame: the report of a CUT or ADMIT takes its target out of its list, of a PROMPT clears it,
of a GONE takes the number out of the list; of a TAKE clears it, raises join tries (up to 3) and starts the join wait
of 2R; of a FREE removes it; of a GAP removes it, raises the GAP count of the FILLING slot (up to 2), starts the
repair wait of W times R and, sent, counts a repair asked for; of a NOTE takes the head off the out-queue. A CUT,
ADMIT or FREE whose content was replaced during the attempt stays; so does a GAP after the first for its page, and not
after the second (two at most, R83: model's reading, log 32), and its count, wait and counter go on all the same.
Nothing else changes. The report of the DROP of a DEPARTING entry removes the entry; of any other, whose DROP LEAVING
has set, makes it WAITING without producer of record, timer, page numbers or pending element (an EXPELLED entry too,
model's reading, log 28), its FILLING page lost with PRODUCER_LOST and its slot freed; no other entry and no other
slot changes. The report of the Segmenter's offered frame has the effects that PagesGoOutAndComplete states. The
report of a ROLL raises the roll count (up to 255); a ROLL without the leaving flag leaves the station state as it is,
and none is pending unless a leaving ROLL was placed meanwhile; a ROLL with the leaving flag leads to QUIET:
STATION_STATE is inserted, the roll timer stopped, no ROLL pending, the Segmenter's offered frame and pass discarded,
every OPEN producer entry back in DECLARED with its RETAINED slot FREE, every other slot record as it was, and the
pending control set of every other entry, consumer entries among them, empty. (02_streams_and_page_numbers.md (R26,
R27, R33, R36); 01_page_slots_and_page_memory.md (R10); 05_repair.md (R83); 06_lock_step_streams.md (R97, R98, R115);
08_the_exchange_link.md (R138, R139); 09_notices.md (R153); 07_presence_and_station_states.md (R123, R125);
02_streams_and_page_numbers.md (R23, R27); 01_page_slots_and_page_memory.md (R9)) -/
def Obligations.ReportedElementsLeaveTheirSet : Prop :=
  (∀ (s : State) (f : Frame) (sent : Bool), s.link.holding = none →
     let put := fun (i : EntryIx) (e : Entry) => ({ s with streams := vput s.streams i (some e) } : State)
     (∀ (i : EntryIx) (p : Producer), s.entry i = some (.producer p) →
       (∀ n, s.report (.cut i n) f false sent = put i (.producer { p with cuts := p.cuts.filter (fun e => e.1 != n) }) ∧
         s.report (.cut i n) f true sent = s ∧
         s.report (.admission i n) f false sent = put i (.producer { p with admits := p.admits.filter (fun e => e.1 != n) }) ∧
         s.report (.admission i n) f true sent = s) ∧
       s.report (.prompt i) f false sent = put i (.producer { p with prompt := false }) ∧
       (∀ page, s.report (.gone i page) f false sent = put i (.producer { p with gones := p.gones.filter (fun q => q != page) }))) ∧
     (∀ (i : EntryIx) (c : Consumer), s.entry i = some (.consumer c) →
       s.report (.take i) f false sent = put i (.consumer { c with
         take := false, joinTries := min 3 (c.joinTries + 1),
         timer := some (s.time + BitVec.ofNat 32 (1000 * (2 * s.rollPeriod))) }) ∧
       s.report (.free i) f false sent = put i (.consumer { c with free := none }) ∧
       s.report (.free i) f true sent = s ∧
       (c.state = .departing → s.report (.drop i) f false sent = { s with streams := vput s.streams i none }) ∧
       (∀ n j page len rcv g, c.filling = some n → s.slot n = .filling j page len rcv g →
         let asked := fun gap => (put i (.consumer { c with
           gap := gap
           timer := some (s.time + BitVec.ofNat 32 (1000 * (s.wait * s.rollPeriod)))
           counters := if sent then { c.counters with repairs := satInc c.counters.repairs } else c.counters })).changeSlot n
             (.filling j page len rcv (min 2 (g + 1)))
         s.report (.gap i) f false sent = asked none ∧ s.report (.gap i) f true sent = asked (if g = 0 then c.gap else none)) ∧
       (c.state ≠ .departing →
         let waiting : Consumer := { c with
           state := .waiting, producer := none, timer := none, firstAdmitted := none, lastCompleted := none
           lastReleased := none, earlier := ⟨c.ready.isSome, c.held.isSome, false⟩, joinTries := 0, take := false, drop := false, gap := none, free := none }
         let t := s.report (.drop i) f false sent
         (c.filling = none → t = put i (.consumer waiting)) ∧
         (∀ n j page len rcv g, c.filling = some n → s.slot n = .filling j page len rcv g →
           t.entry i = some (.consumer { waiting with
             filling := none, counters := { c.counters with lost := satInc c.counters.lost } }) ∧
           t.events = (s.insertEvent (.pageLost c.stream page (some n) .producerLost)).events ∧ t.slot n = .free ∧
           (∀ m, m ≠ n → t.slot m = s.slot m) ∧ ∀ k, k ≠ i → t.entry k = s.entry k))) ∧
     s.report .note f false sent = { s with link := { s.link with notes := s.link.notes.tail } } ∧
     ∀ keep, s.report .segmenter f keep sent = s.segmenterReport sent) ∧
  (∀ (s : State) (count : Byte) (claims : List RawClaim) (keep sent : Bool),
     s.report .roll (.roll false count claims) keep sent = { s with presence := { s.presence with
       rollPending := s.presence.leavingPlaced, rollCount := satInc s.presence.rollCount } } ∧
     (let t := s.report .roll (.roll true count claims) keep sent
      t.presence = { s.presence with
         state := .quiet, rollTimer := none, rollPending := false, leavingPlaced := false
         rollCount := satInc s.presence.rollCount } ∧
       t.events = (s.insertEvent (.stationState s.presence.state .quiet)).events ∧ t.seg.offered = none ∧ t.seg.pass = none ∧
       t.notices = s.notices ∧ t.time = s.time ∧ t.slots.mem = s.slots.mem ∧
       (∀ i p, s.entry i = some (.producer p) → p.state = .opened →
         t.entry i = some (.producer (.declared p.stream p.mode p.maxLen s.floor p.counters)) ∧
         ∀ m, p.retained = some m → t.slot m = .free) ∧
       (∀ m, (∀ i p, s.entry i = some (.producer p) → p.state = .opened → p.retained ≠ some m) → t.slot m = s.slot m) ∧
       (∀ i p, s.entry i = some (.producer p) → p.state ≠ .opened →
         t.entry i = some (.producer { p with admits := [], cuts := [], gones := [], prompt := false })) ∧
       (∀ i c, s.entry i = some (.consumer c) →
         t.entry i = some (.consumer { c with take := false, drop := false, free := none, gap := none })) ∧
       (∀ i, s.entry i = none → t.entry i = none)))

/-- Whatever its cause, a frame discarded by the Link Controller raises the receive check failures counter and makes
the line busy in every station state, and changes nothing else; while the station drives a frame of its own the event
cannot happen and changes nothing (log 8). For each of the twelve frame events: in UNCONFIGURED the frame is counted
as received, makes the line busy and does nothing else; while the station drives a frame of its own the event cannot
happen and changes nothing (log 8). On a station that hears the line, a frame that passes its checks does nothing more
than being counted as received (the event of a DROP, FREE or GAP ends as every event does): a SEG, CLOSE, ADMIT, CUT,
PROMPT or GONE of a stream with no entry in use or with a producer entry; a TAKE, DROP, FREE or GAP of a stream with
no entry in use, with a consumer entry, or with a producer entry that is DECLARED or DISPUTED; and in CONFLICT every
SEG, CLOSE, TAKE, DROP, FREE and GAP. (08_the_exchange_link.md (R144, R145); 08_the_exchange_link.md (R144);
04_receiving_and_delivery.md (R61); 02_streams_and_page_numbers.md (R20); 04_receiving_and_delivery.md (R62, R70);
06_lock_step_streams.md (R95, R99, R103, R108, R112, R114); 05_repair.md (R85, R88); 07_presence_and_station_states.md
(R131)) -/
def Obligations.FramesReachTheBlocks : Prop :=
  (∀ (cause : DiscardCause) (s : State), s.port.inReset = false →
     (s.driving = false → exec (.frameDiscarded cause) s = .next { s with link := { s.link with
       lineIdle := false
       counters := { s.link.counters with checkFailures := satInc s.link.counters.checkFailures } } }) ∧
     (s.driving = true → exec (.frameDiscarded cause) s = .next s)) ∧
  (∀ (i : Instr) (r : RawFrame) (s : State), rawOf i = some r → s.port.inReset = false →
     (s.driving = false → s.presence.state = .unconfigured → exec i s = .next s.heard) ∧
     (s.driving = true → exec i s = .next s)) ∧
  (∀ (src : Station) (id : StreamId) (s : State), s.hearing →
     let counted : Host.Outcome State Fault Refusal := .next s.heard
     let ends : Host.Outcome State Fault Refusal := .next s.heard.settle
     let unused := s.findStream id = none
     let produced := ∃ j p, s.findStream id = some j ∧ s.entry j = some (.producer p)
     let consumed := ∃ j c, s.findStream id = some j ∧ s.entry j = some (.consumer c)
     let closed := ∃ j p, s.findStream id = some j ∧ s.entry j = some (.producer p) ∧ p.state ≠ .opened
     let conflict := s.presence.state = .conflict
     (∀ page k n len payload, segOk 0 id k.toNat n.toNat len.toNat payload.length = true → unused ∨ produced ∨ conflict →
       exec (.segFrame src 0 id page k n len payload) s = counted) ∧
     (∀ page len kind check, closeOk 0 id len.toNat kind = true → unused ∨ produced ∨ conflict →
       exec (.closeFrame src 0 id page len kind check) s = counted) ∧
     (unused ∨ produced →
       (∀ target result first, admitOk 0 id target result = true → exec (.admitFrame src 0 id target result first) s = counted) ∧
       (∀ target reason, cutOk 0 id target reason = true → exec (.cutFrame src 0 id target reason) s = counted) ∧
       (∀ page stations, promptOk 0 id stations = true → exec (.promptFrame src 0 id page stations) s = counted) ∧
       (∀ page, id ≠ 0 → exec (.goneFrame src 0 id page) s = counted)) ∧
     (unused ∨ consumed ∨ closed ∨ conflict → ∀ station : Byte,
       (stationFrameOk 0 id station = true →
         exec (.takeFrame src 0 id station) s = counted ∧ exec (.dropFrame src 0 id station) s = ends ∧
         ∀ lost page, exec (.freeFrame src lost id station page) s = ends) ∧
       (∀ page segments, gapOk 0 id station segments = true → exec (.gapFrame src 0 id station page segments) s = ends)))

/-- At the end of an event of an ACTIVE station whose Segmenter is free (no page in flight, no frame offered, no
withdrawn close, no pass), with no marker queued and no pass wanted: if the entry of some descriptor is OPEN, IDLE and
not paused, the first such descriptor leaves the queue; its slot becomes SENDING with the entry's next page number,
which advances by one; the entry refers to it and is SENDING; the page is in flight with the page check of its bytes;
and SEG 0, or the CLOSE NORMAL of an empty page, is offered. Nothing else changes. If there is none, nothing changes.
At the end of an event of an ACTIVE or LEAVING station with no frame offered and no marker queued. A pass in progress
whose entry is OPEN with the pass's tag and its RETAINED page offers the lowest number of the repair set above the
position, which leaves the set and becomes the position, as a SEG of the retained page, or, with none left or once its
REPAIR CLOSE has been offered, the REPAIR CLOSE with the page's length and check (that numbers which join while MUTED
has taken the REPAIR CLOSE back wait too is the model's reading, log 30). With no pass in progress, the entry with the
lowest stream among those that ask for a pass (OPEN, the tag names the RETAINED page, fewer than two passes used)
begins one, with its passes and its repairs counter one higher, and offers its first frame in the same way. A pass
whose stream has been disputed ends, and the end of the event goes on without it. With no pass in progress or asked
for, a withdrawn close is offered as CLOSE WITHDRAWN. Nothing else changes. (03_publishing.md (R44, R45, R47, R48,
R52); 01_page_slots_and_page_memory.md (R9); 05_repair.md (R91, R92, R94); 03_publishing.md (R47, R55, R56, R59);
07_presence_and_station_states.md (R123)) -/
def Obligations.EndOfEventSelectsAPage : Prop :=
  (∀ s : State, s.presence.state = .active → s.seg = ⟨none, none, none, none⟩ → (∀ d ∈ s.publish.queue, d.isPause = false) →
     (∀ i, s.passWanted i = none) →
     let open' := fun d : Descriptor => match s.entry d.entry with
       | some (.producer p) => p.state == .opened && p.phase == some .idle && !p.paused
       | _ => false
     (s.publish.queue.find? open' = none → s.settle = s) ∧
     (∀ d p slot len report tail, s.publish.queue.find? open' = some d → d.body = .page slot len report tail →
       s.entry d.entry = some (.producer p) → s.slot slot ≠ .free →
       let bytes := memReadList s.slots.mem (4096 * slot.val) len
       let f : Flight := ⟨d.entry, slot, p.nextPage, len, pageCheck bytes, 0, report, tail, d.tag, d.seq, len == 0, false⟩
       let offered : Offered := if len = 0 then ⟨.pageClose, .close p.stream p.nextPage 0 .normal (pageCheck bytes)⟩
         else ⟨.pageSeg 0, .seg p.stream p.nextPage 0 ((len + 127) / 128) len (memReadList s.slots.mem (4096 * slot.val) (min 128 len))⟩
       s.settle = { s with
         publish := { s.publish with queue := s.publish.queue.erase d }
         slots := { s.slots with records := vput s.slots.records slot (.sending d.entry p.nextPage len) }
         streams := vput s.streams d.entry (some (.producer { p with
           nextPage := p.nextPage + 1, sending := some slot, phase := some .sending }))
         seg := ⟨some f, some offered, none, none⟩ })) ∧
  (∀ s : State, s.presence.state ∈ [.active, .leaving] → s.seg.offered = none → (∀ d ∈ s.publish.queue, d.isPause = false) →
     let retains := fun (i : EntryIx) (p : Producer) (m : SlotNum) (page : PageNum) (len : Nat) =>
       s.entry i = some (.producer p) ∧ p.state = .opened ∧ p.repairTag = some page ∧ p.retained = some m ∧
         ∃ o, s.slot m = .retained o page len
     let lowest := fun (set : SegSet) (above : Option Nat) =>
       (List.range 32).find? fun k => set.getLsbD k && above.all fun a => decide (a < k)
     let offers := fun (i : EntryIx) (p : Producer) (ps : Pass) (o : Offered) => ({ s with
       streams := vput s.streams i (some (.producer p)), seg := { s.seg with pass := some ps, offered := some o } } : State)
     let serves := fun (i : EntryIx) (p : Producer) (m : SlotNum) (page : PageNum) (len : Nat) (above : Option Nat) (closing : Bool) =>
       match if closing then none else lowest p.repairSet above with
       | some k => offers i { p with repairSet := p.repairSet &&& ~~~(1#32 <<< k) } ⟨i, page, some k, false⟩ ⟨.passSeg k above,
           .seg p.stream page k ((len + 127) / 128) len
             (memReadList s.slots.mem (4096 * m.val + 128 * k) (min 128 (len - 128 * k)))⟩
       | none => offers i p ⟨i, page, above, true⟩ ⟨.passClose,
           .close p.stream page len .repair (pageCheck (memReadList s.slots.mem (4096 * m.val) len))⟩
     (∀ i p m page len above closing, retains i p m page len → s.seg.pass = some ⟨i, page, above, closing⟩ →
       s.settle = serves i p m page len above closing) ∧
     (∀ i p m page len, retains i p m page len → s.seg.pass = none → p.repairPasses < 2 →
       (∀ j, j ≠ i → s.passWanted j = some j → p.stream < s.streamOf j) →
       s.settle = serves i { p with
         repairPasses := p.repairPasses + 1
         counters := { p.counters with repairs := satInc p.counters.repairs } } m page len none false) ∧
     (∀ ps p, s.seg.pass = some ps → s.entry ps.entry = some (.producer p) → p.state = .disputed →
       s.settle = ({ s with seg := { s.seg with pass := none } } : State).settle) ∧
     (∀ w, s.seg.pass = none → (∀ i, s.passWanted i = none) → s.seg.withdrawn = some w →
       s.settle = { s with seg := { s.seg with
         offered := some ⟨.withdrawnClose, .close w.stream w.page w.len .withdrawn w.check⟩ } }) ∧
     (∀ i p, s.entry i = some (.producer p) → (s.passWanted i = some i ↔ p.state = .opened ∧ p.repairPasses < 2 ∧
       ∃ page, p.repairTag = some page ∧ p.retained.bind (fun m => (s.slot m).page?) = some page)))

/-- A SEG of the page in flight that is reported sent or dropped is not offered again: on an ACTIVE or LEAVING
station, with no withdrawn close, no pass in progress or wanted and no descriptor queued, the end of that event offers
the next segment (128 bytes from offset 128k, or fewer at the end), or after the last the CLOSE NORMAL with the page's
length and check. When the CLOSE NORMAL of a page in flight is reported sent or dropped, with the withdraw-at-close
flag clear and none of the entry's frames in the holding frame: the slot becomes RETAINED and the previous one FREE,
the entry has no SENDING slot and passes 0, its last closed page is this one and its closed counter rises; a repair
set tagged with the page that was RETAINED is emptied with its tag, and if it held a number that page is placed in the
GONE list; the phase becomes IDLE, or, on a LOCK_STEP entry with members, AWAITING_RELEASE with the members awaited,
nothing released, no prompt sent and the release timer running for M times the pace estimate; a tail note joins the
NOTE out-queue, or, with 8 notes there, is dropped; SENT with DONE or DONE_NOTE_DROPPED is inserted if the page asked
for a report or its note was dropped; no page is in flight and no frame is offered; and pause markers of the stream
may take effect. With the flag set instead: the slot becomes WRITING, the entry has no SENDING slot, its lost counter
rises, SENT DISPUTED is inserted, and no withdrawn close is held. The report of a pass SEG leaves no frame offered,
that of the CLOSE WITHDRAWN also no withdrawn close. The report of the REPAIR CLOSE, with none of the entry's frames
in the holding frame, ends the pass: with an empty set the tag becomes absent; with numbers left and one pass used
nothing more changes; with both used set and tag are emptied and the page is placed in the GONE list; an entry without
the pass's tag is left alone. A REPAIR CLOSE sent in AWAITING_RELEASE also restarts the release timer and clears the
prompt-sent flag. (03_publishing.md (R47, R48, R49, R52, R59); 03_publishing.md (R49, R50, R54); 05_repair.md (R87,
R89); 01_page_slots_and_page_memory.md (R8, R9); 06_lock_step_streams.md (R101); 05_repair.md (R92, R93);
06_lock_step_streams.md (R107); 03_publishing.md (R55)) -/
def Obligations.PagesGoOutAndComplete : Prop :=
  (∀ (s : State) (f : Flight) (k : Nat) (fr : Frame) (sent : Bool), s.presence.state ∈ [.active, .leaving] →
     s.seg = ⟨some f, some ⟨.pageSeg k, fr⟩, none, none⟩ → s.publish.queue = [] → (∀ i, s.passWanted i = none) →
     let g := { f with next := k + 1 }
     let id := s.streamOf f.entry
     let len := min 128 (f.len - 128 * (k + 1))
     (k + 1 < (f.len + 127) / 128 → (s.segmenterReport sent).settle = { s with seg := ⟨some g, some ⟨.pageSeg (k + 1),
       .seg id f.page (k + 1) ((f.len + 127) / 128) f.len (memReadList s.slots.mem (4096 * f.slot.val + 128 * (k + 1)) len)⟩,
       none, none⟩ }) ∧
     ((f.len + 127) / 128 ≤ k + 1 → (s.segmenterReport sent).settle = { s with seg := ⟨some { g with closeOffered := true },
       some ⟨.pageClose, .close id f.page f.len .normal f.check⟩, none, none⟩ })) ∧
  (∀ (s : State) (f : Flight) (p : Producer) (fr : Frame) (sent : Bool), s.seg.flight = some f →
     s.seg.offered = some ⟨.pageClose, fr⟩ → s.entry f.entry = some (.producer p) →
     (f.withdrawAtClose = false → (∀ x, s.link.holding = some x → x.source.entry? ≠ some f.entry) →
       let due := s.time + BitVec.ofNat 32 (1000 * (s.mult * p.pace))
       let old := p.retained.bind fun m => (s.slot m).page?
       let gone := fun page => if p.gones.contains page then p.gones
         else (if p.gones.length < 4 then p.gones else p.gones.filter (· != p.gones.headD 0)) ++ [page]
       let repaired := if p.repairTag.isSome ∧ p.repairTag = old then { p with
           repairSet := 0, repairTag := none, gones := if p.repairSet = 0 then p.gones else gone (p.repairTag.getD 0) }
         else p
       let closed := { repaired with
         sending := none, retained := some f.slot, repairPasses := 0, lastClosed := some f.page
         counters := { p.counters with closed := satInc p.counters.closed } }
       let after := if p.mode = .lockStep ∧ p.members ≠ 0 then { closed with
           phase := some .awaitingRelease, awaited := p.members, released := 0, promptSent := false
           timer := some ⟨s.time, s.time, due⟩ }
         else { closed with phase := some .idle }
       let full := f.tail.isSome = true ∧ 8 ≤ s.link.notes.length
       let t := ({ s with
         slots := ((s.changeSlot f.slot (.retained f.entry f.page f.len)).freeRef p.retained).slots
         streams := vput s.streams f.entry (some (.producer after))
         link := { s.link with notes := if full then s.link.notes else s.link.notes ++ f.tail.toList }
         seg := { s.seg with flight := none, offered := none } } : State)
       let result := if full then SentResult.doneNoteDropped else .done
       s.segmenterReport sent = State.applyMarkers f.entry (if f.report = true ∨ full
         then t.insertEvent (.sent p.stream f.slot (some f.page) result f.tag) else t)) ∧
     (f.withdrawAtClose = true → s.segmenterReport sent = ({ s with
       slots := (s.changeSlot f.slot .writing).slots
       streams := vput s.streams f.entry (some (.producer { p with
         sending := none, counters := { p.counters with lost := satInc p.counters.lost } }))
       seg := { s.seg with flight := none, offered := none } } : State).insertEvent
         (.sent p.stream f.slot (some f.page) .disputed f.tag))) ∧
  (∀ (s : State) (fr : Frame) (sent : Bool),
     (∀ k before, s.seg.offered = some ⟨.passSeg k before, fr⟩ →
       s.segmenterReport sent = { s with seg := { s.seg with offered := none } }) ∧
     (s.seg.offered = some ⟨.withdrawnClose, fr⟩ →
       s.segmenterReport sent = { s with seg := { s.seg with offered := none, withdrawn := none } }) ∧
     (∀ i page above closing p, s.seg.offered = some ⟨.passClose, fr⟩ → s.seg.pass = some ⟨i, page, above, closing⟩ →
       s.entry i = some (.producer p) → (∀ x, s.link.holding = some x → x.source.entry? ≠ some i) →
       let q := if sent = true ∧ p.phase = some .awaitingRelease then { p with
           promptSent := false
           timer := p.timer.map fun t => { t with
             started := s.time, expiry := s.time + BitVec.ofNat 32 (1000 * (s.mult * p.pace)) } }
         else p
       let gone := if p.gones.contains page then p.gones
         else (if p.gones.length < 4 then p.gones else p.gones.filter (· != p.gones.headD 0)) ++ [page]
       let ends := fun r : Producer => ({ s with
         streams := vput s.streams i (some (.producer r)), seg := { s.seg with offered := none, pass := none } } : State)
       (p.repairTag ≠ some page → s.segmenterReport sent = ends q) ∧
       (p.repairTag = some page → p.repairSet = 0 → s.segmenterReport sent = ends { q with repairTag := none }) ∧
       (p.repairTag = some page → p.repairSet ≠ 0 → p.repairPasses < 2 → s.segmenterReport sent = ends q) ∧
       (p.repairTag = some page → p.repairSet ≠ 0 → 2 ≤ p.repairPasses →
         s.segmenterReport sent = ends { q with repairSet := 0, repairTag := none, gones := gone })))

/-- On a station that hears the line, a frame that fails a check of R61 or R172 is counted as received and among the
receive check failures, and changes nothing else: a zero bit that is set or stream 0 in any of the ten stream frames
that have them; a station or target above 31; a code outside its list; a CLOSE length above 4096; an empty or too long
list, one out of order, or an element above 31; a SEG whose length, count, number or payload disagree; claims more
than 8, of stream 0 or out of order; a NOTE to ALL with target bits, or whose source byte is not its key's station.
(04_receiving_and_delivery.md (R61); 11_formats_and_register_map.md (R172); 09_notices.md (R149);
07_presence_and_station_states.md (R126)) -/
def Obligations.FramesOutOfRangeAreCounted : Prop :=
  ∀ (src : Station) (z : BitVec 1) (id : StreamId) (page first : PageNum) (k n target code kind : Byte) (len : Half) (check : Word)
    (payload bytes : List Byte) (claims : List RawClaim) (lost all : Bool) (z2 : BitVec 2) (t5 : BitVec 5) (s : State),
    s.hearing →
    let failed := ({ s.heard with link := { s.heard.link with counters :=
      { s.heard.link.counters with checkFailures := satInc s.heard.link.counters.checkFailures } } } : State)
    let bad := fun i : Instr => exec i s = .next failed
    (z ≠ 0 ∨ id = 0 → bad (.segFrame src z id page k n len payload) ∧ bad (.closeFrame src z id page len kind check) ∧
      bad (.admitFrame src z id target code first) ∧ bad (.cutFrame src z id target code) ∧
      bad (.promptFrame src z id page bytes) ∧ bad (.goneFrame src z id page) ∧ bad (.takeFrame src z id target) ∧
      bad (.dropFrame src z id target) ∧ bad (.gapFrame src z id target page bytes)) ∧
    (id = 0 → bad (.freeFrame src lost id target page)) ∧
    (31 < target.toNat → bad (.admitFrame src z id target code first) ∧ bad (.cutFrame src z id target code) ∧
      bad (.takeFrame src z id target) ∧ bad (.dropFrame src z id target) ∧ bad (.freeFrame src lost id target page) ∧
      bad (.gapFrame src z id target page bytes)) ∧
    (2 < code.toNat → bad (.admitFrame src z id target code first)) ∧
    (1 < code.toNat → bad (.cutFrame src z id target code)) ∧
    (4096 < len.toNat ∨ 2 < kind.toNat → bad (.closeFrame src z id page len kind check)) ∧
    (len = 0 ∨ 4096 < len.toNat ∨ n.toNat ≠ (len.toNat + 127) / 128 ∨ n.toNat ≤ k.toNat ∨
        payload.length ≠ min 128 (len.toNat - 128 * k.toNat) → bad (.segFrame src z id page k n len payload)) ∧
    (bytes = [] ∨ 8 < bytes.length ∨ (∃ b ∈ bytes, 31 < b.toNat) ∨ ¬ bytes.Pairwise (fun a b => a.toNat < b.toNat) →
      bad (.promptFrame src z id page bytes)) ∧
    (32 < bytes.length ∨ (∃ b ∈ bytes, 31 < b.toNat) ∨ ¬ bytes.Pairwise (fun a b => a.toNat < b.toNat) →
      bad (.gapFrame src z id target page bytes)) ∧
    (z2 ≠ 0 ∨ 8 < claims.length ∨ (∃ c ∈ claims, c.stream = 0) ∨
        ¬ claims.Pairwise (fun a b => a.stream.toNat < b.stream.toNat) → bad (.rollFrame src lost z2 k claims)) ∧
    (z ≠ 0 ∨ (all = true ∧ t5 ≠ 0) ∨ target.toNat ≠ src.val → bad (.noteFrame src all z t5 target code))

/-- A SEG that passes its checks, on a station that hears the line and is not in CONFLICT, for a consumer entry. Not
in RECEIVING, not from the producer of record, or on a LOCK_STEP entry older than the first admitted page: stale.
Otherwise, a page the same as the last completed one is a duplicate and changes nothing more. With no FILLING slot and
a newer page: with a free slot, its head becomes FILLING with the page, the length and the segment alone received, the
payload is stored at 128 times the segment number, and the reception timer runs for W times R; with none, the page is
lost with NO_SLOT. With the same page FILLING: a segment in the set changes nothing more, also when its page length or
segment count disagrees (model's choice of R65's order, log 11); one that is new and agrees with the slot's length (or
the length is not known) is stored, joins the set, leaves a pending GAP and arms the timer; one that disagrees is
stale. With another page FILLING: a page newer than it (R30) makes the FILLING page lost with SUPERSEDED, its slot
reused; one not newer than it, at a distance of 32768 among others, is stale. A stale SEG raises the stale segments
counter and changes nothing more. (04_receiving_and_delivery.md (R61, R62, R63, R64, R65, R66, R67, R68);
01_page_slots_and_page_memory.md (R1, R5, R6, R7, R10); 05_repair.md (R83)) -/
def Obligations.SegmentsAreReceived : Prop :=
  ∀ (src : Station) (id : StreamId) (page : PageNum) (k n : Byte) (len : Half) (payload : List Byte) (i : EntryIx) (c : Consumer)
    (s : State), s.hearing → s.presence.state ≠ .conflict → segOk 0 id k.toNat n.toNat len.toNat payload.length = true →
    s.findStream id = some i → s.entry i = some (.consumer c) →
    let go := exec (.segFrame src 0 id page k n len payload) s
    let h := s.heard
    let stale := { h with link := { h.link with counters := { h.link.counters with
      staleSegments := satInc h.link.counters.staleSegments } } }
    let old := c.mode = .lockStep ∧ ∃ q, c.firstAdmitted = some q ∧ isOlder page q = true
    let hears := c.state = .receiving ∧ c.producer = some src ∧ ¬ old
    let newer := ∀ q, c.lastCompleted = some q → isNewer page q = true
    let timer := some (s.time + BitVec.ofNat 32 (1000 * (s.wait * s.rollPeriod)))
    let wrote := fun (t : State) (m : SlotNum) (record : Slot) (d : Consumer) => ({ t with
      slots := { t.slots with
        records := vput t.slots.records m record
        mem := memWriteList t.slots.mem (4096 * m.val + 128 * k.toNat) payload }
      streams := vput t.streams i (some (.consumer { d with
        filling := some m, timer := timer, gap := (d.gap.map fun g => (g.1, dropElem g.2 k.toNat)) })) } : State)
    (¬ hears → go = .next stale) ∧
    (hears → c.lastCompleted = some page → go = .next h) ∧
    (hears → c.lastCompleted ≠ some page → c.filling = none →
      (newer → ∀ m rest, s.slots.free = m :: rest → go = .next (wrote { h with slots := { h.slots with free := rest } } m
        (.filling i page (some len.toNat) (setOf k.toNat) 0) c)) ∧
      (newer → s.slots.free = [] → go = .next (h.pageLost i page none .noSlot)) ∧
      (¬ newer → go = .next stale)) ∧
    (∀ m o f flen rcv g, hears → c.lastCompleted ≠ some page → c.filling = some m → s.slot m = .filling o f flen rcv g →
      (page = f → hasElem rcv k.toNat = true → go = .next h) ∧
      (page = f → hasElem rcv k.toNat = false → (flen = none ∨ flen = some len.toNat) → go = .next (wrote h m
        (.filling o f (some len.toNat) (addElem rcv k.toNat) g) c)) ∧
      (∀ l, page = f → hasElem rcv k.toNat = false → flen = some l → l ≠ len.toNat → go = .next stale) ∧
      (isNewer page f = true → newer → ∀ d, ((h.pageLost i f (some m) .superseded).consumer i = some d ∧ d.filling = some m) →
        go = .next (wrote (h.pageLost i f (some m) .superseded) m (.filling i page (some len.toNat) (setOf k.toNat) 0) d)) ∧
      (page ≠ f → (isNewer page f = false ∨ ¬ newer) → go = .next stale))

/-- A CLOSE that passes its checks, on a station that hears the line and is not in CONFLICT, for a consumer entry in
RECEIVING, from its producer of record, not older than the first admitted page of a LOCK_STEP entry. For the FILLING
page: WITHDRAWN loses it; NORMAL or REPAIR with another length than the slot's loses it with CHECK; with segments
missing it is found unfinished (a GAP, or lost with REPAIR_TIMEOUT); whole with the right page check it completes,
with a wrong one it is lost with CHECK. For a newer page with no FILLING slot and not WITHDRAWN: length 0 claims a
slot and completes or loses it by its check; a LOCK_STEP entry claims a slot and asks for every segment; a FREE_RUN
entry counts it stale. A CLOSE not newer than the last completed page, of no FILLING page, does nothing more. A CLOSE
that passes its checks, on a station that hears the line and is not in CONFLICT, for a consumer entry: if the entry is
not in RECEIVING, or the source is not its producer of record, or the page is older than the first admitted page of a
LOCK_STEP entry, it does nothing more. For an entry that considers it and has another page FILLING: it does nothing
more if it is WITHDRAWN, not newer than the last completed page, or the FILLING page is not older than its page (R30;
at a distance of 32768 it is older); with length 0 the FILLING page is lost with SUPERSEDED, its slot is reused for
the page of the CLOSE, and that page completes when the page check is 0 and is lost with CHECK when it is not; with
another length the CLOSE is counted stale and the FILLING page is left as it is. (04_receiving_and_delivery.md (R69,
R70, R71, R72, R73, R74, R75, R77); 01_page_slots_and_page_memory.md (R11); 04_receiving_and_delivery.md (R62, R63,
R67, R70, R74, R75)) -/
def Obligations.ClosesCompleteOrLosePages : Prop :=
  (∀ (src : Station) (id : StreamId) (page : PageNum) (len : Half) (kind : CloseKind) (check : Word) (i : EntryIx) (c : Consumer)
     (s : State), s.hearing → s.presence.state ≠ .conflict → id ≠ 0 → len.toNat ≤ 4096 → s.findStream id = some i →
     s.entry i = some (.consumer c) → c.state = .receiving → c.producer = some src →
     ¬ (c.mode = .lockStep ∧ ∃ q, c.firstAdmitted = some q ∧ isOlder page q = true) →
     let go := exec (.closeFrame src 0 id page len (BitVec.ofNat 8 kind.code) check) s
     let h := s.heard
     let newer := ∀ q, c.lastCompleted = some q → isNewer page q = true
     (∀ m o flen rcv g, c.filling = some m → s.slot m = .filling o page flen rcv g →
       let known := h.changeSlot m (.filling o page (some len.toNat) rcv g)
       let whole := setMinus (setBelow ((len.toNat + 127) / 128)) rcv = 0
       let bytes := memReadList s.slots.mem (4096 * m.val) len.toNat
       (kind = .withdrawn → go = .next (h.loseFilling i .withdrawn)) ∧
       (kind ≠ .withdrawn → (∀ l, flen = some l → l ≠ len.toNat → go = .next (h.loseFilling i .check)) ∧
         (flen = none ∨ flen = some len.toNat →
           (¬ whole → go = .next (known.unfinished i)) ∧
           (whole → pageCheck bytes = check → go = .next (known.completePage i)) ∧
           (whole → pageCheck bytes ≠ check → go = .next (known.loseFilling i .check))))) ∧
     (c.filling = none → kind ≠ .withdrawn → newer →
       (∀ m rest, s.slots.free = m :: rest → (len = 0 ∨ c.mode = .lockStep) →
         let claimed := ({ h with
           slots := { h.slots with records := vput h.slots.records m (.filling i page (some len.toNat) 0 0), free := rest }
           streams := vput h.streams i (some (.consumer { c with filling := some m })) } : State)
         (len = 0 → check = 0 → go = .next (claimed.completePage i)) ∧
         (len = 0 → check ≠ 0 → go = .next (claimed.loseFilling i .check)) ∧
         (len ≠ 0 → go = .next (claimed.setGap i page (setBelow ((len.toNat + 127) / 128))))) ∧
       (s.slots.free = [] → (len = 0 ∨ c.mode = .lockStep) → go = .next (h.pageLost i page none .noSlot)) ∧
       (len ≠ 0 → c.mode = .freeRun → go = .next { h with link := { h.link with counters := { h.link.counters with
         staleSegments := satInc h.link.counters.staleSegments } } })) ∧
     (c.filling = none → (kind = .withdrawn ∨ ¬ newer) → go = .next h)) ∧
  (∀ (src : Station) (id : StreamId) (page : PageNum) (len : Half) (kind : CloseKind) (check : Word) (i : EntryIx) (c : Consumer)
     (s : State), s.hearing → s.presence.state ≠ .conflict → id ≠ 0 → len.toNat ≤ 4096 → s.findStream id = some i →
     s.entry i = some (.consumer c) →
     let go := exec (.closeFrame src 0 id page len (BitVec.ofNat 8 kind.code) check) s
     let h := s.heard
     let old := c.mode = .lockStep ∧ ∃ q, c.firstAdmitted = some q ∧ isOlder page q = true
     (c.state ≠ .receiving ∨ c.producer ≠ some src ∨ old → go = .next h) ∧
     (∀ m o f flen rcv g, c.state = .receiving → c.producer = some src → ¬ old → c.filling = some m →
       s.slot m = .filling o f flen rcv g → page ≠ f →
       let super := (h.pageLost i f (some m) .superseded).changeSlot m (.filling i page (some 0) 0 0)
       let taken := kind ≠ .withdrawn ∧ (∀ q, c.lastCompleted = some q → isNewer page q = true) ∧ isOlder f page = true
       (¬ taken → go = .next h) ∧
       (taken → len = 0 → check = 0 → go = .next (super.completePage i)) ∧
       (taken → len = 0 → check ≠ 0 → go = .next (super.loseFilling i .check)) ∧
       (taken → len ≠ 0 → go = .next { h with link := { h.link with counters := { h.link.counters with
         staleSegments := satInc h.link.counters.staleSegments } } })))

/-- For a consumer entry with a FILLING page while the holding frame holds no frame of the entry. Completion: the slot
is READY with its length, an older READY slot is FREE (a skip, counted), the page is the last completed one and
counted, no timer runs, no GAP is pending, and PAGE_READY is inserted exactly when there was no READY slot and the
host had not been notified since its last ACQUIRE. Loss: PAGE_LOST with stream, page, slot and reason is inserted, the
lost counter rises, the slot is FREE, no timer runs, a GAP for the page is removed, and on a LOCK_STEP entry in
RECEIVING FREE with the lost flag is set pending for the reasons SUPERSEDED, CHECK, NO_SLOT, REPAIR_TIMEOUT and GONE.
Unfinished: with a GAP count below 2 a GAP of the missing set is set pending; with 2 the page is lost with
REPAIR_TIMEOUT. Of any consumer entry, with or without a FILLING page, and any page, with the number of a slot or
none: the loss alone inserts PAGE_LOST with stream, page, slot or none and reason, raises the lost counter, stops the
timer, removes a GAP for that page and no other, and sets FREE with the lost flag pending as above; no slot changes
(NO_SLOT has none, SUPERSEDED keeps it). (04_receiving_and_delivery.md (R72, R76, R77, R69);
01_page_slots_and_page_memory.md (R11, R12); 02_streams_and_page_numbers.md (R28); 04_receiving_and_delivery.md (R66,
R67)) -/
def Obligations.PagesCompleteAsReady : Prop :=
  ∀ (i : EntryIx) (c : Consumer) (m : SlotNum) (o : EntryIx) (page : PageNum) (flen : Option Nat) (rcv : SegSet) (g : Nat)
    (s : State), s.entry i = some (.consumer c) → c.filling = some m → s.slot m = .filling o page flen rcv g →
    (∀ x, s.link.holding = some x → x.source.entry? ≠ some i) →
    let put := fun (t : State) (d : Consumer) => ({ t with streams := vput t.streams i (some (.consumer d)) } : State)
    (∀ len, flen = some len →
      let done := put ((s.changeSlot m (.ready o page len)).freeRef c.ready) { c with
        filling := none, ready := some m, earlier := { c.earlier with ready := false }, lastCompleted := some page, timer := none, gap := none
        skipCount := if c.ready.isSome then satInc c.skipCount else c.skipCount
        readyNotified := c.readyNotified || c.ready.isNone
        counters := { c.counters with
          completed := satInc c.counters.completed
          skipped := if c.ready.isSome then satInc c.counters.skipped else c.counters.skipped } }
      s.completePage i = if c.ready = none ∧ c.readyNotified = false then done.insertEvent (.pageReady c.stream page m) else done) ∧
    (∀ r : LossReason,
      s.loseFilling i r = put ((s.insertEvent (.pageLost c.stream page (some m) r)).freeSlot m) { c with
        filling := none, timer := none, counters := { c.counters with lost := satInc c.counters.lost }
        gap := (c.gap.filter fun e => e.1 != page)
        free := if c.mode = .lockStep ∧ c.state = .receiving ∧ r ∉ [.withdrawn, .producerLost] then some (page, true) else c.free }) ∧
    (g < 2 → s.unfinished i = put s { c with gap := some (page, match flen with
      | some len => setMinus (setBelow ((len + 127) / 128)) rcv
      | none => 0) }) ∧
    (2 ≤ g → s.unfinished i = s.loseFilling i .repairTimeout) ∧
    (∀ (j : EntryIx) (d : Consumer) (q : PageNum) (slot : Option SlotNum) (r : LossReason), s.entry j = some (.consumer d) →
      (∀ x, s.link.holding = some x → x.source.entry? ≠ some j) →
      s.pageLost j q slot r = ({ s with streams := vput s.streams j (some (.consumer { d with
        timer := none, counters := { d.counters with lost := satInc d.counters.lost }
        gap := (d.gap.filter fun e => e.1 != q)
        free := if d.mode = .lockStep ∧ d.state = .receiving ∧ r ∉ [.withdrawn, .producerLost] then some (q, true)
          else d.free })) } : State).insertEvent (.pageLost d.stream q slot r))

/-- On a station that hears the line, for a consumer entry while the holding frame holds no frame of it. An ADMIT from
the producer of record to this station in JOINING: ACCEPTED makes the entry RECEIVING with the first admitted page, no
TAKE pending and no timer, and inserts JOINED; FULL or NOT_LOCKSTEP makes it EXPELLED, its FILLING slot freed, no
timer and no TAKE, GAP or FREE pending, and inserts JOIN_FAILED with the reason. A CUT from the producer of record to
this station in RECEIVING makes it EXPELLED in the same way and inserts CUT_RECEIVED with the reason. Any other ADMIT
or CUT does nothing more than being counted. (06_lock_step_streams.md (R99, R114); 02_streams_and_page_numbers.md
(R26)) -/
def Obligations.AdmitsAndCutsMoveTheMember : Prop :=
  ∀ (src : Station) (id : StreamId) (target code : Byte) (first : PageNum) (i : EntryIx) (c : Consumer) (s : State), s.hearing →
    id ≠ 0 → target.toNat ≤ 31 → s.findStream id = some i → s.entry i = some (.consumer c) →
    (∀ x, s.link.holding = some x → x.source.entry? ≠ some i) →
    let admission := exec (.admitFrame src 0 id target code first) s
    let cut := exec (.cutFrame src 0 id target code) s
    let forUs := c.producer = some src ∧ target.toNat = s.presence.station.val
    let h := s.heard
    let put := fun (t : State) (d : Consumer) => ({ t with streams := vput t.streams i (some (.consumer d)) } : State)
    let expelled := put (h.freeRef c.filling) { c with
      filling := none, timer := none, take := false, gap := none, free := none, state := .expelled }
    (c.state = .joining → forUs →
      (code = 0 → admission = .next ((put h { c with
        state := .receiving, firstAdmitted := some first, take := false, timer := none }).insertEvent (.joined id src first))) ∧
      (code = 1 → admission = .next (expelled.insertEvent (.joinFailed id (some src) .full))) ∧
      (code = 2 → admission = .next (expelled.insertEvent (.joinFailed id (some src) .notLockstep)))) ∧
    (¬ (c.state = .joining ∧ forUs) → code.toNat ≤ 2 → admission = .next h) ∧
    (c.state = .receiving → forUs →
      (code = 0 → cut = .next (expelled.insertEvent (.cutReceived id src .timeout))) ∧
      (code = 1 → cut = .next (expelled.insertEvent (.cutReceived id src .notMember)))) ∧
    (¬ (c.state = .receiving ∧ forUs) → code.toNat ≤ 1 → cut = .next h)

/-- On a station that hears the line, for a consumer entry in RECEIVING, from its producer of record, with the station
named by the PROMPT: a last released page the same as the PROMPT's sets FREE pending with the lost flag clear; a
FILLING slot of the page is found unfinished; a READY or HELD slot of the page does nothing more; with no FILLING slot
and a page newer than the last completed and not older than the first admitted, a slot is claimed with its length
unknown and a GAP of no segment set pending, or the page is lost with NO_SLOT; any other page does nothing more. A
number that an earlier producer of record gave the last released, READY or HELD page is not the PROMPT's (R30; model's
reading, log 42). A GONE for the FILLING page loses it with GONE; any other GONE does nothing more. A PROMPT that does
not name the station, and a PROMPT or GONE to an entry not in RECEIVING or from another station, does nothing more.
(06_lock_step_streams.md (R112, R113); 05_repair.md (R85); 02_streams_and_page_numbers.md (R30)) -/
def Obligations.PromptsAndGonesAreAnswered : Prop :=
  ∀ (src : Station) (id : StreamId) (page : PageNum) (stations : List Byte) (i : EntryIx) (c : Consumer) (s : State), s.hearing →
    promptOk 0 id stations = true → s.findStream id = some i → s.entry i = some (.consumer c) →
    let prompt := exec (.promptFrame src 0 id page stations) s
    let gone := exec (.goneFrame src 0 id page) s
    let h := s.heard
    let named := ∃ b ∈ stations, b.toNat = s.presence.station.val
    let taken := c.state = .receiving ∧ c.producer = some src
    let filling := ∃ m o flen rcv g, c.filling = some m ∧ s.slot m = .filling o page flen rcv g
    let kept := (c.earlier.ready = false ∧ ∃ m, c.ready = some m ∧ (s.slot m).page? = some page) ∨
      (c.earlier.held = false ∧ ∃ m, c.held = some m ∧ (s.slot m).page? = some page)
    let released := c.lastReleased = some page ∧ c.earlier.released = false
    let wanted := c.filling = none ∧ (∀ q, c.lastCompleted = some q → isNewer page q = true) ∧
      ∀ q, c.firstAdmitted = some q → isOlder page q = false
    (taken → named →
      (released → prompt = .next (h.setFree i page false)) ∧
      (¬ released →
        (filling → prompt = .next (h.unfinished i)) ∧
        (kept → s.fillingPage c ≠ some page → prompt = .next h) ∧
        (¬ kept → wanted → (∀ m rest, s.slots.free = m :: rest → prompt = .next (({ h with
            slots := { h.slots with records := vput h.slots.records m (.filling i page none 0 0), free := rest }
            streams := vput h.streams i (some (.consumer { c with filling := some m })) } : State).setGap i page 0)) ∧
          (s.slots.free = [] → prompt = .next (h.pageLost i page none .noSlot))) ∧
        (s.fillingPage c ≠ some page → ¬ kept → ¬ wanted → prompt = .next h))) ∧
    (taken → (filling → gone = .next (h.loseFilling i .gone)) ∧ (s.fillingPage c ≠ some page → gone = .next h)) ∧
    (¬ taken → prompt = .next h ∧ gone = .next h) ∧ (¬ named → prompt = .next h)

/-- On a station that hears the line and is not in CONFLICT, for an OPEN producer entry, from a PRESENT station other
than the own one that names itself, while the holding frame holds no frame of the entry and the ADMIT list has a
place: on a FREE_RUN entry ADMIT NOT_LOCKSTEP is placed for the source; on a LOCK_STEP entry of which the source is
not a member and that has 8 members, ADMIT FULL, and a CUT pending for it stays (model's choice, log 33); else the
source is a member, any CUT for it is removed and ADMIT ACCEPTED is placed with the first page number of R96. A TAKE
from the own station, from an ABSENT one, or that names another, or that finds no place, does nothing more.
(06_lock_step_streams.md (R95, R96, R97)) -/
def Obligations.TakesAreAnswered : Prop :=
  ∀ (src : Station) (id : StreamId) (station : Byte) (i : EntryIx) (p : Producer) (s : State), s.hearing →
    s.presence.state ≠ .conflict → id ≠ 0 → station.toNat ≤ 31 → s.findStream id = some i → s.entry i = some (.producer p) →
    p.state = .opened → (∀ x, s.link.holding = some x → x.source.entry? ≠ some i) →
    let go := exec (.takeFrame src 0 id station) s
    let h := s.heard
    let put := fun q : Producer => ({ h with streams := vput h.streams i (some (.producer q)) } : State)
    let taken := src ≠ s.presence.station ∧ station.toNat = src.val ∧ (s.peer src).isPresent = true ∧
      ((∃ r, (src, r) ∈ p.admits) ∨ p.admits.length < 8)
    let member := p.members.getLsbD src.val
    (¬ taken → go = .next h) ∧
    (taken → p.mode = .freeRun → go = .next (put { p with admits := putTarget src .notLockstep p.admits })) ∧
    (taken → p.mode = .lockStep → member = false → 8 ≤ cardOf p.members →
      go = .next (put { p with admits := putTarget src .full p.admits })) ∧
    (taken → p.mode = .lockStep → (member = true ∨ cardOf p.members < 8) → go = .next (put { p with
      members := p.members ||| (1 <<< src.val)
      cuts := (p.cuts.filter fun e => e.1 != src)
      admits := putTarget src (.accepted (s.firstPage p src)) p.admits })) ∧
    (∀ c, p.phase = some .awaitingRelease → p.lastClosed = some c →
      s.firstPage p src = if p.awaited.getLsbD src.val && !p.released.getLsbD src.val then c else p.nextPage) ∧
    (p.phase = some .idle → s.firstPage p src = p.nextPage) ∧
    (∀ m j page len, p.phase = some .sending → p.sending = some m → s.slot m = .sending j page len → s.firstPage p src = page)

/-- On a station that hears the line and is not in CONFLICT, with a station field of 0 to 31, for a producer entry
whose frames the holding frame does not hold. A station field that is not the source, an entry that is not OPEN or a
FREE_RUN entry: nothing more. Otherwise a DROP of a member removes it from the member, awaited and release sets and
its ADMIT and CUT, and tests the barrier; of a station that is no member, nothing more. A FREE from a station that is
no member places CUT NOT_MEMBER, which a listed target takes and a full list of 8 others does not (its pending ADMIT
stays, model's reading, log 33); from an awaited member that has not released, for the last closed page in
AWAITING_RELEASE, it joins the release set and the barrier is tested; for an older page it raises the late frees
counter; any other changes nothing more. A barrier completes when every awaited station has released: the phase is
IDLE, the timer stops, no prompt is pending or sent, a FREE updates the pace estimate, and pause markers of the stream
may take effect. Each event ends as every event does. (06_lock_step_streams.md (R97, R103, R104, R105, R108);
03_publishing.md (R42)) -/
def Obligations.DropsAndFreesReachTheBarrier : Prop :=
  ∀ (src : Station) (id : StreamId) (station : Byte) (page : PageNum) (lost : Bool) (i : EntryIx) (p : Producer) (s : State),
    s.hearing → s.presence.state ≠ .conflict → id ≠ 0 → station.toNat < 32 → s.findStream id = some i →
    s.entry i = some (.producer p) → (∀ x, s.link.holding = some x → x.source.entry? ≠ some i) →
    let drop := exec (.dropFrame src 0 id station) s
    let free := exec (.freeFrame src lost id station page) s
    let h := s.heard
    let put := fun q : Producer => ({ h with streams := vput h.streams i (some (.producer q)) } : State)
    let member := p.members.getLsbD src.val
    let without := fun x : StationSet => x &&& ~~~(1#32 <<< src.val)
    let left := { p with
      members := without p.members, awaited := without p.awaited, released := without p.released
      admits := (p.admits.filter fun e => e.1 != src), cuts := (p.cuts.filter fun e => e.1 != src) }
    let gave := { p with released := p.released ||| (1#32 <<< src.val) }
    let ended := fun (q : Producer) (pace : Nat) => State.applyMarkers i (put { q with
      phase := some .idle, timer := none, promptSent := false, prompt := false, pace := pace })
    let awaits := p.phase = some .awaitingRelease
    (station.toNat ≠ src.val ∨ p.state ≠ .opened ∨ p.mode = .freeRun → drop = .next h.settle ∧ free = .next h.settle) ∧
    (station.toNat = src.val → p.state = .opened → p.mode = .lockStep →
    (member = false → drop = .next h.settle ∧
      ((∃ r, (src, r) ∈ p.cuts) ∨ p.cuts.length < 8 →
        free = .next (put { p with cuts := putTarget src .notMember p.cuts }).settle) ∧
      ((∀ r, (src, r) ∉ p.cuts) → 8 ≤ p.cuts.length → free = .next h.settle)) ∧
    (member = true →
      (awaits → without p.awaited &&& ~~~(without p.released) = 0 → drop = .next (ended left p.pace).settle) ∧
      (¬ awaits ∨ without p.awaited &&& ~~~(without p.released) ≠ 0 → drop = .next (put left).settle) ∧
      (∀ c, p.lastClosed = some c → isOlder page c = true → page ≠ c → free = .next ({ h with link := { h.link with
        counters := { h.link.counters with lateFrees := satInc h.link.counters.lateFrees } } } : State).settle) ∧
      (p.lastClosed = none → free = .next h.settle) ∧
      (∀ c, p.lastClosed = some c → page ≠ c → isOlder page c = false → free = .next h.settle) ∧
      (p.lastClosed = some page →
        let counts := awaits ∧ p.awaited.getLsbD src.val = true ∧ p.released.getLsbD src.val = false
        (¬ counts → free = .next h.settle) ∧
        (counts → p.awaited &&& ~~~gave.released ≠ 0 → free = .next (put gave).settle) ∧
        (∀ t, counts → p.timer = some t → p.awaited &&& ~~~gave.released = 0 →
          let measured := (s.time - t.barrierStart).toNat / 1000
          free = .next (ended gave (min 1000 (max s.floor ((3 * p.pace + measured) / 4)))).settle))))

/-- On a station that hears the line and is not in CONFLICT, for an OPEN producer entry whose frames the holding frame
does not hold. For its RETAINED page: while a pass of the entry is in progress, the page's segment numbers among those
asked for join the repair set, but for the number of a pass SEG that is offered; otherwise, with both passes used the
page number is placed in the GONE list whatever the tag (model's choice between two rows of R88 that fit, log 13);
else, with no tag or the same one, the numbers join the set, tagged with the page; else the GAP does nothing more. For
its page in flight: the numbers below the next segment number join in the same way, with no tag or the same one; with
the tag of the other page, or with none to join, nothing more. For any other page: the number joins the GONE list, at
its end, with the earliest leaving a list of 4, or keeps its place if listed. The event ends as every event does.
(05_repair.md (R88, R89, R90, R91, R92)) -/
def Obligations.GapsJoinTheRepairSet : Prop :=
  ∀ (src : Station) (id : StreamId) (station : Byte) (page : PageNum) (segments : List Byte) (i : EntryIx) (p : Producer)
    (s : State), s.hearing → s.presence.state ≠ .conflict → gapOk 0 id station segments = true → s.findStream id = some i →
    s.entry i = some (.producer p) → p.state = .opened → (∀ x, s.link.holding = some x → x.source.entry? ≠ some i) →
    let go := exec (.gapFrame src 0 id station page segments) s
    let h := s.heard
    let put := fun q : Producer => ({ h with streams := vput h.streams i (some (.producer q)) } : State)
    let want := setOfList (segments.map BitVec.toNat)
    let earliest := p.gones.headD 0
    let gone := if p.gones.contains page then p.gones
      else (if p.gones.length < 4 then p.gones else p.gones.filter (· != earliest)) ++ [page]
    let retained := fun (len : Nat) => ∃ m j, p.retained = some m ∧ s.slot m = .retained j page len
    let passing := ∃ ps, s.seg.pass = some ps ∧ ps.entry = i
    let asked := fun len : Nat => want &&& setBelow ((len + 127) / 128)
    (∀ len, retained len →
      (∀ k before fr, passing → s.seg.offered = some ⟨.passSeg k before, fr⟩ →
        go = .next (put { p with repairSet := p.repairSet ||| (asked len &&& ~~~(1#32 <<< k)) }).settle) ∧
      (passing → (∀ k before fr, s.seg.offered ≠ some ⟨.passSeg k before, fr⟩) →
        go = .next (put { p with repairSet := p.repairSet ||| asked len }).settle) ∧
      (¬ passing → 2 ≤ p.repairPasses → go = .next (put { p with gones := gone }).settle) ∧
      (¬ passing → p.repairPasses < 2 → p.repairTag = none ∨ p.repairTag = some page → go = .next (put { p with
        repairSet := p.repairSet ||| asked len, repairTag := some page }).settle) ∧
      (∀ q, ¬ passing → p.repairPasses < 2 → p.repairTag = some q → q ≠ page → go = .next h.settle)) ∧
    (∀ f, (∀ len, ¬ retained len) → s.retainedPage p ≠ some page → s.seg.flight = some f → f.entry = i → f.page = page →
      let joined := asked f.len &&& setBelow f.next
      (joined ≠ 0 → p.repairTag = none ∨ p.repairTag = some page → go = .next (put { p with
        repairSet := p.repairSet ||| joined, repairTag := some page }).settle) ∧
      (joined = 0 → go = .next h.settle) ∧
      (∀ q, p.repairTag = some q → q ≠ page → go = .next h.settle)) ∧
    (s.retainedPage p ≠ some page → (∀ f, s.seg.flight = some f → f.entry = i → f.page ≠ page) →
      go = .next (put { p with gones := gone }).settle)

/-- A ROLL that passes its checks (those of R126 and R172; a claim without a page number may hold any value in its
field, model's reading, log 37), of another station, on a station that hears the line and takes ROLLs, with an empty
stream table where not said otherwise: an ABSENT peer without the leaving flag becomes PRESENT with PEER_UP; an ABSENT
peer with the flag stays ABSENT with its count and flag recorded; a PRESENT peer with the flag becomes ABSENT with
PEER_DOWN LEFT; a PRESENT peer whose roll count is below the recorded one goes down with RENEWED and comes up; any
other PRESENT peer is recorded. A PRESENT peer's silence timer runs for 3R. In CONFIGURED, with any stream table, a
ROLL does nothing more than being counted. The event ends as every event does. With any stream table, on a station
that takes ROLLs: after the peer table entry and its PEER_UP or PEER_DOWN, each entry 0 to 15 in ascending index meets
the absence of the peer (R128, when it goes down) or the change of its claims (when it is or comes up; ascending index
is the model's order for several dropped claims, log 34), and then the OPEN producer entries whose stream the ROLL of
a lower, PRESENT peer claims become DISPUTED, in ascending index (model's reading, log 38), on a station that
transmits. To the change of claims: a consumer entry whose producer of record is the peer loses it when the claims no
longer name its stream; one without a producer of record chooses one (the lowest claimant, the sender or an older one:
model's reading, log 26) when they name its stream and did not before; every other entry is left alone. No entry is in
dispute by a ROLL of a higher peer, or on a station that does not transmit. (07_presence_and_station_states.md (R116,
R126, R127, R131); 07_presence_and_station_states.md (R127, R129, R130); 02_streams_and_page_numbers.md (R32, R33)) -/
def Obligations.RollsKeepThePeerTable : Prop :=
  (∀ (src : Station) (leaving : Bool) (count : Byte) (claims : List RawClaim) (s : State), s.hearing → rollOk 0 claims = true →
     src ≠ s.presence.station →
     let go := exec (.rollFrame src leaving 0 count claims) s
     let h := s.heard
     let p := s.peer src
     let set := fun (t : State) (q : Peer) => ({ t with presence := { t.presence with peers := vput t.presence.peers src q } } : State)
     let up : Peer := ⟨true, some (s.time + BitVec.ofNat 32 (1000 * (3 * s.rollPeriod))), some count, false, claims.map claimOf⟩
     let down := fun q : Peer => { q with isPresent := false, silence := none, claims := [] }
     let ends := fun t : State => (.next (s.joinAscending t).settle : Host.Outcome State Fault Refusal)
     let renewed := p.lastCount.any fun c => decide (count < c)
     (s.presence.state = .configured → go = .next h.settle) ∧
     (s.presence.state ≠ .configured → (∀ i : EntryIx, s.entry i = none) →
       (p.isPresent = false → leaving = false → go = ends ((set h up).insertEvent (.peerUp src))) ∧
       (p.isPresent = false → leaving = true → go = ends (set h { p with lastCount := some count, leaving := true })) ∧
       (p.isPresent = true → leaving = true → go = ends
         ((set h (down { p with lastCount := some count, leaving := true })).insertEvent (.peerDown src .left))) ∧
       (p.isPresent = true → leaving = false → renewed = true → go = ends
         ((set ((set h (down p)).insertEvent (.peerDown src .renewed)) up).insertEvent (.peerUp src))) ∧
       (p.isPresent = true → leaving = false → renewed = false → go = ends (set h up)))) ∧
  ((∀ (src : Station) (leaving : Bool) (count : Byte) (claims : List RawClaim) (s : State), s.hearing → rollOk 0 claims = true →
     src ≠ s.presence.station → s.presence.state ≠ .configured →
     let go := exec (.rollFrame src leaving 0 count claims) s
     let h := s.heard
     let p := s.peer src
     let set := fun (t : State) (q : Peer) => ({ t with presence := { t.presence with peers := vput t.presence.peers src q } } : State)
     let up : Peer := ⟨true, some (s.time + BitVec.ofNat 32 (1000 * (3 * s.rollPeriod))), some count, false, claims.map claimOf⟩
     let down := fun q : Peer => { q with isPresent := false, silence := none, claims := [] }
     let ends := fun u : State => (.next (s.joinAscending (u.disputeAll (u.disputesAtRoll src))).settle : Host.Outcome State Fault Refusal)
     let absent := fun u : State => u.forEntries (State.absentForEntry src)
     let renewed := p.lastCount.any fun c => decide (count < c)
     (p.isPresent = false → leaving = false →
       go = ends (((set h up).insertEvent (.peerUp src)).forEntries (State.claimsChanged src []))) ∧
     (p.isPresent = false → leaving = true → go = ends (set h { p with lastCount := some count, leaving := true })) ∧
     (p.isPresent = true → leaving = true → go = ends (absent
       ((set h (down { p with lastCount := some count, leaving := true })).insertEvent (.peerDown src .left)))) ∧
     (p.isPresent = true → leaving = false → renewed = true →
       let u := absent ((set h (down p)).insertEvent (.peerDown src .renewed))
       go = ends (((set u up).insertEvent (.peerUp src)).forEntries (State.claimsChanged src []))) ∧
     (p.isPresent = true → leaving = false → renewed = false →
       go = ends ((set h up).forEntries (State.claimsChanged src p.claims)))) ∧
   (∀ (n : Station) (old : List Claim) (i : EntryIx) (s : State),
     let names := fun (l : List Claim) (id : StreamId) => ∃ c ∈ l, c.stream = id
     let go := State.claimsChanged n old i s
     (∀ c, s.entry i = some (.consumer c) →
       (c.producer = some n → ¬ names (s.peer n).claims c.stream → go = s.loseProducer i) ∧
       (c.producer = none → names (s.peer n).claims c.stream → ¬ names old c.stream → go = s.chooseProducer i) ∧
       (c.producer = some n → names (s.peer n).claims c.stream → go = s) ∧
       (c.producer = none → (¬ names (s.peer n).claims c.stream ∨ names old c.stream) → go = s) ∧
       (∀ m, c.producer = some m → m ≠ n → go = s)) ∧
     (s.consumer i = none → go = s) ∧
     (s.disputeAll [] = s) ∧
     (s.transmits = false ∨ s.presence.station ≤ n → s.disputesAtRoll n = []) ∧
     (∀ m, (i, m) ∈ s.disputesAtRoll n ↔ m = n ∧ s.transmits = true ∧ n < s.presence.station ∧ (s.peer n).isPresent = true ∧
       ∃ p, s.entry i = some (.producer p) ∧ p.state = .opened ∧ names (s.peer n).claims p.stream)) ∧
   (∀ (f : EntryIx → State → State) (n : Station) (s : State),
     s.forEntries f = f 15 (f 14 (f 13 (f 12 (f 11 (f 10 (f 9 (f 8 (f 7 (f 6 (f 5 (f 4 (f 3 (f 2 (f 1 (f 0 s))))))))))))))) ∧
     ((s.disputesAtRoll n).map Prod.fst).Pairwise (· < ·)))

/-- A ROLL with the own number that passes its checks (with log 37), on a station that hears the line: in LISTENING,
ACTIVE, LEAVING or MUTED the station enters CONFLICT, with the roll count recorded, the roll and listen timers
stopped, no ROLL pending, no page in flight, frame offered, withdrawn close or pass, an empty Publish Queue and NOTE
out-queue and an empty holding frame; with no entry in use and no descriptor queued STATION_STATE is the one event
inserted. In CONFIGURED, QUIET or CONFLICT it does nothing more than being counted. The same ROLL, in LISTENING,
ACTIVE, LEAVING or MUTED, with any stream table: every pending control set is empty; an OPEN producer entry is IDLE
with its release timer stopped, and a producer entry without a page in flight changes in nothing else (that the fields
R131 does not name are kept is the model's reading, log 21), but that the entry of a discarded pass keeps no tag on an
empty repair set (model's reading, log 43); one with the page in flight also has no SENDING slot, a lost counter one
higher and no repair set that was tagged with that page (a DISPUTED one, its page marked for withdrawal, keeps no
phase, model's reading, log 22); the slots of that page and of every queued one become WRITING when they are not FREE
and no consumer entry has them FILLING; after STATION_STATE one SENT FAILED is inserted for each queued page in
posting order, that of the page in flight at its place (log 14); a DEPARTING consumer entry is removed; every other
consumer entry has no FILLING slot and no timer running, and its FILLING slot is FREE.
(07_presence_and_station_states.md (R116, R131); 03_publishing.md (R58); 08_the_exchange_link.md (R143); 09_notices.md
(R154); 07_presence_and_station_states.md (R131); 03_publishing.md (R51, R58); 02_streams_and_page_numbers.md (R22,
R23, R27, R36); 01_page_slots_and_page_memory.md (R11); 05_repair.md (R87, R90, R94)) -/
def Obligations.OwnRollsLeadToConflict : Prop :=
  (∀ (leaving : Bool) (count : Byte) (claims : List RawClaim) (s : State), s.hearing → rollOk 0 claims = true →
     let go := exec (.rollFrame s.presence.station leaving 0 count claims) s
     (s.presence.state ∈ [.listening, .active, .leaving, .muted] → ∃ t, go = .next t ∧
       t.presence = { s.presence with
         state := .conflict, conflictCount := some count, rollTimer := none, listenTimer := none, rollPending := false,
         leavingPlaced := false } ∧
       t.seg = ⟨none, none, none, none⟩ ∧ t.publish.queue = [] ∧ t.link.notes = [] ∧ t.link.holding = none ∧
       t.notices = s.notices ∧ t.slots.mem = s.slots.mem ∧
       (s.publish.queue = [] → s.seg.flight = none → (∀ i : EntryIx, s.entry i = none) →
         t.events = (s.insertEvent (.stationState s.presence.state .conflict)).events ∧ t.slots.records = s.slots.records)) ∧
     (s.presence.state ∈ [.configured, .quiet, .conflict] → go = .next s.heard.settle)) ∧
  (∀ (leaving : Bool) (count : Byte) (claims : List RawClaim) (s : State), s.hearing → rollOk 0 claims = true →
     s.presence.state ∈ [.listening, .active, .leaving, .muted] →
     let tag := fun (i : EntryIx) (p : Producer) => match s.seg.pass with
       | some ps => if ps.entry = i ∧ p.repairTag = some ps.page ∧ p.repairSet = 0 then none else p.repairTag
       | none => p.repairTag
     ∃ t, exec (.rollFrame s.presence.station leaving 0 count claims) s = .next t ∧
       (∀ i p, s.entry i = some (.producer p) → (∀ f, s.seg.flight = some f → f.entry ≠ i) →
         t.entry i = some (.producer { p with
           timer := if p.state = .opened then none else p.timer
           phase := if p.state = .opened then some .idle else p.phase
           repairTag := tag i p
           admits := [], cuts := [], gones := [], prompt := false })) ∧
       (∀ f p, s.seg.flight = some f → s.entry f.entry = some (.producer p) →
         t.entry f.entry = some (.producer { p with
           sending := none
           timer := if p.state = .opened then none else p.timer
           phase := if p.state = .opened then some .idle else p.phase
           repairSet := if p.repairTag = some f.page then 0 else p.repairSet
           repairTag := if p.repairTag = some f.page then none else tag f.entry p
           counters := { p.counters with lost := satInc p.counters.lost }
           admits := [], cuts := [], gones := [], prompt := false })) ∧
       (∀ m, (∃ f, s.seg.flight = some f ∧ f.slot = m) ∨
           (∃ d ∈ s.publish.queue, ∃ len report tail, d.body = .page m len report tail) →
         s.slot m ≠ .free → (∀ j c, s.entry j = some (.consumer c) → c.filling ≠ some m) → t.slot m = .writing) ∧
       (let sent := fun d : Descriptor => match d.body with
         | .page slot _ _ _ => some (Event.sent (s.streamOf d.entry) slot none .failed d.tag)
         | .pause => none
        let told := Event.stationState s.presence.state .conflict
        (s.seg.flight = none → t.events = (s.insertEvents (told :: s.publish.queue.filterMap sent)).events) ∧
        (∀ f before after, s.seg.flight = some f → s.publish.queue = before ++ after → (∀ d ∈ before, d.seq < f.seq) →
          (∀ d ∈ after, f.seq ≤ d.seq) → t.events = (s.insertEvents (told :: (before.filterMap sent ++
            .sent (s.streamOf f.entry) f.slot (some f.page) .failed f.tag :: after.filterMap sent))).events)) ∧
       (∀ i c, s.entry i = some (.consumer c) → c.state = .departing → t.entry i = none) ∧
       (∀ i c, s.entry i = some (.consumer c) → c.state ≠ .departing →
         t.entry i = some (.consumer { c with
           filling := none, timer := none, take := false, drop := false, free := none, gap := none }) ∧
         ∀ m, c.filling = some m → t.slot m = .free) ∧
       (∀ i, s.entry i = none → t.entry i = none))

/-- On an ACTIVE station with one OPEN producer entry and no other entry in use, no page of it in flight, none of its
frames in the holding frame and an empty Publish Queue: a ROLL that passes its checks (with log 37), of a PRESENT peer
with a lower number, without the leaving flag and not a renewal, that claims its stream makes the entry DISPUTED: no
phase, timer, member, awaited or released station, repair set or tag, retained page or pending element; its RETAINED
slot is FREE; every other field of the entry is kept (model's choice, log 21: the next and last closed page numbers,
the paused flag, the pace estimate, the prompt-sent flag and the counters); STREAM_DISPUTED is inserted with the
stream and the peer. The event ends as every event does. When different producer entries become DISPUTED in one event:
their descriptors, pause markers among them, leave the queue; the slot of each of their queued pages that is not FREE,
and of a page in flight whose CLOSE NORMAL has not been offered, is WRITING, a RETAINED slot of theirs is FREE and
every other slot record stays. Such a page in flight is withdrawn: the withdrawn close holds its stream, number,
length and check, and its entry has no SENDING slot and a lost counter one higher; one whose CLOSE NORMAL is offered
is marked for withdrawal at its close; another entry's page in flight stays. The entries change otherwise as above,
and no other entry changes. The STREAM_DISPUTED events come first, in the order of the entries (ascending index at a
ROLL, model's reading, log 38), then one SENT DISPUTED for each page in posting order, the withdrawn page at its place
(log 14). (07_presence_and_station_states.md (R130); 02_streams_and_page_numbers.md (R23); 03_publishing.md (R56);
05_repair.md (R87); 03_publishing.md (R51, R54, R56); 02_streams_and_page_numbers.md (R23, R27);
01_page_slots_and_page_memory.md (R8, R9); 05_repair.md (R87, R90)) -/
def Obligations.DisputesDisputeTheEntry : Prop :=
  (∀ (src : Station) (count : Byte) (claims : List RawClaim) (i : EntryIx) (p : Producer) (s : State), s.hearing →
     rollOk 0 claims = true → s.presence.state = .active → src < s.presence.station → (s.peer src).isPresent = true →
     (∀ c, (s.peer src).lastCount = some c → ¬ count < c) → s.entry i = some (.producer p) → (∀ j, j ≠ i → s.entry j = none) →
     p.state = .opened → (∃ c ∈ claims, c.stream = p.stream) → s.publish.queue = [] → s.seg.flight = none →
     (∀ x, s.link.holding = some x → x.source.entry? ≠ some i) →
     let peer : Peer := ⟨true, some (s.time + BitVec.ofNat 32 (1000 * (3 * s.rollPeriod))), some count, false, claims.map claimOf⟩
     let rolled := ({ s.heard with presence := { s.presence with peers := vput s.presence.peers src peer } } : State)
     let told := (rolled.insertEvent (.streamDisputed p.stream src)).freeRef p.retained
     exec (.rollFrame src false 0 count claims) s = .next (s.joinAscending ({ told with
       streams := vput s.streams i (some (.producer { p with
         state := .disputed, phase := none, timer := none, members := 0, awaited := 0, released := 0, repairSet := 0
         repairTag := none, repairPasses := 0, retained := none, admits := [], cuts := [], gones := [], prompt := false })) } : State)).settle) ∧
  (∀ (l : List (EntryIx × Station)) (s : State), (l.map Prod.fst).Nodup → (∀ e ∈ l, ∃ p, s.entry e.1 = some (.producer p)) →
     let t := s.disputeAll l
     let mine := fun i : EntryIx => i ∈ l.map Prod.fst
     let pulled := fun f : Flight => s.seg.flight = some f ∧ mine f.entry ∧ f.closeOffered = false
     let freed := fun m : SlotNum => ∃ i p, mine i ∧ s.entry i = some (.producer p) ∧ p.retained = some m
     let returned := fun m : SlotNum => (∃ d ∈ s.publish.queue, mine d.entry ∧ ∃ len report tail, d.body = .page m len report tail) ∨
       ∃ f, pulled f ∧ f.slot = m
     let told := l.map fun e => Event.streamDisputed (s.streamOf e.1) e.2
     let ours := s.publish.queue.filter fun d => decide (mine d.entry)
     let sent := fun d : Descriptor => match d.body with
       | .page slot _ _ _ => some (Event.sent (s.streamOf d.entry) slot none .disputed d.tag)
       | .pause => none
     t.publish = { s.publish with queue := s.publish.queue.filter fun d => decide (¬ mine d.entry) } ∧
     (∀ m, (freed m → t.slot m = .free) ∧ (¬ freed m → returned m → s.slot m ≠ .free → t.slot m = .writing) ∧
       (¬ freed m → ¬ returned m → t.slot m = s.slot m)) ∧
     (∀ i p, mine i → s.entry i = some (.producer p) →
       let q : Producer := { p with
         state := .disputed, phase := none, timer := none, members := 0, awaited := 0, released := 0, repairSet := 0
         repairTag := none, repairPasses := 0, retained := none, admits := [], cuts := [], gones := [], prompt := false }
       ((∀ f, pulled f → f.entry ≠ i) → t.entry i = some (.producer q)) ∧
       (∀ f, pulled f → f.entry = i → t.entry i = some (.producer { q with
         sending := none, counters := { p.counters with lost := satInc p.counters.lost } }))) ∧
     (∀ i, ¬ mine i → t.entry i = s.entry i) ∧
     (∀ f, pulled f → t.seg = { s.seg with
       flight := none, withdrawn := some ⟨s.streamOf f.entry, f.page, f.len, f.check⟩ }) ∧
     (∀ f, s.seg.flight = some f → mine f.entry → f.closeOffered = true →
       t.seg = { s.seg with flight := some { f with withdrawAtClose := true } }) ∧
     ((∀ f, s.seg.flight = some f → ¬ mine f.entry) → t.seg = s.seg) ∧
     ((∀ f, ¬ pulled f) → t.events = (s.insertEvents (told ++ ours.filterMap sent)).events) ∧
     (∀ f before after, pulled f → ours = before ++ after → (∀ d ∈ before, d.seq < f.seq) → (∀ d ∈ after, f.seq ≤ d.seq) →
       t.events = (s.insertEvents (told ++ (before.filterMap sent ++
         .sent (s.streamOf f.entry) f.slot (some f.page) .disputed f.tag :: after.filterMap sent))).events))

/-- A NOTE that passes its checks, on a station that hears the line: addressed to ALL or to this station, it sets the
source's pending flag, raises its count up to 255 and records the code, and inserts NOTE_PENDING with source and code
exactly when the flag was clear; addressed to another station it does nothing more than being counted. Nothing else
changes. (09_notices.md (R149, R150, R151)) -/
def Obligations.NotesReachTheNoticeTable : Prop :=
  ∀ (src : Station) (all : Bool) (target : BitVec 5) (source code : Byte) (s : State), s.hearing →
    source.toNat = src.val → (all = true → target = 0) →
    let go := exec (.noteFrame src all 0 target source code) s
    let e := s.notices[src]
    let notice : Notice := ⟨true, if e.count = 255 then 255 else e.count + 1, some code⟩
    let noted := ({ s.heard with notices := vput s.notices src notice } : State)
    let forUs := all = true ∨ target.toNat = s.presence.station.val
    (forUs → e.pending = false → go = .next (noted.insertEvent (.notePending src code))) ∧
    (forUs → e.pending = true → go = .next noted) ∧ (¬ forUs → go = .next s.heard)

/-- A due instant of a running roll timer makes a ROLL pending and sets the next due instant R later. The expiry of
the listen timer of a LISTENING station with no entry in use makes it ACTIVE with STATION_STATE inserted, the roll
timer due R later, a ROLL pending and the listen timer stopped. Each carries the Time Base to its instant if that lies
ahead (model's choice, log 3). With the timer stopped neither can happen and each changes nothing (log 8). At the
expiry of the listen timer of a LISTENING station with one DECLARED producer entry, no other entry in use, an empty
Publish Queue and no work in the Segmenter: when no lower station claims its stream the entry is OPEN and IDLE with
next page 0 and the pace estimate F; when one does the entry is DISPUTED with every other field kept (model's choice,
log 21) and STREAM_DISPUTED with the lowest of them (model's choice among several, log 15) is inserted behind
STATION_STATE. At the expiry of the listen timer of a LISTENING station with one entry in use, an empty Publish Queue,
no work in the Segmenter and an empty holding frame. An OPEN producer entry with no repair set tagged, as after MUTED:
when no lower station claims its stream it stays as it is; when one does it becomes DISPUTED (the lowest of several is
named, model's choice, log 15): no phase, timer, member, awaited or released station, repair set or tag, retained page
or pending element, every other field kept (model's reading, log 21), its RETAINED slot FREE, and STREAM_DISPUTED is
inserted behind STATION_STATE. A LOCK_STEP consumer entry in WAITING without producer of record takes the lowest
claimant and becomes JOINING with TAKE pending, no join try and its timer stopped, or with no claimant stays as it is;
a consumer entry that is FREE_RUN or not in WAITING stays as it is. (07_presence_and_station_states.md (R121, R125);
07_presence_and_station_states.md (R121); 02_streams_and_page_numbers.md (R22, R23); 07_presence_and_station_states.md
(R121, R130); 02_streams_and_page_numbers.md (R23, R26, R32); 03_publishing.md (R56)) -/
def Obligations.RollAndListenTimers : Prop :=
  (∀ s : State, s.port.inReset = false →
     let at' := fun t : Micros => if isDue s.time t then s.time else t
     let millis := fun n : Nat => BitVec.ofNat 32 (1000 * n)
     (∀ due, s.presence.rollTimer = some due → exec .rollTimerDue s = .next { s with
       time := at' due, presence := { s.presence with rollPending := true, rollTimer := some (due + millis s.rollPeriod) } }) ∧
     (s.presence.rollTimer = none → exec .rollTimerDue s = .next s) ∧
     (∀ due, s.presence.listenTimer = some due → s.presence.state = .listening → (∀ i : EntryIx, s.entry i = none) →
       s.publish.queue = [] → exec .listenTimerExpiry s = .next (s.joinAscending (({ s with
         time := at' due
         presence := { s.presence with state := .active, listenTimer := none, rollTimer := some (at' due + millis s.rollPeriod)
                                       rollPending := true, leavingPlaced := false } } : State).insertEvent
           (.stationState .listening .active)).settle)) ∧
     (s.presence.listenTimer = none ∨ s.presence.state ≠ .listening → exec .listenTimerExpiry s = .next s)) ∧
  (∀ (i : EntryIx) (p : Producer) (due : Micros) (s : State), s.port.inReset = false → s.presence.state = .listening →
     s.presence.listenTimer = some due → s.entry i = some (.producer p) → (∀ j, j ≠ i → s.entry j = none) →
     p = .declared p.stream p.mode p.maxLen s.floor p.counters → s.publish.queue = [] → s.seg = ⟨none, none, none, none⟩ →
     s.link.holding = none → ∃ t, exec .listenTimerExpiry s = .next t ∧ t.presence.state = .active ∧
       ((∀ n ∈ s.claimants p.stream, s.presence.station ≤ n) →
         t.entry i = some (.producer { p with state := .opened, phase := some .idle, nextPage := 0, pace := s.floor }) ∧
         t.events = ((s.reach due).insertEvent (.stationState .listening .active)).events) ∧
       (∀ n, (s.claimants p.stream).find? (fun m => decide (m < s.presence.station)) = some n →
         t.entry i = some (.producer { p with state := .disputed }) ∧
         t.events = (((s.reach due).insertEvent (.stationState .listening .active)).insertEvent (.streamDisputed p.stream n)).events)) ∧
  (∀ (i : EntryIx) (due : Micros) (s : State), s.port.inReset = false → s.presence.state = .listening →
     s.presence.listenTimer = some due → (∀ j, j ≠ i → s.entry j = none) → s.publish.queue = [] →
     s.seg = ⟨none, none, none, none⟩ → s.link.holding = none → ∃ t, exec .listenTimerExpiry s = .next t ∧
       t.presence.state = .active ∧
       (∀ p, s.entry i = some (.producer p) → p.state = .opened → p.repairTag = none →
         let told := (s.reach due).insertEvent (.stationState .listening .active)
         ((∀ n ∈ s.claimants p.stream, s.presence.station ≤ n) →
           t.entry i = some (.producer p) ∧ t.events = told.events ∧ t.slots.records = s.slots.records) ∧
         (∀ n, (s.claimants p.stream).find? (fun m => decide (m < s.presence.station)) = some n →
           t.entry i = some (.producer { p with
             state := .disputed, phase := none, timer := none, members := 0, awaited := 0, released := 0, repairSet := 0
             repairTag := none, repairPasses := 0, retained := none, admits := [], cuts := [], gones := [], prompt := false }) ∧
           t.events = (told.insertEvent (.streamDisputed p.stream n)).events ∧
           (∀ m, p.retained = some m → t.slot m = .free))) ∧
       (∀ c, s.entry i = some (.consumer c) →
         (c.mode = .lockStep → c.state = .waiting → c.producer = none →
           (∀ n rest, s.claimants c.stream = n :: rest → t.entry i = some (.consumer { c with
             producer := some n, state := .joining, joinTries := 0, take := true, timer := none })) ∧
           (s.claimants c.stream = [] → t.entry i = some (.consumer c))) ∧
         (c.mode = .freeRun ∨ c.state ≠ .waiting → t.entry i = some (.consumer c))))

/-- The expiry of the silence timer of a PRESENT peer makes it ABSENT with its timer stopped and no claims, its roll
count and leaving flag kept, and inserts PEER_DOWN SILENT, stated here with an empty stream table; with one entry in
use, a FREE_RUN consumer entry of which it was the producer of record whose frames the holding frame does not hold, in
RECEIVING with no FILLING slot and no other claimant, is WAITING without producer of record, timer or page numbers. It
carries the Time Base to the timer's instant (model's choice, log 3). With the timer stopped or the peer ABSENT
nothing changes (log 8). With any stream table, the same expiry makes each entry meet the absence in ascending index
behind PEER_DOWN. A producer entry, whose frames the holding frame does not hold: the peer leaves its ADMIT and CUT
lists; a peer that is a member also leaves the member, awaited and release sets (one that is none stays in the awaited
and release sets, model's reading, log 20), and a barrier that this completes completes with the pace estimate
unchanged. A consumer entry with another or no producer of record, and an unused entry: nothing. A consumer entry
whose producer of record was the peer loses it: a DEPARTING entry is removed; any other entry becomes WAITING without
producer of record, timer, page numbers, join tries and pending TAKE, GAP or FREE, what it has READY and HELD is from
then on of an earlier producer (log 42), its FILLING page is lost with PRODUCER_LOST and its slot freed, and it then
chooses again. A choice of an entry without producer of record takes the lowest claimant: FREE_RUN is RECEIVING;
LOCK_STEP is JOINING with TAKE pending and no join try, but not on a LEAVING or QUIET station; with no claimant
nothing changes. The claimants of a stream are the PRESENT peers whose claims name it, in ascending number.
(07_presence_and_station_states.md (R128); 02_streams_and_page_numbers.md (R33); 02_streams_and_page_numbers.md (R26,
R27, R32, R33, R36); 06_lock_step_streams.md (R104, R105, R108); 04_receiving_and_delivery.md (R76);
01_page_slots_and_page_memory.md (R11)) -/
def Obligations.SilentPeersGoAbsent : Prop :=
  (∀ (n : Station) (s : State), s.port.inReset = false →
     let absent : Peer := { s.peer n with isPresent := false, silence := none, claims := [] }
     let gone := fun due : Micros =>
       ({ s.reach due with presence := { s.presence with peers := vput s.presence.peers n absent } } : State).insertEvent
         (.peerDown n .silent)
     (∀ due, (s.peer n).silence = some due → (s.peer n).isPresent = true → (∀ i : EntryIx, s.entry i = none) →
       exec (.silenceTimerExpiry n) s = .next (s.joinAscending (gone due).settle)) ∧
     (∀ due i c, (s.peer n).silence = some due → (s.peer n).isPresent = true → s.entry i = some (.consumer c) →
       (∀ j, j ≠ i → s.entry j = none) → c.mode = .freeRun → c.state = .receiving → c.producer = some n → c.filling = none →
       s.claimants c.stream = [n] → (∀ x, s.link.holding = some x → x.source.entry? ≠ some i) →
       exec (.silenceTimerExpiry n) s = .next (s.joinAscending ({ gone due with streams := vput s.streams i (some (.consumer { c with
         state := .waiting, producer := none, timer := none, firstAdmitted := none, lastCompleted := none, lastReleased := none, earlier := ⟨c.ready.isSome, c.held.isSome, false⟩
         joinTries := 0, take := false, gap := none, free := none })) } : State).settle)) ∧
     ((s.peer n).silence = none ∨ (s.peer n).isPresent = false → exec (.silenceTimerExpiry n) s = .next s)) ∧
  (∀ (n : Station) (i : EntryIx) (s : State),
     let absent : Peer := { s.peer n with isPresent := false, silence := none, claims := [] }
     let go := State.absentForEntry n i s
     let put := fun q : Producer => ({ s with streams := vput s.streams i (some (.producer q)) } : State)
     let puts := fun c : Consumer => ({ s with streams := vput s.streams i (some (.consumer c)) } : State)
     let free := ∀ x, s.link.holding = some x → x.source.entry? ≠ some i
     (∀ due, s.port.inReset = false → (s.peer n).silence = some due → (s.peer n).isPresent = true →
       exec (.silenceTimerExpiry n) s = .next (s.joinAscending ((({ s.reach due with
         presence := { s.presence with peers := vput s.presence.peers n absent } } : State).insertEvent
           (.peerDown n .silent)).forEntries (State.absentForEntry n)).settle)) ∧
     (∀ p, s.entry i = some (.producer p) → free →
       let without := fun x : StationSet => x &&& ~~~(1#32 <<< n.val)
       let unlisted := { p with admits := (p.admits.filter fun e => e.1 != n), cuts := (p.cuts.filter fun e => e.1 != n) }
       let left := { unlisted with
         members := without p.members, awaited := without p.awaited, released := without p.released }
       let completes := p.phase = some .awaitingRelease ∧ without p.awaited &&& ~~~(without p.released) = 0
       (p.members.getLsbD n.val = false → go = put unlisted) ∧
       (p.members.getLsbD n.val = true → ¬ completes → go = put left) ∧
       (p.members.getLsbD n.val = true → completes → go = State.applyMarkers i (put { left with
         phase := some .idle, timer := none, promptSent := false, prompt := false }))) ∧
     (∀ c, s.entry i = some (.consumer c) →
       (c.producer ≠ some n → go = s) ∧ (c.producer = some n → go = s.loseProducer i)) ∧
     (s.entry i = none → go = s) ∧
     (∀ c, s.entry i = some (.consumer c) → free →
       let waiting : Consumer := { c with
         state := .waiting, producer := none, timer := none, firstAdmitted := none, lastCompleted := none, lastReleased := none, earlier := ⟨c.ready.isSome, c.held.isSome, false⟩
         joinTries := 0, take := false, gap := none, free := none }
       (c.state = .departing → s.loseProducer i = { s with streams := vput s.streams i none }) ∧
       (c.state ≠ .departing → c.filling = none → s.loseProducer i = (puts waiting).chooseProducer i) ∧
       (∀ m o page len rcv g, c.state ≠ .departing → c.filling = some m → s.slot m = .filling o page len rcv g →
         s.loseProducer i = ((({ puts { waiting with
             filling := none, counters := { c.counters with lost := satInc c.counters.lost } } with
           slots := (s.freeSlot m).slots } : State).insertEvent (.pageLost c.stream page (some m) .producerLost)).chooseProducer i))) ∧
     (∀ c, s.entry i = some (.consumer c) → c.producer = none →
       (s.claimants c.stream = [] → s.chooseProducer i = s) ∧
       (∀ m rest, s.claimants c.stream = m :: rest →
         (c.mode = .freeRun → s.chooseProducer i = puts { c with producer := some m, state := .receiving, timer := none }) ∧
         (c.mode = .lockStep → s.presence.state ∉ [.leaving, .quiet] → s.chooseProducer i = puts { c with
           producer := some m, state := .joining, joinTries := 0, take := true, timer := none }) ∧
         (c.mode = .lockStep → s.presence.state ∈ [.leaving, .quiet] → s.chooseProducer i = s))) ∧
     (∀ id, (s.claimants id).Pairwise (· < ·) ∧ ∀ m, m ∈ s.claimants id ↔
       (s.peer m).isPresent = true ∧ ∃ c ∈ (s.peer m).claims, c.stream = id))

/-- For a consumer entry whose timer runs. In RECEIVING with a FILLING slot the reception timer's expiry stops it and
the page is found unfinished. In JOINING the join wait's expiry stops it: with fewer than three join tries TAKE is
pending again (in LEAVING too, model's reading, log 44); with three the entry is EXPELLED and JOIN_FAILED is inserted
with the producer of record and NO_ANSWER. Each carries the Time Base to the timer's instant (model's choice, log 3).
In any other state of the entry, or with the timer stopped, nothing changes (log 8). (04_receiving_and_delivery.md
(R68, R69); 06_lock_step_streams.md (R98)) -/
def Obligations.ConsumerTimersExpire : Prop :=
  ∀ (i : EntryIx) (c : Consumer) (s : State), s.port.inReset = false → s.entry i = some (.consumer c) →
    let put := fun (t : State) (d : Consumer) => ({ t with streams := vput t.streams i (some (.consumer d)) } : State)
    (∀ due, c.timer = some due →
      (c.state = .receiving → c.filling.isSome → exec (.receptionTimerExpiry i) s =
        .next ((put (s.reach due) { c with timer := none }).unfinished i)) ∧
      (c.state = .joining → c.joinTries < 3 → exec (.joinWaitExpiry i) s =
        .next (put (s.reach due) { c with timer := none, take := true })) ∧
      (c.state = .joining → 3 ≤ c.joinTries → (∀ x, s.link.holding = some x → x.source.entry? ≠ some i) →
        exec (.joinWaitExpiry i) s = .next ((put ((s.reach due).freeRef c.filling) { c with
          filling := none, timer := none, take := false, gap := none, free := none, state := .expelled }).insertEvent
            (.joinFailed c.stream c.producer .noAnswer)))) ∧
    (c.timer = none ∨ c.state ≠ .receiving ∨ c.filling = none → exec (.receptionTimerExpiry i) s = .next s) ∧
    (c.timer = none ∨ c.state ≠ .joining → exec (.joinWaitExpiry i) s = .next s)

/-- For a producer entry in AWAITING_RELEASE whose release timer runs. At half of T, with no prompt sent, PROMPT is
pending and the prompt is sent. At the expiry, with none of the entry's frames in the holding frame, every outstanding
member (awaited, not released) leaves the member set and its ADMIT is removed; in ascending number CUT TIMEOUT is
placed for each, which a listed target takes and a full list of 8 others does not, and MEMBER_CUT is inserted for each
with the last closed page; and the barrier completes: IDLE, timer stopped, no prompt, pace estimate unchanged, and
pause markers of the stream may take effect. Each carries the Time Base to its instant (model's choice, log 3). With
the timer stopped, in another phase, or for the half with the prompt sent, nothing changes (log 8).
(06_lock_step_streams.md (R97, R101, R102, R104, R106); 03_publishing.md (R42)) -/
def Obligations.ReleaseTimersPromptAndCut : Prop :=
  ∀ (i : EntryIx) (p : Producer) (s : State), s.port.inReset = false → s.entry i = some (.producer p) →
    let put := fun (t : State) (q : Producer) => ({ t with streams := vput t.streams i (some (.producer q)) } : State)
    (∀ t : ReleaseTimer, p.timer = some t → p.phase = some .awaitingRelease →
      (p.promptSent = false → exec (.releaseTimerHalf i) s =
        .next (put (s.reach (t.started + (t.expiry - t.started) >>> 1)) { p with prompt := true, promptSent := true })) ∧
      ((∀ x, s.link.holding = some x → x.source.entry? ≠ some i) →
        let out := (List.finRange 32).filter fun n => (p.awaited &&& ~~~p.released).getLsbD n.val
        let cuts := out.foldl (fun l n =>
          if l.any (fun e => e.1 == n) || decide (l.length < 8) then putTarget n .timeout l else l) p.cuts
        exec (.releaseTimerExpiry i) s = .next (State.applyMarkers i ((put (s.reach t.expiry) { p with
          members := p.members &&& ~~~(p.awaited &&& ~~~p.released)
          admits := (p.admits.filter fun e => !(p.awaited &&& ~~~p.released).getLsbD e.1.val)
          cuts := cuts
          phase := some .idle, timer := none, promptSent := false, prompt := false }).insertEvents
            (out.map fun n => .memberCut p.stream n p.lastClosed .timeout))).settle)) ∧
    (p.timer = none ∨ p.phase ≠ some .awaitingRelease → exec (.releaseTimerExpiry i) s = .next s) ∧
    (p.timer = none ∨ p.phase ≠ some .awaitingRelease ∨ p.promptSent = true → exec (.releaseTimerHalf i) s = .next s)

/-- For page numbers a and b with d = (b - a) modulo 65536: d = 0 is the same page; for d from 1 to 32767 b is newer
than a and not older; for d from 32768 to 65535 b is older than a and not newer; not older means the same or newer; at
d = 32768 each is older than the other and neither is newer; an entry whose producer of record is lost drops the
numbers it held. (R30) -/
def Obligations.PageNumbersWrap : Prop :=
  (∀ a b : PageNum, let d := (b.toNat + 65536 - a.toNat) % 65536
    (d = 0 ↔ b = a) ∧ (isNewer b a = true ↔ 1 ≤ d ∧ d ≤ 32767) ∧ (isOlder b a = true ↔ 32768 ≤ d) ∧
    (isOlder b a = false ↔ b = a ∨ isNewer b a = true) ∧
    (d = 32768 → isOlder b a = true ∧ isOlder a b = true ∧ isNewer b a = false ∧ isNewer a b = false)) ∧
  (∀ (s : State) (i : EntryIx) (c : Consumer), s.consumer i = some c → ∃ d, (s.dropProducer i).consumer i = some d ∧
    d.firstAdmitted = none ∧ d.lastCompleted = none ∧ d.lastReleased = none)
end

