-- ==== Sys2Proof/Laws/Memory.lean ====
section
/-! SUPPORT. Page memory: every operation keeps the canonical form, and what a byte reads after a write. -/

namespace Sys2Proof.Machine

/-! ### The canonical form -/

theorem memWfFrom_mono {low low' : Nat} (h : low' ≤ low) : ∀ m, memWfFrom low m = true → memWfFrom low' m = true
  | [], _ => rfl
  | (k, v) :: rest, hm => by
    simp only [memWfFrom, Bool.and_eq_true, decide_eq_true_eq] at hm ⊢
    exact ⟨⟨⟨by omega, hm.1.1.2⟩, hm.1.2⟩, hm.2⟩

theorem memErase_wfFrom (a : Nat) : ∀ (m : List Host.Cell) (low : Nat), memWfFrom low m = true →
    memWfFrom low (memErase m a) = true
  | [], _, _ => rfl
  | (k, v) :: rest, low, hm => by
    have hm' := hm
    simp only [memWfFrom, Bool.and_eq_true, decide_eq_true_eq] at hm'
    unfold memErase
    split
    · exact memWfFrom_mono (by omega) rest hm'.2
    · split
      · exact hm
      · simp only [memWfFrom, Bool.and_eq_true, decide_eq_true_eq]
        exact ⟨hm'.1, memErase_wfFrom a rest (k + 1) hm'.2⟩

theorem memInsert_wfFrom (a : Nat) (b : Byte) (ha : a < memSize) (hb : b ≠ memDefault) :
    ∀ (m : List Host.Cell) (low : Nat), low ≤ a → memWfFrom low m = true → memWfFrom low (memInsert m a b) = true
  | [], low, hl, _ => by
    simp only [memInsert, memWfFrom, Bool.and_eq_true, decide_eq_true_eq]
    exact ⟨⟨⟨hl, ha⟩, hb⟩, trivial⟩
  | (k, v) :: rest, low, hl, hm => by
    have hm' := hm
    simp only [memWfFrom, Bool.and_eq_true, decide_eq_true_eq] at hm'
    unfold memInsert
    split
    · simp only [memWfFrom, Bool.and_eq_true, decide_eq_true_eq]
      exact ⟨⟨⟨hl, ha⟩, hb⟩, ⟨⟨by omega, hm'.1.1.2⟩, hm'.1.2⟩, hm'.2⟩
    · split
      · simp only [memWfFrom, Bool.and_eq_true, decide_eq_true_eq]
        exact ⟨⟨hm'.1.1, hb⟩, hm'.2⟩
      · simp only [memWfFrom, Bool.and_eq_true, decide_eq_true_eq]
        exact ⟨hm'.1, memInsert_wfFrom a b ha hb rest (k + 1) (by omega) hm'.2⟩

theorem memWrite_wf {m : List Host.Cell} (h : Memory.wf m = true) (a : Nat) (b : Byte) :
    Memory.wf (memWrite m a b) = true := by
  unfold memWrite
  split
  · exact h
  · split
    · exact memErase_wfFrom a m 0 h
    · exact memInsert_wfFrom a b (by omega) (by assumption) m 0 (Nat.zero_le _) h

theorem memWriteList_wf : ∀ (l : List Byte) {m : List Host.Cell} (a : Nat), Memory.wf m = true →
    Memory.wf (memWriteList m a l) = true
  | [], _, _, h => h
  | b :: bs, _, a, h => memWriteList_wf bs (a + 1) (memWrite_wf h a b)

theorem storeLanes_wf {m : List Host.Cell} (h : Memory.wf m = true) (a : Nat) (e : BitVec 4) (d : Word) :
    Memory.wf (storeLanes m a e d) = true := by
  unfold storeLanes
  simp only [List.foldl]
  repeat' split
  all_goals (repeat' apply memWrite_wf); exact h

/-! ### Reading after a write -/

/-- An address below everything listed reads the default. -/
theorem memRead_below : ∀ (m : List Host.Cell) (low a : Nat), memWfFrom low m = true → a < low → memRead m a = memDefault
  | [], _, _, _, _ => rfl
  | (k, v) :: rest, low, a, hm, ha => by
    simp only [memWfFrom, Bool.and_eq_true, decide_eq_true_eq] at hm
    unfold memRead
    rw [if_neg (by omega), if_pos (by omega)]

theorem memRead_memErase (a x : Nat) : ∀ (m : List Host.Cell) (low : Nat), memWfFrom low m = true →
    memRead (memErase m a) x = if x = a then memDefault else memRead m x
  | [], _, _ => by simp [memErase, memRead]
  | (k, v) :: rest, low, hm => by
    simp only [memWfFrom, Bool.and_eq_true, decide_eq_true_eq] at hm
    have ih := memRead_memErase a x rest (k + 1) hm.2
    have hb := memRead_below rest (k + 1) x hm.2
    unfold memErase
    grind [memRead]

theorem memRead_memInsert (a x : Nat) (b : Byte) : ∀ (m : List Host.Cell) (low : Nat), memWfFrom low m = true →
    memRead (memInsert m a b) x = if x = a then b else memRead m x
  | [], _, _ => by grind [memInsert, memRead]
  | (k, v) :: rest, low, hm => by
    simp only [memWfFrom, Bool.and_eq_true, decide_eq_true_eq] at hm
    have ih := memRead_memInsert a x b rest (k + 1) hm.2
    have hb := memRead_below rest (k + 1) x hm.2
    unfold memInsert
    grind [memRead]

/-- A byte after one write. -/
theorem memRead_memWrite {m : List Host.Cell} (h : Memory.wf m = true) (a x : Nat) (b : Byte) :
    memRead (memWrite m a b) x = if x = a ∧ a < memSize then b else memRead m x := by
  unfold memWrite
  split
  · rw [if_neg (by omega)]
  · split
    · rename_i hb
      rw [memRead_memErase a x m 0 h]
      by_cases hx : x = a
      · rw [if_pos hx, if_pos ⟨hx, by omega⟩, hb]
      · rw [if_neg hx, if_neg (fun c => hx c.1)]
    · rw [memRead_memInsert a x b m 0 h]
      by_cases hx : x = a
      · rw [if_pos hx, if_pos ⟨hx, by omega⟩]
      · rw [if_neg hx, if_neg (fun c => hx c.1)]

/-- A byte outside the written range reads as before. -/
theorem memRead_memWriteList_outside : ∀ (l : List Byte) {m : List Host.Cell} (a x : Nat), Memory.wf m = true →
    (x < a ∨ a + l.length ≤ x) → memRead (memWriteList m a l) x = memRead m x
  | [], _, _, _, _, _ => rfl
  | b :: bs, m, a, x, h, hx => by
    simp only [memWriteList, List.length_cons] at hx ⊢
    rw [memRead_memWriteList_outside bs (a + 1) x (memWrite_wf h a b) (by omega), memRead_memWrite h, if_neg (by omega)]

/-- A byte inside the written range reads what was written. -/
theorem memRead_memWriteList_inside : ∀ (l : List Byte) {m : List Host.Cell} (a k : Nat), Memory.wf m = true →
    (hk : k < l.length) → a + l.length ≤ memSize → memRead (memWriteList m a l) (a + k) = l[k]
  | b :: bs, m, a, 0, h, _, hs => by
    simp only [memWriteList, List.length_cons, Nat.add_zero, List.getElem_cons_zero] at hs ⊢
    rw [memRead_memWriteList_outside bs (a + 1) a (memWrite_wf h a b) (by omega), memRead_memWrite h, if_pos (by omega)]
  | b :: bs, m, a, k + 1, h, hk, hs => by
    simp only [memWriteList, List.length_cons, List.getElem_cons_succ] at hk hs ⊢
    rw [show a + (k + 1) = (a + 1) + k by omega]
    exact memRead_memWriteList_inside bs (a + 1) k (memWrite_wf h a b) (by omega) (by omega)

/-- What a word store leaves: the enabled bytes of the data at their places, every other byte as before (R15). -/
theorem memRead_storeLanes {m : List Host.Cell} (h : Memory.wf m = true) (a : Nat) (e : BitVec 4) (d : Word)
    (ha : a + 4 ≤ memSize) (x : Nat) : memRead (storeLanes m a e d) x =
      if a ≤ x ∧ x < a + 4 ∧ e.getLsbD (x - a) = true then d.extractLsb' (8 * (x - a)) 8 else memRead m x := by
  have w : ∀ (n : List Host.Cell) (k : Nat), Memory.wf n = true → k < 4 → Memory.wf
      (if e.getLsbD k then memWrite n (a + k) (d.extractLsb' (8 * k) 8) else n) = true := by
    intro n k hn _
    split
    · exact memWrite_wf hn _ _
    · exact hn
  have r : ∀ (n : List Host.Cell) (k : Nat), Memory.wf n = true → k < 4 → memRead
      (if e.getLsbD k then memWrite n (a + k) (d.extractLsb' (8 * k) 8) else n) x =
        if x = a + k ∧ e.getLsbD k = true then d.extractLsb' (8 * k) 8 else memRead n x := by
    intro n k hn hk
    split
    · rename_i he
      rw [memRead_memWrite hn]
      by_cases hx : x = a + k
      · rw [if_pos ⟨hx, by omega⟩, if_pos ⟨hx, he⟩]
      · rw [if_neg (fun c => hx c.1), if_neg (fun c => hx c.1)]
    · rename_i he
      rw [if_neg (fun c => he c.2)]
  have w0 := w m 0 h (by omega)
  have w1 := w _ 1 w0 (by omega)
  have w2 := w _ 2 w1 (by omega)
  simp only [storeLanes, List.foldl]
  rw [r _ 3 w2 (by omega), r _ 2 w1 (by omega), r _ 1 w0 (by omega), r _ 0 h (by omega)]
  by_cases h0 : x = a
  · subst h0
    simp
  · by_cases h1 : x = a + 1
    · subst h1
      simp
    · by_cases h2 : x = a + 2
      · subst h2
        simp
      · by_cases h3 : x = a + 3
        · subst h3
          simp
        · have n : ¬ (a ≤ x ∧ x < a + 4 ∧ e.getLsbD (x - a) = true) := by omega
          simp [h0, h1, h2, h3, n]

end Sys2Proof.Machine
end

