-- ==== Sys2Proof/Laws/Slots.lean ====
section
/-! SUPPORT. Slot records, the free list and the Event Queue: what each shared operation can do. -/

namespace Sys2Proof.Machine

/-! ### Vectors -/

/-- An element after one replacement. -/
theorem vput_get {α : Type} {n : Nat} (v : Vector α n) (i j : Fin n) (x : α) :
    (vput v i x)[j] = if i = j then x else v[j] := by
  simp only [vput, Fin.getElem_fin, Vector.getElem_set, Fin.ext_iff]

@[simp] theorem vput_get_same {α : Type} {n : Nat} (v : Vector α n) (i : Fin n) (x : α) : (vput v i x)[i] = x := by
  rw [vput_get, if_pos rfl]

theorem vput_get_other {α : Type} {n : Nat} (v : Vector α n) {i j : Fin n} (h : i ≠ j) (x : α) :
    (vput v i x)[j] = v[j] := by
  rw [vput_get, if_neg h]

/-! ### The free list (R3) -/

theorem SlotManager.change_listsFree {m : SlotManager} (h : m.listsFree) (n : SlotNum) (r : Slot) :
    (m.change n r).listsFree := by
  unfold SlotManager.change
  split
  · exact h
  · rename_i hc
    refine ⟨h.1, fun k => ?_⟩
    have hk := h.2 k
    simp only [vput_get]
    split
    · rename_i hnk; subst hnk
      constructor
      · intro hm; exact absurd (hk.mp hm) (fun c => hc (Or.inl c))
      · intro hr; exact absurd hr (fun c => hc (Or.inr c))
    · exact hk

theorem SlotManager.giveBack_listsFree {m : SlotManager} (h : m.listsFree) (n : SlotNum) : (m.giveBack n).listsFree := by
  unfold SlotManager.giveBack
  split
  · exact h
  · rename_i hn
    have hnot : n ∉ m.free := fun hm => hn ((h.2 n).mp hm)
    refine ⟨?_, fun k => ?_⟩
    · rw [List.nodup_append]
      refine ⟨h.1, List.nodup_singleton n, fun a ha b hb hab => ?_⟩
      rw [List.mem_singleton] at hb
      subst hb; subst hab; exact hnot ha
    · have hk := h.2 k
      simp only [vput_get, List.mem_append, List.mem_singleton]
      split
      · rename_i hnk; subst hnk; simp
      · rename_i hnk
        rw [hk]
        exact ⟨fun h => h.resolve_right (fun c => hnk c.symm), Or.inl⟩

/-- A grant takes the head of the free list, whose record becomes the one asked for; no other slot changes (R3, R5). -/
theorem SlotManager.grant_eq {m m' : SlotManager} {r : Slot} {n : SlotNum} (h : m.grant r = some (n, m')) :
    r ≠ .free ∧ m.free = n :: m'.free ∧ m' = { m with records := vput m.records n r, free := m'.free } := by
  unfold SlotManager.grant at h
  split at h
  · cases h
  · rename_i k rest heq
    split at h
    · cases h
    · rename_i hr
      simp only [Option.some.injEq, Prod.mk.injEq] at h
      obtain ⟨rfl, rfl⟩ := h
      exact ⟨hr, heq, rfl⟩

theorem SlotManager.grant_listsFree {m m' : SlotManager} {r : Slot} {n : SlotNum} (h : m.listsFree)
    (hg : m.grant r = some (n, m')) : m'.listsFree := by
  obtain ⟨hr, hf, hm⟩ := SlotManager.grant_eq hg
  have hnd := h.1
  rw [hf] at hnd
  rw [hm]
  refine ⟨(List.nodup_cons.mp hnd).2, fun k => ?_⟩
  have hk := h.2 k
  rw [hf] at hk
  simp only [vput_get]
  split
  · rename_i hnk; subst hnk
    exact ⟨fun c => absurd c (List.nodup_cons.mp hnd).1, fun c => absurd c hr⟩
  · rename_i hnk
    rw [← hk, List.mem_cons]
    exact ⟨Or.inr, fun c => c.resolve_left (fun e => hnk e.symm)⟩

/-- A claim is refused exactly when the free list is empty (R5). -/
theorem SlotManager.grant_none {m : SlotManager} {r : Slot} (hr : r ≠ .free) : m.grant r = none ↔ m.free = [] := by
  unfold SlotManager.grant
  split <;> simp_all

theorem insertAscending_perm (n : SlotNum) : ∀ l, (insertAscending n l).Perm (n :: l)
  | [] => List.Perm.refl _
  | m :: rest => by
    unfold insertAscending
    split
    · exact List.Perm.refl _
    · exact ((insertAscending_perm n rest).cons m).trans (List.Perm.swap n m rest)

theorem ascending_perm : ∀ l, (ascending l).Perm l
  | [] => List.Perm.refl _
  | n :: rest => (insertAscending_perm n _).trans ((ascending_perm rest).cons n)

theorem SlotManager.sortBehind_listsFree {m : SlotManager} (h : m.listsFree) (k : Nat) : (m.sortBehind k).listsFree := by
  have hp : (m.free.take k ++ ascending (m.free.drop k)).Perm m.free := by
    have := (ascending_perm (m.free.drop k)).append_left (m.free.take k)
    rwa [List.take_append_drop] at this
  exact ⟨hp.nodup_iff.mpr h.1, fun n => (hp.mem_iff).trans (h.2 n)⟩

@[simp] theorem SlotManager.change_mem (m : SlotManager) (n : SlotNum) (r : Slot) : (m.change n r).mem = m.mem := by
  unfold SlotManager.change; split <;> rfl

@[simp] theorem SlotManager.giveBack_mem (m : SlotManager) (n : SlotNum) : (m.giveBack n).mem = m.mem := by
  unfold SlotManager.giveBack; split <;> rfl

@[simp] theorem SlotManager.change_free (m : SlotManager) (n : SlotNum) (r : Slot) : (m.change n r).free = m.free := by
  unfold SlotManager.change; split <;> rfl

/-- Nothing but the slot's own record changes. -/
theorem SlotManager.change_other (m : SlotManager) {n k : SlotNum} (h : n ≠ k) (r : Slot) :
    (m.change n r).records[k] = m.records[k] := by
  unfold SlotManager.change
  split
  · rfl
  · exact vput_get_other _ h _

theorem SlotManager.giveBack_other (m : SlotManager) {n k : SlotNum} (h : n ≠ k) :
    (m.giveBack n).records[k] = m.records[k] := by
  unfold SlotManager.giveBack
  split
  · rfl
  · exact vput_get_other _ h _

/-! ### The Event Queue (R166, R167) -/

theorem EventQueue.insert_length (q : EventQueue) (now : Micros) (e : Event)
    (h : q.records.length ≤ Config.eventMax) : (q.insert now e).1.records.length ≤ Config.eventMax := by
  unfold EventQueue.insert
  simp only
  repeat' split
  all_goals simp only [List.length_append, List.length_cons, List.length_nil]
  all_goals omega

/-- An event that finds room and nothing lost is stored at the tail (first row of R167). -/
theorem EventQueue.insert_room {q : EventQueue} (now : Micros) (e : Event) (h : q.records.length < Config.eventMax)
    (hl : q.lost = 0) : q.insert now e = (⟨q.records ++ [⟨e, now⟩], 0⟩, false) := by
  unfold EventQueue.insert
  simp only
  rw [if_pos hl, if_pos (by omega)]

/-- An insertion changes the events, and the events lost counter when the event is not stored; nothing else. -/
theorem State.insertEvent_eq (s : State) (e : Event) :
    s.insertEvent e = { s with
      events := (s.events.insert s.time e).1
      link := { s.link with counters := if (s.events.insert s.time e).2
        then { s.link.counters with eventsLost := satInc s.link.counters.eventsLost } else s.link.counters } } := by
  unfold State.insertEvent
  simp only
  split <;> simp [State.count]

theorem State.insertEvent_room {s : State} (e : Event) (h : s.events.records.length < Config.eventMax)
    (hl : s.events.lost = 0) :
    s.insertEvent e = { s with events := ⟨s.events.records ++ [⟨e, s.time⟩], 0⟩ } := by
  rw [State.insertEvent_eq, EventQueue.insert_room _ _ h hl]
  rfl

end Sys2Proof.Machine
end

