-- ==== Sys2Proof/Laws/State.lean ====
section
/-! SUPPORT. What each named update of the state leaves alone and what it puts in, one lemma per field, true by unfolding. -/

namespace Sys2Proof.Machine

/-! ### State.modPresence -/

@[simp] theorem State.modPresence_port (s : State) (f : Presence → Presence) : (s.modPresence f).port = s.port := rfl

@[simp] theorem State.modPresence_events (s : State) (f : Presence → Presence) : (s.modPresence f).events = s.events := rfl

@[simp] theorem State.modPresence_time (s : State) (f : Presence → Presence) : (s.modPresence f).time = s.time := rfl

@[simp] theorem State.modPresence_slots (s : State) (f : Presence → Presence) : (s.modPresence f).slots = s.slots := rfl

@[simp] theorem State.modPresence_streams (s : State) (f : Presence → Presence) : (s.modPresence f).streams = s.streams := rfl

@[simp] theorem State.modPresence_publish (s : State) (f : Presence → Presence) : (s.modPresence f).publish = s.publish := rfl

@[simp] theorem State.modPresence_seg (s : State) (f : Presence → Presence) : (s.modPresence f).seg = s.seg := rfl

@[simp] theorem State.modPresence_link (s : State) (f : Presence → Presence) : (s.modPresence f).link = s.link := rfl

@[simp] theorem State.modPresence_notices (s : State) (f : Presence → Presence) : (s.modPresence f).notices = s.notices := rfl

@[simp] theorem State.modPresence_presence (s : State) (f : Presence → Presence) : (s.modPresence f).presence = f s.presence := rfl

@[simp] theorem State.modPresence_pending (s : State) (f : Presence → Presence) : (s.modPresence f).pending = s.pending := rfl

/-! ### State.modSeg -/

@[simp] theorem State.modSeg_port (s : State) (f : Segmenter → Segmenter) : (s.modSeg f).port = s.port := rfl

@[simp] theorem State.modSeg_events (s : State) (f : Segmenter → Segmenter) : (s.modSeg f).events = s.events := rfl

@[simp] theorem State.modSeg_time (s : State) (f : Segmenter → Segmenter) : (s.modSeg f).time = s.time := rfl

@[simp] theorem State.modSeg_slots (s : State) (f : Segmenter → Segmenter) : (s.modSeg f).slots = s.slots := rfl

@[simp] theorem State.modSeg_streams (s : State) (f : Segmenter → Segmenter) : (s.modSeg f).streams = s.streams := rfl

@[simp] theorem State.modSeg_publish (s : State) (f : Segmenter → Segmenter) : (s.modSeg f).publish = s.publish := rfl

@[simp] theorem State.modSeg_seg (s : State) (f : Segmenter → Segmenter) : (s.modSeg f).seg = f s.seg := rfl

@[simp] theorem State.modSeg_link (s : State) (f : Segmenter → Segmenter) : (s.modSeg f).link = s.link := rfl

@[simp] theorem State.modSeg_notices (s : State) (f : Segmenter → Segmenter) : (s.modSeg f).notices = s.notices := rfl

@[simp] theorem State.modSeg_presence (s : State) (f : Segmenter → Segmenter) : (s.modSeg f).presence = s.presence := rfl

@[simp] theorem State.modSeg_pending (s : State) (f : Segmenter → Segmenter) : (s.modSeg f).pending = s.pending := rfl

/-! ### State.modLink -/

@[simp] theorem State.modLink_port (s : State) (f : LinkController → LinkController) : (s.modLink f).port = s.port := rfl

@[simp] theorem State.modLink_events (s : State) (f : LinkController → LinkController) : (s.modLink f).events = s.events := rfl

@[simp] theorem State.modLink_time (s : State) (f : LinkController → LinkController) : (s.modLink f).time = s.time := rfl

@[simp] theorem State.modLink_slots (s : State) (f : LinkController → LinkController) : (s.modLink f).slots = s.slots := rfl

@[simp] theorem State.modLink_streams (s : State) (f : LinkController → LinkController) : (s.modLink f).streams = s.streams := rfl

@[simp] theorem State.modLink_publish (s : State) (f : LinkController → LinkController) : (s.modLink f).publish = s.publish := rfl

@[simp] theorem State.modLink_seg (s : State) (f : LinkController → LinkController) : (s.modLink f).seg = s.seg := rfl

@[simp] theorem State.modLink_link (s : State) (f : LinkController → LinkController) : (s.modLink f).link = f s.link := rfl

@[simp] theorem State.modLink_notices (s : State) (f : LinkController → LinkController) : (s.modLink f).notices = s.notices := rfl

@[simp] theorem State.modLink_presence (s : State) (f : LinkController → LinkController) : (s.modLink f).presence = s.presence := rfl

@[simp] theorem State.modLink_pending (s : State) (f : LinkController → LinkController) : (s.modLink f).pending = s.pending := rfl

/-! ### State.modPort -/

@[simp] theorem State.modPort_port (s : State) (f : Port → Port) : (s.modPort f).port = f s.port := rfl

@[simp] theorem State.modPort_events (s : State) (f : Port → Port) : (s.modPort f).events = s.events := rfl

@[simp] theorem State.modPort_time (s : State) (f : Port → Port) : (s.modPort f).time = s.time := rfl

@[simp] theorem State.modPort_slots (s : State) (f : Port → Port) : (s.modPort f).slots = s.slots := rfl

@[simp] theorem State.modPort_streams (s : State) (f : Port → Port) : (s.modPort f).streams = s.streams := rfl

@[simp] theorem State.modPort_publish (s : State) (f : Port → Port) : (s.modPort f).publish = s.publish := rfl

@[simp] theorem State.modPort_seg (s : State) (f : Port → Port) : (s.modPort f).seg = s.seg := rfl

@[simp] theorem State.modPort_link (s : State) (f : Port → Port) : (s.modPort f).link = s.link := rfl

@[simp] theorem State.modPort_notices (s : State) (f : Port → Port) : (s.modPort f).notices = s.notices := rfl

@[simp] theorem State.modPort_presence (s : State) (f : Port → Port) : (s.modPort f).presence = s.presence := rfl

@[simp] theorem State.modPort_pending (s : State) (f : Port → Port) : (s.modPort f).pending = s.pending := rfl

/-! ### State.setEntry -/

@[simp] theorem State.setEntry_port (s : State) (i : EntryIx) (e : Option Entry) : (s.setEntry i e).port = s.port := rfl

@[simp] theorem State.setEntry_events (s : State) (i : EntryIx) (e : Option Entry) : (s.setEntry i e).events = s.events := rfl

@[simp] theorem State.setEntry_time (s : State) (i : EntryIx) (e : Option Entry) : (s.setEntry i e).time = s.time := rfl

@[simp] theorem State.setEntry_slots (s : State) (i : EntryIx) (e : Option Entry) : (s.setEntry i e).slots = s.slots := rfl

@[simp] theorem State.setEntry_streams (s : State) (i : EntryIx) (e : Option Entry) : (s.setEntry i e).streams = vput s.streams i e := rfl

@[simp] theorem State.setEntry_publish (s : State) (i : EntryIx) (e : Option Entry) : (s.setEntry i e).publish = s.publish := rfl

@[simp] theorem State.setEntry_seg (s : State) (i : EntryIx) (e : Option Entry) : (s.setEntry i e).seg = s.seg := rfl

@[simp] theorem State.setEntry_link (s : State) (i : EntryIx) (e : Option Entry) : (s.setEntry i e).link = s.link := rfl

@[simp] theorem State.setEntry_notices (s : State) (i : EntryIx) (e : Option Entry) : (s.setEntry i e).notices = s.notices := rfl

@[simp] theorem State.setEntry_presence (s : State) (i : EntryIx) (e : Option Entry) : (s.setEntry i e).presence = s.presence := rfl

@[simp] theorem State.setEntry_pending (s : State) (i : EntryIx) (e : Option Entry) : (s.setEntry i e).pending = s.pending := rfl

/-! ### State.setQueue -/

@[simp] theorem State.setQueue_port (s : State) (q : List Descriptor) : (s.setQueue q).port = s.port := rfl

@[simp] theorem State.setQueue_events (s : State) (q : List Descriptor) : (s.setQueue q).events = s.events := rfl

@[simp] theorem State.setQueue_time (s : State) (q : List Descriptor) : (s.setQueue q).time = s.time := rfl

@[simp] theorem State.setQueue_slots (s : State) (q : List Descriptor) : (s.setQueue q).slots = s.slots := rfl

@[simp] theorem State.setQueue_streams (s : State) (q : List Descriptor) : (s.setQueue q).streams = s.streams := rfl

@[simp] theorem State.setQueue_seg (s : State) (q : List Descriptor) : (s.setQueue q).seg = s.seg := rfl

@[simp] theorem State.setQueue_link (s : State) (q : List Descriptor) : (s.setQueue q).link = s.link := rfl

@[simp] theorem State.setQueue_notices (s : State) (q : List Descriptor) : (s.setQueue q).notices = s.notices := rfl

@[simp] theorem State.setQueue_presence (s : State) (q : List Descriptor) : (s.setQueue q).presence = s.presence := rfl

@[simp] theorem State.setQueue_pending (s : State) (q : List Descriptor) : (s.setQueue q).pending = s.pending := rfl

/-! ### State.setNotes -/

@[simp] theorem State.setNotes_port (s : State) (l : List Note) : (s.setNotes l).port = s.port := rfl

@[simp] theorem State.setNotes_events (s : State) (l : List Note) : (s.setNotes l).events = s.events := rfl

@[simp] theorem State.setNotes_time (s : State) (l : List Note) : (s.setNotes l).time = s.time := rfl

@[simp] theorem State.setNotes_slots (s : State) (l : List Note) : (s.setNotes l).slots = s.slots := rfl

@[simp] theorem State.setNotes_streams (s : State) (l : List Note) : (s.setNotes l).streams = s.streams := rfl

@[simp] theorem State.setNotes_publish (s : State) (l : List Note) : (s.setNotes l).publish = s.publish := rfl

@[simp] theorem State.setNotes_seg (s : State) (l : List Note) : (s.setNotes l).seg = s.seg := rfl

@[simp] theorem State.setNotes_notices (s : State) (l : List Note) : (s.setNotes l).notices = s.notices := rfl

@[simp] theorem State.setNotes_presence (s : State) (l : List Note) : (s.setNotes l).presence = s.presence := rfl

@[simp] theorem State.setNotes_pending (s : State) (l : List Note) : (s.setNotes l).pending = s.pending := rfl

/-! ### State.count -/

@[simp] theorem State.count_port (s : State) (f : StationCounters → StationCounters) : (s.count f).port = s.port := rfl

@[simp] theorem State.count_events (s : State) (f : StationCounters → StationCounters) : (s.count f).events = s.events := rfl

@[simp] theorem State.count_time (s : State) (f : StationCounters → StationCounters) : (s.count f).time = s.time := rfl

@[simp] theorem State.count_slots (s : State) (f : StationCounters → StationCounters) : (s.count f).slots = s.slots := rfl

@[simp] theorem State.count_streams (s : State) (f : StationCounters → StationCounters) : (s.count f).streams = s.streams := rfl

@[simp] theorem State.count_publish (s : State) (f : StationCounters → StationCounters) : (s.count f).publish = s.publish := rfl

@[simp] theorem State.count_seg (s : State) (f : StationCounters → StationCounters) : (s.count f).seg = s.seg := rfl

@[simp] theorem State.count_notices (s : State) (f : StationCounters → StationCounters) : (s.count f).notices = s.notices := rfl

@[simp] theorem State.count_presence (s : State) (f : StationCounters → StationCounters) : (s.count f).presence = s.presence := rfl

@[simp] theorem State.count_pending (s : State) (f : StationCounters → StationCounters) : (s.count f).pending = s.pending := rfl

/-! ### State.changeSlot -/

@[simp] theorem State.changeSlot_port (s : State) (n : SlotNum) (r : Slot) : (s.changeSlot n r).port = s.port := rfl

@[simp] theorem State.changeSlot_events (s : State) (n : SlotNum) (r : Slot) : (s.changeSlot n r).events = s.events := rfl

@[simp] theorem State.changeSlot_time (s : State) (n : SlotNum) (r : Slot) : (s.changeSlot n r).time = s.time := rfl

@[simp] theorem State.changeSlot_slots (s : State) (n : SlotNum) (r : Slot) : (s.changeSlot n r).slots = s.slots.change n r := rfl

@[simp] theorem State.changeSlot_streams (s : State) (n : SlotNum) (r : Slot) : (s.changeSlot n r).streams = s.streams := rfl

@[simp] theorem State.changeSlot_publish (s : State) (n : SlotNum) (r : Slot) : (s.changeSlot n r).publish = s.publish := rfl

@[simp] theorem State.changeSlot_seg (s : State) (n : SlotNum) (r : Slot) : (s.changeSlot n r).seg = s.seg := rfl

@[simp] theorem State.changeSlot_link (s : State) (n : SlotNum) (r : Slot) : (s.changeSlot n r).link = s.link := rfl

@[simp] theorem State.changeSlot_notices (s : State) (n : SlotNum) (r : Slot) : (s.changeSlot n r).notices = s.notices := rfl

@[simp] theorem State.changeSlot_presence (s : State) (n : SlotNum) (r : Slot) : (s.changeSlot n r).presence = s.presence := rfl

@[simp] theorem State.changeSlot_pending (s : State) (n : SlotNum) (r : Slot) : (s.changeSlot n r).pending = s.pending := rfl

/-! ### State.freeSlot -/

@[simp] theorem State.freeSlot_port (s : State) (n : SlotNum) : (s.freeSlot n).port = s.port := rfl

@[simp] theorem State.freeSlot_events (s : State) (n : SlotNum) : (s.freeSlot n).events = s.events := rfl

@[simp] theorem State.freeSlot_time (s : State) (n : SlotNum) : (s.freeSlot n).time = s.time := rfl

@[simp] theorem State.freeSlot_slots (s : State) (n : SlotNum) : (s.freeSlot n).slots = s.slots.giveBack n := rfl

@[simp] theorem State.freeSlot_streams (s : State) (n : SlotNum) : (s.freeSlot n).streams = s.streams := rfl

@[simp] theorem State.freeSlot_publish (s : State) (n : SlotNum) : (s.freeSlot n).publish = s.publish := rfl

@[simp] theorem State.freeSlot_seg (s : State) (n : SlotNum) : (s.freeSlot n).seg = s.seg := rfl

@[simp] theorem State.freeSlot_link (s : State) (n : SlotNum) : (s.freeSlot n).link = s.link := rfl

@[simp] theorem State.freeSlot_notices (s : State) (n : SlotNum) : (s.freeSlot n).notices = s.notices := rfl

@[simp] theorem State.freeSlot_presence (s : State) (n : SlotNum) : (s.freeSlot n).presence = s.presence := rfl

@[simp] theorem State.freeSlot_pending (s : State) (n : SlotNum) : (s.freeSlot n).pending = s.pending := rfl

/-! ### State.writeMem -/

@[simp] theorem State.writeMem_port (s : State) (a : Nat) (l : List Byte) : (s.writeMem a l).port = s.port := rfl

@[simp] theorem State.writeMem_events (s : State) (a : Nat) (l : List Byte) : (s.writeMem a l).events = s.events := rfl

@[simp] theorem State.writeMem_time (s : State) (a : Nat) (l : List Byte) : (s.writeMem a l).time = s.time := rfl

@[simp] theorem State.writeMem_streams (s : State) (a : Nat) (l : List Byte) : (s.writeMem a l).streams = s.streams := rfl

@[simp] theorem State.writeMem_publish (s : State) (a : Nat) (l : List Byte) : (s.writeMem a l).publish = s.publish := rfl

@[simp] theorem State.writeMem_seg (s : State) (a : Nat) (l : List Byte) : (s.writeMem a l).seg = s.seg := rfl

@[simp] theorem State.writeMem_link (s : State) (a : Nat) (l : List Byte) : (s.writeMem a l).link = s.link := rfl

@[simp] theorem State.writeMem_notices (s : State) (a : Nat) (l : List Byte) : (s.writeMem a l).notices = s.notices := rfl

@[simp] theorem State.writeMem_presence (s : State) (a : Nat) (l : List Byte) : (s.writeMem a l).presence = s.presence := rfl

@[simp] theorem State.writeMem_pending (s : State) (a : Nat) (l : List Byte) : (s.writeMem a l).pending = s.pending := rfl

/-! ### State.reach -/

@[simp] theorem State.reach_port (s : State) (t : Micros) : (s.reach t).port = s.port := rfl

@[simp] theorem State.reach_events (s : State) (t : Micros) : (s.reach t).events = s.events := rfl

@[simp] theorem State.reach_slots (s : State) (t : Micros) : (s.reach t).slots = s.slots := rfl

@[simp] theorem State.reach_streams (s : State) (t : Micros) : (s.reach t).streams = s.streams := rfl

@[simp] theorem State.reach_publish (s : State) (t : Micros) : (s.reach t).publish = s.publish := rfl

@[simp] theorem State.reach_seg (s : State) (t : Micros) : (s.reach t).seg = s.seg := rfl

@[simp] theorem State.reach_link (s : State) (t : Micros) : (s.reach t).link = s.link := rfl

@[simp] theorem State.reach_notices (s : State) (t : Micros) : (s.reach t).notices = s.notices := rfl

@[simp] theorem State.reach_presence (s : State) (t : Micros) : (s.reach t).presence = s.presence := rfl

@[simp] theorem State.reach_pending (s : State) (t : Micros) : (s.reach t).pending = s.pending := rfl

/-! ### State.setPeer -/

@[simp] theorem State.setPeer_port (s : State) (n : Station) (p : Peer) : (s.setPeer n p).port = s.port := rfl

@[simp] theorem State.setPeer_events (s : State) (n : Station) (p : Peer) : (s.setPeer n p).events = s.events := rfl

@[simp] theorem State.setPeer_time (s : State) (n : Station) (p : Peer) : (s.setPeer n p).time = s.time := rfl

@[simp] theorem State.setPeer_slots (s : State) (n : Station) (p : Peer) : (s.setPeer n p).slots = s.slots := rfl

@[simp] theorem State.setPeer_streams (s : State) (n : Station) (p : Peer) : (s.setPeer n p).streams = s.streams := rfl

@[simp] theorem State.setPeer_publish (s : State) (n : Station) (p : Peer) : (s.setPeer n p).publish = s.publish := rfl

@[simp] theorem State.setPeer_seg (s : State) (n : Station) (p : Peer) : (s.setPeer n p).seg = s.seg := rfl

@[simp] theorem State.setPeer_link (s : State) (n : Station) (p : Peer) : (s.setPeer n p).link = s.link := rfl

@[simp] theorem State.setPeer_notices (s : State) (n : Station) (p : Peer) : (s.setPeer n p).notices = s.notices := rfl

@[simp] theorem State.setPeer_pending (s : State) (n : Station) (p : Peer) : (s.setPeer n p).pending = s.pending := rfl

/-! ### State.tick -/

@[simp] theorem State.tick_port (s : State) : (s.tick).port = s.port := rfl

@[simp] theorem State.tick_events (s : State) : (s.tick).events = s.events := rfl

@[simp] theorem State.tick_time (s : State) : (s.tick).time = s.time + 1 := rfl

@[simp] theorem State.tick_slots (s : State) : (s.tick).slots = s.slots := rfl

@[simp] theorem State.tick_streams (s : State) : (s.tick).streams = s.streams := rfl

@[simp] theorem State.tick_publish (s : State) : (s.tick).publish = s.publish := rfl

@[simp] theorem State.tick_seg (s : State) : (s.tick).seg = s.seg := rfl

@[simp] theorem State.tick_link (s : State) : (s.tick).link = s.link := rfl

@[simp] theorem State.tick_notices (s : State) : (s.tick).notices = s.notices := rfl

@[simp] theorem State.tick_presence (s : State) : (s.tick).presence = s.presence := rfl

@[simp] theorem State.tick_pending (s : State) : (s.tick).pending = s.pending := rfl

end Sys2Proof.Machine
end

