-- ==== Sys2Proof/Laws/Inner.lean ====
section
/-! SUPPORT. What an operation inside the part can do: it leaves the port, the waiting events and the straps alone, and it keeps
the canonical page memory, the free list and every bound. One lemma per operation; each is cited by the operations built on
it. -/

namespace Sys2Proof.Machine

set_option linter.unusedTactic false
set_option linter.unreachableTactic false

/-- From `s` to `t`, nothing of the port, the waiting events and the straps changes, and what is safe stays safe. -/
structure Inner (s t : State) : Prop where
  fixed : t.fixed = s.fixed
  memory : Memory.wf s.slots.mem = true → Memory.wf t.slots.mem = true
  slots : s.slots.listsFree → t.slots.listsFree
  events : s.events.records.length ≤ Config.eventMax → t.events.records.length ≤ Config.eventMax
  descriptors : s.publish.queue.length ≤ Config.publishMax → t.publish.queue.length ≤ Config.publishMax
  notes : s.link.notes.length ≤ Config.noteMax → t.link.notes.length ≤ Config.noteMax
  attempts : s.link.attempts < Config.attemptMax → t.link.attempts < Config.attemptMax
  drops : s.link.drops ≤ Config.dropMax → t.link.drops ≤ Config.dropMax

theorem Inner.refl (s : State) : Inner s s := ⟨rfl, id, id, id, id, id, id, id⟩

theorem Inner.trans {s t u : State} (h : Inner s t) (k : Inner t u) : Inner s u :=
  ⟨k.fixed.trans h.fixed, fun x => k.memory (h.memory x), fun x => k.slots (h.slots x), fun x => k.events (h.events x),
    fun x => k.descriptors (h.descriptors x), fun x => k.notes (h.notes x), fun x => k.attempts (h.attempts x),
    fun x => k.drops (h.drops x)⟩

theorem Inner.port {s t : State} (h : Inner s t) : t.port = s.port := congrArg (·.1) h.fixed

theorem Inner.pending {s t : State} (h : Inner s t) : t.pending = s.pending := congrArg (·.2.1) h.fixed

theorem Inner.station {s t : State} (h : Inner s t) : t.presence.station = s.presence.station := congrArg (·.2.2.1) h.fixed

theorem Inner.rate {s t : State} (h : Inner s t) : t.presence.rate = s.presence.rate := congrArg (·.2.2.2) h.fixed

/-- A state that is safe stays safe. -/
theorem Inner.safe {s t : State} (h : Inner s t) (hs : s.Safe) : t.Safe where
  memory := h.memory hs.memory
  slots := h.slots hs.slots
  bounded :=
    { commands := by rw [h.port]; exact hs.bounded.commands
      responses := by rw [h.port]; exact hs.bounded.responses
      events := h.events hs.bounded.events
      descriptors := h.descriptors hs.bounded.descriptors
      notes := h.notes hs.bounded.notes
      attempts := h.attempts hs.bounded.attempts
      drops := h.drops hs.bounded.drops }

/-! ### Updates of one block -/

/-- Changes of the stream table, the Segmenter, the Notice Table and the Time Base are inner ones. -/
theorem Inner.of_blocks {u s t : State} (h : Inner u s) (hf : t.fixed = s.fixed) (hs : t.slots = s.slots)
    (he : t.events = s.events) (hp : t.publish = s.publish) (hl : t.link = s.link) : Inner u t :=
  h.trans ⟨hf, by rw [hs]; exact id, by rw [hs]; exact id, by rw [he]; exact id, by rw [hp]; exact id,
    by rw [hl]; exact id, by rw [hl]; exact id, by rw [hl]; exact id⟩

/-- A change of the slots alone. -/
theorem Inner.of_slots {u s : State} {m : SlotManager} (h : Inner u s)
    (hm : Memory.wf s.slots.mem = true → Memory.wf m.mem = true) (hs : s.slots.listsFree → m.listsFree) :
    Inner u { s with slots := m } :=
  h.trans ⟨rfl, hm, hs, id, id, id, id, id⟩

/-- A change of the link alone. -/
theorem Inner.of_link {u s : State} {l : LinkController} (h : Inner u s)
    (hn : s.link.notes.length ≤ Config.noteMax → l.notes.length ≤ Config.noteMax)
    (ha : s.link.attempts < Config.attemptMax → l.attempts < Config.attemptMax)
    (hd : s.link.drops ≤ Config.dropMax → l.drops ≤ Config.dropMax) : Inner u { s with link := l } :=
  h.trans ⟨rfl, id, id, id, id, hn, ha, hd⟩

/-- A change of the Publish Queue alone. -/
theorem Inner.of_publish {u s : State} {p : PublishQueue} (h : Inner u s)
    (hp : s.publish.queue.length ≤ Config.publishMax → p.queue.length ≤ Config.publishMax) :
    Inner u { s with publish := p } :=
  h.trans ⟨rfl, id, id, id, hp, id, id, id⟩

theorem State.reach_inner {u s : State} (h : Inner u s) (t : Micros) : Inner u (s.reach t) :=
  h.of_blocks rfl rfl rfl rfl rfl

theorem State.setEntry_inner {u s : State} (h : Inner u s) (i : EntryIx) (e : Option Entry) : Inner u (s.setEntry i e) :=
  h.of_blocks rfl rfl rfl rfl rfl

theorem State.modSeg_inner {u s : State} (h : Inner u s) (f : Segmenter → Segmenter) : Inner u (s.modSeg f) :=
  h.of_blocks rfl rfl rfl rfl rfl

theorem State.modPresence_inner {u s : State} (h : Inner u s) (f : Presence → Presence)
    (hf : (f s.presence).station = s.presence.station ∧ (f s.presence).rate = s.presence.rate) : Inner u (s.modPresence f) := by
  refine h.of_blocks ?_ rfl rfl rfl rfl
  simp only [State.fixed, State.modPresence]
  rw [hf.1, hf.2]

theorem State.count_inner {u s : State} (h : Inner u s) (f : StationCounters → StationCounters) : Inner u (s.count f) :=
  h.of_link id id id

theorem State.modLink_inner {u s : State} (h : Inner u s) (f : LinkController → LinkController)
    (hf : (s.link.notes.length ≤ Config.noteMax → (f s.link).notes.length ≤ Config.noteMax) ∧
      (s.link.attempts < Config.attemptMax → (f s.link).attempts < Config.attemptMax) ∧
      (s.link.drops ≤ Config.dropMax → (f s.link).drops ≤ Config.dropMax)) : Inner u (s.modLink f) :=
  h.of_link hf.1 hf.2.1 hf.2.2

theorem State.setNotes_inner {u s : State} (h : Inner u s) (l : List Note)
    (hl : s.link.notes.length ≤ Config.noteMax → l.length ≤ Config.noteMax) : Inner u (s.setNotes l) :=
  h.of_link hl id id

theorem State.insertEvent_inner {u s : State} (h : Inner u s) (e : Event) : Inner u (s.insertEvent e) := by
  rw [State.insertEvent_eq]
  exact h.trans ⟨rfl, id, id, EventQueue.insert_length _ _ _, id, id, id, id⟩

theorem State.changeSlot_inner {u s : State} (h : Inner u s) (n : SlotNum) (r : Slot) : Inner u (s.changeSlot n r) :=
  h.of_slots (by simp) (fun k => SlotManager.change_listsFree k n r)

theorem State.freeSlot_inner {u s : State} (h : Inner u s) (n : SlotNum) : Inner u (s.freeSlot n) :=
  h.of_slots (by simp) (fun k => SlotManager.giveBack_listsFree k n)

theorem State.joinAscending_inner {u t : State} (h : Inner u t) (s : State) : Inner u (s.joinAscending t) :=
  h.of_slots id (fun k => SlotManager.sortBehind_listsFree k _)

theorem State.writeMem_inner {u s : State} (h : Inner u s) (a : Nat) (l : List Byte) : Inner u (s.writeMem a l) :=
  h.of_slots (fun k => memWriteList_wf l a k) id

/-- A grant (R5). -/
theorem State.grant_inner {u s : State} (h : Inner u s) {r : Slot} {n : SlotNum} {m : SlotManager}
    (hg : s.slots.grant r = some (n, m)) : Inner u { s with slots := m } :=
  h.of_slots (by rw [(SlotManager.grant_eq hg).2.2]; exact id) (fun k => SlotManager.grant_listsFree k hg)

theorem State.setQueue_inner {u s : State} (h : Inner u s) (q : List Descriptor)
    (hq : s.publish.queue.length ≤ Config.publishMax → q.length ≤ Config.publishMax) : Inner u (s.setQueue q) :=
  h.of_publish hq

theorem State.appendDescriptor_inner {u s : State} (h : Inner u s) (i : EntryIx) (tag : Byte) (b : DescriptorBody)
    (hl : s.publish.queue.length < Config.publishMax) : Inner u (s.appendDescriptor i tag b) :=
  h.of_publish (fun _ => by simpa [State.appendDescriptor] using hl)

theorem State.emptyHolding_inner {u s : State} (h : Inner u s) : Inner u s.emptyHolding :=
  h.of_link id (fun _ => Nat.zero_lt_succ 3) id

theorem State.freeRef_inner {u s : State} (h : Inner u s) (r : Option SlotNum) : Inner u (s.freeRef r) := by
  unfold State.freeRef
  split
  · exact h
  · exact State.freeSlot_inner h _

/-! ### Doing something for each of a list -/

theorem foldl_inner {α : Type} {f : State → α → State} (hf : ∀ t a, Inner t (f t a)) :
    ∀ (l : List α) {u s : State}, Inner u s → Inner u (l.foldl f s)
  | [], _, _, h => h
  | a :: l, _, s, h => foldl_inner hf l (h.trans (hf s a))

theorem State.forEntries_inner {u s : State} (h : Inner u s) {f : EntryIx → State → State}
    (hf : ∀ i t, Inner t (f i t)) : Inner u (s.forEntries f) :=
  foldl_inner (f := fun t i => f i t) (fun t i => hf i t) allEntries h


/-! ### Shared operations -/

theorem State.countStale_inner {u s : State} (h : Inner u s) : Inner u (State.countStale s) := by
  unfold State.countStale
  try dsimp only
  repeat' with_reducible first | exact h | exact Inner.refl _ | apply State.count_inner | intro _ | split | exact ⟨rfl, rfl⟩ | exact ⟨id, id, id⟩

theorem State.countCheckFailure_inner {u s : State} (h : Inner u s) : Inner u (State.countCheckFailure s) := by
  unfold State.countCheckFailure
  try dsimp only
  repeat' with_reducible first | exact h | exact Inner.refl _ | apply State.count_inner | intro _ | split | exact ⟨rfl, rfl⟩ | exact ⟨id, id, id⟩

theorem State.insertEvents_inner {u s : State} (h : Inner u s) (l : List Event) : Inner u (State.insertEvents s l) := by
  unfold State.insertEvents
  try dsimp only
  repeat' with_reducible first | exact h | exact Inner.refl _ | apply State.insertEvent_inner | apply foldl_inner | intro _ | split | exact ⟨rfl, rfl⟩ | exact ⟨id, id, id⟩

theorem State.modProducer_inner {u s : State} (h : Inner u s) (i : EntryIx) (f : Producer → Producer) : Inner u (State.modProducer s i f) := by
  unfold State.modProducer
  try dsimp only
  repeat' with_reducible first | exact h | exact Inner.refl _ | apply State.setEntry_inner | intro _ | split | exact ⟨rfl, rfl⟩ | exact ⟨id, id, id⟩

theorem State.modConsumer_inner {u s : State} (h : Inner u s) (i : EntryIx) (f : Consumer → Consumer) : Inner u (State.modConsumer s i f) := by
  unfold State.modConsumer
  try dsimp only
  repeat' with_reducible first | exact h | exact Inner.refl _ | apply State.setEntry_inner | intro _ | split | exact ⟨rfl, rfl⟩ | exact ⟨id, id, id⟩

theorem State.enterState_inner {u s : State} (h : Inner u s) (n : StationState) : Inner u (State.enterState s n) := by
  unfold State.enterState
  try dsimp only
  repeat' with_reducible first | exact h | exact Inner.refl _ | apply State.insertEvent_inner | apply State.modPresence_inner | intro _ | split | exact ⟨rfl, rfl⟩ | exact ⟨id, id, id⟩

/-! ### Pending control sets -/

theorem State.sourceRemoved_inner {u s : State} (h : Inner u s) (p : FrameSource → Bool) : Inner u (s.sourceRemoved p) := by
  unfold State.sourceRemoved
  split
  · split
    · split
      · exact State.emptyHolding_inner h
      · exact h.of_link id id id
    · exact h
  · exact h

theorem State.elementRemoved_inner {u s : State} (h : Inner u s) (src : FrameSource) : Inner u (State.elementRemoved s src) := by
  unfold State.elementRemoved
  try dsimp only
  repeat' with_reducible first | exact h | exact Inner.refl _ | apply State.sourceRemoved_inner | intro _ | split | exact ⟨rfl, rfl⟩ | exact ⟨id, id, id⟩

theorem State.contentReplaced_inner {u s : State} (h : Inner u s) (src : FrameSource) (f : Frame) :
    Inner u (s.contentReplaced src f) := by
  unfold State.contentReplaced
  split
  · split
    · exact h.of_link id id id
    · exact h
  · exact h

theorem State.setTake_inner {u s : State} (h : Inner u s) (i : EntryIx) : Inner u (State.setTake s i) := by
  unfold State.setTake
  try dsimp only
  repeat' with_reducible first | exact h | exact Inner.refl _ | apply State.modConsumer_inner | intro _ | split | exact ⟨rfl, rfl⟩ | exact ⟨id, id, id⟩

theorem State.clearTake_inner {u s : State} (h : Inner u s) (i : EntryIx) : Inner u (State.clearTake s i) := by
  unfold State.clearTake
  try dsimp only
  repeat' with_reducible first | exact h | exact Inner.refl _ | apply State.modConsumer_inner | apply State.elementRemoved_inner | intro _ | split | exact ⟨rfl, rfl⟩ | exact ⟨id, id, id⟩

theorem State.setDrop_inner {u s : State} (h : Inner u s) (i : EntryIx) : Inner u (State.setDrop s i) := by
  unfold State.setDrop
  try dsimp only
  repeat' with_reducible first | exact h | exact Inner.refl _ | apply State.modConsumer_inner | intro _ | split | exact ⟨rfl, rfl⟩ | exact ⟨id, id, id⟩

theorem State.clearDrop_inner {u s : State} (h : Inner u s) (i : EntryIx) : Inner u (State.clearDrop s i) := by
  unfold State.clearDrop
  try dsimp only
  repeat' with_reducible first | exact h | exact Inner.refl _ | apply State.modConsumer_inner | apply State.elementRemoved_inner | intro _ | split | exact ⟨rfl, rfl⟩ | exact ⟨id, id, id⟩

theorem State.setFree_inner {u s : State} (h : Inner u s) (i : EntryIx) (page : PageNum) (lost : Bool) : Inner u (State.setFree s i page lost) := by
  unfold State.setFree
  try dsimp only
  repeat' with_reducible first | exact h | exact Inner.refl _ | apply State.modConsumer_inner | apply State.contentReplaced_inner | intro _ | split | exact ⟨rfl, rfl⟩ | exact ⟨id, id, id⟩

theorem State.clearFree_inner {u s : State} (h : Inner u s) (i : EntryIx) : Inner u (State.clearFree s i) := by
  unfold State.clearFree
  try dsimp only
  repeat' with_reducible first | exact h | exact Inner.refl _ | apply State.modConsumer_inner | apply State.elementRemoved_inner | intro _ | split | exact ⟨rfl, rfl⟩ | exact ⟨id, id, id⟩

theorem State.setGap_inner {u s : State} (h : Inner u s) (i : EntryIx) (page : PageNum) (missing : SegSet) : Inner u (State.setGap s i page missing) := by
  unfold State.setGap
  try dsimp only
  repeat' with_reducible first | exact h | exact Inner.refl _ | apply State.modConsumer_inner | apply State.contentReplaced_inner | intro _ | split | exact ⟨rfl, rfl⟩ | exact ⟨id, id, id⟩

theorem State.clearGap_inner {u s : State} (h : Inner u s) (i : EntryIx) : Inner u (State.clearGap s i) := by
  unfold State.clearGap
  try dsimp only
  repeat' with_reducible first | exact h | exact Inner.refl _ | apply State.modConsumer_inner | apply State.elementRemoved_inner | intro _ | split | exact ⟨rfl, rfl⟩ | exact ⟨id, id, id⟩

theorem State.removeAdmit_inner {u s : State} (h : Inner u s) (i : EntryIx) (t : Station) : Inner u (State.removeAdmit s i t) := by
  unfold State.removeAdmit
  try dsimp only
  repeat' with_reducible first | exact h | exact Inner.refl _ | apply State.modProducer_inner | apply State.elementRemoved_inner | intro _ | split | exact ⟨rfl, rfl⟩ | exact ⟨id, id, id⟩

theorem State.removeCut_inner {u s : State} (h : Inner u s) (i : EntryIx) (t : Station) : Inner u (State.removeCut s i t) := by
  unfold State.removeCut
  try dsimp only
  repeat' with_reducible first | exact h | exact Inner.refl _ | apply State.modProducer_inner | apply State.elementRemoved_inner | intro _ | split | exact ⟨rfl, rfl⟩ | exact ⟨id, id, id⟩

theorem State.placeAdmit_inner {u s : State} (h : Inner u s) (i : EntryIx) (t : Station) (r : AdmitResult) : Inner u (State.placeAdmit s i t r) := by
  unfold State.placeAdmit
  try dsimp only
  repeat' with_reducible first | exact h | exact Inner.refl _ | apply State.modProducer_inner | apply State.contentReplaced_inner | intro _ | split | exact ⟨rfl, rfl⟩ | exact ⟨id, id, id⟩

theorem State.placeCut_inner {u s : State} (h : Inner u s) (i : EntryIx) (t : Station) (r : CutReason) : Inner u (State.placeCut s i t r) := by
  unfold State.placeCut
  try dsimp only
  repeat' with_reducible first | exact h | exact Inner.refl _ | apply State.modProducer_inner | apply State.contentReplaced_inner | intro _ | split | exact ⟨rfl, rfl⟩ | exact ⟨id, id, id⟩

theorem State.removeGone_inner {u s : State} (h : Inner u s) (i : EntryIx) (page : PageNum) : Inner u (State.removeGone s i page) := by
  unfold State.removeGone
  try dsimp only
  repeat' with_reducible first | exact h | exact Inner.refl _ | apply State.modProducer_inner | apply State.elementRemoved_inner | intro _ | split | exact ⟨rfl, rfl⟩ | exact ⟨id, id, id⟩

theorem State.placeGone_inner {u s : State} (h : Inner u s) (i : EntryIx) (page : PageNum) : Inner u (State.placeGone s i page) := by
  unfold State.placeGone
  try dsimp only
  repeat' with_reducible first | exact h | exact Inner.refl _ | apply State.modProducer_inner | apply State.removeGone_inner | intro _ | split | exact ⟨rfl, rfl⟩ | exact ⟨id, id, id⟩

theorem State.setPrompt_inner {u s : State} (h : Inner u s) (i : EntryIx) : Inner u (State.setPrompt s i) := by
  unfold State.setPrompt
  try dsimp only
  repeat' with_reducible first | exact h | exact Inner.refl _ | apply State.modProducer_inner | intro _ | split | exact ⟨rfl, rfl⟩ | exact ⟨id, id, id⟩

theorem State.clearPrompt_inner {u s : State} (h : Inner u s) (i : EntryIx) : Inner u (State.clearPrompt s i) := by
  unfold State.clearPrompt
  try dsimp only
  repeat' with_reducible first | exact h | exact Inner.refl _ | apply State.modProducer_inner | apply State.elementRemoved_inner | intro _ | split | exact ⟨rfl, rfl⟩ | exact ⟨id, id, id⟩

theorem State.emptyPending_inner {u s : State} (h : Inner u s) (i : EntryIx) : Inner u (State.emptyPending s i) := by
  unfold State.emptyPending
  try dsimp only
  repeat' with_reducible first | exact h | exact Inner.refl _ | apply State.setEntry_inner | apply State.sourceRemoved_inner | intro _ | split | exact ⟨rfl, rfl⟩ | exact ⟨id, id, id⟩

theorem State.removeEntry_inner {u s : State} (h : Inner u s) (i : EntryIx) : Inner u (State.removeEntry s i) := by
  unfold State.removeEntry
  try dsimp only
  repeat' with_reducible first | exact h | exact Inner.refl _ | apply State.setEntry_inner | apply State.emptyPending_inner | intro _ | split | exact ⟨rfl, rfl⟩ | exact ⟨id, id, id⟩

/-! ### Publish Queue and barriers -/

theorem State.markerEffect_inner {u s : State} (h : Inner u s) (i : EntryIx) (d : Descriptor) :
    Inner u (State.markerEffect i s d) :=
  State.insertEvent_inner (State.modProducer_inner
    (State.setQueue_inner h _ (fun k => le_trans (List.length_erase_le) k)) _ _) _

theorem State.applyMarkers_inner {u s : State} (h : Inner u s) (i : EntryIx) : Inner u (State.applyMarkers i s) := by
  unfold State.applyMarkers
  try dsimp only
  repeat' with_reducible first | exact h | exact Inner.refl _ | apply State.markerEffect_inner | apply foldl_inner | intro _ | split | exact ⟨rfl, rfl⟩ | exact ⟨id, id, id⟩

theorem State.returnSlot_inner {u s : State} (h : Inner u s) (d : Descriptor) : Inner u (State.returnSlot s d) := by
  unfold State.returnSlot
  try dsimp only
  repeat' with_reducible first | exact h | exact Inner.refl _ | apply State.changeSlot_inner | intro _ | split | exact ⟨rfl, rfl⟩ | exact ⟨id, id, id⟩

theorem State.returnQueued_inner {u s : State} (h : Inner u s) (p : Descriptor → Bool) : Inner u (s.returnQueued p) := by
  have hf : Inner s ((s.publish.queue.filter p).foldl State.returnSlot s) :=
    foldl_inner (fun t d => State.returnSlot_inner (Inner.refl t) d) _ (Inner.refl s)
  exact h.trans ⟨hf.fixed, hf.memory, hf.slots, hf.events, fun k => le_trans (List.length_filter_le _ _) k, hf.notes,
    hf.attempts, hf.drops⟩

theorem State.insertSents_inner {u s : State} (h : Inner u s) (l : List (Nat × Event)) (x : Option (Nat × Event)) : Inner u (State.insertSents s l x) := by
  unfold State.insertSents
  try dsimp only
  repeat' with_reducible first | exact h | exact Inner.refl _ | apply State.insertEvents_inner | intro _ | split | exact ⟨rfl, rfl⟩ | exact ⟨id, id, id⟩

theorem State.beginBarrier_inner {u s : State} (h : Inner u s) (i : EntryIx) : Inner u (State.beginBarrier s i) := by
  unfold State.beginBarrier
  try dsimp only
  repeat' with_reducible first | exact h | exact Inner.refl _ | apply State.modProducer_inner | intro _ | split | exact ⟨rfl, rfl⟩ | exact ⟨id, id, id⟩

theorem State.restartBarrier_inner {u s : State} (h : Inner u s) (i : EntryIx) : Inner u (State.restartBarrier s i) := by
  unfold State.restartBarrier
  try dsimp only
  repeat' with_reducible first | exact h | exact Inner.refl _ | apply State.modProducer_inner | intro _ | split | exact ⟨rfl, rfl⟩ | exact ⟨id, id, id⟩

theorem State.completeBarrier_inner {u s : State} (h : Inner u s) (i : EntryIx) (byFree : Bool) : Inner u (State.completeBarrier s i byFree) := by
  unfold State.completeBarrier
  try dsimp only
  repeat' with_reducible first | exact h | exact Inner.refl _ | apply State.modProducer_inner | apply State.clearPrompt_inner | apply State.applyMarkers_inner | intro _ | split | exact ⟨rfl, rfl⟩ | exact ⟨id, id, id⟩

theorem State.testBarrier_inner {u s : State} (h : Inner u s) (i : EntryIx) (byFree : Bool) : Inner u (State.testBarrier s i byFree) := by
  unfold State.testBarrier
  try dsimp only
  repeat' with_reducible first | exact h | exact Inner.refl _ | apply State.completeBarrier_inner | intro _ | split | exact ⟨rfl, rfl⟩ | exact ⟨id, id, id⟩

theorem State.removeMember_inner {u s : State} (h : Inner u s) (i : EntryIx) (n : Station) : Inner u (State.removeMember s i n) := by
  unfold State.removeMember
  try dsimp only
  repeat' with_reducible first | exact h | exact Inner.refl _ | apply State.modProducer_inner | apply State.testBarrier_inner | intro _ | split | exact ⟨rfl, rfl⟩ | exact ⟨id, id, id⟩

/-! ### Segmenter -/

theorem State.offer_inner {u s : State} (h : Inner u s) (k : OfferedKind) (f : Frame) : Inner u (State.offer s k f) := by
  unfold State.offer
  try dsimp only
  repeat' with_reducible first | exact h | exact Inner.refl _ | apply State.modSeg_inner | intro _ | split | exact ⟨rfl, rfl⟩ | exact ⟨id, id, id⟩

theorem State.offerFlight_inner {u s : State} (h : Inner u s) (f : Flight) : Inner u (State.offerFlight s f) := by
  unfold State.offerFlight
  try dsimp only
  repeat' with_reducible first | exact h | exact Inner.refl _ | apply State.modSeg_inner | apply State.offer_inner | intro _ | split | exact ⟨rfl, rfl⟩ | exact ⟨id, id, id⟩

theorem State.selectDescriptor_inner {u s : State} (h : Inner u s) (d : Descriptor) : Inner u (s.selectDescriptor d) := by
  unfold State.selectDescriptor
  split
  · exact State.offerFlight_inner (State.modSeg_inner (State.modProducer_inner (State.changeSlot_inner
      (State.setQueue_inner h _ (fun k => le_trans (List.length_erase_le) k)) _ _) _ _) _) _
  · exact h

theorem State.select_inner {u s : State} (h : Inner u s) : Inner u (State.select s) := by
  unfold State.select
  try dsimp only
  repeat' with_reducible first | exact h | exact Inner.refl _ | apply State.selectDescriptor_inner | intro _ | split | exact ⟨rfl, rfl⟩ | exact ⟨id, id, id⟩

theorem State.offerPass_inner {u s : State} (h : Inner u s) (ps : Pass) (p : Producer) (slot : SlotNum) : Inner u (State.offerPass s ps p slot) := by
  unfold State.offerPass
  try dsimp only
  repeat' with_reducible first | exact h | exact Inner.refl _ | apply State.modProducer_inner | apply State.modSeg_inner | apply State.offer_inner | intro _ | split | exact ⟨rfl, rfl⟩ | exact ⟨id, id, id⟩

theorem State.beginPass_inner {u s : State} (h : Inner u s) (i : EntryIx) : Inner u (State.beginPass s i) := by
  unfold State.beginPass
  try dsimp only
  repeat' with_reducible first | exact h | exact Inner.refl _ | apply State.modProducer_inner | apply State.modSeg_inner | apply State.offerPass_inner | intro _ | split | exact ⟨rfl, rfl⟩ | exact ⟨id, id, id⟩

theorem State.continuePass_inner {u s : State} (h : Inner u s) (ps : Pass) : Inner u (State.continuePass s ps) := by
  unfold State.continuePass
  try dsimp only
  repeat' with_reducible first | exact h | exact Inner.refl _ | apply State.offerPass_inner | intro _ | split | exact ⟨rfl, rfl⟩ | exact ⟨id, id, id⟩

theorem State.endPass_inner {u s : State} (h : Inner u s) (ps : Pass) : Inner u (State.endPass s ps) := by
  unfold State.endPass
  try dsimp only
  repeat' with_reducible first | exact h | exact Inner.refl _ | apply State.modProducer_inner | apply State.placeGone_inner | apply State.modSeg_inner | intro _ | split | exact ⟨rfl, rfl⟩ | exact ⟨id, id, id⟩

theorem State.boundaryRest_inner {u s : State} (h : Inner u s) : Inner u (State.boundaryRest s) := by
  unfold State.boundaryRest
  try dsimp only
  repeat' with_reducible first | exact h | exact Inner.refl _ | apply State.offer_inner | apply State.offerFlight_inner | apply State.select_inner | intro _ | split | exact ⟨rfl, rfl⟩ | exact ⟨id, id, id⟩

theorem State.boundaryNew_inner {u s : State} (h : Inner u s) : Inner u (State.boundaryNew s) := by
  unfold State.boundaryNew
  try dsimp only
  repeat' with_reducible first | exact h | exact Inner.refl _ | apply State.beginPass_inner | apply State.boundaryRest_inner | intro _ | split | exact ⟨rfl, rfl⟩ | exact ⟨id, id, id⟩

theorem State.boundary_inner {u s : State} (h : Inner u s) : Inner u (State.boundary s) := by
  unfold State.boundary
  try dsimp only
  repeat' with_reducible first | exact h | exact Inner.refl _ | apply State.modSeg_inner | apply State.continuePass_inner | apply State.boundaryNew_inner | intro _ | split | exact ⟨rfl, rfl⟩ | exact ⟨id, id, id⟩

theorem State.closeRepair_inner {u s : State} (h : Inner u s) (i : EntryIx) (old : Option PageNum) : Inner u (State.closeRepair s i old) := by
  unfold State.closeRepair
  try dsimp only
  repeat' with_reducible first | exact h | exact Inner.refl _ | apply State.modProducer_inner | apply State.placeGone_inner | intro _ | split | exact ⟨rfl, rfl⟩ | exact ⟨id, id, id⟩

theorem State.closePhase_inner {u s : State} (h : Inner u s) (i : EntryIx) : Inner u (State.closePhase s i) := by
  unfold State.closePhase
  try dsimp only
  repeat' with_reducible first | exact h | exact Inner.refl _ | apply State.modProducer_inner | apply State.beginBarrier_inner | intro _ | split | exact ⟨rfl, rfl⟩ | exact ⟨id, id, id⟩

theorem State.placeTail_inner {u s : State} (h : Inner u s) (tail : Option Note) : Inner u (s.placeTail tail).1 := by
  unfold State.placeTail
  split
  · exact h
  · split
    · exact State.setNotes_inner h _ (fun _ => by simpa using by assumption)
    · exact h

theorem State.completeFlight_inner {u s : State} (h : Inner u s) (f : Flight) : Inner u (State.completeFlight s f) := by
  unfold State.completeFlight
  try dsimp only
  repeat' with_reducible first | exact h | exact Inner.refl _ | apply State.insertEvent_inner | apply State.changeSlot_inner | apply State.modProducer_inner | apply State.applyMarkers_inner | apply State.modSeg_inner | apply State.closeRepair_inner | apply State.closePhase_inner | apply State.placeTail_inner | apply State.freeRef_inner | intro _ | split | exact ⟨rfl, rfl⟩ | exact ⟨id, id, id⟩

theorem State.withdrawAtClose_inner {u s : State} (h : Inner u s) (f : Flight) : Inner u (State.withdrawAtClose s f) := by
  unfold State.withdrawAtClose
  try dsimp only
  repeat' with_reducible first | exact h | exact Inner.refl _ | apply State.insertEvent_inner | apply State.changeSlot_inner | apply State.modProducer_inner | apply State.modSeg_inner | intro _ | split | exact ⟨rfl, rfl⟩ | exact ⟨id, id, id⟩

theorem State.closeReported_inner {u s : State} (h : Inner u s) (f : Flight) : Inner u (State.closeReported s f) := by
  unfold State.closeReported
  try dsimp only
  repeat' with_reducible first | exact h | exact Inner.refl _ | apply State.completeFlight_inner | apply State.withdrawAtClose_inner | intro _ | split | exact ⟨rfl, rfl⟩ | exact ⟨id, id, id⟩

theorem State.withdrawFlight_inner {u s : State} (h : Inner u s) (f : Flight) (phase : Option PagePhase) : Inner u (State.withdrawFlight s f phase) := by
  unfold State.withdrawFlight
  try dsimp only
  repeat' with_reducible first | exact h | exact Inner.refl _ | apply State.changeSlot_inner | apply State.modProducer_inner | apply State.modSeg_inner | intro _ | split | exact ⟨rfl, rfl⟩ | exact ⟨id, id, id⟩

theorem State.abandonFlight_inner {u s : State} (h : Inner u s) (f : Flight) : Inner u (State.abandonFlight s f) := by
  unfold State.abandonFlight
  try dsimp only
  repeat' with_reducible first | exact h | exact Inner.refl _ | apply State.changeSlot_inner | apply State.modProducer_inner | apply State.modSeg_inner | intro _ | split | exact ⟨rfl, rfl⟩ | exact ⟨id, id, id⟩

theorem State.segmenterReport_inner {u s : State} (h : Inner u s) (sent : Bool) : Inner u (State.segmenterReport s sent) := by
  unfold State.segmenterReport
  try dsimp only
  repeat' with_reducible first | exact h | exact Inner.refl _ | apply State.restartBarrier_inner | apply State.modSeg_inner | apply State.endPass_inner | apply State.closeReported_inner | intro _ | split | exact ⟨rfl, rfl⟩ | exact ⟨id, id, id⟩

theorem State.testLeaving_inner {u s : State} (h : Inner u s) : Inner u (State.testLeaving s) := by
  unfold State.testLeaving
  try dsimp only
  repeat' with_reducible first | exact h | exact Inner.refl _ | apply State.modPresence_inner | intro _ | split | exact ⟨rfl, rfl⟩ | exact ⟨id, id, id⟩

theorem State.settle_inner {u s : State} (h : Inner u s) : Inner u (State.settle s) := by
  unfold State.settle
  try dsimp only
  repeat' with_reducible first | exact h | exact Inner.refl _ | apply State.forEntries_inner | apply State.applyMarkers_inner | apply State.boundary_inner | apply State.testLeaving_inner | intro _ | split | exact ⟨rfl, rfl⟩ | exact ⟨id, id, id⟩

/-! ### Reception -/

theorem State.pageLost_inner {u s : State} (h : Inner u s) (i : EntryIx) (page : PageNum) (slot : Option SlotNum) (r : LossReason) : Inner u (State.pageLost s i page slot r) := by
  unfold State.pageLost
  try dsimp only
  repeat' with_reducible first | exact h | exact Inner.refl _ | apply State.insertEvent_inner | apply State.modConsumer_inner | apply State.setFree_inner | apply State.clearGap_inner | intro _ | split | exact ⟨rfl, rfl⟩ | exact ⟨id, id, id⟩

theorem State.dropFilling_inner {u s : State} (h : Inner u s) (i : EntryIx) : Inner u (State.dropFilling s i) := by
  unfold State.dropFilling
  try dsimp only
  repeat' with_reducible first | exact h | exact Inner.refl _ | apply State.modConsumer_inner | apply State.freeRef_inner | intro _ | split | exact ⟨rfl, rfl⟩ | exact ⟨id, id, id⟩

theorem State.loseFilling_inner {u s : State} (h : Inner u s) (i : EntryIx) (r : LossReason) : Inner u (State.loseFilling s i r) := by
  unfold State.loseFilling
  try dsimp only
  repeat' with_reducible first | exact h | exact Inner.refl _ | apply State.pageLost_inner | apply State.dropFilling_inner | intro _ | split | exact ⟨rfl, rfl⟩ | exact ⟨id, id, id⟩

theorem State.unfinished_inner {u s : State} (h : Inner u s) (i : EntryIx) : Inner u (State.unfinished s i) := by
  unfold State.unfinished
  try dsimp only
  repeat' with_reducible first | exact h | exact Inner.refl _ | apply State.setGap_inner | apply State.loseFilling_inner | intro _ | split | exact ⟨rfl, rfl⟩ | exact ⟨id, id, id⟩

theorem State.completePage_inner {u s : State} (h : Inner u s) (i : EntryIx) : Inner u (State.completePage s i) := by
  unfold State.completePage
  try dsimp only
  repeat' with_reducible first | exact h | exact Inner.refl _ | apply State.insertEvent_inner | apply State.changeSlot_inner | apply State.modConsumer_inner | apply State.clearGap_inner | apply State.freeRef_inner | intro _ | split | exact ⟨rfl, rfl⟩ | exact ⟨id, id, id⟩

theorem State.verifyPage_inner {u s : State} (h : Inner u s) (i : EntryIx) (n : SlotNum) (len : Nat) (check : Word) : Inner u (State.verifyPage s i n len check) := by
  unfold State.verifyPage
  try dsimp only
  repeat' with_reducible first | exact h | exact Inner.refl _ | apply State.loseFilling_inner | apply State.completePage_inner | intro _ | split | exact ⟨rfl, rfl⟩ | exact ⟨id, id, id⟩

/-- A claim: granted, refused with the page lost, and nothing else (R5, R66). -/
theorem State.claimFor_inner {u s : State} (h : Inner u s) (i : EntryIx) (page : PageNum) (len : Option Nat)
    (andThen : SlotNum → State → State) (hf : ∀ n t, Inner t (andThen n t)) : Inner u (s.claimFor i page len andThen) := by
  unfold State.claimFor
  split
  · rename_i n m hg
    exact (State.modConsumer_inner (State.grant_inner h hg) _ _).trans (hf _ _)
  · exact State.pageLost_inner h _ _ _ _

theorem State.fullRepair_inner {u s : State} (h : Inner u s) (i : EntryIx) (page : PageNum) (len : Option Nat) : Inner u (State.fullRepair s i page len) := by
  unfold State.fullRepair
  try dsimp only
  repeat' with_reducible first | exact h | exact Inner.refl _ | apply State.unfinished_inner | apply State.claimFor_inner | intro _ | split | exact ⟨rfl, rfl⟩ | exact ⟨id, id, id⟩

theorem State.reuseFilling_inner {u s : State} (h : Inner u s) (i : EntryIx) (n : SlotNum) (page : PageNum) (len : Nat) : Inner u (State.reuseFilling s i n page len) := by
  unfold State.reuseFilling
  try dsimp only
  repeat' with_reducible first | exact h | exact Inner.refl _ | apply State.changeSlot_inner | intro _ | split | exact ⟨rfl, rfl⟩ | exact ⟨id, id, id⟩

theorem State.supersede_inner {u s : State} (h : Inner u s) (i : EntryIx) (n : SlotNum) (page : PageNum) (len : Nat) : Inner u (State.supersede s i n page len) := by
  unfold State.supersede
  try dsimp only
  repeat' with_reducible first | exact h | exact Inner.refl _ | apply State.pageLost_inner | apply State.reuseFilling_inner | intro _ | split | exact ⟨rfl, rfl⟩ | exact ⟨id, id, id⟩

theorem State.writeSegment_inner {u s : State} (h : Inner u s) (i : EntryIx) (n : SlotNum) (k : Nat) (segLen : Nat) (payload : List Byte) : Inner u (State.writeSegment s i n k segLen payload) := by
  unfold State.writeSegment
  try dsimp only
  repeat' with_reducible first | exact h | exact Inner.refl _ | apply State.changeSlot_inner | apply State.writeMem_inner | apply State.modConsumer_inner | intro _ | split | exact ⟨rfl, rfl⟩ | exact ⟨id, id, id⟩

theorem State.chooseProducer_inner {u s : State} (h : Inner u s) (i : EntryIx) : Inner u (State.chooseProducer s i) := by
  unfold State.chooseProducer
  try dsimp only
  repeat' with_reducible first | exact h | exact Inner.refl _ | apply State.modConsumer_inner | intro _ | split | exact ⟨rfl, rfl⟩ | exact ⟨id, id, id⟩

theorem State.dropProducer_inner {u s : State} (h : Inner u s) (i : EntryIx) : Inner u (State.dropProducer s i) := by
  unfold State.dropProducer
  try dsimp only
  repeat' with_reducible first | exact h | exact Inner.refl _ | apply State.modConsumer_inner | apply State.clearTake_inner | apply State.clearFree_inner | apply State.clearGap_inner | apply State.loseFilling_inner | intro _ | split | exact ⟨rfl, rfl⟩ | exact ⟨id, id, id⟩

theorem State.loseProducer_inner {u s : State} (h : Inner u s) (i : EntryIx) : Inner u (State.loseProducer s i) := by
  unfold State.loseProducer
  try dsimp only
  repeat' with_reducible first | exact h | exact Inner.refl _ | apply State.removeEntry_inner | apply State.chooseProducer_inner | apply State.dropProducer_inner | intro _ | split | exact ⟨rfl, rfl⟩ | exact ⟨id, id, id⟩

theorem State.dropDone_inner {u s : State} (h : Inner u s) (i : EntryIx) : Inner u (State.dropDone s i) := by
  unfold State.dropDone
  try dsimp only
  repeat' with_reducible first | exact h | exact Inner.refl _ | apply State.clearDrop_inner | apply State.removeEntry_inner | apply State.dropProducer_inner | intro _ | split | exact ⟨rfl, rfl⟩ | exact ⟨id, id, id⟩

theorem State.expel_inner {u s : State} (h : Inner u s) (i : EntryIx) : Inner u (State.expel s i) := by
  unfold State.expel
  try dsimp only
  repeat' with_reducible first | exact h | exact Inner.refl _ | apply State.modConsumer_inner | apply State.clearTake_inner | apply State.clearFree_inner | apply State.clearGap_inner | apply State.dropFilling_inner | intro _ | split | exact ⟨rfl, rfl⟩ | exact ⟨id, id, id⟩

/-! ### Presence -/

theorem State.disputeEntry_inner {u s : State} (h : Inner u s) (i : EntryIx) : Inner u (State.disputeEntry s i) := by
  unfold State.disputeEntry
  try dsimp only
  repeat' with_reducible first | exact h | exact Inner.refl _ | apply State.modProducer_inner | apply State.emptyPending_inner | apply State.modSeg_inner | apply State.withdrawFlight_inner | apply State.freeRef_inner | intro _ | split | exact ⟨rfl, rfl⟩ | exact ⟨id, id, id⟩

theorem State.disputeAll_inner {u s : State} (h : Inner u s) (l : List (EntryIx × Station)) : Inner u (State.disputeAll s l) := by
  unfold State.disputeAll
  try dsimp only
  repeat' with_reducible first | exact h | exact Inner.refl _ | apply State.insertEvent_inner | apply State.returnQueued_inner | apply State.insertSents_inner | apply State.disputeEntry_inner | apply foldl_inner | intro _ | split | exact ⟨rfl, rfl⟩ | exact ⟨id, id, id⟩

theorem State.openEntry_inner {u s : State} (h : Inner u s) (i : EntryIx) : Inner u (State.openEntry i s) := by
  unfold State.openEntry
  try dsimp only
  repeat' with_reducible first | exact h | exact Inner.refl _ | apply State.modProducer_inner | intro _ | split | exact ⟨rfl, rfl⟩ | exact ⟨id, id, id⟩

theorem State.chooseWaiting_inner {u s : State} (h : Inner u s) (i : EntryIx) : Inner u (State.chooseWaiting i s) := by
  unfold State.chooseWaiting
  try dsimp only
  repeat' with_reducible first | exact h | exact Inner.refl _ | apply State.chooseProducer_inner | intro _ | split | exact ⟨rfl, rfl⟩ | exact ⟨id, id, id⟩

theorem State.enterActive_inner {u s : State} (h : Inner u s) : Inner u (State.enterActive s) := by
  unfold State.enterActive
  try dsimp only
  repeat' with_reducible first | exact h | exact Inner.refl _ | apply State.forEntries_inner | apply State.modPresence_inner | apply State.enterState_inner | apply State.disputeAll_inner | apply State.openEntry_inner | apply State.chooseWaiting_inner | intro _ | split | exact ⟨rfl, rfl⟩ | exact ⟨id, id, id⟩

theorem State.takeBack_inner {u s : State} (h : Inner u s) : Inner u (State.takeBack s) := by
  unfold State.takeBack
  try dsimp only
  repeat' with_reducible first | exact h | exact Inner.refl _ | apply State.modProducer_inner | apply State.modSeg_inner | intro _ | split | exact ⟨rfl, rfl⟩ | exact ⟨id, id, id⟩

theorem State.restartFlight_inner {u s : State} (h : Inner u s) : Inner u (State.restartFlight s) := by
  unfold State.restartFlight
  try dsimp only
  repeat' with_reducible first | exact h | exact Inner.refl _ | apply State.insertEvent_inner | apply State.modSeg_inner | apply State.withdrawAtClose_inner | apply State.withdrawFlight_inner | intro _ | split | exact ⟨rfl, rfl⟩ | exact ⟨id, id, id⟩

theorem State.dropPending_inner {u s : State} (h : Inner u s) (i : EntryIx) : Inner u (State.dropPending i s) := by
  unfold State.dropPending
  try dsimp only
  repeat' with_reducible first | exact h | exact Inner.refl _ | apply State.dropDone_inner | intro _ | split | exact ⟨rfl, rfl⟩ | exact ⟨id, id, id⟩

theorem State.enterMuted_inner {u s : State} (h : Inner u s) : Inner u (State.enterMuted s) := by
  unfold State.enterMuted
  try dsimp only
  repeat' with_reducible first | exact h | exact Inner.refl _ | apply State.forEntries_inner | apply State.modPresence_inner | apply State.enterState_inner | apply State.takeBack_inner | apply State.restartFlight_inner | apply State.dropPending_inner | intro _ | split | exact ⟨rfl, rfl⟩ | exact ⟨id, id, id⟩

theorem State.closeEntry_inner {u s : State} (h : Inner u s) (i : EntryIx) : Inner u (State.closeEntry i s) := by
  unfold State.closeEntry
  try dsimp only
  repeat' with_reducible first | exact h | exact Inner.refl _ | apply State.modProducer_inner | apply State.freeRef_inner | intro _ | split | exact ⟨rfl, rfl⟩ | exact ⟨id, id, id⟩

theorem State.emptyPendingOf_inner {u s : State} (h : Inner u s) (i : EntryIx) : Inner u (State.emptyPendingOf i s) := by
  unfold State.emptyPendingOf
  try dsimp only
  repeat' with_reducible first | exact h | exact Inner.refl _ | apply State.emptyPending_inner | intro _ | split | exact ⟨rfl, rfl⟩ | exact ⟨id, id, id⟩

theorem State.enterQuiet_inner {u s : State} (h : Inner u s) : Inner u (State.enterQuiet s) := by
  unfold State.enterQuiet
  try dsimp only
  repeat' with_reducible first | exact h | exact Inner.refl _ | apply State.forEntries_inner | apply State.modPresence_inner | apply State.enterState_inner | apply State.modSeg_inner | apply State.closeEntry_inner | apply State.emptyPendingOf_inner | intro _ | split | exact ⟨rfl, rfl⟩ | exact ⟨id, id, id⟩

theorem State.conflictEntry_inner {u s : State} (h : Inner u s) (i : EntryIx) : Inner u (State.conflictEntry i s) := by
  unfold State.conflictEntry
  try dsimp only
  repeat' with_reducible first | exact h | exact Inner.refl _ | apply State.modProducer_inner | apply State.emptyPending_inner | apply State.removeEntry_inner | apply State.dropFilling_inner | intro _ | split | exact ⟨rfl, rfl⟩ | exact ⟨id, id, id⟩

theorem State.releaseHolding_inner {u s : State} (h : Inner u s) : Inner u (State.releaseHolding s) := by
  unfold State.releaseHolding
  try dsimp only
  repeat' with_reducible first | exact h | exact Inner.refl _ | apply State.emptyHolding_inner | intro _ | split | exact ⟨rfl, rfl⟩ | exact ⟨id, id, id⟩

theorem State.discardPass_inner {u s : State} (h : Inner u s) : Inner u (State.discardPass s) := by
  unfold State.discardPass
  split
  · exact State.modSeg_inner (State.modProducer_inner h _ _) _
  · exact h

theorem State.abandonAll_inner {u s : State} (h : Inner u s) : Inner u (State.abandonAll s) := by
  unfold State.abandonAll
  try dsimp only
  repeat' with_reducible first | exact h | exact Inner.refl _ | apply State.returnQueued_inner | apply State.insertSents_inner | apply State.modSeg_inner | apply State.discardPass_inner | apply State.abandonFlight_inner | intro _ | split | exact ⟨rfl, rfl⟩ | exact ⟨id, id, id⟩

theorem State.enterConflict_inner {u s : State} (h : Inner u s) (rollCount : Byte) : Inner u (s.enterConflict rollCount) := by
  unfold State.enterConflict
  refine State.setNotes_inner (State.forEntries_inner (State.releaseHolding_inner (State.abandonAll_inner
    (State.modPresence_inner (State.enterState_inner h _) _ ⟨rfl, rfl⟩))) ?_) _ (fun _ => Nat.zero_le _)
  intro i t
  exact State.conflictEntry_inner (Inner.refl t) i

theorem State.setPeer_inner {u s : State} (h : Inner u s) (n : Station) (p : Peer) : Inner u (State.setPeer s n p) := by
  unfold State.setPeer
  try dsimp only
  repeat' with_reducible first | exact h | exact Inner.refl _ | apply State.modPresence_inner | intro _ | split | exact ⟨rfl, rfl⟩ | exact ⟨id, id, id⟩

theorem State.absentForProducer_inner {u s : State} (h : Inner u s) (n : Station) (i : EntryIx) : Inner u (State.absentForProducer n i s) := by
  unfold State.absentForProducer
  try dsimp only
  repeat' with_reducible first | exact h | exact Inner.refl _ | apply State.removeAdmit_inner | apply State.removeCut_inner | apply State.removeMember_inner | intro _ | split | exact ⟨rfl, rfl⟩ | exact ⟨id, id, id⟩

theorem State.absentForConsumer_inner {u s : State} (h : Inner u s) (n : Station) (i : EntryIx) : Inner u (State.absentForConsumer n i s) := by
  unfold State.absentForConsumer
  try dsimp only
  repeat' with_reducible first | exact h | exact Inner.refl _ | apply State.loseProducer_inner | intro _ | split | exact ⟨rfl, rfl⟩ | exact ⟨id, id, id⟩

theorem State.absentForEntry_inner {u s : State} (h : Inner u s) (n : Station) (i : EntryIx) :
    Inner u (State.absentForEntry n i s) :=
  State.absentForConsumer_inner (State.absentForProducer_inner h n i) n i

theorem State.peerAbsent_inner {u s : State} (h : Inner u s) (n : Station) (r : DownReason) : Inner u (State.peerAbsent s n r) := by
  unfold State.peerAbsent
  try dsimp only
  repeat' with_reducible first | exact h | exact Inner.refl _ | apply State.insertEvent_inner | apply State.forEntries_inner | apply State.setPeer_inner | apply State.absentForEntry_inner | intro _ | split | exact ⟨rfl, rfl⟩ | exact ⟨id, id, id⟩

theorem State.claimsChanged_inner {u s : State} (h : Inner u s) (n : Station) (old : List Claim) (i : EntryIx) : Inner u (State.claimsChanged n old i s) := by
  unfold State.claimsChanged
  try dsimp only
  repeat' with_reducible first | exact h | exact Inner.refl _ | apply State.chooseProducer_inner | apply State.loseProducer_inner | intro _ | split | exact ⟨rfl, rfl⟩ | exact ⟨id, id, id⟩

theorem State.peerPresent_inner {u s : State} (h : Inner u s) (n : Station) (rollCount : Byte) (claims : List Claim) : Inner u (State.peerPresent s n rollCount claims) := by
  unfold State.peerPresent
  try dsimp only
  repeat' with_reducible first | exact h | exact Inner.refl _ | apply State.insertEvent_inner | apply State.forEntries_inner | apply State.setPeer_inner | apply State.claimsChanged_inner | intro _ | split | exact ⟨rfl, rfl⟩ | exact ⟨id, id, id⟩

theorem State.peerRolled_inner {u s : State} (h : Inner u s) (n : Station) (rollCount : Byte) (claims : List Claim) : Inner u (State.peerRolled s n rollCount claims) := by
  unfold State.peerRolled
  try dsimp only
  repeat' with_reducible first | exact h | exact Inner.refl _ | apply State.forEntries_inner | apply State.setPeer_inner | apply State.claimsChanged_inner | intro _ | split | exact ⟨rfl, rfl⟩ | exact ⟨id, id, id⟩

theorem State.recordRoll_inner {u s : State} (h : Inner u s) (n : Station) (rollCount : Byte) (leaving : Bool) : Inner u (State.recordRoll s n rollCount leaving) := by
  unfold State.recordRoll
  try dsimp only
  repeat' with_reducible first | exact h | exact Inner.refl _ | apply State.setPeer_inner | intro _ | split | exact ⟨rfl, rfl⟩ | exact ⟨id, id, id⟩

theorem State.rollOnPeer_inner {u s : State} (h : Inner u s) (n : Station) (leaving : Bool) (rollCount : Byte) (claims : List Claim) : Inner u (State.rollOnPeer s n leaving rollCount claims) := by
  unfold State.rollOnPeer
  try dsimp only
  repeat' with_reducible first | exact h | exact Inner.refl _ | apply State.peerAbsent_inner | apply State.peerPresent_inner | apply State.peerRolled_inner | apply State.recordRoll_inner | intro _ | split | exact ⟨rfl, rfl⟩ | exact ⟨id, id, id⟩

theorem State.takeRoll_inner {u s : State} (h : Inner u s) (n : Station) (leaving : Bool) (rollCount : Byte) (claims : List Claim) : Inner u (State.takeRoll s n leaving rollCount claims) := by
  unfold State.takeRoll
  try dsimp only
  repeat' with_reducible first | exact h | exact Inner.refl _ | apply State.joinAscending_inner | apply State.disputeAll_inner | apply State.enterConflict_inner | apply State.rollOnPeer_inner | intro _ | split | exact ⟨rfl, rfl⟩ | exact ⟨id, id, id⟩

/-! ### Link Controller -/

theorem State.gapReported_inner {u s : State} (h : Inner u s) (i : EntryIx) (sent : Bool) : Inner u (State.gapReported s i sent) := by
  unfold State.gapReported
  try dsimp only
  repeat' with_reducible first | exact h | exact Inner.refl _ | apply State.changeSlot_inner | apply State.modConsumer_inner | intro _ | split | exact ⟨rfl, rfl⟩ | exact ⟨id, id, id⟩

theorem State.takeReported_inner {u s : State} (h : Inner u s) (i : EntryIx) : Inner u (State.takeReported s i) := by
  unfold State.takeReported
  try dsimp only
  repeat' with_reducible first | exact h | exact Inner.refl _ | apply State.modConsumer_inner | intro _ | split | exact ⟨rfl, rfl⟩ | exact ⟨id, id, id⟩

theorem State.rollReported_inner {u s : State} (h : Inner u s) (f : Frame) : Inner u (State.rollReported s f) := by
  unfold State.rollReported
  try dsimp only
  repeat' with_reducible first | exact h | exact Inner.refl _ | apply State.modPresence_inner | apply State.enterQuiet_inner | intro _ | split | exact ⟨rfl, rfl⟩ | exact ⟨id, id, id⟩

theorem State.report_inner {u s : State} (h : Inner u s) (src : FrameSource) (f : Frame) (keep sent : Bool) :
    Inner u (s.report src f keep sent) := by
  unfold State.report
  repeat' with_reducible first | exact h | apply State.removeAdmit_inner | apply State.removeCut_inner | apply State.clearPrompt_inner | apply State.removeGone_inner | apply State.dropDone_inner | apply State.takeReported_inner | apply State.clearFree_inner | apply State.gapReported_inner | apply State.clearGap_inner | apply State.rollReported_inner | apply State.segmenterReport_inner | apply State.setNotes_inner | split
  intro k
  exact le_trans (by simp) k

theorem State.startAttempt_inner {u s : State} (h : Inner u s) (src : FrameSource) : Inner u (State.startAttempt s src) := by
  unfold State.startAttempt
  try dsimp only
  repeat' with_reducible first | exact h | exact Inner.refl _ | apply State.emptyHolding_inner | apply State.modLink_inner | intro _ | split | exact ⟨rfl, rfl⟩ | exact ⟨id, id, id⟩

theorem State.takeOpportunity_inner {u s : State} (h : Inner u s) : Inner u s.takeOpportunity := by
  have ht : Inner u (s.modLink fun l => { l with lineIdle := true }) := State.modLink_inner h _ ⟨id, id, id⟩
  unfold State.takeOpportunity
  dsimp only
  split
  · split
    · exact State.startAttempt_inner ht _
    · split
      · exact State.startAttempt_inner (State.modLink_inner ht _ ⟨id, fun _ => Nat.zero_lt_succ 3, id⟩) _
      · exact ht
  · exact ht

theorem State.holdPhase_inner {u s : State} (h : Inner u s) (x : HeldFrame) (ph : HoldPhase) : Inner u (s.holdPhase x ph) :=
  State.modLink_inner h _ ⟨fun k => k, fun k => k, fun k => k⟩

theorem State.loseArbitration_inner {u s : State} (h : Inner u s) (x : HeldFrame) : Inner u (s.loseArbitration x) := by
  unfold State.loseArbitration
  dsimp only
  split
  · exact State.emptyHolding_inner (State.count_inner h _)
  · exact State.holdPhase_inner (State.count_inner h _) _ _

theorem State.sentAttempt_inner {u s : State} (h : Inner u s) (x : HeldFrame) : Inner u (s.sentAttempt x) := by
  have ht : Inner u (s.emptyHolding.modLink fun l => { l with drops := 0, lineIdle := false }) :=
    State.modLink_inner (State.emptyHolding_inner h) _ ⟨id, id, fun _ => Nat.zero_le _⟩
  unfold State.sentAttempt
  dsimp only
  split
  · exact ht
  · exact State.report_inner ht _ _ _ _

theorem State.dropFrame_inner {u s : State} (h : Inner u s) (x : HeldFrame) : Inner u (s.dropFrame x) := by
  have ht : Inner u ((s.emptyHolding.count fun c => { c with framesDropped := satInc c.framesDropped }).modLink
      fun l => { l with drops := min Config.dropMax (l.drops + 1), lineIdle := false }) :=
    State.modLink_inner (State.count_inner (State.emptyHolding_inner h) _) _
      ⟨fun k => k, fun k => k, fun _ => by dsimp only; exact Nat.min_le_left _ _⟩
  have hu : ∀ (b : Bool) {t : State}, Inner u t → Inner u (if b then t else t.report x.source x.frame x.replaced false) := by
    intro b t hb
    split
    · exact hb
    · exact State.report_inner hb _ _ _ _
  have hm : ∀ {v : State}, Inner u v → Inner u (if v.transmits ∧ Config.dropMax ≤ v.link.drops then v.enterMuted else v) := by
    intro v hv
    split
    · exact State.enterMuted_inner hv
    · exact hv
  exact hm (hu x.orphan ht)

theorem State.failAttempt_inner {u s : State} (h : Inner u s) (x : HeldFrame) : Inner u (s.failAttempt x) := by
  unfold State.failAttempt
  dsimp only
  split
  · split
    · exact State.modLink_inner (State.emptyHolding_inner (State.count_inner h _)) _ ⟨id, id, id⟩
    · exact State.modLink_inner (State.count_inner h _) _ ⟨id, fun _ => by assumption, id⟩
  · exact State.dropFrame_inner h _

theorem State.awake_inner {u s : State} (h : Inner u s) (f : State → State) (hf : Inner u (f s)) :
    Inner u (s.awake f) := by
  unfold State.awake
  split
  · exact h
  · exact hf

theorem State.attempt_inner {u s : State} (h : Inner u s) (p : HoldPhase → Bool) (f : State → HeldFrame → State)
    (hf : ∀ x, Inner u (f s x)) : Inner u (s.attempt p f) := by
  unfold State.attempt
  split
  · split
    · exact hf _
    · exact h
  · exact h

/-! ### Received frames -/

theorem State.receive_inner {u s : State} (h : Inner u s) (ok : Bool) (take : State → State)
    (hf : ∀ t, Inner t (take t)) : Inner u (s.receive ok take) := by
  unfold State.receive
  refine State.awake_inner h _ ?_
  split
  · exact h
  · have ht : Inner u ((s.modLink fun l => { l with lineIdle := false }).count fun c =>
        { c with framesReceived := satInc c.framesReceived }) :=
      State.count_inner (State.modLink_inner h _ ⟨id, id, id⟩) _
    dsimp only
    split
    · exact ht
    · split
      · exact ht.trans (hf _)
      · exact State.countCheckFailure_inner ht

theorem State.forConsumer_inner {u s : State} (h : Inner u s) (id : StreamId) (f : EntryIx → Consumer → State)
    (hf : ∀ i c, Inner u (f i c)) : Inner u (s.forConsumer id f) := by
  unfold State.forConsumer
  repeat' split
  all_goals first | exact h | exact hf _ _

theorem State.forProducer_inner {u s : State} (h : Inner u s) (id : StreamId) (f : EntryIx → Producer → State)
    (hf : ∀ i p, Inner u (f i p)) : Inner u (s.forProducer id f) := by
  unfold State.forProducer
  repeat' split
  all_goals first | exact h | exact hf _ _

theorem State.segForEntry_inner {u s : State} (h : Inner u s) (i : EntryIx) (c : Consumer) (page : PageNum) (k : Nat) (segCount : Nat) (len : Nat) (payload : List Byte) : Inner u (State.segForEntry s i c page k segCount len payload) := by
  unfold State.segForEntry
  try dsimp only
  repeat' with_reducible first | exact h | exact Inner.refl _ | apply State.countStale_inner | apply State.claimFor_inner | apply State.supersede_inner | apply State.writeSegment_inner | intro _ | split | exact ⟨rfl, rfl⟩ | exact ⟨id, id, id⟩

theorem State.takeSeg_inner {u s : State} (h : Inner u s) (src : Station) (id : StreamId) (page : PageNum) (k : Nat) (segCount : Nat) (len : Nat) (payload : List Byte) : Inner u (State.takeSeg s src id page k segCount len payload) := by
  unfold State.takeSeg
  try dsimp only
  repeat' with_reducible first | exact h | exact Inner.refl _ | apply State.countStale_inner | apply State.forConsumer_inner | apply State.segForEntry_inner | intro _ | split | exact ⟨rfl, rfl⟩ | exact ⟨id, id, id⟩

theorem State.closeFilling_inner {u s : State} (h : Inner u s) (i : EntryIx) (n : SlotNum) (len : Nat) (check : Word) : Inner u (State.closeFilling s i n len check) := by
  unfold State.closeFilling
  try dsimp only
  repeat' with_reducible first | exact h | exact Inner.refl _ | apply State.changeSlot_inner | apply State.loseFilling_inner | apply State.unfinished_inner | apply State.verifyPage_inner | intro _ | split | exact ⟨rfl, rfl⟩ | exact ⟨id, id, id⟩

theorem State.closeNewer_inner {u s : State} (h : Inner u s) (i : EntryIx) (c : Consumer) (filling : Option SlotNum) (page : PageNum) (len : Nat) (check : Word) : Inner u (State.closeNewer s i c filling page len check) := by
  unfold State.closeNewer
  try dsimp only
  repeat' with_reducible first | exact h | exact Inner.refl _ | apply State.countStale_inner | apply State.verifyPage_inner | apply State.claimFor_inner | apply State.fullRepair_inner | apply State.supersede_inner | intro _ | split | exact ⟨rfl, rfl⟩ | exact ⟨id, id, id⟩

theorem State.closeForEntry_inner {u s : State} (h : Inner u s) (i : EntryIx) (c : Consumer) (page : PageNum) (len : Nat) (kind : CloseKind) (check : Word) : Inner u (State.closeForEntry s i c page len kind check) := by
  unfold State.closeForEntry
  try dsimp only
  repeat' with_reducible first | exact h | exact Inner.refl _ | apply State.loseFilling_inner | apply State.closeFilling_inner | apply State.closeNewer_inner | intro _ | split | exact ⟨rfl, rfl⟩ | exact ⟨id, id, id⟩

theorem State.takeClose_inner {u s : State} (h : Inner u s) (src : Station) (id : StreamId) (page : PageNum) (len : Nat) (kind : CloseKind) (check : Word) : Inner u (State.takeClose s src id page len kind check) := by
  unfold State.takeClose
  try dsimp only
  repeat' with_reducible first | exact h | exact Inner.refl _ | apply State.forConsumer_inner | apply State.closeForEntry_inner | intro _ | split | exact ⟨rfl, rfl⟩ | exact ⟨id, id, id⟩

theorem State.takeAdmit_inner {u s : State} (h : Inner u s) (src : Station) (id : StreamId) (target : Station) (r : AdmitResult) : Inner u (State.takeAdmit s src id target r) := by
  unfold State.takeAdmit
  try dsimp only
  repeat' with_reducible first | exact h | exact Inner.refl _ | apply State.insertEvent_inner | apply State.modConsumer_inner | apply State.clearTake_inner | apply State.expel_inner | apply State.forConsumer_inner | intro _ | split | exact ⟨rfl, rfl⟩ | exact ⟨id, id, id⟩

theorem State.takeCut_inner {u s : State} (h : Inner u s) (src : Station) (id : StreamId) (target : Station) (r : CutReason) : Inner u (State.takeCut s src id target r) := by
  unfold State.takeCut
  try dsimp only
  repeat' with_reducible first | exact h | exact Inner.refl _ | apply State.insertEvent_inner | apply State.expel_inner | apply State.forConsumer_inner | intro _ | split | exact ⟨rfl, rfl⟩ | exact ⟨id, id, id⟩

theorem State.answerPrompt_inner {u s : State} (h : Inner u s) (i : EntryIx) (c : Consumer) (page : PageNum) : Inner u (State.answerPrompt s i c page) := by
  unfold State.answerPrompt
  try dsimp only
  repeat' with_reducible first | exact h | exact Inner.refl _ | apply State.setFree_inner | apply State.unfinished_inner | apply State.fullRepair_inner | intro _ | split | exact ⟨rfl, rfl⟩ | exact ⟨id, id, id⟩

theorem State.takePrompt_inner {u s : State} (h : Inner u s) (src : Station) (id : StreamId) (page : PageNum) (stations : List Nat) : Inner u (State.takePrompt s src id page stations) := by
  unfold State.takePrompt
  try dsimp only
  repeat' with_reducible first | exact h | exact Inner.refl _ | apply State.forConsumer_inner | apply State.answerPrompt_inner | intro _ | split | exact ⟨rfl, rfl⟩ | exact ⟨id, id, id⟩

theorem State.takeGone_inner {u s : State} (h : Inner u s) (src : Station) (id : StreamId) (page : PageNum) : Inner u (State.takeGone s src id page) := by
  unfold State.takeGone
  try dsimp only
  repeat' with_reducible first | exact h | exact Inner.refl _ | apply State.loseFilling_inner | apply State.forConsumer_inner | intro _ | split | exact ⟨rfl, rfl⟩ | exact ⟨id, id, id⟩

theorem State.takeTake_inner {u s : State} (h : Inner u s) (src : Station) (id : StreamId) (station : Station) : Inner u (State.takeTake s src id station) := by
  unfold State.takeTake
  try dsimp only
  repeat' with_reducible first | exact h | exact Inner.refl _ | apply State.modProducer_inner | apply State.removeCut_inner | apply State.placeAdmit_inner | apply State.forProducer_inner | intro _ | split | exact ⟨rfl, rfl⟩ | exact ⟨id, id, id⟩

theorem State.takeDrop_inner {u s : State} (h : Inner u s) (src : Station) (id : StreamId) (station : Station) : Inner u (State.takeDrop s src id station) := by
  unfold State.takeDrop
  try dsimp only
  repeat' with_reducible first | exact h | exact Inner.refl _ | apply State.removeAdmit_inner | apply State.removeCut_inner | apply State.removeMember_inner | apply State.forProducer_inner | intro _ | split | exact ⟨rfl, rfl⟩ | exact ⟨id, id, id⟩

theorem State.countLateFree_inner {u s : State} (h : Inner u s) : Inner u (State.countLateFree s) := by
  unfold State.countLateFree
  try dsimp only
  repeat' with_reducible first | exact h | exact Inner.refl _ | apply State.count_inner | intro _ | split | exact ⟨rfl, rfl⟩ | exact ⟨id, id, id⟩

theorem State.takeFree_inner {u s : State} (h : Inner u s) (src : Station) (id : StreamId) (station : Station) (page : PageNum) : Inner u (State.takeFree s src id station page) := by
  unfold State.takeFree
  try dsimp only
  repeat' with_reducible first | exact h | exact Inner.refl _ | apply State.modProducer_inner | apply State.placeCut_inner | apply State.testBarrier_inner | apply State.forProducer_inner | apply State.countLateFree_inner | intro _ | split | exact ⟨rfl, rfl⟩ | exact ⟨id, id, id⟩

theorem State.gapRetained_inner {u s : State} (h : Inner u s) (i : EntryIx) (p : Producer) (page : PageNum) (want : SegSet) : Inner u (State.gapRetained s i p page want) := by
  unfold State.gapRetained
  try dsimp only
  repeat' with_reducible first | exact h | exact Inner.refl _ | apply State.modProducer_inner | apply State.placeGone_inner | intro _ | split | exact ⟨rfl, rfl⟩ | exact ⟨id, id, id⟩

theorem State.gapSending_inner {u s : State} (h : Inner u s) (i : EntryIx) (p : Producer) (page : PageNum) (next : Nat) (want : SegSet) : Inner u (State.gapSending s i p page next want) := by
  unfold State.gapSending
  try dsimp only
  repeat' with_reducible first | exact h | exact Inner.refl _ | apply State.modProducer_inner | intro _ | split | exact ⟨rfl, rfl⟩ | exact ⟨id, id, id⟩

theorem State.takeGap_inner {u s : State} (h : Inner u s) (id : StreamId) (page : PageNum) (want : SegSet) : Inner u (State.takeGap s id page want) := by
  unfold State.takeGap
  try dsimp only
  repeat' with_reducible first | exact h | exact Inner.refl _ | apply State.placeGone_inner | apply State.forProducer_inner | apply State.gapRetained_inner | apply State.gapSending_inner | intro _ | split | exact ⟨rfl, rfl⟩ | exact ⟨id, id, id⟩

theorem State.takeNotice_inner {u s : State} (h : Inner u s) (src : Station) (code : Byte) :
    Inner u (s.takeNotice src code) := by
  have ht : Inner u { s with notices := vput s.notices src ⟨true, satInc s.notices[src].count, some code⟩ } :=
    h.of_blocks rfl rfl rfl rfl rfl
  unfold State.takeNotice
  dsimp only
  split
  · exact ht
  · exact State.insertEvent_inner ht _

theorem State.takeNote_inner {u s : State} (h : Inner u s) (src : Station) (target : NoteTarget) (code : Byte) : Inner u (State.takeNote s src target code) := by
  unfold State.takeNote
  try dsimp only
  repeat' with_reducible first | exact h | exact Inner.refl _ | apply State.takeNotice_inner | intro _ | split | exact ⟨rfl, rfl⟩ | exact ⟨id, id, id⟩

/-! ### Commands -/

theorem State.badStation_inner {u s : State} (h : Inner u s) : Inner u (State.badStation s).1 := by
  unfold State.badStation
  try dsimp only
  repeat' with_reducible first | exact h | exact Inner.refl _ | intro _ | split | exact ⟨rfl, rfl⟩ | exact ⟨id, id, id⟩

theorem State.badSlot_inner {u s : State} (h : Inner u s) (n : SlotNum) : Inner u (State.badSlot s n).1 := by
  unfold State.badSlot
  try dsimp only
  repeat' with_reducible first | exact h | exact Inner.refl _ | intro _ | split | exact ⟨rfl, rfl⟩ | exact ⟨id, id, id⟩

theorem State.refuse_inner {u s : State} (h : Inner u s) (r : Result) : Inner u (State.refuse s r).1 := by
  unfold State.refuse
  try dsimp only
  repeat' with_reducible first | exact h | exact Inner.refl _ | intro _ | split | exact ⟨rfl, rfl⟩ | exact ⟨id, id, id⟩

theorem State.withProducer_inner {u s : State} (h : Inner u s) (stream : Nat) (f : EntryIx → Producer → State × Reply)
    (hf : ∀ i p, Inner u (f i p).1) : Inner u (s.withProducer stream f).1 := by
  unfold State.withProducer
  repeat' split
  all_goals first | exact h | exact hf _ _

theorem State.withConsumer_inner {u s : State} (h : Inner u s) (stream : Nat) (f : EntryIx → Consumer → State × Reply)
    (hf : ∀ i c, Inner u (f i c).1) : Inner u (s.withConsumer stream f).1 := by
  unfold State.withConsumer
  repeat' split
  all_goals first | exact h | exact hf _ _

theorem State.cmdConfigure_inner {u s : State} (h : Inner u s) (words : Vector Word 8) : Inner u (s.cmdConfigure words).1 := by
  unfold State.cmdConfigure
  split
  · split
    · exact h
    · rename_i c decls _
      have hp : Inner u (s.modPresence fun p => { p with config := some c }) := State.modPresence_inner h _ ⟨rfl, rfl⟩
      have ht : Inner u { s.modPresence (fun p => { p with config := some c }) with streams := declaredTable c.floor decls } :=
        hp.of_blocks rfl rfl rfl rfl rfl
      exact State.enterState_inner ht .configured
  · exact h

theorem State.enterListening_inner {u s : State} (h : Inner u s) : Inner u s.enterListening :=
  (State.modPresence_inner (State.enterState_inner h _) _ ⟨rfl, rfl⟩).of_link id id (fun _ => Nat.zero_le _)

theorem State.cmdStart_inner {u s : State} (h : Inner u s) : Inner u (State.cmdStart s).1 := by
  unfold State.cmdStart
  try dsimp only
  repeat' with_reducible first | exact h | exact Inner.refl _ | apply State.modPresence_inner | apply State.badStation_inner | apply State.enterListening_inner | intro _ | split | exact ⟨rfl, rfl⟩ | exact ⟨id, id, id⟩

theorem State.cmdLeave_inner {u s : State} (h : Inner u s) : Inner u (State.cmdLeave s).1 := by
  unfold State.cmdLeave
  try dsimp only
  repeat' with_reducible first | exact h | exact Inner.refl _ | apply State.enterState_inner | apply State.setDrop_inner | apply State.returnQueued_inner | apply State.insertSents_inner | apply State.settle_inner | apply State.badStation_inner | apply foldl_inner | intro _ | split | exact ⟨rfl, rfl⟩ | exact ⟨id, id, id⟩

theorem State.cmdRejoin_inner {u s : State} (h : Inner u s) : Inner u (State.cmdRejoin s).1 := by
  unfold State.cmdRejoin
  try dsimp only
  repeat' with_reducible first | exact h | exact Inner.refl _ | apply State.badStation_inner | apply State.enterListening_inner | intro _ | split | exact ⟨rfl, rfl⟩ | exact ⟨id, id, id⟩

theorem SlotManager.reset_listsFree (m : List Host.Cell) : ({ SlotManager.reset with mem := m } : SlotManager).listsFree := by
  refine ⟨List.nodup_finRange 32, fun n => ?_⟩
  simp [SlotManager.reset, allSlots]

theorem State.restartBlocks_inner {u s : State} (h : Inner u s) : Inner u s.restartBlocks :=
  h.trans ⟨rfl, id, fun _ => SlotManager.reset_listsFree _, id, fun _ => Nat.zero_le _, fun _ => Nat.zero_le _,
    fun _ => Nat.zero_lt_succ 3, fun _ => Nat.zero_le _⟩

theorem State.cmdRestart_inner {u s : State} (h : Inner u s) : Inner u s.cmdRestart.1 := by
  unfold State.cmdRestart
  split
  · exact h
  · exact State.restartBlocks_inner (State.enterState_inner h _)

theorem State.cmdClaim_inner {u s : State} (h : Inner u s) : Inner u s.cmdClaim.1 := by
  unfold State.cmdClaim
  split
  · exact h
  · split
    · rename_i hg
      exact State.grant_inner h hg
    · exact h

theorem State.cmdDiscard_inner {u s : State} (h : Inner u s) (slot : Nat) : Inner u (s.cmdDiscard slot).1 := by
  unfold State.cmdDiscard
  split
  · exact h
  · split
    · exact h
    · split
      · exact State.freeSlot_inner h _
      · exact h

/-- Posting a descriptor (R40, R41). -/
theorem State.post_inner {u s t : State} (_ : Inner u s) (ht : Inner u t) (i : EntryIx) (tag : Byte) (b : DescriptorBody)
    (hl : t.publish.queue.length < Config.publishMax) : Inner u (s.post t i tag b).1 := by
  have k : Inner u (t.appendDescriptor i tag b) := State.appendDescriptor_inner ht i tag b hl
  unfold State.post
  dsimp only
  exact State.settle_inner k

theorem State.publishPage_inner {u s : State} (h : Inner u s) (tag : Byte) (i : EntryIx) (p : Producer) (slot len : Nat)
    (report : Bool) (tail : Option (Option Note)) : Inner u (s.publishPage tag i p slot len report tail).1 := by
  unfold State.publishPage
  split
  · split
    · exact h
    · split
      · exact h
      · split
        · exact h
        · rename_i n note _ _ _ hq
          exact State.post_inner h (State.changeSlot_inner h n (.queued i len)) i tag _
            (by rw [State.changeSlot_publish]; exact Nat.lt_of_not_le hq)
  · exact h

theorem State.publishMarker_inner {u s : State} (h : Inner u s) (tag : Byte) (i : EntryIx) :
    Inner u (s.publishMarker tag i).1 := by
  unfold State.publishMarker
  split
  · exact h
  · rename_i hq
    exact State.post_inner h h i tag _ (Nat.lt_of_not_le hq)

theorem State.cmdPublish_inner {u s : State} (h : Inner u s) (tag : Byte) (words : Vector Word 8) :
    Inner u (s.cmdPublish tag words).1 := by
  unfold State.cmdPublish
  split
  · exact h
  · refine State.withProducer_inner h _ _ (fun i p => ?_)
    split
    · exact State.publishMarker_inner h _ _
    · exact State.publishPage_inner h _ _ _ _ _ _ _

theorem State.cmdResume_inner {u s : State} (h : Inner u s) (stream : Nat) : Inner u (State.cmdResume s stream).1 := by
  unfold State.cmdResume
  try dsimp only
  repeat' with_reducible first | exact h | exact Inner.refl _ | apply State.modProducer_inner | apply State.settle_inner | apply State.refuse_inner | apply State.withProducer_inner | intro _ | split | exact ⟨rfl, rfl⟩ | exact ⟨id, id, id⟩

theorem State.cmdCancel_inner {u s : State} (h : Inner u s) (stream : Nat) : Inner u (State.cmdCancel s stream).1 := by
  unfold State.cmdCancel
  try dsimp only
  repeat' with_reducible first | exact h | exact Inner.refl _ | apply State.returnQueued_inner | apply State.insertSents_inner | apply State.withdrawFlight_inner | apply State.settle_inner | apply State.refuse_inner | apply State.withProducer_inner | intro _ | split | exact ⟨rfl, rfl⟩ | exact ⟨id, id, id⟩

theorem State.cmdSubscribe_inner {u s : State} (h : Inner u s) (stream : Nat) (mode : Nat) : Inner u (State.cmdSubscribe s stream mode).1 := by
  unfold State.cmdSubscribe
  try dsimp only
  repeat' with_reducible first | exact h | exact Inner.refl _ | apply State.setEntry_inner | apply State.chooseProducer_inner | apply State.refuse_inner | intro _ | split | exact ⟨rfl, rfl⟩ | exact ⟨id, id, id⟩

theorem State.stripConsumer_inner {u s : State} (h : Inner u s) (i : EntryIx) (c : Consumer) : Inner u (State.stripConsumer s i c) := by
  unfold State.stripConsumer
  try dsimp only
  repeat' with_reducible first | exact h | exact Inner.refl _ | apply State.modConsumer_inner | apply State.clearTake_inner | apply State.clearFree_inner | apply State.clearGap_inner | apply State.freeRef_inner | intro _ | split | exact ⟨rfl, rfl⟩ | exact ⟨id, id, id⟩

theorem State.cmdUnsubscribe_inner {u s : State} (h : Inner u s) (stream : Nat) : Inner u (State.cmdUnsubscribe s stream).1 := by
  unfold State.cmdUnsubscribe
  try dsimp only
  repeat' with_reducible first | exact h | exact Inner.refl _ | apply State.joinAscending_inner | apply State.modConsumer_inner | apply State.setDrop_inner | apply State.removeEntry_inner | apply State.settle_inner | apply State.refuse_inner | apply State.withConsumer_inner | apply State.stripConsumer_inner | intro _ | split | exact ⟨rfl, rfl⟩ | exact ⟨id, id, id⟩

theorem State.acquireReady_inner {u s : State} (h : Inner u s) (i : EntryIx) (c : Consumer) (n : SlotNum) : Inner u (State.acquireReady s i c n).1 := by
  unfold State.acquireReady
  try dsimp only
  repeat' with_reducible first | exact h | exact Inner.refl _ | apply State.changeSlot_inner | apply State.modConsumer_inner | apply State.freeRef_inner | intro _ | split | exact ⟨rfl, rfl⟩ | exact ⟨id, id, id⟩

theorem State.cmdAcquire_inner {u s : State} (h : Inner u s) (stream : Nat) (selector : Nat) : Inner u (State.cmdAcquire s stream selector).1 := by
  unfold State.cmdAcquire
  try dsimp only
  repeat' with_reducible first | exact h | exact Inner.refl _ | apply State.modConsumer_inner | apply State.refuse_inner | apply State.withConsumer_inner | apply State.acquireReady_inner | intro _ | split | exact ⟨rfl, rfl⟩ | exact ⟨id, id, id⟩

theorem State.cmdRelease_inner {u s : State} (h : Inner u s) (stream : Nat) : Inner u (State.cmdRelease s stream).1 := by
  unfold State.cmdRelease
  try dsimp only
  repeat' with_reducible first | exact h | exact Inner.refl _ | apply State.freeSlot_inner | apply State.modConsumer_inner | apply State.setFree_inner | apply State.refuse_inner | apply State.withConsumer_inner | intro _ | split | exact ⟨rfl, rfl⟩ | exact ⟨id, id, id⟩

theorem State.cmdSendNote_inner {u s : State} (h : Inner u s) (target : Nat) (code : Word) :
    Inner u (s.cmdSendNote target code).1 := by
  unfold State.cmdSendNote
  repeat' split
  all_goals first | exact h | skip
  exact h.of_link (fun _ => by simp only [List.length_append, List.length_singleton]; omega) id id

theorem State.cmdClearNotice_inner {u s : State} (h : Inner u s) (sources : StationSet) :
    Inner u (s.cmdClearNotice sources).1 := by
  unfold State.cmdClearNotice
  repeat' split
  all_goals first | exact h | exact h.of_blocks rfl rfl rfl rfl rfl

/-- Every command is an inner operation (R160). -/
theorem State.runCommand_inner {u s : State} (h : Inner u s) (r : CmdRecord) : Inner u (s.runCommand r).1 := by
  unfold State.runCommand
  dsimp only
  split
  · exact State.cmdConfigure_inner h _
  · exact State.cmdStart_inner h
  · exact State.cmdLeave_inner h
  · exact State.cmdRejoin_inner h
  · exact State.cmdRestart_inner h
  · exact State.cmdClaim_inner h
  · exact State.cmdDiscard_inner h _
  · exact State.cmdPublish_inner h _ _
  · exact State.cmdResume_inner h _
  · exact State.cmdCancel_inner h _
  · exact State.cmdSubscribe_inner h _ _
  · exact State.cmdUnsubscribe_inner h _
  · exact State.cmdAcquire_inner h _ _
  · exact State.cmdRelease_inner h _
  · exact State.cmdSendNote_inner h _ _
  · exact State.cmdClearNotice_inner h _
  · exact h
  · exact h

/-! ### Timers -/

theorem State.rollDue_inner {u s : State} (h : Inner u s) (due : Micros) : Inner u (State.rollDue s due) := by
  unfold State.rollDue
  try dsimp only
  repeat' with_reducible first | exact h | exact Inner.refl _ | apply State.reach_inner | apply State.modPresence_inner | intro _ | split | exact ⟨rfl, rfl⟩ | exact ⟨id, id, id⟩

theorem State.joinExpired_inner {u s : State} (h : Inner u s) (i : EntryIx) (c : Consumer) : Inner u (State.joinExpired s i c) := by
  unfold State.joinExpired
  try dsimp only
  repeat' with_reducible first | exact h | exact Inner.refl _ | apply State.insertEvent_inner | apply State.modConsumer_inner | apply State.setTake_inner | apply State.expel_inner | intro _ | split | exact ⟨rfl, rfl⟩ | exact ⟨id, id, id⟩

theorem State.cutMember_inner {u s : State} (h : Inner u s) (i : EntryIx) (n : Station) : Inner u (State.cutMember i s n) := by
  unfold State.cutMember
  try dsimp only
  repeat' with_reducible first | exact h | exact Inner.refl _ | apply State.insertEvent_inner | apply State.modProducer_inner | apply State.removeAdmit_inner | apply State.placeCut_inner | intro _ | split | exact ⟨rfl, rfl⟩ | exact ⟨id, id, id⟩

theorem State.tick_inner {u s : State} (h : Inner u s) : Inner u s.tick := h.of_blocks rfl rfl rfl rfl rfl

end Sys2Proof.Machine
end

