-- ==== Sys2Proof/Laws/Port.lean ====
section
/-! SUPPORT. What the Local Port does: a command on a part that is ready, commands taken one after another, bus accesses; and
that each of these keeps a safe state safe and leaves the waiting events and the straps alone. -/

namespace Sys2Proof.Machine

/-! ### A command on a part that is ready -/

theorem State.takeCommands_nil (n : Nat) {s : State} (h : s.port.cmdQueue = []) : State.takeCommands n s = s := by
  cases n with
  | zero => rfl
  | succ n => simp only [State.takeCommands, h]

/-- A record that reaches the queue of a part that is ready is taken in its own event (R158, R159). -/
theorem State.submitRecord_ready {s : State} (h : s.ready) (r : CmdRecord) : s.submitRecord r = s.accepted.answered r := by
  obtain ⟨⟨hr, hc⟩, hq, hl⟩ := h
  have e : (s.modPort fun p => { p with cmdQueue := p.cmdQueue ++ [r], refused := false }).modPort
      (fun p => { p with cmdQueue := [] }) = s.accepted := by
    simp only [State.modPort, State.accepted]
    cases s with
    | mk port =>
      cases port
      simp_all
  have k : (s.modPort fun p => { p with cmdQueue := p.cmdQueue ++ [r], refused := false }).port.cmdQueue = [r] := by
    simp [State.modPort, hq]
  have k2 : ((s.modPort fun p => { p with cmdQueue := p.cmdQueue ++ [r], refused := false }).takeCommand r []).port.cmdQueue =
      [] := by
    simp only [State.takeCommand, State.modPort]
    rw [(State.runCommand_inner (Inner.refl _) r).port]
  have m : State.takeCommands 8 (s.modPort fun p => { p with cmdQueue := p.cmdQueue ++ [r], refused := false }) =
      s.accepted.answered r := by
    unfold State.takeCommands
    rw [k]
    dsimp only
    rw [if_pos (by simpa [State.modPort] using hl), State.takeCommands_nil 7 k2]
    unfold State.takeCommand
    rw [e]
    rfl
  simp only [State.submitRecord, State.awake, hr, hc, State.enqueue, hq]
  rw [if_neg (by decide), if_neg (by decide), if_pos (by decide)]
  exact m

/-! ### Records and the queues -/

/-- A command row is its record's arrival (log 2). -/
theorem exec_commandRecord {i : Instr} {r : CmdRecord} (h : commandRecord i = some r) (s : State) :
    exec i s = .next (s.submitRecord r) := by
  cases i <;> simp only [commandRecord, reduceCtorEq, Option.some.injEq] at h <;> subst h <;> rfl

/-- A command row on a part that is ready. -/
theorem exec_commandRecord_ready {i : Instr} {r : CmdRecord} (h : commandRecord i = some r) {s : State} (hs : s.ready) :
    exec i s = .next (s.accepted.answered r) := by
  rw [exec_commandRecord h, State.submitRecord_ready hs]

/-- A record that reaches the queue of a part that is ready (R158, R159). -/
theorem State.enqueue_ready {s : State} (h : s.ready) (r : CmdRecord) : s.enqueue r = s.accepted.answered r := by
  have e := State.submitRecord_ready h r
  simpa [State.submitRecord, State.awake, h.1.1, h.1.2] using e

/-- A full command queue refuses a record (R158). -/
theorem State.enqueue_full {s : State} (h : s.port.cmdQueue.length = 8) (r : CmdRecord) :
    s.enqueue r = { s with port := { s.port with refused := true } } := by
  simp [State.enqueue, h, Config.cmdQueueMax, State.modPort]

/-- No command is taken while the response queue is full (R159). -/
theorem State.takeCommands_full (n : Nat) {s : State} (h : s.port.respQueue.length = 8) : State.takeCommands n s = s := by
  cases n with
  | zero => rfl
  | succ n =>
    unfold State.takeCommands
    split
    · rfl
    · rw [if_neg (by simp [h, Config.respQueueMax])]

/-- A record waits behind a full response queue (R158, R159). -/
theorem State.enqueue_waits {s : State} (h : s.port.cmdQueue.length < 8) (hr : s.port.respQueue.length = 8) (r : CmdRecord) :
    s.enqueue r = { s with port := { s.port with cmdQueue := s.port.cmdQueue ++ [r], refused := false } } := by
  unfold State.enqueue
  rw [if_pos (show _ < Config.cmdQueueMax from h)]
  exact State.takeCommands_full _ (by exact hr)

theorem State.takeCommands_succ (n : Nat) (s : State) : State.takeCommands (n + 1) s = (match s.port.cmdQueue with
    | [] => s
    | r :: rest => if s.port.respQueue.length < Config.respQueueMax then State.takeCommands n (s.takeCommand r rest)
      else s) := rfl

/-- No command changes the port (the answer joins the response queue afterwards). -/
theorem State.runCommand_port (s : State) (r : CmdRecord) : (s.runCommand r).1.port = s.port :=
  (State.runCommand_inner (Inner.refl _) r).port

/-- A kind code that names no command is BAD_ARG (R160). -/
theorem State.runCommand_unknown (s : State) {r : CmdRecord} (h : r.kind = 0 ∨ 17 < r.kind.toNat) :
    s.runCommand r = s.refuse .badArg := by
  unfold State.runCommand
  have k : r.kind.toNat = 0 ∨ 17 < r.kind.toNat := by
    rcases h with h | h
    · left
      rw [h]
      rfl
    · right
      exact h
  revert k
  generalize r.kind.toNat = n
  intro hn
  dsimp only
  split <;> first | rfl | omega

/-- The answer of a command that gives two value words and no presence bits. -/
theorem State.answered_of {s t : State} {r : CmdRecord} {x : Result} {v1 v2 : Word}
    (h : s.runCommand r = (t, .of x v1 v2)) : s.answered r = t.respond r.tag r.kind x v1 v2 := by
  simp [State.answered, h, State.respond, State.modPort, CmdRecord.response, Reply.of]

/-! ### Accesses of a running part -/

theorem isWordOf_of {base n a : Nat} (h : base ≤ a ∧ a < base + 4 * n) : isWordOf base n a = true := by
  simp only [isWordOf, Bool.and_eq_true, decide_eq_true_eq]
  exact h

theorem isWordOf_not {base n a : Nat} (h : a < base ∨ base + 4 * n ≤ a) : ¬ isWordOf base n a = true := by
  simp only [isWordOf, Bool.and_eq_true, decide_eq_true_eq]
  omega

/-- A 32-bit write at an offset of the window. -/
theorem State.busAccess_write {s : State} (h : s.running) (a : Nat) (ha : a < 0x2000) (hm : a % 4 = 0) (e : BitVec 4)
    (d : Word) : s.busAccess (writeOf a e d) = s.writeAt a e d := by
  have k : (BitVec.ofNat 32 a).toNat = a := by
    rw [BitVec.toNat_ofNat]
    exact Nat.mod_eq_of_lt (by omega)
  simp only [State.busAccess, writeOf, k, h.1, h.2]
  rw [if_neg (by decide), if_neg (by simp [Config.windowEnd]; omega), if_neg (by decide), if_pos (by decide)]

/-- A 32-bit read at an offset of the window. -/
theorem State.busAccess_read {s : State} (h : s.running) (a : Nat) (ha : a < 0x2000) (hm : a % 4 = 0) (e : BitVec 4)
    (d : Word) : s.busAccess ⟨false, .word, BitVec.ofNat 32 a, e, d⟩ = s.readAt a := by
  have k : (BitVec.ofNat 32 a).toNat = a := by
    rw [BitVec.toNat_ofNat]
    exact Nat.mod_eq_of_lt (by omega)
  simp only [State.busAccess, k, h.1, h.2]
  rw [if_neg (by decide), if_neg (by simp [Config.windowEnd]; omega), if_neg (by decide), if_neg (by decide)]

/-! ### Every event of the port leaves the waiting events and the straps alone -/

/-- What an event of the port leaves alone. -/
def State.outer (s : State) : List Instr × Station × BitVec 2 := (s.pending, s.presence.station, s.presence.rate)

theorem Inner.outer {s t : State} (h : Inner s t) : t.outer = s.outer := congrArg (·.2) h.fixed

@[simp] theorem State.modPort_outer (s : State) (f : Port → Port) : (s.modPort f).outer = s.outer := rfl

@[simp] theorem State.answer_outer (s : State) (e : Bool) (d : Word) : (s.answer e d).outer = s.outer := rfl

theorem State.takeCommand_outer (s : State) (r : CmdRecord) (rest : List CmdRecord) : (s.takeCommand r rest).outer = s.outer :=
  (State.runCommand_inner (Inner.refl _) r).outer

theorem State.takeCommands_outer (n : Nat) (s : State) : (State.takeCommands n s).outer = s.outer := by
  induction n generalizing s with
  | zero => rfl
  | succ n ih =>
    unfold State.takeCommands
    split
    · rfl
    · split
      · exact (ih _).trans (State.takeCommand_outer _ _ _)
      · rfl

theorem State.enqueue_outer (s : State) (r : CmdRecord) : (s.enqueue r).outer = s.outer := by
  unfold State.enqueue
  split
  · exact State.takeCommands_outer _ _
  · rfl

theorem State.submitRecord_outer (s : State) (r : CmdRecord) : (s.submitRecord r).outer = s.outer := by
  unfold State.submitRecord State.awake
  dsimp only
  repeat' split
  all_goals first | rfl | exact State.enqueue_outer _ _

/-! ### Taking commands keeps a safe state safe -/

theorem State.modPort_safe {s : State} (h : s.Safe) (f : Port → Port)
    (hc : (f s.port).cmdQueue.length ≤ Config.cmdQueueMax) (hr : (f s.port).respQueue.length ≤ Config.respQueueMax) :
    (s.modPort f).Safe :=
  ⟨h.memory, h.slots, ⟨hc, hr, h.bounded.events, h.bounded.descriptors, h.bounded.notes, h.bounded.attempts,
    h.bounded.drops⟩⟩

/-- A command is taken only with a free place in the response queue (R159). -/
theorem State.takeCommand_safe {s : State} (h : s.Safe) (r : CmdRecord) (rest : List CmdRecord)
    (hr : rest.length ≤ Config.cmdQueueMax) (hl : s.port.respQueue.length < Config.respQueueMax) :
    (s.takeCommand r rest).Safe := by
  have h1 : (s.modPort fun p => { p with cmdQueue := rest }).Safe := State.modPort_safe h _ hr h.bounded.responses
  have i := State.runCommand_inner (Inner.refl (s.modPort fun p => { p with cmdQueue := rest })) r
  have h2 := i.safe h1
  unfold State.takeCommand
  dsimp only
  refine State.modPort_safe h2 _ ?_ ?_
  · exact h2.bounded.commands
  · rw [i.port]
    simpa [State.modPort] using hl

theorem State.takeCommands_safe (n : Nat) {s : State} (h : s.Safe) : (State.takeCommands n s).Safe := by
  induction n generalizing s with
  | zero => exact h
  | succ n ih =>
    unfold State.takeCommands
    split
    · exact h
    · rename_i r rest hq
      split
      · rename_i hl
        have hc := h.bounded.commands
        rw [hq, List.length_cons] at hc
        exact ih (State.takeCommand_safe h r rest (by omega) hl)
      · exact h

theorem State.enqueue_safe {s : State} (h : s.Safe) (r : CmdRecord) : (s.enqueue r).Safe := by
  unfold State.enqueue
  split
  · rename_i hl
    refine State.takeCommands_safe _ (State.modPort_safe h _ ?_ h.bounded.responses)
    simpa using hl
  · exact State.modPort_safe h _ h.bounded.commands h.bounded.responses

theorem State.submitRecord_safe {s : State} (h : s.Safe) (r : CmdRecord) : (s.submitRecord r).Safe := by
  unfold State.submitRecord State.awake
  dsimp only
  repeat' split
  all_goals first | exact h | exact State.enqueue_safe h r

/-! ### Bus accesses -/

theorem State.answer_safe {s : State} (h : s.Safe) (e : Bool) (d : Word) : (s.answer e d).Safe :=
  State.modPort_safe h _ h.bounded.commands h.bounded.responses

theorem State.accessFault_safe {s : State} (h : s.Safe) (k : AccessKind) : (s.accessFault k).Safe :=
  State.answer_safe ((State.insertEvent_inner (Inner.refl s) _).safe h) _ _

theorem State.windowReadAt_safe {s : State} (h : s.Safe) (o : Nat) : (s.windowReadAt o).Safe := by
  unfold State.windowReadAt
  dsimp only
  split
  · exact State.answer_safe h _ _
  · exact State.answer_safe h _ _
  · exact State.accessFault_safe h _

theorem State.windowWriteAt_safe {s : State} (h : s.Safe) (o : Nat) (enables : BitVec 4) (data : Word) :
    (s.windowWriteAt o enables data).Safe := by
  unfold State.windowWriteAt
  dsimp only
  split
  · have i : Inner s { s with slots := { s.slots with mem := storeLanes s.slots.mem (slotAddr s.port.window o) enables data } } :=
      (Inner.refl s).of_slots (fun hm => storeLanes_wf hm _ _ _) id
    exact State.answer_safe (i.safe h) _ _
  · exact State.accessFault_safe h _

theorem State.respNextWrite_safe {s : State} (h : s.Safe) : s.respNextWrite.Safe := by
  refine State.answer_safe (State.takeCommands_safe _ (State.modPort_safe h _ h.bounded.commands ?_)) _ _
  exact le_trans (by simp) h.bounded.responses

theorem State.evtNextWrite_safe {s : State} (h : s.Safe) : s.evtNextWrite.Safe := by
  have i : Inner s { s with events := { s.events with records := s.events.records.tail } } :=
    ⟨rfl, id, id, fun k => le_trans (by simp) k, id, id, id, id⟩
  exact State.answer_safe (i.safe h) _ _

theorem State.readAt_safe {s : State} (h : s.Safe) (a : Nat) : (s.readAt a).Safe := by
  unfold State.readAt
  repeat' split
  all_goals first | exact State.windowReadAt_safe h _ | exact State.answer_safe h _ _

theorem State.writeAt_safe {s : State} (h : s.Safe) (a : Nat) (enables : BitVec 4) (data : Word) :
    (s.writeAt a enables data).Safe := by
  have hm : ∀ f : Port → Port, (f s.port).cmdQueue = s.port.cmdQueue → (f s.port).respQueue = s.port.respQueue →
      (s.modPort f).Safe := fun f hc hr =>
    State.modPort_safe h f (by rw [hc]; exact h.bounded.commands) (by rw [hr]; exact h.bounded.responses)
  unfold State.writeAt State.windowSelect
  repeat' split
  all_goals first
    | exact State.windowWriteAt_safe h _ _ _
    | exact State.respNextWrite_safe h
    | exact State.evtNextWrite_safe h
    | exact State.answer_safe (State.enqueue_safe h _) _ _
    | exact State.answer_safe (hm _ rfl rfl) _ _
    | exact State.answer_safe h _ _

/-- A bus access keeps a safe state safe. -/
theorem State.busAccess_safe {s : State} (h : s.Safe) (b : BusAccess) : (s.busAccess b).Safe := by
  unfold State.busAccess
  dsimp only
  repeat' split
  all_goals first
    | exact State.writeAt_safe h _ _ _
    | exact State.readAt_safe h _
    | exact State.answer_safe h _ _
    | exact State.modPort_safe h _ h.bounded.commands h.bounded.responses

theorem State.accessFault_outer (s : State) (k : AccessKind) : (s.accessFault k).outer = s.outer := by
  simp only [State.accessFault, State.busError, State.answer_outer]
  exact (State.insertEvent_inner (Inner.refl s) _).outer

theorem State.readAt_outer (s : State) (a : Nat) : (s.readAt a).outer = s.outer := by
  unfold State.readAt State.windowReadAt
  dsimp only
  repeat' split
  all_goals first | exact State.accessFault_outer _ _ | rfl

theorem State.writeAt_outer (s : State) (a : Nat) (enables : BitVec 4) (data : Word) :
    (s.writeAt a enables data).outer = s.outer := by
  unfold State.writeAt State.windowSelect State.windowWriteAt
  dsimp only
  repeat' split
  all_goals first
    | exact State.accessFault_outer _ _
    | exact State.enqueue_outer _ _
    | exact State.takeCommands_outer _ _
    | rfl

/-- A bus access leaves the waiting events and the straps alone. -/
theorem State.busAccess_outer (s : State) (b : BusAccess) : (s.busAccess b).outer = s.outer := by
  unfold State.busAccess
  dsimp only
  repeat' split
  all_goals first
    | exact State.writeAt_outer _ _ _ _
    | exact State.readAt_outer _ _
    | rfl

end Sys2Proof.Machine
end

