-- ==== Sys2Proof/Laws/Updates.lean ====
section
/-! SUPPORT. The shared updates as plain records: what inserting an event leaves alone, entries read and written, elements whose
frame is not in the holding frame. -/

namespace Sys2Proof.Machine

/-! ### Inserting an event -/

@[simp] theorem State.insertEvent_port (s : State) (e : Event) : (s.insertEvent e).port = s.port := by
  rw [State.insertEvent_eq]

@[simp] theorem State.insertEvent_time (s : State) (e : Event) : (s.insertEvent e).time = s.time := by
  rw [State.insertEvent_eq]

@[simp] theorem State.insertEvent_slots (s : State) (e : Event) : (s.insertEvent e).slots = s.slots := by
  rw [State.insertEvent_eq]

@[simp] theorem State.insertEvent_streams (s : State) (e : Event) : (s.insertEvent e).streams = s.streams := by
  rw [State.insertEvent_eq]

@[simp] theorem State.insertEvent_publish (s : State) (e : Event) : (s.insertEvent e).publish = s.publish := by
  rw [State.insertEvent_eq]

@[simp] theorem State.insertEvent_seg (s : State) (e : Event) : (s.insertEvent e).seg = s.seg := by
  rw [State.insertEvent_eq]

@[simp] theorem State.insertEvent_notices (s : State) (e : Event) : (s.insertEvent e).notices = s.notices := by
  rw [State.insertEvent_eq]

@[simp] theorem State.insertEvent_presence (s : State) (e : Event) : (s.insertEvent e).presence = s.presence := by
  rw [State.insertEvent_eq]

@[simp] theorem State.insertEvent_pending (s : State) (e : Event) : (s.insertEvent e).pending = s.pending := by
  rw [State.insertEvent_eq]

@[simp] theorem State.insertEvent_holding (s : State) (e : Event) : (s.insertEvent e).link.holding = s.link.holding := by
  rw [State.insertEvent_eq]

@[simp] theorem State.insertEvent_attempts (s : State) (e : Event) : (s.insertEvent e).link.attempts = s.link.attempts := by
  rw [State.insertEvent_eq]

@[simp] theorem State.insertEvent_drops (s : State) (e : Event) : (s.insertEvent e).link.drops = s.link.drops := by
  rw [State.insertEvent_eq]

@[simp] theorem State.insertEvent_lineIdle (s : State) (e : Event) : (s.insertEvent e).link.lineIdle = s.link.lineIdle := by
  rw [State.insertEvent_eq]

@[simp] theorem State.insertEvent_notes (s : State) (e : Event) : (s.insertEvent e).link.notes = s.link.notes := by
  rw [State.insertEvent_eq]

/-! ### Entries -/

theorem State.producer_of {s : State} {i : EntryIx} {p : Producer} (h : s.entry i = some (.producer p)) :
    s.producer i = some p := by
  unfold State.producer
  rw [h]

theorem State.consumer_of {s : State} {i : EntryIx} {c : Consumer} (h : s.entry i = some (.consumer c)) :
    s.consumer i = some c := by
  unfold State.consumer
  rw [h]

theorem State.producer_of_consumer {s : State} {i : EntryIx} {c : Consumer} (h : s.entry i = some (.consumer c)) :
    s.producer i = none := by
  unfold State.producer
  rw [h]

theorem State.consumer_of_producer {s : State} {i : EntryIx} {p : Producer} (h : s.entry i = some (.producer p)) :
    s.consumer i = none := by
  unfold State.consumer
  rw [h]

theorem State.producer_of_none {s : State} {i : EntryIx} (h : s.entry i = none) : s.producer i = none := by
  unfold State.producer
  rw [h]

theorem State.consumer_of_none {s : State} {i : EntryIx} (h : s.entry i = none) : s.consumer i = none := by
  unfold State.consumer
  rw [h]

theorem State.streamOf_of {s : State} {i : EntryIx} {e : Entry} (h : s.entry i = some e) : s.streamOf i = e.stream := by
  unfold State.streamOf
  rw [h]

theorem State.entry_of_producer {s : State} {i : EntryIx} {p : Producer} (h : s.producer i = some p) :
    s.entry i = some (.producer p) := by
  unfold State.producer at h
  split at h
  · rename_i e
    rw [e, Option.some.inj h]
  · cases h

theorem State.entry_of_consumer {s : State} {i : EntryIx} {c : Consumer} (h : s.consumer i = some c) :
    s.entry i = some (.consumer c) := by
  unfold State.consumer at h
  split at h
  · rename_i e
    rw [e, Option.some.inj h]
  · cases h

/-- The entry that a lookup by identifier finds has that identifier. -/
theorem State.streamOf_found {s : State} {id : StreamId} {i : EntryIx} (h : s.findStream id = some i) : s.streamOf i = id := by
  have k := List.find?_some h
  unfold State.streamOf
  split at k
  · simpa using k
  · cases k

theorem State.modProducer_of {s : State} {i : EntryIx} {p : Producer} (h : s.entry i = some (.producer p))
    (f : Producer → Producer) : s.modProducer i f = { s with streams := vput s.streams i (some (.producer (f p))) } := by
  unfold State.modProducer
  rw [h]
  rfl

theorem State.modConsumer_of {s : State} {i : EntryIx} {c : Consumer} (h : s.entry i = some (.consumer c))
    (f : Consumer → Consumer) : s.modConsumer i f = { s with streams := vput s.streams i (some (.consumer (f c))) } := by
  unfold State.modConsumer
  rw [h]
  rfl

theorem vput_vput {α : Type} {n : Nat} (v : Vector α n) (i : Fin n) (x y : α) : vput (vput v i x) i y = vput v i y := by
  ext j hj
  simp only [vput, Vector.getElem_set]
  split <;> rfl

theorem vput_self {α : Type} {n : Nat} (v : Vector α n) (i : Fin n) (x : α) (h : v[i] = x) : vput v i x = v := by
  subst h
  ext j hj
  simp only [vput, Vector.getElem_set, Fin.getElem_fin]
  split <;> simp_all

@[simp] theorem State.entry_vput (s : State) (v : Vector (Option Entry) 16) (i : EntryIx) (e : Option Entry) :
    ({ s with streams := vput v i e } : State).entry i = e := vput_get_same _ _ _

@[simp] theorem State.entry_setEntry (s : State) (i : EntryIx) (e : Option Entry) : (s.setEntry i e).entry i = e :=
  vput_get_same _ _ _

theorem State.entry_setEntry_other (s : State) {i j : EntryIx} (h : i ≠ j) (e : Option Entry) :
    (s.setEntry i e).entry j = s.entry j := vput_get_other _ h _

theorem State.entry_of_streams {s : State} {v : Vector (Option Entry) 16} {i : EntryIx} {e : Option Entry}
    (h : s.streams = vput v i e) : s.entry i = e := by
  unfold State.entry
  rw [h, vput_get_same]

theorem State.entry_vput_other (s : State) {i j : EntryIx} (h : i ≠ j) (e : Option Entry) :
    ({ s with streams := vput s.streams i e } : State).entry j = s.entry j := vput_get_other _ h _

/-! ### Elements and the holding frame -/

theorem State.sourceRemoved_other {s : State} {p : FrameSource → Bool}
    (h : ∀ x, s.link.holding = some x → p x.source = false) : s.sourceRemoved p = s := by
  unfold State.sourceRemoved
  split
  · rename_i x hx
    rw [h x hx, Bool.false_and, if_neg (by decide)]
  · rfl

/-- The holding frame holds no frame of entry `i`. -/
def State.holdsNone (s : State) (i : EntryIx) : Prop := ∀ x, s.link.holding = some x → x.source.entry? ≠ some i

theorem State.elementRemoved_other {s : State} {i : EntryIx} (h : s.holdsNone i) {src : FrameSource}
    (hs : src.entry? = some i) : s.elementRemoved src = s := by
  refine State.sourceRemoved_other fun x hx => ?_
  have k := h x hx
  rw [beq_eq_false_iff_ne]
  intro e
  rw [e] at k
  exact k hs

theorem State.contentReplaced_other {s : State} {i : EntryIx} (h : s.holdsNone i) {src : FrameSource}
    (hs : src.entry? = some i) (f : Frame) : s.contentReplaced src f = s := by
  unfold State.contentReplaced
  split
  · rename_i x hx
    rw [if_neg]
    intro e
    exact h x hx (by rw [e.1]; exact hs)
  · rfl

theorem State.emptyPending_other {s : State} {i : EntryIx} (h : s.holdsNone i) :
    s.emptyPending i = s.setEntry i ((s.entry i).map Entry.withoutPending) := by
  refine State.sourceRemoved_other fun x hx => ?_
  have k := h x hx
  rw [beq_eq_false_iff_ne]
  exact k

/-! ### Elements placed and removed while the holding frame holds no frame of the entry -/

theorem State.setTake_of {s : State} {i : EntryIx} {c : Consumer} (he : s.entry i = some (.consumer c)) :
    s.setTake i = { s with streams := vput s.streams i (some (.consumer { c with take := true })) } := by
  unfold State.setTake
  rw [State.modConsumer_of he]

theorem State.clearTake_of {s : State} {i : EntryIx} {c : Consumer} (he : s.entry i = some (.consumer c)) (hn : s.holdsNone i) :
    s.clearTake i = { s with streams := vput s.streams i (some (.consumer { c with take := false })) } := by
  unfold State.clearTake
  rw [State.modConsumer_of he, State.elementRemoved_other (i := i) (by exact hn) (src := .take i) rfl]

theorem State.setDrop_of {s : State} {i : EntryIx} {c : Consumer} (he : s.entry i = some (.consumer c)) :
    s.setDrop i = { s with streams := vput s.streams i (some (.consumer { c with drop := true })) } := by
  unfold State.setDrop
  rw [State.modConsumer_of he]

theorem State.clearDrop_of {s : State} {i : EntryIx} {c : Consumer} (he : s.entry i = some (.consumer c)) (hn : s.holdsNone i) :
    s.clearDrop i = { s with streams := vput s.streams i (some (.consumer { c with drop := false })) } := by
  unfold State.clearDrop
  rw [State.modConsumer_of he, State.elementRemoved_other (i := i) (by exact hn) (src := .drop i) rfl]

theorem State.setFree_of {s : State} {i : EntryIx} {c : Consumer} (he : s.entry i = some (.consumer c)) (hn : s.holdsNone i) (page : PageNum) (lost : Bool) :
    s.setFree i page lost = { s with streams := vput s.streams i (some (.consumer { c with free := some (page, lost) })) } := by
  unfold State.setFree
  rw [State.modConsumer_of he, State.contentReplaced_other (i := i) (by exact hn) (src := .free i) rfl]

theorem State.clearFree_of {s : State} {i : EntryIx} {c : Consumer} (he : s.entry i = some (.consumer c)) (hn : s.holdsNone i) :
    s.clearFree i = { s with streams := vput s.streams i (some (.consumer { c with free := none })) } := by
  unfold State.clearFree
  rw [State.modConsumer_of he, State.elementRemoved_other (i := i) (by exact hn) (src := .free i) rfl]

theorem State.setGap_of {s : State} {i : EntryIx} {c : Consumer} (he : s.entry i = some (.consumer c)) (hn : s.holdsNone i) (page : PageNum) (missing : SegSet) :
    s.setGap i page missing = { s with streams := vput s.streams i (some (.consumer { c with gap := some (page, missing) })) } := by
  unfold State.setGap
  rw [State.modConsumer_of he, State.contentReplaced_other (i := i) (by exact hn) (src := .gap i) rfl]

theorem State.clearGap_of {s : State} {i : EntryIx} {c : Consumer} (he : s.entry i = some (.consumer c)) (hn : s.holdsNone i) :
    s.clearGap i = { s with streams := vput s.streams i (some (.consumer { c with gap := none })) } := by
  unfold State.clearGap
  rw [State.modConsumer_of he, State.elementRemoved_other (i := i) (by exact hn) (src := .gap i) rfl]

theorem State.removeAdmit_of {s : State} {i : EntryIx} {p : Producer} (he : s.entry i = some (.producer p)) (hn : s.holdsNone i) (t : Station) :
    s.removeAdmit i t = { s with streams := vput s.streams i (some (.producer { p with admits := dropTarget t p.admits })) } := by
  unfold State.removeAdmit
  rw [State.modProducer_of he, State.elementRemoved_other (i := i) (by exact hn) (src := .admission i t) rfl]

theorem State.removeCut_of {s : State} {i : EntryIx} {p : Producer} (he : s.entry i = some (.producer p)) (hn : s.holdsNone i) (t : Station) :
    s.removeCut i t = { s with streams := vput s.streams i (some (.producer { p with cuts := dropTarget t p.cuts })) } := by
  unfold State.removeCut
  rw [State.modProducer_of he, State.elementRemoved_other (i := i) (by exact hn) (src := .cut i t) rfl]

theorem State.removeGone_of {s : State} {i : EntryIx} {p : Producer} (he : s.entry i = some (.producer p)) (hn : s.holdsNone i) (page : PageNum) :
    s.removeGone i page = { s with streams := vput s.streams i (some (.producer { p with gones := p.gones.filter (· != page) })) } := by
  unfold State.removeGone
  rw [State.modProducer_of he, State.elementRemoved_other (i := i) (by exact hn) (src := .gone i page) rfl]

theorem State.setPrompt_of {s : State} {i : EntryIx} {p : Producer} (he : s.entry i = some (.producer p)) :
    s.setPrompt i = { s with streams := vput s.streams i (some (.producer { p with prompt := true })) } := by
  unfold State.setPrompt
  rw [State.modProducer_of he]

theorem State.clearPrompt_of {s : State} {i : EntryIx} {p : Producer} (he : s.entry i = some (.producer p)) (hn : s.holdsNone i) :
    s.clearPrompt i = { s with streams := vput s.streams i (some (.producer { p with prompt := false })) } := by
  unfold State.clearPrompt
  rw [State.modProducer_of he, State.elementRemoved_other (i := i) (by exact hn) (src := .prompt i) rfl]

theorem State.placeAdmit_of {s : State} {i : EntryIx} {p : Producer} (he : s.entry i = some (.producer p)) (hn : s.holdsNone i) (t : Station) (r : AdmitResult) :
    s.placeAdmit i t r = { s with streams := vput s.streams i (some (.producer { p with admits := putTarget t r p.admits })) } := by
  unfold State.placeAdmit
  rw [State.modProducer_of he, State.contentReplaced_other (i := i) (by exact hn) (src := .admission i t) rfl]

theorem State.placeCut_of {s : State} {i : EntryIx} {p : Producer} (he : s.entry i = some (.producer p)) (hn : s.holdsNone i)
    (t : Station) (r : CutReason) : s.placeCut i t r =
      if hasPlace t p.cuts then
        { s with streams := vput s.streams i (some (.producer { p with cuts := putTarget t r p.cuts })) }
      else s := by
  unfold State.placeCut
  rw [State.producer_of he]
  dsimp only
  rw [State.modProducer_of he, State.contentReplaced_other (i := i) (by exact hn) (src := .cut i t) rfl]

/-- The GONE list after a page number is placed (R89). -/
def placedGone (l : List PageNum) (page : PageNum) : List PageNum :=
  if l.contains page then l else (if l.length < Config.goneMax then l else l.filter (· != l.headD 0)) ++ [page]

theorem State.placeGone_of {s : State} {i : EntryIx} {p : Producer} (he : s.entry i = some (.producer p)) (hn : s.holdsNone i)
    (page : PageNum) : s.placeGone i page =
      { s with streams := vput s.streams i (some (.producer { p with gones := placedGone p.gones page })) } := by
  have same : s = { s with streams := vput s.streams i (some (.producer p)) } := by
    rw [vput_self _ _ _ he]
  unfold State.placeGone placedGone
  rw [State.producer_of he]
  dsimp only
  split
  · exact same
  · cases hg : p.gones with
    | nil =>
      dsimp only
      rw [State.modProducer_of he, hg]
      rfl
    | cons a l =>
      dsimp only
      by_cases hl : (a :: l).length < Config.goneMax
      · rw [if_pos hl, if_pos hl, State.modProducer_of he, hg]
      · rw [if_neg hl, if_neg hl, State.removeGone_of he hn, State.modProducer_of (State.entry_of_streams rfl), hg]
        simp only [vput_vput]
        rfl

/-- A consumer entry that becomes EXPELLED (R26). -/
theorem State.expel_of {s : State} {i : EntryIx} {c : Consumer} (he : s.entry i = some (.consumer c)) (hn : s.holdsNone i) :
    s.expel i = { s.freeRef c.filling with streams := vput s.streams i (some (.consumer { c with
      filling := none, timer := none, take := false, gap := none, free := none, state := .expelled })) } := by
  have hl : (s.freeRef c.filling).link = s.link := by
    unfold State.freeRef
    split <;> rfl
  have hs : (s.freeRef c.filling).streams = s.streams := by
    unfold State.freeRef
    split <;> rfl
  unfold State.expel State.dropFilling
  rw [State.consumer_of he]
  dsimp only
  generalize s.freeRef c.filling = F at hl hs
  have h0 : F.entry i = some (.consumer c) := by
    unfold State.entry
    rw [hs]
    exact he
  have hn' : F.holdsNone i := fun x hx => hn x (by rw [← hl]; exact hx)
  rw [State.modConsumer_of h0, State.clearTake_of (State.entry_of_streams rfl) (by exact hn'),
    State.clearGap_of (State.entry_of_streams rfl) (by exact hn'), State.clearFree_of (State.entry_of_streams rfl) (by exact hn'),
    State.modConsumer_of (State.entry_of_streams rfl)]
  simp only [vput_vput, hs]

end Sys2Proof.Machine
end

