-- ==== Sys2Proof/Laws/Words.lean ====
section
/-! SUPPORT. Fields placed in words and read back: the words of the command rows give the commands their operands. -/

namespace Sys2Proof.Machine

/-! ### Bits of placed fields -/

theorem getLsbD_placed (lo width v i : Nat) :
    (placed lo width v).getLsbD i = (decide (i < 32) && (decide (lo ≤ i) && (decide (i - lo < width) && v.testBit (i - lo)))) := by
  simp [placed, BitVec.getLsbD_ofNat, Nat.testBit_shiftLeft, Nat.testBit_mod_two_pow, ge_iff_le]

theorem getLsbD_foldl_or (l : List Word) (w : Word) (i : Nat) :
    (l.foldl (· ||| ·) w).getLsbD i = (w.getLsbD i || l.any fun x => x.getLsbD i) := by
  induction l generalizing w with
  | nil => simp
  | cons x l ih => simp [ih, Bool.or_assoc]

theorem getLsbD_wordOf (l : List Word) (i : Nat) : (wordOf l).getLsbD i = l.any fun x => x.getLsbD i := by
  simp [wordOf, getLsbD_foldl_or]

theorem testBit_fieldOf (w : Word) (lo width j : Nat) :
    (fieldOf w lo width).testBit j = (decide (j < width) && w.getLsbD (lo + j)) := by
  simp [fieldOf, Nat.testBit_mod_two_pow, BitVec.testBit_toNat]

theorem fieldOf_lt (w : Word) (lo width : Nat) : fieldOf w lo width < 2 ^ width := Nat.mod_lt _ (Nat.two_pow_pos _)

theorem testBit_toNat_of_le {n : Nat} (b : BitVec n) {j : Nat} (h : n ≤ j) : b.toNat.testBit j = false := by
  rw [BitVec.testBit_toNat]
  exact BitVec.getLsbD_of_ge b j h

/-! ### Records -/

@[simp] theorem record_tag (k : Nat) (tag : Byte) (l : List Word) : (record k tag l).tag = tag := rfl

@[simp] theorem record_kind (k : Nat) (tag : Byte) (l : List Word) : (record k tag l).kind = BitVec.ofNat 8 k := rfl

theorem record_word (k : Nat) (tag : Byte) (l : List Word) (i : Nat) (h : i < 8) :
    (record k tag l).words[i] = (l[i]?).getD 0 := by
  simp [record]

/-! ### Bytes in a word -/

theorem getLsbD_byteWord (a : Byte) (k i : Nat) (h : k < 4) :
    (placed (8 * k) 8 a.toNat).getLsbD i = (decide (8 * k ≤ i) && a.getLsbD (i - 8 * k)) := by
  rw [getLsbD_placed, BitVec.testBit_toNat]
  by_cases h1 : 8 * k ≤ i
  · by_cases h2 : i - 8 * k < 8
    · simp [h1, h2]
      intro _
      omega
    · have : a.getLsbD (i - 8 * k) = false := BitVec.getLsbD_of_ge a _ (by omega)
      simp [this]
  · simp [h1]

@[simp] theorem bytesWord_one (a : Byte) : fieldOf (bytesWord [a]) 0 8 = a.toNat := by
  refine Nat.eq_of_testBit_eq fun j => ?_
  rw [testBit_fieldOf]
  by_cases h : j < 8
  · simp only [bytesWord, codesWord, getLsbD_wordOf, List.mapIdx_cons, List.mapIdx_nil, List.any_cons, List.any_nil]
    rw [getLsbD_byteWord a 0 _ (by omega)]
    simp [h, BitVec.testBit_toNat]
  · simp [h, testBit_toNat_of_le a (Nat.le_of_not_lt h)]

@[simp] theorem bytesWord_two_fst (a b : Byte) : fieldOf (bytesWord [a, b]) 0 8 = a.toNat := by
  refine Nat.eq_of_testBit_eq fun j => ?_
  rw [testBit_fieldOf]
  by_cases h : j < 8
  · simp only [bytesWord, codesWord, getLsbD_wordOf, List.mapIdx_cons, List.mapIdx_nil, List.any_cons, List.any_nil]
    rw [getLsbD_byteWord a 0 _ (by omega), getLsbD_byteWord b (0 + 1) _ (by omega)]
    simp [h, BitVec.testBit_toNat, show ¬ 8 ≤ j by omega]
  · simp [h, testBit_toNat_of_le a (Nat.le_of_not_lt h)]

@[simp] theorem bytesWord_two_snd (a b : Byte) : fieldOf (bytesWord [a, b]) 8 8 = b.toNat := by
  refine Nat.eq_of_testBit_eq fun j => ?_
  rw [testBit_fieldOf]
  by_cases h : j < 8
  · simp only [bytesWord, codesWord, getLsbD_wordOf, List.mapIdx_cons, List.mapIdx_nil, List.any_cons, List.any_nil]
    rw [getLsbD_byteWord a 0 _ (by omega), getLsbD_byteWord b (0 + 1) _ (by omega)]
    simp [h, BitVec.testBit_toNat]
  · simp [h, testBit_toNat_of_le b (Nat.le_of_not_lt h)]

theorem bytesWord_three (a b c : Byte) : fieldOf (bytesWord [a, b, c]) 0 8 = a.toNat ∧
    fieldOf (bytesWord [a, b, c]) 8 8 = b.toNat ∧ fieldOf (bytesWord [a, b, c]) 16 8 = c.toNat := by
  refine ⟨?_, ?_, ?_⟩ <;> refine Nat.eq_of_testBit_eq fun j => ?_ <;> rw [testBit_fieldOf] <;> by_cases h : j < 8
  all_goals first
    | simp [h, testBit_toNat_of_le _ (Nat.le_of_not_lt h)]
    | simp only [bytesWord, codesWord, getLsbD_wordOf, List.mapIdx_cons, List.mapIdx_nil, List.any_cons, List.any_nil]
      rw [getLsbD_byteWord a 0 _ (by omega), getLsbD_byteWord b (0 + 1) _ (by omega), getLsbD_byteWord c (0 + 1 + 1) _ (by omega)]
  · simp [h, BitVec.testBit_toNat, show ¬ 8 ≤ j by omega, show ¬ 16 ≤ j by omega]
  · simp [h, BitVec.testBit_toNat, show ¬ 16 ≤ 8 + j by omega]
  · have ha : a.getLsbD (16 + j - 8 * 0) = false := BitVec.getLsbD_of_ge a _ (by omega)
    have hb : b.getLsbD (16 + j - 8 * (0 + 1)) = false := BitVec.getLsbD_of_ge b _ (by omega)
    simp at ha hb
    simp [h, BitVec.testBit_toNat, ha, hb]

/-! ### The words of PUBLISH -/

/-- The words of PUBLISH give back its operands (chapter 11.3). -/
theorem publishWords_fields (stream slot : Byte) (report note pause : Bool) (length : Half) (target code : Byte) :
    let w := publishWords stream slot report note pause length target code
    fieldOf ((w[0]?).getD 0) 0 8 = stream.toNat ∧ fieldOf ((w[0]?).getD 0) 8 8 = slot.toNat ∧
      ((w[0]?).getD 0).getLsbD 16 = report ∧ ((w[0]?).getD 0).getLsbD 17 = note ∧ ((w[0]?).getD 0).getLsbD 18 = pause ∧
      fieldOf ((w[1]?).getD 0) 0 16 = length.toNat ∧ fieldOf ((w[2]?).getD 0) 0 8 = target.toNat ∧
      fieldOf ((w[2]?).getD 0) 8 8 = code.toNat := by
  have hb : ∀ b : Bool, b.toNat.testBit 0 = b := by decide
  have hbit : ∀ i, 16 ≤ i → (bytesWord [stream, slot]).getLsbD i = false := by
    intro i hi
    simp only [bytesWord, codesWord, getLsbD_wordOf, List.mapIdx_cons, List.mapIdx_nil, List.any_cons, List.any_nil]
    rw [getLsbD_byteWord stream 0 _ (by omega), getLsbD_byteWord slot (0 + 1) _ (by omega),
      BitVec.getLsbD_of_ge stream _ (by omega), BitVec.getLsbD_of_ge slot _ (by omega)]
    simp
  have hlow : ∀ lo : Nat, lo + 8 ≤ 16 → fieldOf (wordOf [bytesWord [stream, slot], placedBit 16 report, placedBit 17 note,
      placedBit 18 pause]) lo 8 = fieldOf (bytesWord [stream, slot]) lo 8 := by
    intro lo hlo
    refine Nat.eq_of_testBit_eq fun j => ?_
    rw [testBit_fieldOf, testBit_fieldOf]
    by_cases h : j < 8
    · simp only [getLsbD_wordOf, List.any_cons, List.any_nil, placedBit, getLsbD_placed]
      simp [h, show ¬ 16 ≤ lo + j by omega, show ¬ 17 ≤ lo + j by omega, show ¬ 18 ≤ lo + j by omega]
    · simp [h]
  refine ⟨?_, ?_, ?_, ?_, ?_, ?_, ?_, ?_⟩
  · exact (hlow 0 (by omega)).trans (bytesWord_two_fst stream slot)
  · exact (hlow 8 (by omega)).trans (bytesWord_two_snd stream slot)
  · change (wordOf [bytesWord [stream, slot], placedBit 16 report, placedBit 17 note, placedBit 18 pause]).getLsbD 16 = _
    rw [getLsbD_wordOf]
    simp only [List.any_cons, List.any_nil, placedBit, getLsbD_placed]
    rw [hbit 16 (by omega)]
    simp [hb]
  · change (wordOf [bytesWord [stream, slot], placedBit 16 report, placedBit 17 note, placedBit 18 pause]).getLsbD 17 = _
    rw [getLsbD_wordOf]
    simp only [List.any_cons, List.any_nil, placedBit, getLsbD_placed]
    rw [hbit 17 (by omega)]
    simp [hb]
  · change (wordOf [bytesWord [stream, slot], placedBit 16 report, placedBit 17 note, placedBit 18 pause]).getLsbD 18 = _
    rw [getLsbD_wordOf]
    simp only [List.any_cons, List.any_nil, placedBit, getLsbD_placed]
    rw [hbit 18 (by omega)]
    simp [hb]
  · refine Nat.eq_of_testBit_eq fun j => ?_
    rw [testBit_fieldOf]
    by_cases h : j < 16
    · simp [publishWords, h, getLsbD_placed]
      intro _
      omega
    · simp [h, testBit_toNat_of_le length (Nat.le_of_not_lt h)]
  · exact bytesWord_two_fst target code
  · exact bytesWord_two_snd target code

/-! ### The words of CONFIGURE -/

/-- The first word of CONFIGURE gives back its parameters and the declaration count (chapter 11.3). -/
theorem configureWords_fields (r : Byte) (f : BitVec 10) (m : BitVec 4) (w : BitVec 3) (count : BitVec 4)
    (decls : Vector RawDecl 8) :
    let x := ((configureWords r f m w count decls)[0]?).getD 0
    fieldOf x 0 8 = r.toNat ∧ fieldOf x 8 10 = f.toNat ∧ fieldOf x 18 4 = m.toNat ∧ fieldOf x 22 3 = w.toNat ∧
      fieldOf x 25 4 = count.toNat := by
  have e : ((configureWords r f m w count decls)[0]?).getD 0 = wordOf [placed 0 8 r.toNat, placed 8 10 f.toNat,
    placed 18 4 m.toNat, placed 22 3 w.toNat, placed 25 4 count.toNat] := rfl
  dsimp only
  rw [e]
  refine ⟨?_, ?_, ?_, ?_, ?_⟩ <;> refine Nat.eq_of_testBit_eq fun j => ?_ <;>
    rw [testBit_fieldOf, getLsbD_wordOf] <;> simp only [List.any_cons, List.any_nil, getLsbD_placed]
  · by_cases h : j < 8
    · simp [h, show j < 32 by omega, show ¬ 8 ≤ j by omega, show ¬ 18 ≤ j by omega, show ¬ 22 ≤ j by omega,
        show ¬ 25 ≤ j by omega]
    · simp [h, testBit_toNat_of_le r (Nat.le_of_not_lt h)]
  · by_cases h : j < 10
    · simp [h, show 8 + j < 32 by omega, show ¬ 18 ≤ 8 + j by omega, show ¬ 22 ≤ 8 + j by omega, show ¬ 25 ≤ 8 + j by omega]
    · simp [h, testBit_toNat_of_le f (Nat.le_of_not_lt h)]
  · by_cases h : j < 4
    · simp [h, show 18 + j < 32 by omega, show ¬ 18 + j < 8 by omega, show ¬ 18 + j - 8 < 10 by omega,
        show ¬ 22 ≤ 18 + j by omega, show ¬ 25 ≤ 18 + j by omega]
    · simp [h, testBit_toNat_of_le m (Nat.le_of_not_lt h)]
  · by_cases h : j < 3
    · simp [h, show 22 + j < 32 by omega, show ¬ 22 + j < 8 by omega, show ¬ 22 + j - 8 < 10 by omega,
        show ¬ 22 + j - 18 < 4 by omega, show ¬ 25 ≤ 22 + j by omega]
    · simp [h, testBit_toNat_of_le w (Nat.le_of_not_lt h)]
  · by_cases h : j < 4
    · simp [h, show 25 + j < 32 by omega, show ¬ 25 + j < 8 by omega, show ¬ 25 + j - 8 < 10 by omega,
        show ¬ 25 + j - 18 < 4 by omega, show ¬ 25 + j - 22 < 3 by omega]
    · simp [h, testBit_toNat_of_le count (Nat.le_of_not_lt h)]

/-- A bit of a declaration's byte in its word. -/
theorem getLsbD_declarationByte (d : RawDecl) (k p : Nat) : (declarationByte d k).getLsbD p =
    (decide (8 * (k % 4) ≤ p) && (decide (p - 8 * (k % 4) < 8) &&
      if p - 8 * (k % 4) = 7 then d.mode else d.stream.getLsbD (p - 8 * (k % 4)))) := by
  have hm : ∀ n, d.mode.toNat.testBit (n + 1) = false := by
    intro n
    cases d.mode
    · simp
    · exact Nat.testBit_lt_two_pow (by simp)
  simp only [declarationByte, getLsbD_wordOf, List.any_cons, List.any_nil, placedBit, getLsbD_placed, BitVec.testBit_toNat,
    Bool.or_false]
  generalize hq : 8 * (k % 4) = q
  have hq3 : q ≤ 24 := by omega
  by_cases h1 : q ≤ p
  · by_cases h2 : p - q < 8
    · by_cases h3 : p - q = 7
      · have e : p = q + 7 := by omega
        subst e
        have : d.mode.toNat.testBit 0 = d.mode := by cases d.mode <;> rfl
        simp [this, show q + 7 < 32 by omega]
      · have h4 : ¬ q + 7 ≤ p := by omega
        by_cases h5 : p - q < 6
        · simp [h1, h2, h3, h4, h5, show p < 32 by omega]
        · simp [h1, h2, h3, h4, h5, BitVec.getLsbD_of_ge d.stream _ (Nat.le_of_not_lt h5)]
    · simp [h1, h2, show ¬ p - q < 6 by omega, show ¬ p - (q + 7) < 1 by omega]
  · simp [h1, show ¬ q + 7 ≤ p by omega]

/-- A bit of a declared length in its word. -/
theorem getLsbD_declarationLength (d : RawDecl) (k p : Nat) : (declarationLength d k).getLsbD p =
    (decide (16 * (k % 2) ≤ p) && (decide (p - 16 * (k % 2) < 16) && d.length.getLsbD (p - 16 * (k % 2)))) := by
  simp only [declarationLength, getLsbD_placed, BitVec.testBit_toNat]
  by_cases h : p < 32
  · simp only [h, decide_true, Bool.true_and]
  · simp only [h, decide_false, Bool.false_and, show ¬ p - 16 * (k % 2) < 16 by omega, Bool.and_false]

/-- The record of CONFIGURE gives back each declaration (chapter 11.3). -/
theorem declarationAt_configureWords (tag : Byte) (r : Byte) (f : BitVec 10) (m : BitVec 4) (w : BitVec 3) (count : BitVec 4)
    (decls : Vector RawDecl 8) (k : Fin 8) :
    declarationAt (record 1 tag (configureWords r f m w count decls)).words k.val = decls[k] := by
  have hb : ∀ j, j < 8 → (fieldOf (((record 1 tag (configureWords r f m w count decls)).words[1 + k.val / 4]?).getD 0)
      (8 * (k.val % 4)) 8).testBit j = if j = 7 then decls[k].mode else decls[k].stream.getLsbD j := by
    intro j hj
    rw [testBit_fieldOf]
    fin_cases k <;>
      simp only [configureWords, record, Vector.getElem?_ofFn, List.getElem?_cons_succ, List.getElem?_cons_zero] <;>
      simp [getLsbD_wordOf, getLsbD_declarationByte, hj, show ¬ 8 ≤ j by omega, show ¬ 16 ≤ j by omega,
        show ¬ 24 ≤ j by omega, show ¬ 16 ≤ 8 + j by omega, show ¬ 24 ≤ 8 + j by omega, show ¬ 16 + j < 8 by omega,
        show ¬ 16 + j - 8 < 8 by omega, show ¬ 24 ≤ 16 + j by omega, show ¬ 24 + j < 8 by omega,
        show ¬ 24 + j - 8 < 8 by omega, show ¬ 24 + j - 16 < 8 by omega]
  have hl : ∀ j, j < 16 → (fieldOf (((record 1 tag (configureWords r f m w count decls)).words[3 + k.val / 2]?).getD 0)
      (16 * (k.val % 2)) 16).testBit j = decls[k].length.getLsbD j := by
    intro j hj
    rw [testBit_fieldOf]
    fin_cases k <;>
      simp only [configureWords, record, Vector.getElem?_ofFn, List.getElem?_cons_succ, List.getElem?_cons_zero] <;>
      simp [getLsbD_wordOf, getLsbD_declarationLength, hj, show ¬ 16 ≤ j by omega, show ¬ 16 + j < 16 by omega]
  have e1 : (declarationAt (record 1 tag (configureWords r f m w count decls)).words k.val).mode = decls[k].mode :=
    (hb 7 (by omega)).trans (if_pos rfl)
  have e2 : (declarationAt (record 1 tag (configureWords r f m w count decls)).words k.val).stream = decls[k].stream := by
    refine BitVec.eq_of_getLsbD_eq fun j hj => ?_
    change (BitVec.ofNat 6 _).getLsbD j = _
    rw [BitVec.getLsbD_ofNat, hb j (by omega), if_neg (by omega)]
    simp [hj]
  have e3 : (declarationAt (record 1 tag (configureWords r f m w count decls)).words k.val).length = decls[k].length := by
    refine BitVec.eq_of_getLsbD_eq fun j hj => ?_
    change (BitVec.ofNat 16 _).getLsbD j = _
    rw [BitVec.getLsbD_ofNat, hl j hj]
    simp [hj]
  cases hd : declarationAt (record 1 tag (configureWords r f m w count decls)).words k.val
  cases hk : decls[k]
  rw [hd, hk] at e1 e2 e3
  simp_all

end Sys2Proof.Machine
end

