-- ==== Sys2Proof/Laws/Commands.lean ====
section
/-! SUPPORT. What each command row does on a part that is ready: the operation of its kind with the row's own operands, and its
answer. One lemma per row. -/

namespace Sys2Proof.Machine

/-! ### The operation of each row's record (R160, 11.3) -/

theorem runCommand_start (s : State) (tag : Byte) : s.runCommand (record 2 tag []) = s.cmdStart := rfl

theorem runCommand_leave (s : State) (tag : Byte) : s.runCommand (record 3 tag []) = s.cmdLeave := rfl

theorem runCommand_rejoin (s : State) (tag : Byte) : s.runCommand (record 4 tag []) = s.cmdRejoin := rfl

theorem runCommand_restart (s : State) (tag : Byte) : s.runCommand (record 5 tag []) = s.cmdRestart := rfl

theorem runCommand_claim (s : State) (tag : Byte) : s.runCommand (record 6 tag []) = s.cmdClaim := rfl

theorem record_word0 (k : Nat) (tag : Byte) (w : Word) (l : List Word) : (record k tag (w :: l)).words[0] = w :=
  record_word k tag (w :: l) 0 (by omega)

theorem record_word1 (k : Nat) (tag : Byte) (v w : Word) (l : List Word) : (record k tag (v :: w :: l)).words[1] = w :=
  record_word k tag (v :: w :: l) 1 (by omega)

theorem runCommand_discard (s : State) (tag slot : Byte) :
    s.runCommand (record 7 tag [bytesWord [slot]]) = s.cmdDiscard slot.toNat := by
  change s.cmdDiscard (fieldOf (record 7 tag [bytesWord [slot]]).words[0] 0 8) = _
  rw [record_word0, bytesWord_one]

theorem runCommand_publish (s : State) (tag stream slot : Byte) (report note : Bool) (length : Half) (target code : Byte) :
    s.runCommand (record 8 tag (publishWords stream slot report note false length target code)) =
      if s.presence.state.noPublish then s.refuse .badState
      else s.withProducer stream.toNat fun i p => s.publishPage tag i p slot.toNat length.toNat report
        (tailNote note target.toNat code) := by
  obtain ⟨h1, h2, h3, h4, h5, h6, h7, h8⟩ := publishWords_fields stream slot report note false length target code
  change s.cmdPublish tag (record 8 tag (publishWords stream slot report note false length target code)).words = _
  unfold State.cmdPublish
  rw [record_word _ _ _ 0 (by omega), record_word _ _ _ 1 (by omega), record_word _ _ _ 2 (by omega), h1, h2, h3, h4, h5, h6,
    h7, h8]
  simp only [BitVec.ofNat_toNat, BitVec.setWidth_eq]
  rfl

theorem runCommand_publishPause (s : State) (tag stream : Byte) :
    s.runCommand (record 8 tag (publishWords stream 0 false false true 0 0 0)) =
      if s.presence.state.noPublish then s.refuse .badState
      else s.withProducer stream.toNat fun i _ => s.publishMarker tag i := by
  obtain ⟨h1, h2, h3, h4, h5, h6, h7, h8⟩ := publishWords_fields stream 0 false false true 0 0 0
  change s.cmdPublish tag (record 8 tag (publishWords stream 0 false false true 0 0 0)).words = _
  unfold State.cmdPublish
  rw [record_word _ _ _ 0 (by omega), h1, h5]
  rfl

theorem runCommand_resume (s : State) (tag stream : Byte) :
    s.runCommand (record 9 tag [bytesWord [stream]]) = s.cmdResume stream.toNat := by
  change s.cmdResume (fieldOf (record 9 tag [bytesWord [stream]]).words[0] 0 8) = _
  rw [record_word0, bytesWord_one]

theorem runCommand_cancel (s : State) (tag stream : Byte) :
    s.runCommand (record 10 tag [bytesWord [stream]]) = s.cmdCancel stream.toNat := by
  change s.cmdCancel (fieldOf (record 10 tag [bytesWord [stream]]).words[0] 0 8) = _
  rw [record_word0, bytesWord_one]

theorem runCommand_subscribe (s : State) (tag stream mode : Byte) :
    s.runCommand (record 11 tag [bytesWord [stream, mode]]) = s.cmdSubscribe stream.toNat mode.toNat := by
  change s.cmdSubscribe (fieldOf (record 11 tag [bytesWord [stream, mode]]).words[0] 0 8)
    (fieldOf (record 11 tag [bytesWord [stream, mode]]).words[0] 8 8) = _
  rw [record_word0, bytesWord_two_fst, bytesWord_two_snd]

theorem runCommand_unsubscribe (s : State) (tag stream : Byte) :
    s.runCommand (record 12 tag [bytesWord [stream]]) = s.cmdUnsubscribe stream.toNat := by
  change s.cmdUnsubscribe (fieldOf (record 12 tag [bytesWord [stream]]).words[0] 0 8) = _
  rw [record_word0, bytesWord_one]

theorem runCommand_acquire (s : State) (tag stream selector : Byte) :
    s.runCommand (record 13 tag [bytesWord [stream, selector]]) = s.cmdAcquire stream.toNat selector.toNat := by
  change s.cmdAcquire (fieldOf (record 13 tag [bytesWord [stream, selector]]).words[0] 0 8)
    (fieldOf (record 13 tag [bytesWord [stream, selector]]).words[0] 8 8) = _
  rw [record_word0, bytesWord_two_fst, bytesWord_two_snd]

theorem runCommand_release (s : State) (tag stream : Byte) :
    s.runCommand (record 14 tag [bytesWord [stream]]) = s.cmdRelease stream.toNat := by
  change s.cmdRelease (fieldOf (record 14 tag [bytesWord [stream]]).words[0] 0 8) = _
  rw [record_word0, bytesWord_one]

theorem runCommand_sendNote (s : State) (tag target : Byte) (code : Word) :
    s.runCommand (record 15 tag [bytesWord [target], code]) = s.cmdSendNote target.toNat code := by
  change s.cmdSendNote (fieldOf (record 15 tag [bytesWord [target], code]).words[0] 0 8)
    (record 15 tag [bytesWord [target], code]).words[1] = _
  rw [record_word0, record_word1, bytesWord_one]

theorem runCommand_clearNotice (s : State) (tag : Byte) (sources : Word) :
    s.runCommand (record 16 tag [sources]) = s.cmdClearNotice sources := by
  change s.cmdClearNotice (record 16 tag [sources]).words[0] = _
  rw [record_word0]

theorem runCommand_readStatus (s : State) (tag selector index part : Byte) :
    s.runCommand (record 17 tag [bytesWord [selector, index, part]]) =
      (s, s.readStatus selector.toNat index.toNat part.toNat) := by
  obtain ⟨h1, h2, h3⟩ := bytesWord_three selector index part
  change (s, s.readStatus (fieldOf (record 17 tag [bytesWord [selector, index, part]]).words[0] 0 8)
    (fieldOf (record 17 tag [bytesWord [selector, index, part]]).words[0] 8 8)
    (fieldOf (record 17 tag [bytesWord [selector, index, part]]).words[0] 16 8)) = _
  rw [record_word0, h1, h2, h3]

theorem runCommand_configure (s : State) (tag r : Byte) (f : BitVec 10) (m : BitVec 4) (w : BitVec 3) (count : BitVec 4)
    (decls : Vector RawDecl 8) : s.runCommand (record 1 tag (configureWords r f m w count decls)) =
      s.cmdConfigure (record 1 tag (configureWords r f m w count decls)).words := rfl

/-- The declarations that a configuration record's count covers. -/
def declared (count : Nat) (decls : Vector RawDecl 8) : List RawDecl := decls.toList.take count

theorem declared_of_record (tag r : Byte) (f : BitVec 10) (m : BitVec 4) (w : BitVec 3) (count : BitVec 4)
    (decls : Vector RawDecl 8) (n : Nat) (h : n ≤ 8) :
    (List.range n).map (declarationAt (record 1 tag (configureWords r f m w count decls)).words) = declared n decls := by
  refine List.ext_getElem (by simp [declared, h]) fun k h1 h2 => ?_
  rw [List.getElem_map, List.getElem_range]
  have hk : k < 8 := by
    rw [List.length_map, List.length_range] at h1
    omega
  rw [declarationAt_configureWords tag r f m w count decls ⟨k, hk⟩]
  simp [declared]

/-- The checks of a configuration record, in the operands of the row (R119). -/
theorem checkRecord_of_record (tag r : Byte) (f : BitVec 10) (m : BitVec 4) (w : BitVec 3) (count : BitVec 4)
    (decls : Vector RawDecl 8) : checkRecord (record 1 tag (configureWords r f m w count decls)).words =
      match parameter r.toNat 2 250 Config.defaultR, parameter f.toNat 1 1000 Config.defaultF,
        parameter m.toNat 2 8 Config.defaultM, parameter w.toNat 1 4 Config.defaultW with
      | none, _, _, _ => .error 1
      | some _, none, _, _ => .error 2
      | some _, some _, none, _ => .error 3
      | some _, some _, some _, none => .error 4
      | some a, some b, some c, some d =>
        if 8 < count.toNat then .error 5
        else
          match firstBad 0 [] (declared count.toNat decls) with
          | some i => .error (16 + i)
          | none => .ok (⟨a, b, c, d, count.toNat⟩, declared count.toNat decls) := by
  obtain ⟨h1, h2, h3, h4, h5⟩ := configureWords_fields r f m w count decls
  unfold checkRecord
  simp only [record_word _ _ _ 0 (by omega : 0 < 8), h1, h2, h3, h4, h5]
  by_cases hc : count.toNat ≤ 8
  · rw [declared_of_record tag r f m w count decls _ hc]
    all_goals rfl
  · simp only [show 8 < count.toNat by omega, if_true]
    all_goals rfl

/-- No declaration fails. -/
theorem firstBad_none {before rest : List RawDecl} (i : Nat)
    (h : ∀ k (hk : k < rest.length), declarationOk (before ++ rest.take k) rest[k] = true) : firstBad i before rest = none := by
  induction rest generalizing i before with
  | nil => rfl
  | cons d rest ih =>
    have h0 := h 0 (by simp)
    simp only [List.take_zero, List.append_nil, List.getElem_cons_zero] at h0
    rw [firstBad, if_pos h0]
    refine ih (i + 1) fun k hk => ?_
    have hk' := h (k + 1) (by simpa using hk)
    simpa using hk'

/-- The first declaration that fails. -/
theorem firstBad_some {before rest : List RawDecl} (i k : Nat) (hk : k < rest.length)
    (bad : declarationOk (before ++ rest.take k) rest[k] = false)
    (good : ∀ j (hj : j < k), declarationOk (before ++ rest.take j) (rest[j]'(hj.trans hk)) = true) :
    firstBad i before rest = some (i + k) := by
  induction rest generalizing i k before with
  | nil => exact absurd hk (Nat.not_lt_zero k)
  | cons d rest ih =>
    cases k with
    | zero =>
      simp only [List.take_zero, List.append_nil, List.getElem_cons_zero] at bad
      rw [firstBad, if_neg (by rw [bad]; decide), Nat.add_zero]
    | succ k =>
      have h0 := good 0 (by omega)
      simp only [List.take_zero, List.append_nil, List.getElem_cons_zero] at h0
      rw [firstBad, if_pos h0, ih (i + 1) k (by simpa using hk) (by simpa using bad)
        (fun j hj => by simpa using good (j + 1) (by omega))]
      congr 1
      omega

/-! ### Each row on a part that is ready -/

/-- The state in which a command has acted, with its answer at the tail of the response queue (R161). -/
def State.finish (tag kind : Byte) (a : State × Reply) : State :=
  a.1.modPort fun p => { p with respQueue := p.respQueue ++
    [⟨tag, kind, a.2.result, a.2.presence, a.2.paused, a.2.value1, a.2.value2⟩] }

theorem State.finish_of (tag kind : Byte) (t : State) (r : Result) (v1 v2 : Word) :
    State.finish tag kind (t, .of r v1 v2) = t.respond tag kind r v1 v2 := rfl

theorem State.finish_refuse (tag kind : Byte) (t : State) (r : Result) :
    State.finish tag kind (t.refuse r) = t.respond tag kind r 0 0 := rfl

theorem exec_finish {i : Instr} {r : CmdRecord} (hi : commandRecord i = some r) {s : State} (hs : s.ready)
    {a : State × Reply} (h : s.accepted.runCommand r = a) : exec i s = .next (State.finish r.tag r.kind a) := by
  subst h
  exact exec_commandRecord_ready hi hs

theorem exec_publish {s : State} (hs : s.ready) (tag stream slot : Byte) (report note : Bool) (length : Half)
    (target code : Byte) : exec (.publish tag stream slot report note length target code) s = .next (State.finish tag 8
      (if s.presence.state.noPublish then s.accepted.refuse .badState
      else s.accepted.withProducer stream.toNat fun i p => s.accepted.publishPage tag i p slot.toNat length.toNat report
        (tailNote note target.toNat code))) :=
  exec_finish (i := .publish tag stream slot report note length target code) rfl hs (runCommand_publish ..)

theorem exec_publishPause {s : State} (hs : s.ready) (tag stream : Byte) :
    exec (.publishPause tag stream) s = .next (State.finish tag 8
      (if s.presence.state.noPublish then s.accepted.refuse .badState
      else s.accepted.withProducer stream.toNat fun i _ => s.accepted.publishMarker tag i)) :=
  exec_finish (i := .publishPause tag stream) rfl hs (runCommand_publishPause ..)

theorem exec_configure {s : State} (hs : s.ready) (tag r : Byte) (f : BitVec 10) (m : BitVec 4) (w : BitVec 3)
    (count : BitVec 4) (decls : Vector RawDecl 8) : exec (.configure tag r f m w count decls) s =
      .next (State.finish tag 1 (s.accepted.cmdConfigure (record 1 tag (configureWords r f m w count decls)).words)) :=
  exec_finish (i := .configure tag r f m w count decls) rfl hs (runCommand_configure ..)

theorem exec_start {s : State} (hs : s.ready) (tag : Byte) :
    exec (.start tag) s = .next (State.finish tag 2 s.accepted.cmdStart) :=
  exec_finish (i := .start tag) rfl hs (runCommand_start ..)

theorem exec_leave {s : State} (hs : s.ready) (tag : Byte) :
    exec (.leave tag) s = .next (State.finish tag 3 s.accepted.cmdLeave) :=
  exec_finish (i := .leave tag) rfl hs (runCommand_leave ..)

theorem exec_rejoin {s : State} (hs : s.ready) (tag : Byte) :
    exec (.rejoin tag) s = .next (State.finish tag 4 s.accepted.cmdRejoin) :=
  exec_finish (i := .rejoin tag) rfl hs (runCommand_rejoin ..)

theorem exec_restart {s : State} (hs : s.ready) (tag : Byte) :
    exec (.restart tag) s = .next (State.finish tag 5 s.accepted.cmdRestart) :=
  exec_finish (i := .restart tag) rfl hs (runCommand_restart ..)

theorem exec_claim {s : State} (hs : s.ready) (tag : Byte) :
    exec (.claim tag) s = .next (State.finish tag 6 s.accepted.cmdClaim) :=
  exec_finish (i := .claim tag) rfl hs (runCommand_claim ..)

theorem exec_discard {s : State} (hs : s.ready) (tag slot : Byte) :
    exec (.discard tag slot) s = .next (State.finish tag 7 (s.accepted.cmdDiscard slot.toNat)) :=
  exec_finish (i := .discard tag slot) rfl hs (runCommand_discard ..)

theorem exec_resume {s : State} (hs : s.ready) (tag stream : Byte) :
    exec (.resume tag stream) s = .next (State.finish tag 9 (s.accepted.cmdResume stream.toNat)) :=
  exec_finish (i := .resume tag stream) rfl hs (runCommand_resume ..)

theorem exec_cancel {s : State} (hs : s.ready) (tag stream : Byte) :
    exec (.cancel tag stream) s = .next (State.finish tag 10 (s.accepted.cmdCancel stream.toNat)) :=
  exec_finish (i := .cancel tag stream) rfl hs (runCommand_cancel ..)

theorem exec_subscribe {s : State} (hs : s.ready) (tag stream mode : Byte) :
    exec (.subscribe tag stream mode) s = .next (State.finish tag 11 (s.accepted.cmdSubscribe stream.toNat mode.toNat)) :=
  exec_finish (i := .subscribe tag stream mode) rfl hs (runCommand_subscribe ..)

theorem exec_unsubscribe {s : State} (hs : s.ready) (tag stream : Byte) :
    exec (.unsubscribe tag stream) s = .next (State.finish tag 12 (s.accepted.cmdUnsubscribe stream.toNat)) :=
  exec_finish (i := .unsubscribe tag stream) rfl hs (runCommand_unsubscribe ..)

theorem exec_acquire {s : State} (hs : s.ready) (tag stream selector : Byte) :
    exec (.acquire tag stream selector) s = .next (State.finish tag 13 (s.accepted.cmdAcquire stream.toNat selector.toNat)) :=
  exec_finish (i := .acquire tag stream selector) rfl hs (runCommand_acquire ..)

theorem exec_release {s : State} (hs : s.ready) (tag stream : Byte) :
    exec (.release tag stream) s = .next (State.finish tag 14 (s.accepted.cmdRelease stream.toNat)) :=
  exec_finish (i := .release tag stream) rfl hs (runCommand_release ..)

theorem exec_sendNote {s : State} (hs : s.ready) (tag target : Byte) (code : Word) :
    exec (.sendNote tag target code) s = .next (State.finish tag 15 (s.accepted.cmdSendNote target.toNat code)) :=
  exec_finish (i := .sendNote tag target code) rfl hs (runCommand_sendNote ..)

theorem exec_clearNotice {s : State} (hs : s.ready) (tag : Byte) (sources : Word) :
    exec (.clearNotice tag sources) s = .next (State.finish tag 16 (s.accepted.cmdClearNotice sources)) :=
  exec_finish (i := .clearNotice tag sources) rfl hs (runCommand_clearNotice ..)

theorem exec_readStatus {s : State} (hs : s.ready) (tag selector index part : Byte) :
    exec (.readStatus tag selector index part) s = .next (State.finish tag 17
      (s.accepted, s.accepted.readStatus selector.toNat index.toNat part.toNat)) :=
  exec_finish (i := .readStatus tag selector index part) rfl hs (runCommand_readStatus ..)

/-! ### The shared checks -/

theorem streamOf?_of {b : Byte} {id : StreamId} (h : b.toNat = id.toNat) (hid : id ≠ 0) : streamOf? b.toNat = some id := by
  have k : id.toNat ≠ 0 := fun e => hid (BitVec.eq_of_toNat_eq e)
  have l := id.isLt
  unfold streamOf?
  rw [if_pos (by omega), h, BitVec.ofNat_toNat, BitVec.setWidth_eq]

theorem streamOf?_none {b : Byte} (h : b = 0 ∨ 63 < b.toNat) : streamOf? b.toNat = none := by
  unfold streamOf?
  rw [if_neg]
  rcases h with h | h
  · rw [h]
    decide
  · omega

/-- An identifier of an entry in use that is a producer entry and not DISPUTED passes the checks. -/
theorem State.withProducer_of {s : State} {b : Byte} {id : StreamId} {i : EntryIx} {p : Producer} (h : b.toNat = id.toNat)
    (hid : id ≠ 0) (hf : s.findStream id = some i) (he : s.entry i = some (.producer p)) (hd : p.state ≠ .disputed)
    (f : EntryIx → Producer → State × Reply) : s.withProducer b.toNat f = f i p := by
  unfold State.withProducer
  rw [streamOf?_of h hid]
  dsimp only
  rw [hf]
  dsimp only
  rw [State.producer_of he]
  exact if_neg hd

/-- An identifier of a consumer entry passes the checks. -/
theorem State.withConsumer_of {s : State} {b : Byte} {id : StreamId} {i : EntryIx} {c : Consumer} (h : b.toNat = id.toNat)
    (hid : id ≠ 0) (hf : s.findStream id = some i) (he : s.entry i = some (.consumer c))
    (f : EntryIx → Consumer → State × Reply) : s.withConsumer b.toNat f = f i c := by
  unfold State.withConsumer
  rw [streamOf?_of h hid]
  dsimp only
  rw [hf]
  dsimp only
  rw [State.consumer_of he]

/-! ### The accepted state differs from the state before in the refused flag alone -/

@[simp] theorem State.accepted_presence (s : State) : s.accepted.presence = s.presence := rfl

@[simp] theorem State.accepted_slots (s : State) : s.accepted.slots = s.slots := rfl

@[simp] theorem State.accepted_streams (s : State) : s.accepted.streams = s.streams := rfl

@[simp] theorem State.accepted_publish (s : State) : s.accepted.publish = s.publish := rfl

@[simp] theorem State.accepted_seg (s : State) : s.accepted.seg = s.seg := rfl

@[simp] theorem State.accepted_link (s : State) : s.accepted.link = s.link := rfl

@[simp] theorem State.accepted_notices (s : State) : s.accepted.notices = s.notices := rfl

@[simp] theorem State.accepted_events (s : State) : s.accepted.events = s.events := rfl

@[simp] theorem State.accepted_time (s : State) : s.accepted.time = s.time := rfl

@[simp] theorem State.accepted_pending (s : State) : s.accepted.pending = s.pending := rfl

@[simp] theorem State.accepted_slot (s : State) (n : SlotNum) : s.accepted.slot n = s.slot n := rfl

@[simp] theorem State.accepted_entry (s : State) (i : EntryIx) : s.accepted.entry i = s.entry i := rfl

@[simp] theorem State.accepted_producer (s : State) (i : EntryIx) : s.accepted.producer i = s.producer i := rfl

@[simp] theorem State.accepted_consumer (s : State) (i : EntryIx) : s.accepted.consumer i = s.consumer i := rfl

@[simp] theorem State.accepted_streamOf (s : State) (i : EntryIx) : s.accepted.streamOf i = s.streamOf i := rfl

@[simp] theorem State.accepted_findStream (s : State) (id : StreamId) : s.accepted.findStream id = s.findStream id := rfl

@[simp] theorem State.accepted_claimants (s : State) (id : StreamId) : s.accepted.claimants id = s.claimants id := rfl

@[simp] theorem State.accepted_peer (s : State) (n : Station) : s.accepted.peer n = s.peer n := rfl

@[simp] theorem State.accepted_queuedOf (s : State) (i : EntryIx) : s.accepted.queuedOf i = s.queuedOf i := rfl

end Sys2Proof.Machine
end

