-- ==== Sys2Proof/Laws/Settle.lean ====
section
/-! SUPPORT. What the end of an event does: with no marker to take effect, at no boundary, outside LEAVING it does nothing; and
what doing something for each entry comes to when all entries, or all but one, are left alone. -/

namespace Sys2Proof.Machine

/-! ### For each entry -/

theorem State.forEntries_fixed {s : State} {f : EntryIx → State → State} (h : ∀ i, f i s = s) : s.forEntries f = s := by
  unfold State.forEntries
  generalize allEntries = l
  induction l with
  | nil => rfl
  | cons i l ih => rw [List.foldl_cons, h i, ih]

/-- When every entry but `i` is left alone, before and after, only entry `i` counts. -/
theorem State.forEntries_only {s : State} {f : EntryIx → State → State} (i : EntryIx) (h : ∀ j, j ≠ i → f j s = s)
    (h2 : ∀ j, j ≠ i → f j (f i s) = f i s) : s.forEntries f = f i s := by
  have hm : i ∈ allEntries := List.mem_finRange i
  have hn : allEntries.Nodup := List.nodup_finRange 16
  unfold State.forEntries
  revert hm hn
  have fixed : ∀ (l : List EntryIx), i ∉ l → l.foldl (fun t j => f j t) (f i s) = f i s := by
    intro l
    induction l with
    | nil => intro _; rfl
    | cons j l ih =>
      intro hj
      rw [List.mem_cons, not_or] at hj
      rw [List.foldl_cons, h2 j (fun e => hj.1 e.symm), ih hj.2]
  generalize allEntries = l
  induction l with
  | nil => intro hm; cases hm
  | cons j l ih =>
    intro hm hn
    rw [List.nodup_cons] at hn
    rw [List.foldl_cons]
    by_cases e : j = i
    · subst e
      exact fixed l hn.1
    · rw [h j e]
      exact ih ((List.mem_cons.mp hm).resolve_left (fun k => e k.symm)) hn.2

/-! ### Markers (R42) -/

theorem State.leadingMarkers_nil {s : State} {i : EntryIx}
    (h : ∀ d ∈ s.publish.queue, d.entry = i → d.isPause = false) : s.leadingMarkers i = [] := by
  unfold State.leadingMarkers
  rw [List.takeWhile_eq_nil_iff]
  intro hl hp
  have hm := List.getElem_mem hl
  rw [List.mem_filter] at hm
  have k := h _ hm.1 (by simpa using hm.2)
  exact absurd (k.symm.trans hp) (by decide)

theorem State.applyMarkers_nil {s : State} {i : EntryIx} (h : s.leadingMarkers i = []) : State.applyMarkers i s = s := by
  unfold State.applyMarkers
  split
  · split
    · rw [h]
      rfl
    · rfl
  · rfl

/-- With no marker queued no marker takes effect. -/
theorem State.forEntries_applyMarkers {s : State} (h : ∀ d ∈ s.publish.queue, d.isPause = false) :
    s.forEntries State.applyMarkers = s :=
  State.forEntries_fixed fun _ => State.applyMarkers_nil (State.leadingMarkers_nil fun d hd _ => h d hd)

/-! ### Boundary and LEAVING work (R47, R123) -/

theorem State.boundary_quiet {s : State} (h : s.transmits = false ∨ s.seg.offered ≠ none) : s.boundary = s := by
  unfold State.boundary
  rw [if_neg]
  rintro ⟨h1, h2⟩
  rcases h with h | h
  · rw [h] at h1
    cases h1
  · exact h h2

theorem State.testLeaving_other {s : State} (h : s.presence.state ≠ .leaving) : s.testLeaving = s := by
  unfold State.testLeaving
  rw [if_neg]
  rintro ⟨h1, _⟩
  exact h h1

/-- A page in flight, a withdrawn close or a pass is LEAVING work: the test of its end does nothing (R123). -/
theorem State.testLeaving_working {s : State} (h : s.seg.flight ≠ none ∨ s.seg.withdrawn ≠ none ∨ s.seg.pass ≠ none) :
    s.testLeaving = s := by
  have hd : s.leavingDone = false := by
    rcases h with h | h | h <;> simp [State.leavingDone, Option.isNone_iff_eq_none, h]
  simp [State.testLeaving, hd]

/-- A station that is not ACTIVE selects no page (R44). -/
theorem State.select_other {s : State} (h : s.presence.state ≠ .active) : s.select = s := by
  have hn : s.selectable = none := by
    refine List.find?_eq_none.2 fun d _ => ?_
    unfold State.eligible
    split <;> simp [h]
  simp [State.select, hn]

/-- With no marker queued, at no boundary and outside LEAVING the end of an event does nothing. -/
theorem State.settle_quiet {s : State} (hm : ∀ d ∈ s.publish.queue, d.isPause = false)
    (hb : s.transmits = false ∨ s.seg.offered ≠ none) (hl : s.presence.state ≠ .leaving) : s.settle = s := by
  unfold State.settle
  rw [State.forEntries_applyMarkers hm, State.boundary_quiet hb, State.testLeaving_other hl]

theorem State.lowestStream_none {α : Type} {s : State} {f : EntryIx → Option α} (h : ∀ i, f i = none) :
    s.lowestStream f = none := by
  unfold State.lowestStream
  generalize allEntries = l
  induction l with
  | nil => rfl
  | cons i l ih =>
    simp only [List.foldl_cons, h i]
    exact ih

end Sys2Proof.Machine
end

