-- ==== Sys2Proof/Laws/Entries.lean ====
section
/-! SUPPORT. What the operations on entries and slots leave of another entry and of a slot; what doing something for each entry
comes to at one entry; several events inserted at once; the next number of a repair pass; the limit of two GAPs; what a
discarded pass leaves; slots freed in one event; a lost page; and markers one behind another. -/

namespace Sys2Proof.Machine

/-! ### For each entry -/

/-- What holds of entry `i`'s surroundings when its turn comes (`Q`), kept by every other turn before it, and what its turn
makes of it (`R`), kept by every other turn after it, holds at the end. -/
theorem State.forEntries_at {s : State} {f : EntryIx → State → State} (i : EntryIx) {Q R : State → Prop} (start : Q s)
    (before : ∀ j t, j ≠ i → Q t → Q (f j t)) (turn : ∀ t, Q t → R (f i t)) (after : ∀ j t, j ≠ i → R t → R (f j t)) :
    R (s.forEntries f) := by
  obtain ⟨a, b, hab⟩ := List.append_of_mem (List.mem_finRange i)
  have hnd : (a ++ i :: b).Nodup := hab ▸ List.nodup_finRange 16
  have ha : ∀ j ∈ a, j ≠ i := fun j hj h =>
    (List.nodup_append.1 hnd).2.2 _ hj _ List.mem_cons_self h
  have hb : ∀ j ∈ b, j ≠ i := fun j hj h => (List.nodup_cons.1 (List.nodup_append.1 hnd).2.1).1 (h ▸ hj)
  have kept : ∀ (P : State → Prop) (l : List EntryIx), (∀ j ∈ l, j ≠ i) → (∀ j t, j ≠ i → P t → P (f j t)) →
      ∀ t, P t → P (l.foldl (fun t j => f j t) t) := by
    intro P l
    induction l with
    | nil => exact fun _ _ _ ht => ht
    | cons x l ih =>
      intro hl hP t ht
      exact ih (fun j hj => hl j (List.mem_cons_of_mem _ hj)) hP _ (hP _ _ (hl _ List.mem_cons_self) ht)
  unfold State.forEntries allEntries
  rw [hab, List.foldl_append, List.foldl_cons]
  exact kept R b hb after _ (turn _ (kept Q a ha before _ start))

/-! ### Another entry, and a slot -/

theorem State.sourceRemoved_entry (s : State) (p : FrameSource → Bool) (i : EntryIx) : (s.sourceRemoved p).entry i = s.entry i := by
  unfold State.sourceRemoved
  split <;> try rfl
  split <;> try rfl
  split <;> rfl

theorem State.sourceRemoved_slot (s : State) (p : FrameSource → Bool) (m : SlotNum) : (s.sourceRemoved p).slot m = s.slot m := by
  unfold State.sourceRemoved
  split <;> try rfl
  split <;> try rfl
  split <;> rfl

theorem State.emptyPending_entry (s : State) (i : EntryIx) : (s.emptyPending i).entry i = (s.entry i).map Entry.withoutPending := by
  unfold State.emptyPending
  rw [State.sourceRemoved_entry, State.entry_setEntry]

theorem State.emptyPending_entry_other (s : State) {i j : EntryIx} (h : i ≠ j) : (s.emptyPending i).entry j = s.entry j := by
  unfold State.emptyPending
  rw [State.sourceRemoved_entry, State.entry_setEntry_other _ h]

theorem State.emptyPending_slot (s : State) (i : EntryIx) (m : SlotNum) : (s.emptyPending i).slot m = s.slot m := by
  unfold State.emptyPending
  rw [State.sourceRemoved_slot]
  rfl

theorem State.modProducer_entry_other (s : State) {i j : EntryIx} (h : i ≠ j) (f : Producer → Producer) :
    (s.modProducer i f).entry j = s.entry j := by
  unfold State.modProducer
  split
  · exact State.entry_setEntry_other _ h _
  · rfl

theorem State.modConsumer_entry_other (s : State) {i j : EntryIx} (h : i ≠ j) (f : Consumer → Consumer) :
    (s.modConsumer i f).entry j = s.entry j := by
  unfold State.modConsumer
  split
  · exact State.entry_setEntry_other _ h _
  · rfl

theorem State.modProducer_slot (s : State) (i : EntryIx) (f : Producer → Producer) (m : SlotNum) :
    (s.modProducer i f).slot m = s.slot m := by
  unfold State.modProducer
  split <;> rfl

theorem State.modConsumer_slot (s : State) (i : EntryIx) (f : Consumer → Consumer) (m : SlotNum) :
    (s.modConsumer i f).slot m = s.slot m := by
  unfold State.modConsumer
  split <;> rfl

theorem State.freeSlot_slot (s : State) (n m : SlotNum) : (s.freeSlot n).slot m = if n = m then .free else s.slot m := by
  unfold State.freeSlot State.slot SlotManager.giveBack
  dsimp only
  split
  · rename_i h
    split
    · rename_i k
      rw [← k, h]
    · rfl
  · rw [vput_get]

theorem State.changeSlot_slot (s : State) (n m : SlotNum) {r : Slot} (hr : r ≠ .free) :
    (s.changeSlot n r).slot m = if n = m ∧ s.slot m ≠ .free then r else s.slot m := by
  by_cases h : s.slots.records[n] = .free
  · have k : s.changeSlot n r = s := by simp [State.changeSlot, SlotManager.change, h]
    rw [k, if_neg]
    rintro ⟨rfl, hn⟩
    exact hn h
  · have k : (s.changeSlot n r).slot m = if n = m then r else s.slot m := by
      simp only [State.changeSlot, SlotManager.change, State.slot, h, hr, or_self, if_false, vput_get]
    rw [k]
    by_cases e : n = m
    · subst e
      rw [if_pos rfl, if_pos ⟨rfl, h⟩]
    · rw [if_neg e, if_neg fun x => e x.1]

/-! ### Several events -/

/-- Insertions change the waiting events and the station counters; nothing else. -/
theorem State.insertEvents_eq (s : State) (l : List Event) : ∃ q c, s.insertEvents l =
    { s with events := q, link := { s.link with counters := c } } := by
  induction l generalizing s with
  | nil => exact ⟨s.events, s.link.counters, rfl⟩
  | cons e l ih =>
    obtain ⟨q, c, h⟩ := ih (s.insertEvent e)
    refine ⟨q, c, ?_⟩
    rw [show s.insertEvents (e :: l) = (s.insertEvent e).insertEvents l from rfl, h, State.insertEvent_eq]

/-! ### Repair passes -/

/-- Once its REPAIR CLOSE has been offered a pass sends no further number (R92, R94). -/
theorem Pass.nextNumber_closing {ps : Pass} (h : ps.closing = true) (set : SegSet) : ps.nextNumber set = none := by
  simp [Pass.nextNumber, h]

/-- Before, it sends the lowest number above its position (R92). -/
theorem Pass.nextNumber_open {ps : Pass} (h : ps.closing = false) (set : SegSet) :
    ps.nextNumber set = nextRepair set ps.position := by
  simp [Pass.nextNumber, h]

/-! ### The limit of two GAPs and the discarded pass -/

/-- An entry asks once more exactly when the GAP count of its FILLING slot is 0 before the report (R83). -/
theorem State.asksAgain_filling {s : State} {i : EntryIx} {c : Consumer} {n : SlotNum} {o : EntryIx} {page : PageNum}
    {len : Option Nat} {rcv : SegSet} {g : Nat} (hc : s.consumer i = some c) (hn : c.filling = some n)
    (hs : s.slot n = .filling o page len rcv g) : s.asksAgain i = decide (g = 0) := by
  have h1 : (g + 1 < Config.repairMax) = (g = 0) := propext ⟨fun h => by unfold Config.repairMax at h; omega, fun h => by
    rw [h]
    decide⟩
  simp only [State.asksAgain, hc, hn, hs, Option.bind_some, Slot.gaps?, Option.any_some, h1]

/-- A discarded pass changes the repair tag of its own entry at most. -/
theorem State.discardPass_entry_other {s : State} {i : EntryIx} (h : ∀ ps, s.seg.pass = some ps → ps.entry ≠ i) :
    s.discardPass.entry i = s.entry i := by
  unfold State.discardPass
  split
  · rename_i ps hps
    exact State.modProducer_entry_other s (h ps hps) _
  · rfl

/-- What a discarded pass makes of its own producer entry (R22, R94). -/
theorem State.discardPass_entry {s : State} {ps : Pass} {p : Producer} (h : s.seg.pass = some ps)
    (hp : s.entry ps.entry = some (.producer p)) : s.discardPass.entry ps.entry = some (.producer (p.withoutPass ps.page)) := by
  unfold State.discardPass
  rw [h]
  dsimp only
  rw [State.modProducer_of hp]
  exact State.entry_of_streams rfl

/-- A discarded pass changes no slot record. -/
theorem State.discardPass_slot (s : State) (m : SlotNum) : s.discardPass.slot m = s.slot m := by
  unfold State.discardPass
  split
  · exact State.modProducer_slot s _ _ m
  · rfl

/-! ### Slots freed in one event -/

theorem insertAscending_sorted (n : SlotNum) : ∀ {l : List SlotNum}, l.Pairwise (· ≤ ·) → (insertAscending n l).Pairwise (· ≤ ·)
  | [], _ => by simp [insertAscending]
  | d :: l, h => by
    unfold insertAscending
    split
    · rename_i hd
      refine List.Pairwise.cons (fun x hx => ?_) h
      rcases List.mem_cons.1 hx with rfl | hx
      · exact hd
      · exact le_trans hd (List.rel_of_pairwise_cons h hx)
    · rename_i hd
      refine List.Pairwise.cons (fun x hx => ?_) (insertAscending_sorted n h.of_cons)
      rcases List.mem_cons.1 ((insertAscending_perm n l).mem_iff.1 hx) with rfl | hx
      · exact le_of_lt (not_le.1 hd)
      · exact List.rel_of_pairwise_cons h hx

theorem ascending_sorted : ∀ l : List SlotNum, (ascending l).Pairwise (· ≤ ·)
  | [] => List.Pairwise.nil
  | n :: l => insertAscending_sorted n (ascending_sorted l)

/-- What joining in ascending order comes to: the slots the event freed stand sorted behind the old free list (R3). -/
theorem State.joinAscending_append {s t : State} {freed : List SlotNum} (h : t.slots.free = s.slots.free ++ freed) :
    s.joinAscending t = { t with slots := { t.slots with free := s.slots.free ++ ascending freed } } := by
  unfold State.joinAscending SlotManager.sortBehind
  rw [h, List.take_left, List.drop_left]

/-! ### A lost page, and the pages an entry keeps -/

/-- Everything the loss of a page does, while the holding frame holds no frame of the entry (R76). -/
theorem State.pageLost_of {s : State} {i : EntryIx} {c : Consumer} (he : s.entry i = some (.consumer c)) (hn : s.holdsNone i)
    (page : PageNum) (slot : Option SlotNum) (r : LossReason) :
    s.pageLost i page slot r = ({ s with streams := vput s.streams i (some (.consumer { c with
      timer := none
      counters := c.counters.addLost
      gap := c.gap.filter fun e => e.1 != page
      free := if c.mode = .lockStep ∧ c.state = .receiving ∧ r.setsFree then some (page, true) else c.free })) } :
        State).insertEvent (.pageLost c.stream page slot r) := by
  have free : ∀ (d : Consumer) (q : EventQueue) (l : LinkController), l.holding = s.link.holding →
      State.setFree { s with events := q, link := l, streams := vput s.streams i (some (.consumer d)) } i page true =
        { s with events := q, link := l, streams := vput s.streams i (some (.consumer { d with free := some (page, true) })) } :=
    fun d q l hl => by
      rw [State.setFree_of (c := d) (State.entry_of_streams rfl) fun x hx => hn x (by rw [← hl]; exact hx)]
      simp only [vput_vput]
  have gap : ∀ (d : Consumer) (q : EventQueue) (l : LinkController), l.holding = s.link.holding →
      State.clearGap { s with events := q, link := l, streams := vput s.streams i (some (.consumer d)) } i =
        { s with events := q, link := l, streams := vput s.streams i (some (.consumer { d with gap := none })) } :=
    fun d q l hl => by
      rw [State.clearGap_of (c := d) (State.entry_of_streams rfl) fun x hx => hn x (by rw [← hl]; exact hx)]
      simp only [vput_vput]
  have left : ∀ (q : PageNum) (x : SegSet),
      (some (q, x)).filter (fun e => e.1 != page) = if q = page then none else some (q, x) := fun q x => by
    by_cases h : q = page <;> simp [h]
  unfold State.pageLost
  rw [State.consumer_of he]
  dsimp only
  rw [State.insertEvent_eq, State.insertEvent_eq, State.modConsumer_of (c := c) (by exact he)]
  by_cases hc : c.mode = .lockStep ∧ c.state = .receiving ∧ r.setsFree = true
  · rw [if_pos hc]
    cases c.gap with
    | none =>
      dsimp only
      rw [free _ _ _ (by rfl)]
      simp only [if_pos hc, Option.filter_none]
    | some g =>
      dsimp only
      by_cases hq : g.1 = page
      · rw [if_pos hq, gap _ _ _ (by rfl), free _ _ _ (by rfl)]
        simp only [if_pos hc, left, hq, if_true]
      · rw [if_neg hq, free _ _ _ (by rfl)]
        simp only [if_pos hc, left, hq, if_false]
  · rw [if_neg hc]
    cases c.gap with
    | none => simp only [if_neg hc, Option.filter_none]
    | some g =>
      dsimp only
      by_cases hq : g.1 = page
      · rw [if_pos hq, gap _ _ _ (by rfl)]
        simp only [if_neg hc, left, hq, if_true]
      · rw [if_neg hq]
        simp only [if_neg hc, left, hq, if_false]

/-- A PROMPT finds the page READY or HELD when a slot holds it and its number is of the present producer (R112, R30). -/
theorem State.hasPage_iff (s : State) (c : Consumer) (page : PageNum) : s.hasPage c page = true ↔
    (c.earlier.ready = false ∧ ∃ n, c.ready = some n ∧ (s.slot n).page? = some page) ∨
      (c.earlier.held = false ∧ ∃ n, c.held = some n ∧ (s.slot n).page? = some page) := by
  unfold State.hasPage
  simp [Option.bind_eq_some_iff, and_comm]

/-- A PROMPT finds the page released when the last released number is its own and of the present producer (R112, R30). -/
theorem Consumer.hasReleased_iff (c : Consumer) (page : PageNum) : c.hasReleased page = true ↔
    c.lastReleased = some page ∧ c.earlier.released = false := by
  simp [Consumer.hasReleased]

/-! ### Pause markers one behind another -/

/-- The oldest marker takes effect, and then those behind it (R42). -/
theorem State.applyMarkers_marker {s : State} {i : EntryIx} {p : Producer} {d : Descriptor} {rest : List Descriptor}
    (he : s.entry i = some (.producer p)) (ho : p.state = .opened ∧ p.phase = some .idle)
    (hq : (s.publish.queue.filter fun e => e.entry == i) = d :: rest) (hd : d.isPause = true) :
    State.applyMarkers i s = State.applyMarkers i (State.markerEffect i s d) := by
  have hu : (State.markerEffect i s d).publish.queue = s.publish.queue.erase d ∧
      (State.markerEffect i s d).entry i = some (.producer { p with paused := true }) := by
    unfold State.markerEffect
    rw [State.modProducer_of (p := p) (by exact he), State.insertEvent_eq]
    exact ⟨rfl, State.entry_of_streams rfl⟩
  have hl : s.leadingMarkers i = d :: (State.markerEffect i s d).leadingMarkers i := by
    unfold State.leadingMarkers
    rw [hu.1, ← List.erase_filter, hq, List.takeWhile_cons, if_pos hd, List.erase_cons_head]
  unfold State.applyMarkers
  rw [State.producer_of he, State.producer_of hu.2]
  dsimp only
  rw [if_pos ho, if_pos ho, hl, List.foldl_cons]

end Sys2Proof.Machine
end

