-- ==== Sys2Proof/Laws/Frames.lean ====
section
/-! SUPPORT. The fields of a frame read back from its bytes (chapter 11.1): one lemma for each way a field is laid out; and the
bytes read back from their levels on the line (R134). -/

namespace Sys2Proof.Machine

/-- The low part of an appended pair. -/
theorem extract_low {m n : Nat} (a : BitVec m) (b : BitVec n) : (a ++ b).extractLsb' 0 n = b := by
  refine BitVec.eq_of_getLsbD_eq fun j hj => ?_
  simp only [BitVec.getLsbD_extractLsb', BitVec.getLsbD_append, hj, decide_true, Bool.true_and, Nat.zero_add, if_true]

/-- The high part of an appended pair. -/
theorem extract_high {m n : Nat} (a : BitVec m) (b : BitVec n) : (a ++ b).extractLsb' n m = a := by
  refine BitVec.eq_of_getLsbD_eq fun j hj => ?_
  simp only [BitVec.getLsbD_extractLsb', BitVec.getLsbD_append, hj, decide_true, Bool.true_and]
  rw [if_neg (by omega), Nat.add_sub_cancel_left]

/-- The bytes of a 16-bit field give it back. -/
theorem halfOf_bytes (h : Half) : halfOf (h.extractLsb' 8 8) (h.extractLsb' 0 8) = h := by
  refine BitVec.eq_of_getLsbD_eq fun j hj => ?_
  rw [halfOf, BitVec.getLsbD_append, BitVec.getLsbD_extractLsb', BitVec.getLsbD_extractLsb']
  by_cases h8 : j < 8
  · simp only [h8, decide_true, if_true, Bool.true_and, Nat.zero_add]
  · simp only [h8, if_false, show j - 8 < 8 by omega, decide_true, Bool.true_and, show 8 + (j - 8) = j by omega]

/-- The bytes of a 32-bit field give it back. -/
theorem word_bytes (w : Word) :
    (w.extractLsb' 24 8 ++ w.extractLsb' 16 8 ++ w.extractLsb' 8 8 ++ w.extractLsb' 0 8 : BitVec 32) = w := by
  refine BitVec.eq_of_getLsbD_eq fun j hj => ?_
  simp only [BitVec.getLsbD_append, BitVec.getLsbD_extractLsb']
  by_cases h1 : j < 8
  · simp only [h1, decide_true, if_true, Bool.true_and, Nat.zero_add]
  · by_cases h2 : j - 8 < 8
    · simp only [h1, h2, if_false, if_true, decide_true, Bool.true_and, show 8 + (j - 8) = j by omega]
    · by_cases h3 : j - 8 - 8 < 8
      · simp only [h1, h2, h3, if_false, if_true, decide_true, Bool.true_and, show 16 + (j - 8 - 8) = j by omega]
      · simp only [h1, h2, h3, if_false, show j - 8 - 8 - 8 < 8 by omega, decide_true, Bool.true_and,
          show 24 + (j - 8 - 8 - 8) = j by omega]

/-- Byte 0 and byte 1 give back the key, the kind and the low bits (R134). -/
theorem rawFrom_head (r : RawFrame) (body : List Byte) :
    rawFrom (r.key ++ r.kind.extractLsb' 1 1) (r.kind.extractLsb' 0 1 ++ r.low) body = { r with body := body } := by
  have h1 : (r.key ++ r.kind.extractLsb' 1 1).extractLsb' 6 2 = r.cls := by
    refine BitVec.eq_of_getLsbD_eq fun j hj => ?_
    simp only [RawFrame.key, BitVec.getLsbD_extractLsb', BitVec.getLsbD_append, hj, decide_true, Bool.true_and]
    rw [if_neg (by omega), if_neg (by omega)]
    congr 1
    omega
  have h2 : (r.key ++ r.kind.extractLsb' 1 1).extractLsb' 1 5 = stationBits r.src := by
    refine BitVec.eq_of_getLsbD_eq fun j hj => ?_
    simp only [RawFrame.key, BitVec.getLsbD_extractLsb', BitVec.getLsbD_append, hj, decide_true, Bool.true_and]
    rw [if_neg (by omega), if_pos (by omega)]
    congr 1
    omega
  have h3 : ∀ k : BitVec 2, k.extractLsb' 1 1 ++ k.extractLsb' 0 1 = k := by decide
  simp only [rawFrom, h1, h2, extract_low, extract_high, h3]
  simp [stationBits]

/-- The claims of a ROLL from their bytes. -/
theorem claimsOf_bytes (l : List RawClaim) : claimsOf (l.flatMap claimBytes) = l := by
  induction l with
  | nil => rfl
  | cons c l ih =>
    have h6 : ∀ (a b : BitVec 1) (id : StreamId), (a ++ b ++ id).getLsbD 6 = b.getLsbD 0 := by
      intro a b id
      simp only [BitVec.getLsbD_append]
      rfl
    have h7 : ∀ (a b : BitVec 1) (id : StreamId), (a ++ b ++ id).msb = a.msb := by
      intro a b id
      have e : a.msb = a.getLsbD 0 := by rw [BitVec.msb_eq_getLsbD_last]
      rw [e, BitVec.msb_eq_getLsbD_last]
      simp only [BitVec.getLsbD_append]
      rfl
    have hb : ∀ b : Bool, (bit b).getLsbD 0 = b ∧ (bit b).msb = b := by decide
    simp only [List.flatMap_cons, claimBytes, halfBytes, List.cons_append, List.nil_append, claimsOf, ih, halfOf_bytes]
    rw [extract_low, h6, h7, (hb _).1, (hb _).2]

/-- The ten levels of a byte, one by one. -/
theorem byteLevels_eq (b : Byte) : byteLevels b = [.dominant, .ofBit (b.getMsbD 0), .ofBit (b.getMsbD 1), .ofBit (b.getMsbD 2),
    .ofBit (b.getMsbD 3), .ofBit (b.getMsbD 4), .ofBit (b.getMsbD 5), .ofBit (b.getMsbD 6), .ofBit (b.getMsbD 7),
    .recessive] := rfl

@[simp] theorem byteLevels_length (b : Byte) : (byteLevels b).length = 10 := rfl

@[simp] theorem levelsOf_nil : levelsOf [] = [] := rfl

@[simp] theorem levelsOf_cons (b : Byte) (l : List Byte) : levelsOf (b :: l) = byteLevels b ++ levelsOf l := rfl

/-- Each byte takes ten bit times (R134). -/
@[simp] theorem levelsOf_length (l : List Byte) : (levelsOf l).length = 10 * l.length := by
  induction l with
  | nil => rfl
  | cons b l ih => rw [levelsOf_cons, List.length_append, byteLevels_length, ih, List.length_cons]; omega

/-- The levels of byte `k` stand ten bit times from those of the byte before it. -/
theorem levelsOf_at (l : List Byte) (k j : Nat) (hj : j < 10) :
    (levelsOf l)[10 * k + j]? = l[k]?.bind fun b => (byteLevels b)[j]? := by
  induction l generalizing k with
  | nil => simp
  | cons b l ih =>
    cases k with
    | zero => simp [List.getElem?_append, hj]
    | succ k =>
      have h10 : ¬ 10 * (k + 1) + j < 10 := by omega
      simp only [levelsOf_cons, List.getElem?_append, byteLevels_length, h10, if_false, List.getElem?_cons_succ]
      rw [show 10 * (k + 1) + j - 10 = 10 * k + j by omega, ih]

/-- The levels of bytes, with the recessive line after them, give the bytes back. -/
theorem bytesOfLevels_levelsOf (l : List Byte) : bytesOfLevels (levelsOf l ++ interframeSpace) = some l := by
  induction l with
  | nil => rfl
  | cons b l ih =>
    have hb : ∀ c : Byte, ((Level.ofBit (c.getMsbD 0)).toBit ++ (Level.ofBit (c.getMsbD 1)).toBit ++
        (Level.ofBit (c.getMsbD 2)).toBit ++ (Level.ofBit (c.getMsbD 3)).toBit ++ (Level.ofBit (c.getMsbD 4)).toBit ++
        (Level.ofBit (c.getMsbD 5)).toBit ++ (Level.ofBit (c.getMsbD 6)).toBit ++ (Level.ofBit (c.getMsbD 7)).toBit : Byte) = c :=
      by decide +kernel
    rw [levelsOf_cons, byteLevels_eq]
    simp only [List.cons_append, List.nil_append, bytesOfLevels, ih, Option.map_some, hb]

end Sys2Proof.Machine
end

