-- ==== Sys2Proof/Laws/PerInstr.lean ====
section
/-! SUPPORT. For every event as syntax: a receiver finds the end of the frame that the event is the arrival of (R172). -/

namespace Sys2Proof.Laws.FrameEnd

open Sys2Proof.Machine

/-- A receiver that has read the head of a well-formed frame and the bytes behind it finds where the body ends, whatever
follows it (R172). -/
def Statement (i : Instr) : Prop :=
  ∀ (r : RawFrame) (tail : List Byte), rawOf i = some r → i.wellFormed = true →
    bodyLength r.cls r.kind r.low (r.body ++ tail) = some r.body.length

/-- An event that is not the arrival of a frame. -/
theorem of_none {i : Instr} (h : rawOf i = none) : Statement i := by
  intro r tail k
  rw [h] at k
  cases k

theorem configure (tag : Byte) (r : Byte) (f : BitVec 10) (m : BitVec 4) (w : BitVec 3) (count : BitVec 4) (decls : Vector RawDecl 8) :
    Statement (.configure tag r f m w count decls) := of_none rfl

theorem start (tag : Byte) : Statement (.start tag) := of_none rfl

theorem leave (tag : Byte) : Statement (.leave tag) := of_none rfl

theorem rejoin (tag : Byte) : Statement (.rejoin tag) := of_none rfl

theorem restart (tag : Byte) : Statement (.restart tag) := of_none rfl

theorem claim (tag : Byte) : Statement (.claim tag) := of_none rfl

theorem discard (tag : Byte) (slot : Byte) : Statement (.discard tag slot) := of_none rfl

theorem publish (tag : Byte) (stream : Byte) (slot : Byte) (report : Bool) (note : Bool) (length : Half) (target : Byte) (code : Byte) :
    Statement (.publish tag stream slot report note length target code) := of_none rfl

theorem publishPause (tag : Byte) (stream : Byte) : Statement (.publishPause tag stream) := of_none rfl

theorem resume (tag : Byte) (stream : Byte) : Statement (.resume tag stream) := of_none rfl

theorem cancel (tag : Byte) (stream : Byte) : Statement (.cancel tag stream) := of_none rfl

theorem subscribe (tag : Byte) (stream : Byte) (mode : Byte) : Statement (.subscribe tag stream mode) := of_none rfl

theorem unsubscribe (tag : Byte) (stream : Byte) : Statement (.unsubscribe tag stream) := of_none rfl

theorem acquire (tag : Byte) (stream : Byte) (selector : Byte) :
    Statement (.acquire tag stream selector) := of_none rfl

theorem release (tag : Byte) (stream : Byte) : Statement (.release tag stream) := of_none rfl

theorem sendNote (tag : Byte) (target : Byte) (code : Word) : Statement (.sendNote tag target code) := of_none rfl

theorem clearNotice (tag : Byte) (sources : Word) : Statement (.clearNotice tag sources) := of_none rfl

theorem readStatus (tag : Byte) (selector : Byte) (index : Byte) (part : Byte) :
    Statement (.readStatus tag selector index part) := of_none rfl

theorem unknownCommand (tag : Byte) (kind : Byte) : Statement (.unknownCommand tag kind) := of_none rfl

theorem submit (enables : BitVec 4) (data : Word) : Statement (.submit enables data) := of_none rfl

theorem respNext (enables : BitVec 4) (data : Word) : Statement (.respNext enables data) := of_none rfl

theorem evtNext (enables : BitVec 4) (data : Word) : Statement (.evtNext enables data) := of_none rfl

theorem windowWrite (enables : BitVec 4) (data : Word) : Statement (.windowWrite enables data) := of_none rfl

theorem pageWindowRead (offset : BitVec 12) : Statement (.pageWindowRead offset) := of_none rfl

theorem pageWindowWrite (offset : BitVec 12) (enables : BitVec 4) (data : Word) :
    Statement (.pageWindowWrite offset enables data) := of_none rfl

theorem registerWrite (access : BusAccess) : Statement (.registerWrite access) := of_none rfl

theorem pinReset : Statement .pinReset := of_none rfl

theorem pinResetRelease (station : Station) (rate : BitVec 2) :
    Statement (.pinResetRelease station rate) := of_none rfl

theorem pageMemoryClearingEnd : Statement .pageMemoryClearingEnd := of_none rfl

theorem opportunity : Statement .opportunity := of_none rfl

theorem arbitrationLost : Statement .arbitrationLost := of_none rfl

theorem attemptSent : Statement .attemptSent := of_none rfl

theorem attemptFailed : Statement .attemptFailed := of_none rfl

theorem muted : Statement .muted := of_none rfl

theorem frameDiscarded (cause : DiscardCause) : Statement (.frameDiscarded cause) := of_none rfl

theorem segFrame (src : Station) (zeros : BitVec 1) (stream : StreamId) (page : PageNum) (segment : Byte) (segCount : Byte) (pageLength : Half) (payload : List Byte) :
    Statement (.segFrame src zeros stream page segment segCount pageLength payload) := by
  intro r tail h hw
  cases h
  have e : payload.length = payloadBytes pageLength segment := by simpa [Instr.wellFormed] using hw
  have eh : halfOf (pageLength.extractLsb' 8 8) (pageLength.extractLsb' 0 8) = pageLength := by
    refine BitVec.eq_of_getLsbD_eq fun j hj => ?_
    rw [halfOf, BitVec.getLsbD_append, BitVec.getLsbD_extractLsb', BitVec.getLsbD_extractLsb']
    by_cases h8 : j < 8
    · simp only [h8, decide_true, if_true, Bool.true_and, Nat.zero_add]
    · simp only [h8, if_false, show j - 8 < 8 by omega, decide_true, Bool.true_and, show 8 + (j - 8) = j by omega]
  simp [bodyLength, halfBytes, eh, e]
  omega

theorem closeFrame (src : Station) (zeros : BitVec 1) (stream : StreamId) (page : PageNum) (length : Half) (kind : Byte) (check : Word) :
    Statement (.closeFrame src zeros stream page length kind check) := by
  intro r tail h _
  cases h
  rfl

theorem admitFrame (src : Station) (zeros : BitVec 1) (stream : StreamId) (target : Byte) (result : Byte) (first : PageNum) :
    Statement (.admitFrame src zeros stream target result first) := by
  intro r tail h _
  cases h
  rfl

theorem cutFrame (src : Station) (zeros : BitVec 1) (stream : StreamId) (target : Byte) (reason : Byte) :
    Statement (.cutFrame src zeros stream target reason) := by
  intro r tail h _
  cases h
  rfl

theorem promptFrame (src : Station) (zeros : BitVec 1) (stream : StreamId) (page : PageNum) (stations : List Byte) :
    Statement (.promptFrame src zeros stream page stations) := by
  intro r tail h hw
  cases h
  have e : stations.length < 256 := by simpa [Instr.wellFormed] using hw
  simp [bodyLength, halfBytes, Nat.mod_eq_of_lt e]
  omega

theorem goneFrame (src : Station) (zeros : BitVec 1) (stream : StreamId) (page : PageNum) :
    Statement (.goneFrame src zeros stream page) := by
  intro r tail h _
  cases h
  rfl

theorem takeFrame (src : Station) (zeros : BitVec 1) (stream : StreamId) (station : Byte) :
    Statement (.takeFrame src zeros stream station) := by
  intro r tail h _
  cases h
  rfl

theorem dropFrame (src : Station) (zeros : BitVec 1) (stream : StreamId) (station : Byte) :
    Statement (.dropFrame src zeros stream station) := by
  intro r tail h _
  cases h
  rfl

theorem freeFrame (src : Station) (lost : Bool) (stream : StreamId) (station : Byte) (page : PageNum) :
    Statement (.freeFrame src lost stream station page) := by
  intro r tail h _
  cases h
  rfl

theorem gapFrame (src : Station) (zeros : BitVec 1) (stream : StreamId) (station : Byte) (page : PageNum) (segments : List Byte) :
    Statement (.gapFrame src zeros stream station page segments) := by
  intro r tail h hw
  cases h
  have e : segments.length < 256 := by simpa [Instr.wellFormed] using hw
  simp [bodyLength, halfBytes, Nat.mod_eq_of_lt e]
  omega

theorem rollFrame (src : Station) (leaving : Bool) (zeros : BitVec 2) (rollCount : Byte) (claims : List RawClaim) :
    Statement (.rollFrame src leaving zeros rollCount claims) := by
  intro r tail h hw
  cases h
  have e : claims.length < 16 := by simpa [Instr.wellFormed] using hw
  have ec : ∀ l : List RawClaim, (l.flatMap claimBytes).length = 3 * l.length := by
    intro l
    induction l with
    | nil => rfl
    | cons c l ih => simp [claimBytes, halfBytes, ih]; omega
  have eb : ((bit leaving ++ zeros ++ BitVec.ofNat 4 claims.length).extractLsb' 0 4).toNat = claims.length := by
    have : (bit leaving ++ zeros ++ BitVec.ofNat 4 claims.length).extractLsb' 0 4 = BitVec.ofNat 4 claims.length := by
      refine BitVec.eq_of_getLsbD_eq fun j hj => ?_
      rw [BitVec.getLsbD_extractLsb', BitVec.getLsbD_append]
      simp only [hj, decide_true, Bool.true_and, Nat.zero_add, if_true]
    rw [this]
    simp [Nat.mod_eq_of_lt e]
  simp only [bodyLength, List.cons_append, List.length_cons, ec]
  change some (1 + 3 * _) = _
  rw [eb]
  congr 1
  omega

theorem noteFrame (src : Station) (all : Bool) (zeros : BitVec 1) (target : BitVec 5) (source : Byte) (code : Byte) :
    Statement (.noteFrame src all zeros target source code) := by
  intro r tail h _
  cases h
  rfl

theorem rollTimerDue : Statement .rollTimerDue := of_none rfl

theorem listenTimerExpiry : Statement .listenTimerExpiry := of_none rfl

theorem silenceTimerExpiry (peer : Station) : Statement (.silenceTimerExpiry peer) := of_none rfl

theorem receptionTimerExpiry (entry : EntryIx) : Statement (.receptionTimerExpiry entry) := of_none rfl

theorem joinWaitExpiry (entry : EntryIx) : Statement (.joinWaitExpiry entry) := of_none rfl

theorem releaseTimerExpiry (entry : EntryIx) : Statement (.releaseTimerExpiry entry) := of_none rfl

theorem releaseTimerHalf (entry : EntryIx) : Statement (.releaseTimerHalf entry) := of_none rfl

theorem echoMismatch : Statement .echoMismatch := of_none rfl

theorem arbitrationWon : Statement .arbitrationWon := of_none rfl

end Sys2Proof.Laws.FrameEnd
end

