-- ==== Sys2Proof/Laws/Publish.lean ====
section
/-! SUPPORT. What descriptors that leave the Publish Queue leave behind (R8, R38), and where the SENT of the page in flight stands
among those of the queued pages (R51). -/

namespace Sys2Proof.Machine

/-! ### Descriptors that leave the queue -/

/-- One descriptor's slot returns to WRITING if it is not FREE; a marker has none. -/
theorem State.returnSlot_eq (s : State) (d : Descriptor) : ∃ r, s.returnSlot d = { s with slots := r } := by
  unfold State.returnSlot
  split
  · exact ⟨_, rfl⟩
  · exact ⟨s.slots, rfl⟩

/-- The descriptors that `p` names leave the queue; otherwise only slot records change. -/
theorem State.returnQueued_eq (s : State) (p : Descriptor → Bool) : ∃ r, s.returnQueued p =
    { s with slots := r, publish := { s.publish with queue := s.publish.queue.filter fun d => !p d } } := by
  have fold : ∀ (l : List Descriptor) (t : State), ∃ r, l.foldl State.returnSlot t = { t with slots := r } := by
    intro l
    induction l with
    | nil => exact fun t => ⟨t.slots, rfl⟩
    | cons d l ih =>
      intro t
      obtain ⟨r, hr⟩ := t.returnSlot_eq d
      obtain ⟨q, hq⟩ := ih (t.returnSlot d)
      exact ⟨q, by rw [List.foldl_cons, hq, hr]⟩
  obtain ⟨r, hr⟩ := fold (s.publish.queue.filter p) s
  exact ⟨r, by rw [State.returnQueued, hr]; rfl⟩

/-- Slot `m` is returned: WRITING if a named page descriptor refers to it and it is not FREE, as it was otherwise. -/
theorem State.returnQueued_slot (s : State) (p : Descriptor → Bool) (m : SlotNum) :
    ((∃ d ∈ s.publish.queue, p d = true ∧ ∃ len report tail, d.body = .page m len report tail) → s.slot m ≠ .free →
      (s.returnQueued p).slot m = .writing) ∧
    ((¬ ∃ d ∈ s.publish.queue, p d = true ∧ ∃ len report tail, d.body = .page m len report tail) →
      (s.returnQueued p).slot m = s.slot m) ∧
    (s.slot m = .free → (s.returnQueued p).slot m = .free) := by
  have one : ∀ (t : State) (d : Descriptor),
      ((∃ len report tail, d.body = .page m len report tail) → t.slot m ≠ .free → (t.returnSlot d).slot m = .writing) ∧
      ((¬ ∃ len report tail, d.body = .page m len report tail) → (t.returnSlot d).slot m = t.slot m) ∧
      (t.slot m = .free → (t.returnSlot d).slot m = .free) := by
    intro t d
    unfold State.returnSlot
    cases hb : d.body with
    | pause => exact ⟨fun ⟨_, _, _, h⟩ => (nomatch h), fun _ => rfl, id⟩
    | page n len report tail =>
      dsimp only
      rw [State.changeSlot_slot _ _ _ (by decide)]
      refine ⟨?_, ?_, fun h => by rw [if_neg fun x => x.2 h]; exact h⟩
      · rintro ⟨_, _, _, h⟩ hf
        cases h
        rw [if_pos ⟨rfl, hf⟩]
      · intro h
        rw [if_neg]
        rintro ⟨rfl, _⟩
        exact h ⟨_, _, _, rfl⟩
  have fold : ∀ (l : List Descriptor) (t : State),
      ((∃ d ∈ l, ∃ len report tail, d.body = .page m len report tail) ∨ t.slot m = .writing → t.slot m ≠ .free →
        (l.foldl State.returnSlot t).slot m = .writing) ∧
      ((¬ ∃ d ∈ l, ∃ len report tail, d.body = .page m len report tail) → (l.foldl State.returnSlot t).slot m = t.slot m) ∧
      (t.slot m = .free → (l.foldl State.returnSlot t).slot m = .free) := by
    intro l
    induction l with
    | nil => exact fun t => ⟨fun h _ => h.elim (fun ⟨_, hd, _⟩ => (nomatch hd)) id, fun _ => rfl, id⟩
    | cons d l ih =>
      intro t
      rw [List.foldl_cons]
      obtain ⟨o1, o2, o3⟩ := one t d
      obtain ⟨i1, i2, i3⟩ := ih (t.returnSlot d)
      refine ⟨fun h hf => ?_, fun h => ?_, fun h => i3 (o3 h)⟩
      · by_cases hd : ∃ len report tail, d.body = .page m len report tail
        · exact i1 (Or.inr (o1 hd hf)) (by rw [o1 hd hf]; decide)
        · refine i1 ?_ (by rw [o2 hd]; exact hf)
          rw [o2 hd]
          refine h.imp_left ?_
          rintro ⟨e, he, hb⟩
          rcases List.mem_cons.1 he with rfl | he
          · exact absurd hb hd
          · exact ⟨e, he, hb⟩
      · rw [i2 fun ⟨e, he, hb⟩ => h ⟨e, List.mem_cons_of_mem _ he, hb⟩,
          o2 fun hb => h ⟨d, List.mem_cons_self, hb⟩]
  obtain ⟨f1, f2, f3⟩ := fold (s.publish.queue.filter p) s
  refine ⟨fun ⟨d, hd, hp, hb⟩ => f1 (Or.inl ⟨d, List.mem_filter.2 ⟨hd, hp⟩, hb⟩), fun h => f2 ?_, f3⟩
  rintro ⟨d, hd, hb⟩
  exact h ⟨d, (List.mem_filter.1 hd).1, (List.mem_filter.1 hd).2, hb⟩

/-! ### The order of SENT (R51) -/

/-- A stamped event goes behind the earlier stamps and before the others. -/
theorem insertBySeq_append (x : Nat × Event) (before after : List (Nat × Event)) (hb : ∀ y ∈ before, y.1 < x.1)
    (ha : ∀ y ∈ after, x.1 ≤ y.1) : insertBySeq x (before ++ after) = before ++ x :: after := by
  induction before with
  | nil =>
    cases after with
    | nil => rfl
    | cons y l => rw [List.nil_append, insertBySeq, if_pos (ha y List.mem_cons_self)]; rfl
  | cons y l ih =>
    rw [List.cons_append, insertBySeq, if_neg (Nat.not_le.2 (hb y List.mem_cons_self)),
      ih fun z hz => hb z (List.mem_cons_of_mem _ hz)]
    rfl

/-- Every stamp of the queued pages' SENT events is that of its descriptor. -/
theorem State.filterMap_queuedSent_stamp (s : State) (r : SentResult) (l : List Descriptor) :
    ∀ y ∈ l.filterMap (s.queuedSent r), ∃ d ∈ l, d.seq = y.1 := by
  intro y hy
  obtain ⟨d, hd, he⟩ := List.mem_filterMap.1 hy
  refine ⟨d, hd, ?_⟩
  unfold State.queuedSent at he
  split at he
  · cases he
    rfl
  · cases he

/-- Several events inserted one list after the other. -/
theorem State.insertEvents_append (s : State) (a b : List Event) : s.insertEvents (a ++ b) = (s.insertEvents a).insertEvents b :=
  List.foldl_append ..

/-- The events that wait after insertions depend on those that waited before and on the Time Base alone. -/
theorem State.insertEvents_events (l : List Event) {s t : State} (h : s.events = t.events) (ht : s.time = t.time) :
    (s.insertEvents l).events = (t.insertEvents l).events := by
  induction l generalizing s t with
  | nil => exact h
  | cons e l ih =>
    refine ih (s := s.insertEvent e) (t := t.insertEvent e) ?_ ?_
    · rw [State.insertEvent_eq, State.insertEvent_eq]
      dsimp only
      rw [h, ht]
    · rw [State.insertEvent_eq, State.insertEvent_eq]
      exact ht

/-- The SENT events of queued pages alone, in posting order. -/
theorem State.insertSents_queued (s t : State) (r : SentResult) (l : List Descriptor) :
    s.insertSents (l.filterMap (t.queuedSent r)) none = s.insertEvents (l.filterMap fun d => (t.queuedSent r d).map Prod.snd) := by
  rw [State.insertSents, List.map_filterMap]

/-- The SENT event of the page in flight stands at its place in posting order. -/
theorem State.insertSents_flight (s t : State) (r : SentResult) (before after : List Descriptor) (x : Nat × Event)
    (hb : ∀ d ∈ before, d.seq < x.1) (ha : ∀ d ∈ after, x.1 ≤ d.seq) :
    s.insertSents ((before ++ after).filterMap (t.queuedSent r)) (some x) =
      s.insertEvents (before.filterMap (fun d => (t.queuedSent r d).map Prod.snd) ++
        x.2 :: after.filterMap fun d => (t.queuedSent r d).map Prod.snd) := by
  rw [State.insertSents, List.filterMap_append, insertBySeq_append, List.map_append, List.map_cons, List.map_filterMap,
    List.map_filterMap]
  · intro y hy
    obtain ⟨d, hd, he⟩ := t.filterMap_queuedSent_stamp r before y hy
    exact he ▸ hb d hd
  · intro y hy
    obtain ⟨d, hd, he⟩ := t.filterMap_queuedSent_stamp r after y hy
    exact he ▸ ha d hd

end Sys2Proof.Machine
end

