-- ==== Sys2Proof/Laws/Sets.lean ====
section
/-! SUPPORT. Sets of up to 32 elements by their bits, and the fields of words put together from bytes and numbers. -/

namespace Sys2Proof.Machine

/-! ### Sets (R174) -/

theorem getLsbD_setOf (a n : Nat) (hn : n < 32) : (Machine.setOf a).getLsbD n = decide (n = a) := by
  rw [Machine.setOf, BitVec.getLsbD_shiftLeft, BitVec.getLsbD_one]
  by_cases h : n = a
  · subst h
    simp [hn]
  · by_cases h2 : n < a
    · simp [h, h2]
    · simp [h, show n - a ≠ 0 by omega]

theorem hasElem_addElem (x : BitVec 32) (a n : Nat) (hn : n < 32) :
    hasElem (addElem x a) n = (hasElem x n || decide (n = a)) := by
  rw [hasElem, addElem, BitVec.getLsbD_or, getLsbD_setOf a n hn]
  rfl

theorem hasElem_dropElem (x : BitVec 32) (a n : Nat) (hn : n < 32) :
    hasElem (dropElem x a) n = (hasElem x n && !decide (n = a)) := by
  rw [hasElem, dropElem, BitVec.getLsbD_and, BitVec.getLsbD_not, getLsbD_setOf a n hn]
  simp [hn, hasElem]

theorem hasElem_foldl_addElem (l : List Nat) (x : BitVec 32) (n : Nat) (hn : n < 32) :
    hasElem (l.foldl addElem x) n = (hasElem x n || decide (n ∈ l)) := by
  induction l generalizing x with
  | nil => simp
  | cons a l ih =>
    rw [List.foldl_cons, ih, hasElem_addElem x a n hn]
    simp [Bool.or_assoc]

/-- The set of a list has the elements of the list. -/
theorem hasElem_setOfList (l : List Nat) (n : Nat) (hn : n < 32) : hasElem (setOfList l) n = decide (n ∈ l) := by
  rw [setOfList, hasElem_foldl_addElem l 0 n hn]
  simp [hasElem]

/-- The elements of a set are in its list. -/
theorem mem_stationsOf (x : StationSet) (n : Station) : n ∈ stationsOf x ↔ hasElem x n.val = true := by
  simp [stationsOf]

/-! ### Fields of words -/

/-- Up to four bytes in a word: byte `k` of the word is the `k`-th of the list, or 0 (11.3). -/
theorem codesWord_byte (l : List Byte) (h : l.length ≤ 4) (k : Fin 4) :
    (codesWord l).extractLsb' (8 * k.val) 8 = (l[k.val]?).getD 0 := by
  have z : ∀ (a : Byte) (i : Nat), 8 ≤ i → a.getLsbD i = false := fun a i hi => BitVec.getLsbD_of_ge a i hi
  refine BitVec.eq_of_getLsbD_eq fun j hj => ?_
  rw [BitVec.getLsbD_extractLsb']
  simp only [codesWord, getLsbD_wordOf, hj, decide_true, Bool.true_and]
  match l, h with
  | [], _ => simp
  | [a], _ =>
    simp only [List.mapIdx_cons, List.mapIdx_nil, List.any_cons, List.any_nil]
    rw [getLsbD_byteWord a 0 _ (by omega)]
    fin_cases k <;> simp <;> grind
  | [a, b], _ =>
    simp only [List.mapIdx_cons, List.mapIdx_nil, List.any_cons, List.any_nil]
    rw [getLsbD_byteWord a 0 _ (by omega), getLsbD_byteWord b (0 + 1) _ (by omega)]
    fin_cases k <;> simp <;> grind
  | [a, b, c], _ =>
    simp only [List.mapIdx_cons, List.mapIdx_nil, List.any_cons, List.any_nil]
    rw [getLsbD_byteWord a 0 _ (by omega), getLsbD_byteWord b (0 + 1) _ (by omega),
      getLsbD_byteWord c (0 + 1 + 1) _ (by omega)]
    fin_cases k <;> simp <;> grind
  | [a, b, c, d], _ =>
    simp only [List.mapIdx_cons, List.mapIdx_nil, List.any_cons, List.any_nil]
    rw [getLsbD_byteWord a 0 _ (by omega), getLsbD_byteWord b (0 + 1) _ (by omega),
      getLsbD_byteWord c (0 + 1 + 1) _ (by omega), getLsbD_byteWord d (0 + 1 + 1 + 1) _ (by omega)]
    fin_cases k <;> simp <;> grind

theorem getLsbD_placedBit (lo : Nat) (b : Bool) (i : Nat) :
    (placedBit lo b).getLsbD i = (decide (i < 32) && decide (i = lo) && b) := by
  simp only [placedBit, getLsbD_placed]
  by_cases h1 : i = lo
  · subst h1
    cases b <;> simp
  · by_cases h2 : lo ≤ i
    · simp [h1, show ¬ i - lo < 1 by omega]
    · simp [h1, h2]

/-- A field of a word holds the number placed there when no other part of the word reaches into it. -/
theorem wordOf_field (lo w v : Nat) (before after : List Word) (h : v < 2 ^ w) (hb : lo + w ≤ 32)
    (hp : ∀ x ∈ before, ∀ i, lo ≤ i → i < lo + w → x.getLsbD i = false)
    (hh : ∀ x ∈ after, ∀ i, lo ≤ i → i < lo + w → x.getLsbD i = false) :
    ((wordOf (before ++ placed lo w v :: after)).extractLsb' lo w).toNat = v := by
  refine Nat.eq_of_testBit_eq fun j => ?_
  rw [BitVec.testBit_toNat, BitVec.getLsbD_extractLsb', getLsbD_wordOf]
  by_cases hj : j < w
  · simp only [hj, decide_true, Bool.true_and, List.any_append, List.any_cons]
    have e1 : (before.any fun x => x.getLsbD (lo + j)) = false := by
      rw [List.any_eq_false]
      intro x hx
      rw [hp x hx _ (by omega) (by omega)]
      decide
    have e2 : (after.any fun x => x.getLsbD (lo + j)) = false := by
      rw [List.any_eq_false]
      intro x hx
      rw [hh x hx _ (by omega) (by omega)]
      decide
    rw [e1, e2, getLsbD_placed]
    simp [hj, show lo + j < 32 by omega]
  · simp only [hj, decide_false, Bool.false_and]
    symm
    exact Nat.testBit_eq_false_of_lt (lt_of_lt_of_le h (Nat.pow_le_pow_right (by decide) (by omega)))

/-- A placed field has no bit outside its range. -/
theorem placed_outside (lo w v i : Nat) (h : i < lo ∨ lo + w ≤ i) : (placed lo w v).getLsbD i = false := by
  rw [getLsbD_placed]
  by_cases h1 : lo ≤ i
  · simp [show ¬ i - lo < w by omega]
  · simp [h1]

/-- A number that fits its field at bit 0. -/
theorem placed_low (w n : Nat) (h : n < 2 ^ w) : placed 0 w n = BitVec.ofNat 32 n := by
  rw [placed, Nat.mod_eq_of_lt h, Nat.shiftLeft_zero]

/-- A 16-bit field in the high half. -/
theorem placed_high (v : Half) : placed 16 16 v.toNat = v.setWidth 32 <<< 16 := by
  refine BitVec.eq_of_getLsbD_eq fun i hi => ?_
  rw [getLsbD_placed, BitVec.getLsbD_shiftLeft, BitVec.getLsbD_setWidth]
  by_cases h : 16 ≤ i
  · simp [h, hi, show ¬ i < 16 by omega, show i - 16 < 16 by omega, show i - 16 < 32 by omega, BitVec.testBit_toNat]
  · simp [h, show i < 16 by omega]

theorem wordOf_pair (a b : Word) : wordOf [a, b] = a ||| b := by
  simp [wordOf]

end Sys2Proof.Machine
end

