-- ==== Sys2Proof/Laws/Timers.lean ====
section
/-! SUPPORT. When a station starts on an idle line (R135), and what that does to the event that is due. -/

namespace Sys2Proof.Machine

/-- A station starts at once when the line is idle, it drives no frame, takes opportunities and has a frame. -/
theorem State.startDue_iff (s : State) : s.startDue = true ↔ s.link.lineIdle = true ∧ s.driving = false ∧ s.transmits = true ∧
    (s.link.holding ≠ none ∨ s.selectSource ≠ none) := by
  simp only [State.startDue, Bool.and_eq_true, Bool.not_eq_true', Bool.or_eq_true, Option.isSome_iff_ne_none, and_assoc]

/-- Its opportunity is the event that is due. -/
theorem State.dueEvent_start {s : State} (h : s.startDue = true) : s.dueEvent = some .opportunity := if_pos h

/-- Otherwise the event that is due is a timer's. -/
theorem State.dueEvent_timer {s : State} (h : s.startDue = false) : s.dueEvent = s.dueTimer := if_neg (by rw [h]; decide)

/-- On a line that is not idle only timer events are due. -/
theorem State.dueEvent_busy {s : State} (h : s.link.lineIdle = false) : s.dueEvent = s.dueTimer :=
  State.dueEvent_timer (by simp [State.startDue, h])

end Sys2Proof.Machine
end

