-- ==== Sys2Proof/Tests/Slice0.lean ====
section
/-! SUPPORT. Tests of the model's own: ill-formed events that the check refuses, frames written out from the table of chapter
11.1, one or two single steps of each command on a small state, and for every statement with hypotheses a state and operands
that meet them. -/

namespace Sys2Proof.Tests

open Sys2Proof.Machine

-- one theorem at a time: each is a kernel evaluation
set_option Elab.async false

/-! ### Small states -/

/-- A next state of which `p` holds. -/
def answers (o : Host.Outcome State Fault Refusal) (p : State → Bool) : Bool :=
  match o with
  | .next t => p t
  | .fault _ => false
  | .refused _ => false

/-- Station 5 after pin reset and the clearing, in the station state `st`. -/
def part (st : StationState) : State :=
  let s := State.atRelease 5 0 [] []
  { s with port := { s.port with clearing := false }, presence := { s.presence with state := st } }

/-- The stream of the tests. -/
def nine : StreamId := 9

/-- An OPEN producer entry in IDLE. -/
def opened (m : Mode) : Producer := { Producer.declared nine m 256 20 .zero with state := .opened, phase := some .idle }

/-- A consumer entry with producer of record 7. -/
def follows (m : Mode) (st : ConsumerState) : Consumer := { Consumer.created nine m with state := st, producer := some 7 }

/-- Entry 0 put in place. -/
def withEntry (e : Entry) (s : State) : State := { s with streams := vput s.streams 0 (some e) }

/-- A producer entry on an ACTIVE station. -/
def publisher (p : Producer) : State := withEntry (.producer p) (part .active)

/-- A consumer entry on an ACTIVE station. -/
def listener (c : Consumer) : State := withEntry (.consumer c) (part .active)

/-- Slot `n` in a state other than FREE. -/
def withSlot (n : SlotNum) (r : Slot) (s : State) : State :=
  { s with slots := { s.slots with records := vput s.slots.records n r, free := s.slots.free.filter (· != n) } }

/-- Bytes in page memory from an address on. -/
def withBytes (a : Nat) (l : List Byte) (s : State) : State :=
  { s with slots := { s.slots with mem := memWriteList s.slots.mem a l } }

/-- No slot is FREE. -/
def noneFree (s : State) : State :=
  { s with slots := { s.slots with records := Vector.replicate 32 .writing, free := [] } }

/-- Peer `n` PRESENT with the roll count 3, its silence timer at 1000 and the given claims. -/
def withPeer (n : Station) (claims : List Claim) (s : State) : State :=
  { s with presence := { s.presence with peers := vput s.presence.peers n ⟨true, some 1000, some 3, false, claims⟩ } }

/-- An attempt or a HELD frame. -/
def withHolding (ph : HoldPhase) (src : FrameSource) (f : Frame) (s : State) : State :=
  { s with link := { s.link with holding := some ⟨ph, src, f, false, false⟩ } }

/-- The same with its source's element removed. -/
def orphaned (s : State) : State :=
  { s with link := { s.link with holding := s.link.holding.map fun h => { h with orphan := true } } }

/-- Commands and responses that wait. -/
def withQueues (commands : List CmdRecord) (responses : List Response) (s : State) : State :=
  { s with port := { s.port with cmdQueue := commands, respQueue := responses } }

/-- A command record, CLAIM with tag 1. -/
def aCommand : CmdRecord := record 6 1 []

/-- A response record. -/
def aResponse : Response := ⟨1, 6, .ok, 0, false, 2, 3⟩

/-- Descriptors that wait. -/
def withQueue (l : List Descriptor) (s : State) : State := { s with publish := ⟨l, l.length⟩ }

/-- A page descriptor of entry 0 in slot 1 with three bytes, and a pause marker of it. -/
def aPage : Descriptor := ⟨0, 4, 1, .page 1 3 true none⟩

/-- See `aPage`. -/
def aPause : Descriptor := ⟨0, 5, 0, .pause⟩

/-- The page in flight of entry 0 in slot 1: page 6, three bytes. -/
def aFlight : Flight := ⟨0, 1, 6, 3, 0, 0, true, none, 4, 0, false, false⟩

/-- Work in the Segmenter. -/
def withSeg (g : Segmenter) (s : State) : State := { s with seg := g }

/-- Event records that wait, and the lost count. -/
def withEvents (n : Nat) (lost : Half) (s : State) : State :=
  { s with events := ⟨List.replicate n ⟨.peerUp 1, 0⟩, lost⟩ }

/-- A claim of the tests' stream, as the peer table keeps it and as a ROLL carries it. -/
def aClaim : Claim := ⟨nine, .freeRun, none⟩

/-- See `aClaim`. -/
def aRawClaim : RawClaim := ⟨false, false, nine, 0⟩

/-- The last response of a state. -/
def lastResult (t : State) : Option (Result × Word × Word) :=
  t.port.respQueue.getLast?.map fun r => (r.result, r.value1, r.value2)

/-- The events of a state, without their stamps. -/
def told (t : State) : List Event := t.events.records.map (·.event)

/-! ### Ill-formed events (WellFormed.lean) -/

theorem test_illformed_unknownCommand : (Instr.unknownCommand 0 17).wellFormed = false := by decide

theorem test_illformed_pageWindowRead : (Instr.pageWindowRead 2).wellFormed = false := by decide

theorem test_illformed_pageWindowWrite : (Instr.pageWindowWrite 0xFFF 0xF 0).wellFormed = false := by decide

theorem test_illformed_registerWrite : (Instr.registerWrite ⟨true, .word, 0x30, 0xF, 0⟩).wellFormed = false := by decide

theorem test_illformed_registerWrite_read : (Instr.registerWrite ⟨false, .word, 0x1FFC, 0xF, 0⟩).wellFormed = false := by decide

theorem test_illformed_segFrame : (Instr.segFrame 1 0 9 0 0 1 3 [1, 2]).wellFormed = false := by decide

theorem test_illformed_promptFrame : (Instr.promptFrame 1 0 9 0 (List.replicate 256 0)).wellFormed = false := by decide +kernel

theorem test_illformed_gapFrame : (Instr.gapFrame 1 0 9 0 0 (List.replicate 256 0)).wellFormed = false := by decide +kernel

theorem test_illformed_rollFrame : (Instr.rollFrame 1 false 0 0 (List.replicate 16 aRawClaim)).wellFormed = false := by decide

theorem test_wellformed : (Instr.registerWrite ⟨true, .byte, 0x30, 0xF, 0⟩).wellFormed = true ∧
    (Instr.unknownCommand 0 18).wellFormed = true ∧ (Instr.segFrame 1 0 9 0 0 1 3 [1, 2, 3]).wellFormed = true := by decide

theorem test_decodeTableWord : ∀ w : Fin 64, decodeTableWord 8 w.val = none := by decide

/-! ### Frames written out from the table of chapter 11.1 -/

/-- The bytes before the frame check. -/
def covered (i : Instr) : Option (List Byte) := (rawOf i).map RawFrame.covered

theorem test_bytes_admit : covered (.admitFrame 2 0 5 7 0 0x1234) = some [0x04, 0x05, 0x07, 0x00, 0x12, 0x34] := by decide

theorem test_bytes_cut : covered (.cutFrame 31 0 5 7 1) = some [0x3E, 0x85, 0x07, 0x01] := by decide

theorem test_bytes_gone : covered (.goneFrame 0 0 63 0x0102) = some [0x01, 0x3F, 0x01, 0x02] := by decide

theorem test_bytes_prompt : covered (.promptFrame 0 0 1 5 [3, 30]) = some [0x01, 0x81, 0x00, 0x05, 0x02, 0x03, 0x1E] := by
  decide

theorem test_bytes_take : covered (.takeFrame 5 0 9 5) = some [0x4A, 0x09, 0x05] := by decide

theorem test_bytes_drop : covered (.dropFrame 5 0 9 5) = some [0x4A, 0x89, 0x05] := by decide

theorem test_bytes_free : covered (.freeFrame 5 true 9 5 0x0123) = some [0x4B, 0x49, 0x05, 0x01, 0x23] := by decide

theorem test_bytes_gap : covered (.gapFrame 5 0 9 5 0x0123 [0, 31]) = some [0x4B, 0x89, 0x05, 0x01, 0x23, 0x02, 0x00, 0x1F] := by
  decide

theorem test_bytes_roll : covered (.rollFrame 3 false 0 7 [⟨true, true, 9, 0x0102⟩]) =
    some [0x86, 0x01, 0x07, 0xC9, 0x01, 0x02] := by decide

theorem test_bytes_note : covered (.noteFrame 31 true 0 0 0x1F 0xAB) = some [0xBE, 0xC0, 0x1F, 0xAB] := by decide

theorem test_bytes_seg : covered (.segFrame 1 0 9 0x0203 1 2 129 [0x55]) =
    some [0xC2, 0x09, 0x02, 0x03, 0x01, 0x02, 0x00, 0x81, 0x55] := by decide

theorem test_bytes_close : covered (.closeFrame 1 0 63 0xFFFE 0x1000 2 0x89ABCDEF) =
    some [0xC2, 0xBF, 0xFF, 0xFE, 0x10, 0x00, 0x02, 0x89, 0xAB, 0xCD, 0xEF] := by decide

/-- The two codes of R173 on the nine digits give the values they are known by. -/
theorem test_checks : frameCheck [0x31, 0x32, 0x33, 0x34, 0x35, 0x36, 0x37, 0x38, 0x39] = 0x29B1 ∧
    pageCheck [0x31, 0x32, 0x33, 0x34, 0x35, 0x36, 0x37, 0x38, 0x39] = 0xCBF43926 := by decide +kernel

/-! ### One step of each command -/

/-- A configuration record of one lock-step stream. -/
def aConfig (count : BitVec 4) : Instr :=
  .configure 1 20 0 0 0 count (vput (Vector.replicate 8 ⟨false, 0, 0⟩) 0 ⟨true, 9, 256⟩)

theorem test_configure : answers (exec (aConfig 1) (part .unconfigured)) (fun t =>
    t.presence.state == .configured && t.presence.config == some ⟨20, 20, 4, 1, 1⟩ &&
      t.entry 0 == some (.producer (.declared 9 .lockStep 256 20 .zero)) && lastResult t == some (.ok, 1, 5) &&
      told t == [.stationState .unconfigured .configured]) = true := by decide +kernel

theorem test_configure_bad : answers (exec (aConfig 2) (part .unconfigured)) (fun t =>
    lastResult t == some (.badArg, 17, 0) && t.presence.state == .unconfigured) = true := by decide +kernel

theorem test_start : answers (exec (.start 1) (part .configured)) (fun t =>
    t.presence.state == .listening && t.presence.listenTimer == some 20000 && lastResult t == some (.ok, 0, 0)) = true := by
  decide +kernel

theorem test_leave : answers (exec (.leave 1) (withQueue [aPage] (withSlot 1 (.queued 0 3) (publisher { opened .freeRun with paused := true }))))
    (fun t => t.presence.state == .leaving && t.slot 1 == .writing && t.presence.leavingPlaced && t.presence.rollPending &&
      lastResult t == some (.ok, 1, 0) && told t == [.stationState .active .leaving, .sent 9 1 none .cancelled 4]) = true := by
  decide +kernel

theorem test_rejoin : answers (exec (.rejoin 1) (part .muted)) (fun t =>
    t.presence.state == .listening && lastResult t == some (.ok, 0, 0)) = true := by decide +kernel

theorem test_restart : answers (exec (.restart 1) (withSlot 1 .writing (publisher (opened .freeRun)))) (fun t =>
    t.presence.state == .configured && t.slots.free == allSlots &&
      t.entry 0 == some (.producer (.declared 9 .freeRun 256 20 .zero)) && told t == [.stationState .active .configured]) = true := by
  decide +kernel

theorem test_claim : answers (exec (.claim 1) (part .active)) (fun t =>
    t.slot 0 == .writing && t.slots.free.length == 31 && lastResult t == some (.ok, 0, 31)) = true := by decide +kernel

theorem test_discard : answers (exec (.discard 1 3) (withSlot 3 .writing (part .active))) (fun t =>
    t.slot 3 == .free && t.slots.free.getLast? == some 3 && lastResult t == some (.ok, 3, 32)) = true := by decide +kernel

/-- A selection follows at once on an ACTIVE station: the page is SENDING with page number 0. -/
theorem test_publish : answers (exec (.publish 4 9 1 true false 3 0 0) (withSlot 1 .writing (publisher (opened .freeRun)))) (fun t =>
    t.slot 1 == .sending 0 0 3 && t.publish.queue == [] && t.seg.offered == some ⟨.pageSeg 0, .seg 9 0 0 1 3 [0, 0, 0]⟩ &&
      lastResult t == some (.ok, 1, 0)) = true := by decide +kernel

theorem test_publish_bad : answers (exec (.publish 4 9 1 true false 257 0 0) (withSlot 1 .writing (publisher (opened .freeRun))))
    (fun t => lastResult t == some (.badArg, 0, 0) && t.slot 1 == .writing) = true := by decide +kernel

theorem test_publishPause : answers (exec (.publishPause 5 9) (publisher (opened .freeRun))) (fun t =>
    t.entry 0 == some (.producer { opened .freeRun with paused := true }) && told t == [.paused 9 5]) = true := by decide +kernel

theorem test_resume : answers (exec (.resume 5 9) (publisher { opened .freeRun with paused := true })) (fun t =>
    t.entry 0 == some (.producer (opened .freeRun)) && lastResult t == some (.ok, 1, 0)) = true := by decide +kernel

theorem test_cancel : answers (exec (.cancel 5 9) (withQueue [aPause, aPage] (withSlot 1 (.queued 0 3) (publisher { opened .freeRun with paused := true }))))
    (fun t => t.slot 1 == .writing && t.publish.queue == [] && lastResult t == some (.ok, 2, 0) &&
      told t == [.sent 9 1 none .cancelled 4]) = true := by decide +kernel

theorem test_subscribe : answers (exec (.subscribe 5 9 1) (withPeer 7 [aClaim] (part .active))) (fun t =>
    t.entry 0 == some (.consumer { follows .lockStep .joining with take := true }) && lastResult t == some (.ok, 0, 7)) = true := by
  decide +kernel

theorem test_unsubscribe : answers (exec (.unsubscribe 5 9) (listener (follows .lockStep .receiving))) (fun t =>
    t.entry 0 == some (.consumer { follows .lockStep .departing with drop := true }) && lastResult t == some (.ok, 0, 1)) = true := by
  decide +kernel

theorem test_acquire : answers (exec (.acquire 5 9 0) (withSlot 2 (.ready 0 6 3) (listener { follows .freeRun .receiving with ready := some 2, skipCount := 4 })))
    (fun t => t.slot 2 == .held 0 6 3 && lastResult t == some (.ok, 0x60002, 0x40003)) = true := by decide +kernel

theorem test_release : answers (exec (.release 5 9) (withSlot 2 (.held 0 6 3) (listener { follows .lockStep .receiving with held := some 2, lastCompleted := some 6 })))
    (fun t => t.slot 2 == .free && lastResult t == some (.ok, 0x60002, 1) &&
      t.entry 0 == some (.consumer { follows .lockStep .receiving with lastCompleted := some 6, lastReleased := some 6, free := some (6, false) })) = true := by
  decide +kernel

theorem test_sendNote : answers (exec (.sendNote 5 32 0xAB) (part .active)) (fun t =>
    t.link.notes == [⟨.all, 0xAB⟩] && lastResult t == some (.ok, 1, 0)) = true := by decide +kernel

theorem test_clearNotice : answers (exec (.clearNotice 5 0xFFFFFFFF) { part .active with notices := vput (Vector.replicate 32 .reset) 7 ⟨true, 2, some 0xAB⟩ })
    (fun t => t.notices[7] == ⟨false, 0, some 0xAB⟩ && lastResult t == some (.ok, 0x80, 0xAB)) = true := by decide +kernel

theorem test_readStatus : answers (exec (.readStatus 5 0 0 0) (part .active)) (fun t =>
    lastResult t == some (.ok, 0x00000503, 0x00002000)) = true := by decide +kernel

theorem test_unknownCommand : answers (exec (.unknownCommand 5 18) (part .active)) (fun t =>
    lastResult t == some (.badArg, 0, 0)) = true := by decide +kernel

theorem test_submit : answers (exec (.submit 0xF 0x0106) (part .active)) (fun t =>
    t.slot 0 == .writing && t.port.respQueue == [⟨1, 6, .ok, 0, false, 0, 31⟩] && t.port.bus == some ⟨false, 0⟩) = true := by
  decide +kernel

theorem test_respNext : answers (exec (.respNext 0xF 0) (withQueues [aCommand] (List.replicate 8 aResponse) (part .active))) (fun t =>
    t.port.respQueue.length == 8 && t.port.cmdQueue == [] && t.slot 0 == .writing) = true := by decide +kernel

theorem test_evtNext : answers (exec (.evtNext 0xF 0) (withEvents 1 0 (part .active))) (fun t =>
    t.events.records == [] && t.interrupt == false) = true := by decide +kernel

theorem test_windowWrite : answers (exec (.windowWrite 0xF 32) (part .active)) (fun t =>
    t.port.window == 0 && t.port.bus == some ⟨true, 0⟩) = true := by decide +kernel

theorem test_pageWindowRead : answers (exec (.pageWindowRead 0) (withBytes 0 [1, 2, 3, 4] (withSlot 0 (.held 0 6 3) (listener (follows .freeRun .receiving)))))
    (fun t => t.port.bus == some ⟨false, 0x00030201⟩) = true := by decide +kernel

theorem test_pageWindowWrite : answers (exec (.pageWindowWrite 4 0x5 0x11223344) (withSlot 0 .writing (part .active))) (fun t =>
    t.slots.mem == [(4, 0x44), (6, 0x22)]) = true := by decide +kernel

theorem test_pageWindowWrite_refused : answers (exec (.pageWindowWrite 4 0xF 1) (part .active)) (fun t =>
    t.slots.mem == [] && t.port.bus == some ⟨true, 0⟩ && told t == [.accessFault 0 .write none none]) = true := by decide +kernel

theorem test_registerWrite : answers (exec (.registerWrite ⟨true, .word, 0x14, 0xF, 7⟩) (part .active)) (fun t =>
    t.port.staging[1] == 7) = true := by decide +kernel

theorem test_registerWrite_read : answers (exec (.registerWrite ⟨false, .word, 0x0, 0, 0⟩) (part .active)) (fun t =>
    t.port.bus == some ⟨false, 0xC5A32161⟩) = true := by decide +kernel

theorem test_pinReset : answers (exec .pinReset (part .active)) (fun t => t.port.inReset && t.interrupt == false) = true := by
  decide +kernel

theorem test_pinResetRelease : answers (exec (.pinResetRelease 31 3) (withSlot 1 .writing (part .active))) (fun t =>
    t.presence.station == 31 && t.presence.rate == 3 && t.presence.state == .unconfigured && t.slot 1 == .free && t.port.clearing) = true := by
  decide +kernel

theorem test_pageMemoryClearingEnd : answers (exec .pageMemoryClearingEnd (withBytes 7 [1] State.reset)) (fun t =>
    t.slots.mem == [] && t.port.clearing == false) = true := by decide +kernel

theorem test_opportunity : answers (exec .opportunity (listener { follows .lockStep .joining with take := true })) (fun t =>
    t.driving && t.driven.map (·.take 3) == some [0x4A, 0x09, 0x05]) = true := by decide +kernel

theorem test_arbitrationLost : answers (exec .arbitrationLost (withHolding .contending (.take 0) (.take 9 5) (part .active))) (fun t =>
    t.driving == false && t.link.holding.isSome && t.link.counters.arbitrationLosses == 1) = true := by decide +kernel

theorem test_arbitrationWon : answers (exec .arbitrationWon (withHolding .contending (.take 0) (.take 9 5) (part .active))) (fun t =>
    t.link.holding == some ⟨.transmitting, .take 0, .take 9 5, false, false⟩) = true := by decide +kernel

theorem test_echoMismatch : answers (exec .echoMismatch (withHolding .transmitting (.take 0) (.take 9 5) (part .active))) (fun t =>
    t.link.holding == some ⟨.aborting, .take 0, .take 9 5, false, false⟩) = true := by decide +kernel

theorem test_attemptSent : answers (exec .attemptSent (withHolding .transmitting (.take 0) (.take 9 5)
      (listener { follows .lockStep .joining with take := true }))) (fun t => t.link.holding == none &&
    t.entry 0 == some (.consumer { follows .lockStep .joining with joinTries := 1, timer := some 20000 })) = true := by decide +kernel

theorem test_attemptFailed : answers (exec .attemptFailed (withHolding .aborting (.take 0) (.take 9 5)
      (listener { follows .lockStep .joining with take := true }))) (fun t =>
    t.link.attempts == 1 && t.link.counters.retries == 1 && t.driving == false && t.link.holding.isSome) = true := by decide +kernel

theorem test_muted : answers (exec .muted { part .active with link := { LinkController.reset with drops := 8 } }) (fun t =>
    t.presence.state == .muted && told t == [.stationState .active .muted]) = true := by decide +kernel

theorem test_frameDiscarded : answers (exec (.frameDiscarded .badCheck) (part .unconfigured)) (fun t =>
    t.link.counters.checkFailures == 1 && t.link.counters.framesReceived == 0) = true := by decide +kernel

theorem test_segFrame : answers (exec (.segFrame 7 0 9 6 0 1 3 [1, 2, 3]) (listener (follows .freeRun .receiving))) (fun t =>
    t.slot 0 == .filling 0 6 (some 3) 1 0 && t.slots.mem == [(0, 1), (1, 2), (2, 3)] &&
      t.entry 0 == some (.consumer { follows .freeRun .receiving with filling := some 0, timer := some 10000 })) = true := by
  decide +kernel

theorem test_segFrame_stale : answers (exec (.segFrame 8 0 9 6 0 1 3 [1, 2, 3]) (listener (follows .freeRun .receiving))) (fun t =>
    t.link.counters.staleSegments == 1 && t.slot 0 == .free) = true := by decide +kernel

/-- A consumer entry with page 6 of three bytes FILLING in slot 2 and the segments `r` received. -/
def filling (m : Mode) (r : SegSet) (gaps : Nat) : State :=
  withBytes 8192 [1, 2, 3] (withSlot 2 (.filling 0 6 (some 3) r gaps)
    (listener { follows m .receiving with filling := some 2, timer := some 10000 }))

theorem test_closeFrame : answers (exec (.closeFrame 7 0 9 6 3 0 (pageCheck [1, 2, 3])) (filling .freeRun 1 0)) (fun t =>
    t.slot 2 == .ready 0 6 3 && told t == [.pageReady 9 6 2]) = true := by decide +kernel

theorem test_closeFrame_check : answers (exec (.closeFrame 7 0 9 6 3 0 0) (filling .freeRun 1 0)) (fun t =>
    t.slot 2 == .free && told t == [.pageLost 9 6 (some 2) .check]) = true := by decide +kernel

theorem test_admitFrame : answers (exec (.admitFrame 7 0 9 5 0 4) (listener (follows .lockStep .joining))) (fun t =>
    t.entry 0 == some (.consumer { follows .lockStep .receiving with firstAdmitted := some 4 }) && told t == [.joined 9 7 4]) = true := by
  decide +kernel

theorem test_cutFrame : answers (exec (.cutFrame 7 0 9 5 0) (listener (follows .lockStep .receiving))) (fun t =>
    t.entry 0 == some (.consumer (follows .lockStep .expelled)) && told t == [.cutReceived 9 7 .timeout]) = true := by decide +kernel

theorem test_promptFrame : answers (exec (.promptFrame 7 0 9 6 [5]) (listener { follows .lockStep .receiving with lastReleased := some 6 }))
    (fun t => t.entry 0 == some (.consumer { follows .lockStep .receiving with lastReleased := some 6, free := some (6, false) })) = true := by
  decide +kernel

theorem test_goneFrame : answers (exec (.goneFrame 7 0 9 6) (filling .lockStep 0 0)) (fun t =>
    t.slot 2 == .free && told t == [.pageLost 9 6 (some 2) .gone] &&
      t.entry 0 == some (.consumer { follows .lockStep .receiving with
        free := some (6, true), counters := { Counters.zero with lost := 1 } })) = true := by decide +kernel

theorem test_takeFrame : answers (exec (.takeFrame 7 0 9 7) (withPeer 7 [] (publisher { opened .lockStep with nextPage := 4 }))) (fun t =>
    t.entry 0 == some (.producer { opened .lockStep with nextPage := 4, members := 0x80, admits := [(7, .accepted 4)] })) = true := by
  decide +kernel

/-- A lock-step entry in AWAITING_RELEASE for page 3, which station 7 alone still has to release. -/
def awaiting : Producer :=
  { opened .lockStep with
    phase := some .awaitingRelease, nextPage := 4, lastClosed := some 3, members := 0x80, awaited := 0x80
    timer := some ⟨0, 0, 80000⟩ }

theorem test_dropFrame : answers (exec (.dropFrame 7 0 9 7) (publisher awaiting)) (fun t =>
    t.entry 0 == some (.producer { opened .lockStep with nextPage := 4, lastClosed := some 3 })) = true := by decide +kernel

theorem test_freeFrame : answers (exec (.freeFrame 7 false 9 7 3) { publisher awaiting with time := 40000 }) (fun t =>
    t.entry 0 == some (.producer { opened .lockStep with
      nextPage := 4, lastClosed := some 3, members := 0x80, awaited := 0x80, released := 0x80, pace := 25 })) = true := by decide +kernel

theorem test_gapFrame : answers (exec (.gapFrame 7 0 9 7 3 [1]) (publisher { opened .freeRun with lastClosed := some 3 })) (fun t =>
    t.entry 0 == some (.producer { opened .freeRun with lastClosed := some 3, gones := [3] })) = true := by decide +kernel

theorem test_rollFrame : answers (exec (.rollFrame 7 false 0 3 [aRawClaim]) (withEntry (.consumer (.created 9 .freeRun)) (part .active)))
    (fun t => t.peer 7 == ⟨true, some 30000, some 3, false, [aClaim]⟩ && told t == [.peerUp 7] &&
      t.entry 0 == some (.consumer (follows .freeRun .receiving))) = true := by decide +kernel

theorem test_rollFrame_conflict : answers (exec (.rollFrame 5 false 0 3 []) (part .active)) (fun t =>
    t.presence.state == .conflict && t.presence.conflictCount == some 3) = true := by decide +kernel

theorem test_noteFrame : answers (exec (.noteFrame 7 false 0 5 7 0xAB) (part .active)) (fun t =>
    t.notices[7] == ⟨true, 1, some 0xAB⟩ && told t == [.notePending 7 0xAB]) = true := by decide +kernel

/-- A change of the Presence Unit of an ACTIVE station. -/
def withPresence (f : Presence → Presence) (s : State) : State := { s with presence := f s.presence }

theorem test_rollTimerDue : answers (exec .rollTimerDue (withPresence (fun p => { p with rollTimer := some 10000 }) (part .active)))
    (fun t => t.presence.rollPending && t.presence.rollTimer == some 20000 && t.time == 10000) = true := by decide +kernel

theorem test_listenTimerExpiry : answers (exec .listenTimerExpiry (withPresence (fun p => { p with listenTimer := some 10000 })
      (withEntry (.producer (.declared 9 .freeRun 256 20 .zero)) (part .listening)))) (fun t =>
    t.presence.state == .active && t.presence.rollPending && t.entry 0 == some (.producer (opened .freeRun))) = true := by decide +kernel

theorem test_silenceTimerExpiry : answers (exec (.silenceTimerExpiry 7) (withPeer 7 [aClaim] (listener (follows .freeRun .receiving)))) (fun t =>
    t.peer 7 == ⟨false, none, some 3, false, []⟩ && t.entry 0 == some (.consumer (.created 9 .freeRun)) && t.time == 1000) = true := by
  decide +kernel

theorem test_receptionTimerExpiry : answers (exec (.receptionTimerExpiry 0) (filling .freeRun 0 0)) (fun t =>
    t.entry 0 == some (.consumer { follows .freeRun .receiving with filling := some 2, gap := some (6, 1) })) = true := by decide +kernel

theorem test_receptionTimerExpiry_third : answers (exec (.receptionTimerExpiry 0) (filling .freeRun 0 2)) (fun t =>
    t.slot 2 == .free && told t == [.pageLost 9 6 (some 2) .repairTimeout]) = true := by decide +kernel

theorem test_joinWaitExpiry : answers (exec (.joinWaitExpiry 0) (listener { follows .lockStep .joining with joinTries := 3, timer := some 9 }))
    (fun t => t.entry 0 == some (.consumer { follows .lockStep .expelled with joinTries := 3 }) &&
      told t == [.joinFailed 9 (some 7) .noAnswer]) = true := by decide +kernel

theorem test_releaseTimerExpiry : answers (exec (.releaseTimerExpiry 0) (publisher awaiting)) (fun t =>
    t.entry 0 == some (.producer { opened .lockStep with
      nextPage := 4, lastClosed := some 3, awaited := 0x80, cuts := [(7, .timeout)] }) &&
      told t == [.memberCut 9 7 (some 3) .timeout] && t.time == 80000) = true := by decide +kernel

theorem test_releaseTimerHalf : answers (exec (.releaseTimerHalf 0) (publisher awaiting)) (fun t =>
    t.entry 0 == some (.producer { awaiting with prompt := true, promptSent := true }) && t.time == 40000) = true := by decide +kernel

/-! ### States that meet the hypotheses of the statements -/

theorem running_of {s : State} (h : (!s.port.inReset && !s.port.clearing) = true) : s.running := by
  simpa [State.running] using h

theorem ready_of {s : State} (h : (!s.port.inReset && !s.port.clearing && s.port.cmdQueue.isEmpty &&
    decide (s.port.respQueue.length < 8)) = true) : s.ready := by
  simp only [Bool.and_eq_true, Bool.not_eq_true', List.isEmpty_iff, decide_eq_true_eq] at h
  exact ⟨⟨h.1.1.1, h.1.1.2⟩, h.1.2, h.2⟩

theorem hearing_of {s : State} (h : (!s.port.inReset && !s.driving && s.presence.state != .unconfigured) = true) : s.hearing := by
  simp only [Bool.and_eq_true, Bool.not_eq_true', bne_iff_ne, ne_eq] at h
  exact ⟨h.1.1, h.1.2, h.2⟩

/-- An empty holding frame holds no frame of entry `i`. -/
theorem holds_none {s : State} {i : EntryIx} (h : s.link.holding = none) :
    ∀ x, s.link.holding = some x → x.source.entry? ≠ some i := by
  intro x hx
  rw [h] at hx
  cases hx

/-- In reset. -/
def inReset : State := { part .active with port := { (part .active).port with inReset := true } }

/-- In the clearing, at its latest end. -/
def clearingAt80 : State := { State.reset with time := 80 }

theorem test_witness_EmptyQueueTakesTheDueTimer :
    (inReset.pending = [] ∧ inReset.port.inReset = true) ∧
    (clearingAt80.port.inReset = false ∧ clearingAt80.port.clearing = true ∧ clearingAt80.time = BitVec.ofNat 32 80 ∧
      clearingAt80.dueEvent = some .pageMemoryClearingEnd) ∧
    ((part .active).pending = [] ∧ (part .active).dueEvent = none) := by decide +kernel

theorem test_witness_EmptyQueueTakesTheDueTimer_order :
    (let s := withPresence (fun p => { p with listenTimer := some 0 }) (part .listening)
     s.port.clearing = false ∧ s.presence.state = .listening ∧ s.presence.listenTimer = some 0 ∧ s.time = 0) ∧
    (let s := withPresence (fun p => { p with rollTimer := some 0 }) (part .active)
     s.port.clearing = false ∧ s.presence.listenTimer = none ∧ s.presence.rollTimer = some 0 ∧ s.time = 0) ∧
    (let s := part .active
     s.presence.rollTimer = none ∧ ∀ n : Station, (s.peer n).silence = none) := by decide +kernel

theorem test_witness_EmptyQueueTakesTheDueTimer_stopped :
    (∀ i c, (listener (follows .freeRun .waiting)).consumer i = some c → c.timer = none) ∧
    (∀ i p, (publisher (opened .freeRun)).producer i = some p → p.timer = none) := by
  constructor
  · intro i c h
    have : ∀ i : EntryIx, ((listener (follows .freeRun .waiting)).consumer i).all fun c => c.timer == none := by decide +kernel
    have k := this i
    rw [h] at k
    simpa using k
  · intro i p h
    have : ∀ i : EntryIx, ((publisher (opened .freeRun)).producer i).all fun p => p.timer == none := by decide +kernel
    have k := this i
    rw [h] at k
    simpa using k

theorem test_witness_EveryEventAnswersNext : ∀ n r, Instr.claim 1 ≠ .pinResetRelease n r := by
  intro n r h
  cases h

theorem test_witness_NothingActsWhileResetIsAsserted : inReset.port.inReset = true ∧ ∀ n r, Instr.opportunity ≠ .pinResetRelease n r :=
  ⟨rfl, by intro n r h; cases h⟩

theorem test_witness_ResetsPutTheBlocksInOrder :
    (clearingAt80.port.inReset = false ∧ clearingAt80.port.clearing = true) ∧
    ((part .active).port.inReset = false ∧ (part .active).port.clearing = false) := by decide +kernel

theorem test_witness_ReleaseResetsThePresenceUnit :
    (∀ n r, Instr.opportunity ≠ .pinResetRelease n r) ∧ ∃ t, exec .opportunity (part .active) = .next t :=
  ⟨(by intro n r h; cases h), _, rfl⟩

theorem test_witness_StepKeepsSafe : (part .active).Safe ∧ ∃ t, step (part .active) = .next t := by
  refine ⟨⟨rfl, ⟨by decide +kernel, by decide +kernel⟩, ⟨?_, ?_, ?_, ?_, ?_, ?_, ?_⟩⟩, _, rfl⟩ <;> decide +kernel

theorem test_witness_FramesReadBack :
    (Instr.rollFrame 31 true 3 255 (List.replicate 15 aRawClaim)).wellFormed = true ∧
      ∃ l, frameBytes (.rollFrame 31 true 3 255 (List.replicate 15 aRawClaim)) = some l := ⟨by decide +kernel, _, rfl⟩

/-- Eight responses wait. -/
def fullResponses : State := withQueues [] (List.replicate 8 aResponse) (part .active)

/-- Eight commands and eight responses wait. -/
def fullCommands : State := withQueues (List.replicate 8 aCommand) (List.replicate 8 aResponse) (part .active)

theorem test_witness_CommandsReachTheQueue : commandRecord (.claim 1) = some aCommand ∧ (part .active).ready ∧
    (fullResponses.running ∧ fullResponses.port.cmdQueue.length < 8 ∧ fullResponses.port.respQueue.length = 8) ∧
    (fullCommands.running ∧ fullCommands.port.cmdQueue.length = 8) ∧ ((0 : Byte) = 0 ∨ 17 < (0 : Byte).toNat) ∧
    ((18 : Byte) = 0 ∨ 17 < (18 : Byte).toNat) ∧ ((255 : Byte) = 0 ∨ 17 < (255 : Byte).toNat) :=
  ⟨rfl, ready_of rfl, ⟨running_of rfl, by decide, by decide⟩, ⟨running_of rfl, by decide⟩, by decide, by decide, by decide⟩

theorem test_witness_SubmitTakesTheStagingWords : (part .active).ready ∧ (7 : BitVec 4) ≠ 0xF ∧ (0xF : BitVec 4) = 0xF ∧
    (fullResponses.running ∧ fullResponses.port.cmdQueue.length < 8 ∧ fullResponses.port.respQueue.length = 8) ∧
    (fullCommands.running ∧ fullCommands.port.cmdQueue.length = 8) :=
  ⟨ready_of rfl, by decide, rfl, ⟨running_of rfl, by decide, by decide⟩, ⟨running_of rfl, by decide⟩⟩

theorem test_witness_RecordsLeaveFromTheHead : ((part .active).running ∧ (part .active).port.cmdQueue = []) ∧
    (let s := withQueues [aCommand] (List.replicate 8 aResponse) (part .active)
     s.running ∧ s.port.cmdQueue = aCommand :: [] ∧ s.port.respQueue = aResponse :: List.replicate 7 aResponse ∧
       (List.replicate 7 aResponse).length = 7) ∧ (0xE : BitVec 4) ≠ 0xF :=
  ⟨⟨running_of rfl, rfl⟩, ⟨running_of rfl, rfl, rfl, rfl⟩, by decide⟩

theorem test_witness_WindowSelectsASlot : (part .active).running ∧ (part .active).ready ∧
    (0 : Word).toNat = (0 : SlotNum).val ∧ (31 : Word).toNat = (31 : SlotNum).val ∧ 31 < (32 : Word).toNat :=
  ⟨running_of rfl, ready_of rfl, by decide, by decide, by decide⟩

/-- The window on slot 0 in state `r`. -/
def onSlot (r : Slot) : State := withBytes 0 [1, 2, 3, 4] (withSlot 0 r (part .active))

theorem test_witness_WindowAccessesThePage : (onSlot .writing).running ∧ (onSlot (.held 0 6 0)).running ∧ (onSlot (.ready 0 6 3)).running ∧
    ((0 : BitVec 12).toNat % 4 = 0 ∧ (0xFFC : BitVec 12).toNat % 4 = 0) ∧ Memory.wf (onSlot .writing).slots.mem = true ∧
    (onSlot .writing).slot (onSlot .writing).port.window = .writing ∧
    (onSlot (.held 0 6 0)).slot (onSlot (.held 0 6 0)).port.window = .held 0 6 0 ∧
    (onSlot (.held 0 6 4096)).slot (onSlot (.held 0 6 4096)).port.window = .held 0 6 4096 ∧
    ((onSlot (.ready 0 6 3)).slot 0 ≠ .writing ∧ ∀ i page len, (onSlot (.ready 0 6 3)).slot 0 ≠ .held i page len) := by
  refine ⟨running_of rfl, running_of rfl, running_of rfl, by decide, by decide +kernel, by decide +kernel, by decide +kernel,
    by decide +kernel, by decide +kernel, ?_⟩
  intro i page len h
  have k : (onSlot (.ready 0 6 3)).slot 0 = .ready 0 6 3 := by decide +kernel
  rw [k] at h
  cases h

theorem test_witness_RegistersReadAndStage : (part .active).running ∧ (part .active).port.respQueue = [] ∧
    (part .active).events.records = [] ∧ (withQueues [] [aResponse] (part .active)).port.respQueue = aResponse :: [] ∧
    (withEvents 1 0 (part .active)).events.records = ⟨.peerUp 1, 0⟩ :: [] ∧ (0 : BitVec 4) ≠ 0xF :=
  ⟨running_of rfl, rfl, rfl, rfl, rfl, by decide⟩

theorem test_witness_RefusedAccessesChangeNothing : (part .active).port.inReset = false ∧ (part .active).port.clearing = false ∧
    State.reset.port.inReset = false ∧ State.reset.port.clearing = true ∧ AccessWidth.half ≠ .word ∧ (0x0011 : Word).toNat % 4 ≠ 0 ∧
    0x2000 ≤ (0x2000 : Word).toNat ∧ ¬ ((true : Bool) = false ∧ (0x0004 : Word) = 0x0004) ∧
    (0x0070 : Word) ∈ [(0x0030 : Word), 0x0050, 0x0070] ∧ (0x0034 : Word).toNat < 0x0040 ∧ (0x003C : Word).toNat < 0x0040 ∧
    0x0054 ≤ (0x0054 : Word).toNat ∧ (0x005C : Word).toNat < 0x0060 ∧ 0x0074 ≤ (0x0074 : Word).toNat ∧
    (0x0FFC : Word).toNat < 0x1000 := by decide

theorem test_witness_StatusAndInterrupt : (part .active).running ∧ State.reset.port.clearing = true ∧ (part .active).Bounded ∧
    (part .active).events = ⟨[], 0⟩ ∧ ((withEvents 64 0 (part .active)).insertEvent (.peerUp 1)).events.records =
      (withEvents 64 0 (part .active)).events.records ∧
    (withEvents 1 0 (part .active)).events.records = [⟨.peerUp 1, 0⟩] ∧
    (withEvents 2 0 (part .active)).events.records = ⟨.peerUp 1, 0⟩ :: ⟨.peerUp 1, 0⟩ :: [] := by
  refine ⟨running_of rfl, rfl, ⟨?_, ?_, ?_, ?_, ?_, ?_, ?_⟩, rfl, by decide +kernel, rfl, rfl⟩ <;> decide +kernel

theorem test_witness_EventsAreStoredOrCounted : (withEvents 63 0 (part .active)).events.records.length < 64 ∧
    (withEvents 64 0 (part .active)).events.records.length = 64 ∧
    ((withEvents 62 1 (part .active)).events.lost ≠ 0 ∧ (withEvents 62 1 (part .active)).events.records.length ≤ 62) ∧
    (withEvents 63 1 (part .active)).events.records.length = 63 ∧
    ((withEvents 64 0xFFFF (part .active)).events.lost = 0xFFFF ∧ (withEvents 64 1 (part .active)).events.records.length = 64) := by
  decide +kernel

theorem test_witness_CommandsOnAStreamRefuse : (part .unconfigured).ready ∧ (part .leaving).ready ∧ (part .active).ready ∧
    (publisher (opened .freeRun)).ready ∧ (listener (follows .freeRun .receiving)).ready ∧
    (publisher { opened .freeRun with state := .disputed }).ready ∧
    (63 < (64 : Byte).toNat ∧ 1 < (2 : Byte).toNat ∧ (63 : Byte).toNat = (63 : StreamId).toNat ∧
      (1 : Byte).toNat = (1 : StreamId).toNat) ∧ (part .active).findStream nine = none ∧
    (∃ id : StreamId, (9 : Byte).toNat = id.toNat ∧ id ≠ 0 ∧ (publisher (opened .freeRun)).findStream id = some 0 ∧
      (publisher (opened .freeRun)).entry 0 = some (.producer (opened .freeRun))) ∧
    (∃ id : StreamId, (9 : Byte).toNat = id.toNat ∧ id ≠ 0 ∧ (listener (follows .freeRun .receiving)).findStream id = some 0 ∧
      (listener (follows .freeRun .receiving)).entry 0 = some (.consumer (follows .freeRun .receiving))) :=
  ⟨ready_of rfl, ready_of rfl, ready_of rfl, ready_of rfl, ready_of rfl, ready_of rfl, by decide, by decide +kernel,
    ⟨9, by decide +kernel⟩, ⟨9, by decide +kernel⟩⟩

/-- The declarations of the tests: stream 9 and seven unused places. -/
def aDecls : Vector RawDecl 8 := vput (Vector.replicate 8 ⟨false, 0, 0⟩) 0 ⟨true, 9, 4096⟩

theorem test_witness_ConfigureSetsTheStation : (part .unconfigured).ready ∧ (part .active).ready ∧
    (1 : Byte).toNat = 1 ∧ ¬ (251 : Byte).toNat ≤ 250 ∧ (250 : Byte).toNat ≤ 250 ∧ ¬ (1001 : BitVec 10).toNat ≤ 1000 ∧
    (1000 : BitVec 10).toNat ≤ 1000 ∧ ¬ (9 : BitVec 4).toNat ≤ 8 ∧ (8 : BitVec 4).toNat ≤ 8 ∧ ¬ (5 : BitVec 3).toNat ≤ 4 ∧
    (4 : BitVec 3).toNat ≤ 4 ∧ 8 < (9 : BitVec 4).toNat ∧ (8 : BitVec 4).toNat ≤ 8 ∧
    (aDecls[(0 : Fin 8)].stream ≠ 0 ∧ aDecls[(0 : Fin 8)].length.toNat ≤ 4096 ∧ aDecls[(1 : Fin 8)].stream = 0) ∧
    ((1 : Fin 8) < 2 ∧ aDecls[(1 : Fin 8)].stream = aDecls[(2 : Fin 8)].stream) :=
  ⟨ready_of rfl, ready_of rfl, by decide +kernel⟩

theorem test_witness_StartAndRejoinListen : (part .configured).ready ∧ (part .quiet).ready ∧ (part .muted).ready ∧ (part .active).ready ∧
    (part .active).presence.state ≠ .configured ∧ (part .active).presence.state ≠ .quiet ∧ (part .active).presence.state ≠ .muted :=
  ⟨ready_of rfl, ready_of rfl, ready_of rfl, ready_of rfl, by decide⟩

theorem test_witness_LeaveEntersLeaving : (part .active).ready ∧ (part .active).presence.state = .active ∧ (part .leaving).ready ∧
    (part .leaving).presence.state ≠ .active := ⟨ready_of rfl, rfl, ready_of rfl, by decide⟩

theorem test_witness_RestartResetsTheStation : (part .unconfigured).ready ∧ (part .conflict).ready ∧
    (part .conflict).presence.state ≠ .unconfigured := ⟨ready_of rfl, ready_of rfl, by decide⟩

theorem test_witness_ClaimGrantsTheHeadSlot : (part .unconfigured).ready ∧ (part .active).ready ∧
    (part .active).slots.free = 0 :: (allSlots.drop 1) ∧ (noneFree (part .active)).ready ∧ (noneFree (part .active)).slots.free = [] :=
  ⟨ready_of rfl, ready_of rfl, by decide +kernel, ready_of rfl, rfl⟩

theorem test_witness_DiscardFreesAWritingSlot : (withSlot 31 .writing (part .active)).ready ∧ 31 < (32 : Byte).toNat ∧
    (31 : Byte).toNat = (31 : SlotNum).val ∧ (withSlot 31 .writing (part .active)).slot 31 = .writing ∧
    (withSlot 31 .writing (part .active)).slot 0 ≠ .writing := ⟨ready_of rfl, by decide +kernel⟩

/-- The hypotheses that the statements about a producer entry's commands share, on stream 9. -/
theorem test_witness_producer : (publisher (opened .freeRun)).ready ∧
    (publisher (opened .freeRun)).presence.state ∉ [.unconfigured, .leaving, .conflict] ∧ (9 : Byte).toNat = nine.toNat ∧ nine ≠ 0 ∧
    (publisher (opened .freeRun)).findStream nine = some 0 ∧
    (publisher (opened .freeRun)).entry 0 = some (.producer (opened .freeRun)) ∧ (opened .freeRun).state ≠ .disputed :=
  ⟨ready_of rfl, by decide +kernel⟩

/-- A posted page of stream 9 waits on a paused entry; slot 2 is WRITING. -/
def posted (n : Nat) : State :=
  withQueue (List.replicate n aPause) (withSlot 2 .writing (publisher { opened .freeRun with paused := true }))

theorem test_witness_PublishPostsAPage : (posted 15).ready ∧ (posted 16).ready ∧ (posted 15).findStream nine = some 0 ∧
    (31 < (32 : Byte).toNat ∧ (opened .freeRun).maxLen < (257 : Half).toNat ∧ (256 : Half).toNat ≤ (opened .freeRun).maxLen ∧
      32 < (33 : Byte).toNat ∧ ¬ 32 < (32 : Byte).toNat) ∧
    ((2 : Byte).toNat = (2 : SlotNum).val ∧ (posted 15).slot 2 = .writing ∧ (posted 15).slot 3 ≠ .writing) ∧
    ((posted 16).publish.queue.length = 16 ∧ (posted 15).publish.queue.length < 16) := ⟨ready_of rfl, ready_of rfl, by decide +kernel⟩

theorem test_witness_PausesAreSetAndCleared : (posted 15).ready ∧ (posted 16).ready ∧
    (withEntry (.producer (opened .freeRun)) (part .muted)).ready ∧
    ((posted 16).publish.queue.length = 16 ∧ (posted 15).publish.queue.length < 16) ∧
    ((withEntry (.producer (opened .freeRun)) (part .muted)).publish.queue = [] ∧ (opened .freeRun).state = .opened ∧
      (opened .freeRun).phase = some .idle) := ⟨ready_of rfl, ready_of rfl, ready_of rfl, by decide +kernel⟩

/-- Page 6 of entry 0 is in flight from slot 1, with a page descriptor behind it. -/
def flying : State :=
  withSeg ⟨some aFlight, some ⟨.pageSeg 0, .seg 9 6 0 1 3 [1, 2, 3]⟩, none, none⟩
    (withQueue [{ aPage with seq := 1, body := .page 2 3 true none }] (withSlot 2 (.queued 0 3) (withBytes 4096 [1, 2, 3]
      (withSlot 1 (.sending 0 6 3) (publisher { opened .freeRun with phase := some .sending, nextPage := 7, sending := some 1 })))))

theorem test_witness_CancelCompletesTheStream : (posted 16).ready ∧ (posted 16).seg.flight = none ∧ flying.ready ∧
    flying.presence.state ≠ .unconfigured ∧ flying.findStream nine = some 0 ∧ flying.seg.flight = some aFlight ∧ aFlight.entry = 0 ∧
    aFlight.closeOffered = false ∧ (∀ d ∈ flying.publish.queue.filter fun d => d.entry == 0, aFlight.seq < d.seq) ∧
    flying.entry 0 = some (.producer { opened .freeRun with phase := some .sending, nextPage := 7, sending := some 1 }) :=
  ⟨ready_of rfl, rfl, ready_of rfl, by decide +kernel⟩

/-- Every entry is in use. -/
def crowded : State := { part .active with streams := Vector.ofFn fun i => some (.consumer (.created (BitVec.ofNat 6 (i.val + 20)) .freeRun)) }

theorem test_witness_SubscribeCreatesAnEntry : (part .active).ready ∧ crowded.ready ∧ (withPeer 7 [aClaim] (part .active)).ready ∧
    (withPeer 7 [aClaim] (part .quiet)).ready ∧ (63 < (64 : Byte).toNat ∧ 1 < (2 : Byte).toNat ∧ (1 : Byte).toNat ≤ 1) ∧
    (crowded.findStream nine = none ∧ (∀ i : EntryIx, crowded.entry i ≠ none) ∧ crowded.findStream 20 = some 0) ∧
    ((part .active).findStream nine = none ∧ (part .active).entry 0 = none ∧
      (∀ j : EntryIx, j < 0 → (part .active).entry j ≠ none) ∧ (part .active).claimants nine = []) ∧
    (withPeer 7 [aClaim] (part .active)).claimants nine = 7 :: [] ∧
    ((publisher (opened .freeRun)).entry 1 = none ∧ ∀ j : EntryIx, j < 1 → (publisher (opened .freeRun)).entry j ≠ none) :=
  ⟨ready_of rfl, ready_of rfl, ready_of rfl, ready_of rfl, by decide +kernel⟩

theorem test_witness_UnsubscribeEndsAnEntry : (listener (follows .lockStep .receiving)).ready ∧
    (listener (follows .lockStep .receiving)).findStream nine = some 0 ∧
    ((follows .lockStep .departing).state = .departing ∧ { follows .freeRun .receiving with held := some 2 }.held = some 2) ∧
    ((follows .lockStep .receiving).state ≠ .departing ∧ (follows .lockStep .receiving).held = none ∧
      (listener (follows .lockStep .receiving)).link.holding = none) ∧
    ((follows .lockStep .receiving).mode = .lockStep ∧ (part .active).presence.state ∈ [.active, .leaving]) ∧
    (follows .freeRun .receiving).mode ≠ .lockStep := ⟨ready_of rfl, by decide +kernel⟩

/-- A consumer entry with READY page 7 in slot 3 and HELD page 6 in slot 2. -/
def bothPages (m : Mode) : Consumer := { follows m .receiving with ready := some 3, held := some 2, lastCompleted := some 7 }

/-- See `bothPages`. -/
def holding (c : Consumer) : State := withSlot 3 (.ready 0 7 4096) (withSlot 2 (.held 0 6 3) (listener c))

theorem test_witness_AcquireHoldsTheReadyPage : (holding (bothPages .freeRun)).ready ∧
    (holding (bothPages .freeRun)).findStream nine = some 0 ∧
    (holding (bothPages .freeRun)).entry 0 = some (.consumer (bothPages .freeRun)) ∧
    ((bothPages .freeRun).ready = some 3 ∧ (bothPages .freeRun).held = some 2 ∧ (2 : SlotNum) ≠ 3) ∧
    ((holding (bothPages .lockStep)).slot 3 = .ready 0 7 4096 ∧ (holding (bothPages .lockStep)).slot 2 = .held 0 6 3) ∧
    ({ bothPages .freeRun with ready := none }.ready = none ∧ { bothPages .freeRun with held := none }.held = none) ∧
    ((0 : Byte).toNat ≤ 1 ∧ (1 : Byte).toNat ≤ 1) := ⟨ready_of rfl, by decide +kernel⟩

theorem test_witness_ReleaseFreesTheHeldPage : (holding (bothPages .lockStep)).ready ∧
    (holding (bothPages .lockStep)).findStream nine = some 0 ∧ (follows .freeRun .receiving).held = none ∧
    (holding (bothPages .lockStep)).slot 2 = .held 0 6 3 ∧ (bothPages .lockStep).lastCompleted ≠ some 6 ∧
    { bothPages .lockStep with lastCompleted := some 6 }.lastCompleted = some 6 ∧
    (holding (bothPages .lockStep)).link.holding = none := ⟨ready_of rfl, by decide +kernel⟩

/-- Notes wait in the out-queue. -/
def noted (n : Nat) : State := { part .active with link := { LinkController.reset with notes := List.replicate n ⟨.all, 1⟩ } }

theorem test_witness_NotesAreQueuedAndCleared : (part .conflict).ready ∧ (part .unconfigured).ready ∧ (noted 8).ready ∧ (noted 7).ready ∧
    ((part .active).presence.state ∉ [.unconfigured, .conflict] ∧ 32 < (33 : Byte).toNat ∧ 255 < (256 : Word).toNat ∧
      (255 : Word).toNat ≤ 255) ∧ ((noted 8).link.notes.length = 8 ∧ (noted 7).link.notes.length < 8) ∧
    ((31 : Byte).toNat = (31 : Station).val ∧ (0xFFFFFFFF : Word) ≠ 0) :=
  ⟨ready_of rfl, ready_of rfl, ready_of rfl, ready_of rfl, by decide +kernel⟩

theorem test_witness_ReadStatusReadsTheParts : (part .active).ready ∧ (part .active).Bounded ∧
    (part .active).slots.free.length ≤ 32 ∧ ((2 : Byte).toNat ≤ 2 ∧ ¬ (3 : Byte).toNat ≤ 2 ∧ (31 : Byte).toNat ≤ 31 ∧
      ¬ (32 : Byte).toNat ≤ 31 ∧ (15 : Byte).toNat ≤ 15 ∧ (5 : Byte).toNat ≤ 5 ∧ (4 : Byte).toNat ≤ 4) ∧
    ((((filling .freeRun 0 2).slot 2).len?.getD 0) ≤ 4096 ∧ (((filling .freeRun 0 2).slot 2).gaps?.getD 0) ≤ 2) ∧
    (publisher (opened .freeRun)).entry 0 = some (.producer (opened .freeRun)) := by
  refine ⟨ready_of rfl, ⟨?_, ?_, ?_, ?_, ?_, ?_, ?_⟩, ?_⟩ <;> decide +kernel

/-- A station that wants to send the TAKE of entry 0. -/
def taking : State := listener { follows .lockStep .joining with take := true }

theorem test_witness_OpportunityStartsAnAttempt :
    ((withHolding .contending (.take 0) (.take 9 5) taking).driving = true ∧ taking.driving = false ∧
      (part .quiet).presence.state ∉ [.active, .leaving] ∧ taking.presence.state ∈ [.active, .leaving]) ∧
    ((withHolding .held (.take 0) (.take 9 5) taking).driving = false ∧
      (withHolding .held (.take 0) (.take 9 5) taking).link.holding = some ⟨.held, .take 0, .take 9 5, false, false⟩ ∧
      taking.buildFrame (.take 0) = some (.take 9 5)) ∧
    (taking.link.holding = none ∧ taking.selectSource = some (.take 0) ∧ (part .active).selectSource = none) := by decide +kernel

theorem test_witness_FramesAreChosenInOrder :
    (((publisher { opened .freeRun with prompt := true }).producer 0).bind (Producer.firstElement 0) = some (.prompt 0) ∧
      ∀ j : EntryIx, j ≠ 0 → (publisher { opened .freeRun with prompt := true }).producer j = none) ∧
    (∀ i : EntryIx, (taking.producer i).bind (Producer.firstElement i) = none) ∧
    ((taking.consumer 0).bind (Consumer.firstElement 0) = some (.take 0) ∧ ∀ j : EntryIx, j ≠ 0 → taking.consumer j = none) ∧
    (∀ i : EntryIx, ((noted 1).consumer i).bind (Consumer.firstElement i) = none) ∧
    ((noted 1).presence.rollPending = false ∧ (noted 1).link.notes ≠ [] ∧ flying.seg.offered ≠ none) := by decide +kernel

theorem test_witness_FramesAreChosenInOrder_within :
    ({ opened .freeRun with cuts := [(7, .timeout)] }.cuts = (7, .timeout) :: [] ∧ (opened .freeRun).cuts = [] ∧
      { opened .freeRun with admits := [(7, .full)] }.admits = (7, .full) :: [] ∧ (opened .freeRun).prompt = false ∧
      { opened .freeRun with gones := [3] }.gones = 3 :: [] ∧ (opened .freeRun).gones = []) ∧
    ({ follows .lockStep .receiving with drop := true }.drop = true ∧ (follows .lockStep .receiving).take = false ∧
      { follows .lockStep .receiving with free := some (3, true) }.free ≠ none ∧
      { follows .lockStep .receiving with gap := some (3, 1) }.gap ≠ none) := by decide +kernel

theorem test_witness_AttemptsEndAsTheLineSays :
    ((withHolding .contending (.take 0) (.take 9 5) taking).link.holding = some ⟨.contending, .take 0, .take 9 5, false, false⟩) ∧
    ((orphaned (withHolding .contending (.take 0) (.take 9 5) taking)).link.holding = some ⟨.contending, .take 0, .take 9 5, true, false⟩) ∧
    ((withHolding .transmitting (.take 0) (.take 9 5) taking).link.holding = some ⟨.transmitting, .take 0, .take 9 5, false, false⟩) ∧
    taking.port.inReset = false := by decide +kernel

theorem test_witness_AttemptsEndAsTheLineSays_idle :
    (∀ h, (withHolding .held (.take 0) (.take 9 5) taking).link.holding = some h →
      h.phase ≠ .contending ∧ h.phase ≠ .transmitting ∧ h.phase ≠ .aborting) := by
  intro h hh
  cases hh
  decide

/-- An attempt in ABORTING with the given attempt and drop counts. -/
def aborting (attempts drops : Nat) : State :=
  let s := withHolding .aborting (.take 0) (.take 9 5) taking
  { s with link := { s.link with attempts := attempts, drops := drops } }

theorem test_witness_FailedAttemptsLeadToMuted :
    ((aborting 2 0).link.holding = some ⟨.aborting, .take 0, .take 9 5, false, false⟩ ∧ (aborting 2 0).link.attempts < 3 ∧
      3 ≤ (aborting 3 7).link.attempts ∧ (orphaned (aborting 2 0)).link.holding = some ⟨.aborting, .take 0, .take 9 5, true, false⟩) ∧
    (let s := aborting 3 7
     let u := ({ s with link := { s.link with
       holding := none, attempts := 0, drops := min 8 (s.link.drops + 1), lineIdle := false } } : State).report (.take 0) (.take 9 5) false false
     u.transmits = true ∧ 8 ≤ u.link.drops) ∧
    ((aborting 0 8).transmits = true ∧ 8 ≤ (aborting 0 8).link.drops ∧ (aborting 0 7).link.drops < 8 ∧
      (aborting 0 8).publish.queue = [] ∧ (aborting 0 8).seg.flight = none ∧ flying.seg.flight = some aFlight ∧
      aFlight.withdrawAtClose = false) := by decide +kernel

theorem test_witness_FailedAttemptsLeadToMuted_drops : ∀ i c, (aborting 0 8).consumer i = some c → c.drop = false := by
  intro i c h
  have : ∀ i : EntryIx, ((aborting 0 8).consumer i).all fun c => c.drop == false := by decide +kernel
  have k := this i
  rw [h] at k
  simpa using k

theorem test_witness_ReportedElementsLeaveTheirSet : (publisher (opened .lockStep)).link.holding = none ∧
    (publisher (opened .lockStep)).entry 0 = some (.producer (opened .lockStep)) ∧ (opened .lockStep).state = .opened ∧
    (listener (follows .lockStep .departing)).link.holding = none ∧ (follows .lockStep .departing).state = .departing ∧
    (listener (follows .lockStep .departing)).entry 0 = some (.consumer (follows .lockStep .departing)) ∧
    ((filling .freeRun 0 1).entry 0 = some (.consumer { follows .freeRun .receiving with filling := some 2, timer := some 10000 }) ∧
      (filling .freeRun 0 1).slot 2 = .filling 0 6 (some 3) 0 1) := by decide +kernel

theorem test_witness_FramesReachTheBlocks : (part .active).port.inReset = false ∧ (part .active).driving = false ∧
    (withHolding .contending (.take 0) (.take 9 5) taking).driving = true ∧ (part .unconfigured).driving = false ∧
    (rawOf (.takeFrame 7 0 9 7)).isSome = true := by decide +kernel

/-- A posted page on an ACTIVE station whose entry is eligible, in the middle of an event. -/
def selectable (p : Producer) : State :=
  withQueue [⟨0, 4, 0, .page 1 3 true none⟩] (withBytes 4096 [1, 2, 3] (withSlot 1 (.queued 0 3) (publisher p)))

theorem test_witness_EndOfEventSelectsAPage :
    (let s := selectable (opened .freeRun)
     s.presence.state = .active ∧ s.seg = ⟨none, none, none, none⟩ ∧ (∀ d ∈ s.publish.queue, d.isPause = false) ∧
       (∀ i, s.passWanted i = none) ∧ s.entry 0 = some (.producer (opened .freeRun)) ∧ s.slot 1 ≠ .free) ∧
    (let s := selectable (opened .freeRun)
     s.publish.queue.find? (fun d => match s.entry d.entry with
       | some (.producer p) => p.state == .opened && p.phase == some .idle && !p.paused
       | _ => false) = some ⟨0, 4, 0, .page 1 3 true none⟩) ∧
    (let s := selectable { opened .freeRun with paused := true }
     s.publish.queue.find? (fun d => match s.entry d.entry with
       | some (.producer p) => p.state == .opened && p.phase == some .idle && !p.paused
       | _ => false) = none) := by decide +kernel

theorem test_witness_PagesGoOutAndComplete :
    (let s := { flying with publish := ⟨[], 2⟩ }
     s.presence.state = .active ∧ s.seg = ⟨some aFlight, some ⟨.pageSeg 0, .seg 9 6 0 1 3 [1, 2, 3]⟩, none, none⟩ ∧
       (∀ i, s.passWanted i = none) ∧ (aFlight.len + 127) / 128 ≤ 0 + 1 ∧ 0 + 1 < ({ aFlight with len := 129 }.len + 127) / 128) ∧
    (let s := withSeg ⟨some aFlight, some ⟨.pageClose, .close 9 6 3 .normal 0⟩, none, none⟩ { flying with publish := ⟨[], 2⟩ }
     s.publish.queue = [] ∧ s.seg.flight = some aFlight ∧ aFlight.withdrawAtClose = false ∧ aFlight.tail = none ∧
       s.entry 0 = some (.producer { opened .freeRun with phase := some .sending, nextPage := 7, sending := some 1 })) := by
  decide +kernel

theorem test_witness_FramesOutOfRangeAreCounted : (part .active).hearing ∧ ((1 : BitVec 1) ≠ 0 ∧ (0 : StreamId) = 0) ∧
    31 < (32 : Byte).toNat ∧ 2 < (3 : Byte).toNat ∧ 1 < (2 : Byte).toNat ∧ 4096 < (4097 : Half).toNat ∧
    ((0 : Half) = 0 ∧ (1 : Byte).toNat ≤ (1 : Byte).toNat ∧ [(1 : Byte)].length ≠ min 128 ((3 : Half).toNat - 128 * 0)) ∧
    (8 < (List.replicate 9 (0 : Byte)).length ∧ ¬ [(3 : Byte), 3].Pairwise (fun a b => a.toNat < b.toNat) ∧
      32 < (List.replicate 33 (0 : Byte)).length) ∧
    ((1 : BitVec 2) ≠ 0 ∧ 8 < (List.replicate 9 aRawClaim).length ∧
      ¬ [aRawClaim, aRawClaim].Pairwise (fun a b => a.stream.toNat < b.stream.toNat)) ∧
    ((true = true ∧ (1 : BitVec 5) ≠ 0) ∧ (6 : Byte).toNat ≠ (7 : Station).val) := ⟨hearing_of rfl, by decide⟩

theorem test_witness_SegmentsAreReceived : (listener (follows .freeRun .receiving)).hearing ∧ (filling .freeRun 0 0).hearing ∧
    ((filling .freeRun 0 0).presence.state ≠ .conflict ∧ segOk 0 nine 0 1 3 3 = true ∧
      (filling .freeRun 0 0).findStream nine = some 0) ∧
    ((follows .freeRun .receiving).state = .receiving ∧ (follows .freeRun .receiving).producer = some 7 ∧
      (follows .freeRun .receiving).mode ≠ .lockStep) ∧
    ((follows .freeRun .receiving).filling = none ∧ (listener (follows .freeRun .receiving)).slots.free = 0 :: allSlots.drop 1 ∧
      (noneFree (listener (follows .freeRun .receiving))).slots.free = [] ∧ isNewer 6 5 = true ∧ isNewer 5 6 = false) ∧
    ((filling .freeRun 0 0).slot 2 = .filling 0 6 (some 3) 0 0 ∧ hasElem 1 0 = true ∧ hasElem 0 0 = false ∧ isNewer 7 6 = true) := by
  refine ⟨hearing_of rfl, hearing_of rfl, ?_, ?_, ?_, ?_⟩ <;> decide +kernel

theorem test_witness_SegmentsAreReceived_supersede :
    (((filling .freeRun 0 0).heard.pageLost 0 6 (some 2) .superseded).consumer 0).any (fun d => d.filling == some 2) = true := by
  decide +kernel

theorem test_witness_ClosesCompleteOrLosePages : (filling .freeRun 1 0).hearing ∧ (listener (follows .lockStep .receiving)).hearing ∧
    (nine ≠ 0 ∧ (4096 : Half).toNat ≤ 4096 ∧ (filling .freeRun 1 0).findStream nine = some 0) ∧
    ((filling .freeRun 1 0).slot 2 = .filling 0 6 (some 3) 1 0 ∧ setMinus (setBelow ((3 + 127) / 128)) 1 = 0 ∧
      setMinus (setBelow ((3 + 127) / 128)) 0 ≠ 0 ∧ pageCheck (memReadList (filling .freeRun 1 0).slots.mem (4096 * 2) 3) = 0x55BC801D) ∧
    (CloseKind.normal ≠ .withdrawn ∧ (follows .lockStep .receiving).filling = none ∧
      (listener (follows .lockStep .receiving)).slots.free = 0 :: allSlots.drop 1) := by
  refine ⟨hearing_of rfl, hearing_of rfl, ?_, ?_, ?_⟩ <;> decide +kernel

theorem test_witness_PagesCompleteAsReady :
    ((filling .lockStep 1 1).entry 0 = some (.consumer { follows .lockStep .receiving with filling := some 2, timer := some 10000 }) ∧
      (filling .lockStep 1 1).slot 2 = .filling 0 6 (some 3) 1 1 ∧ (filling .lockStep 1 2).slot 2 = .filling 0 6 (some 3) 1 2) ∧
    (filling .lockStep 1 1).link.holding = none := by decide +kernel

theorem test_witness_AdmitsAndCutsMoveTheMember : (listener (follows .lockStep .joining)).hearing ∧
    (listener (follows .lockStep .receiving)).hearing ∧ ((listener (follows .lockStep .joining)).findStream nine = some 0 ∧
      (listener (follows .lockStep .joining)).link.holding = none ∧ (31 : Byte).toNat ≤ 31) ∧
    ((follows .lockStep .joining).producer = some 7 ∧ (5 : Byte).toNat = (listener (follows .lockStep .joining)).presence.station.val) ∧
    ((2 : Byte).toNat ≤ 2 ∧ (1 : Byte).toNat ≤ 1) := by
  refine ⟨hearing_of rfl, hearing_of rfl, ?_, ?_, ?_⟩ <;> decide +kernel

theorem test_witness_PromptsAndGonesAreAnswered : (filling .lockStep 0 0).hearing ∧ (holding (bothPages .lockStep)).hearing ∧
    (promptOk 0 nine [5] = true ∧ (∃ b ∈ [(5 : Byte)], b.toNat = (filling .lockStep 0 0).presence.station.val) ∧
      ¬ ∃ b ∈ [(6 : Byte)], b.toNat = (filling .lockStep 0 0).presence.station.val) ∧
    ((filling .lockStep 0 0).slot 2 = .filling 0 6 (some 3) 0 0 ∧ ((holding (bothPages .lockStep)).slot 3).page? = some 7) ∧
    ((follows .lockStep .receiving).lastReleased ≠ some 6 ∧ (follows .lockStep .receiving).filling = none ∧
      (follows .lockStep .receiving).lastCompleted = none ∧ (follows .lockStep .receiving).firstAdmitted = none) := by
  refine ⟨hearing_of rfl, hearing_of rfl, ?_, ?_, ?_⟩ <;> decide +kernel

/-- A lock-step entry with the given member set, heard by a station that has peer 7 PRESENT. -/
def joined (members : StationSet) : State := withPeer 7 [] (publisher { opened .lockStep with members := members })

theorem test_witness_TakesAreAnswered : (joined 0x7F).hearing ∧ (joined 0x7F).presence.state ≠ .conflict ∧
    ((joined 0x7F).findStream nine = some 0 ∧ (opened .lockStep).state = .opened ∧ (joined 0x7F).link.holding = none) ∧
    ((7 : Station) ≠ (joined 0x7F).presence.station ∧ (7 : Byte).toNat = (7 : Station).val ∧ ((joined 0x7F).peer 7).isPresent = true ∧
      (opened .lockStep).admits.length < 8) ∧
    (cardOf 0x7F < 8 ∧ 8 ≤ cardOf 0xFF00 ∧ (0xFF00 : StationSet).getLsbD 7 = false ∧ (0x80 : StationSet).getLsbD 7 = true) ∧
    (awaiting.phase = some .awaitingRelease ∧ awaiting.lastClosed = some 3 ∧ (opened .lockStep).phase = some .idle ∧
      flying.slot 1 = .sending 0 6 3) := by
  refine ⟨hearing_of rfl, ?_, ?_, ?_, ?_, ?_⟩ <;> decide +kernel

theorem test_witness_DropsAndFreesReachTheBarrier : (publisher awaiting).hearing ∧ (publisher (opened .lockStep)).hearing ∧
    ((publisher awaiting).findStream nine = some 0 ∧ (publisher awaiting).publish.queue = [] ∧
      (publisher awaiting).link.holding = none ∧ (7 : Byte).toNat = (7 : Station).val ∧ awaiting.mode = .lockStep) ∧
    ((opened .lockStep).members.getLsbD 7 = false ∧ (opened .lockStep).cuts.length < 8 ∧ awaiting.members.getLsbD 7 = true) ∧
    ((awaiting.awaited &&& ~~~(1#32 <<< 7)) &&& ~~~(awaiting.released &&& ~~~(1#32 <<< 7)) = 0 ∧
      ({ awaiting with awaited := 0x180 }.awaited &&& ~~~(1#32 <<< 7)) &&& ~~~(awaiting.released &&& ~~~(1#32 <<< 7)) ≠ 0) ∧
    (isOlder 2 3 = true ∧ (2 : PageNum) ≠ 3 ∧ isOlder 4 3 = false ∧ (opened .lockStep).lastClosed = none) ∧
    (awaiting.awaited.getLsbD 7 = true ∧ awaiting.released.getLsbD 7 = false ∧ awaiting.timer = some ⟨0, 0, 80000⟩ ∧
      awaiting.awaited &&& ~~~(awaiting.released ||| (1#32 <<< 7)) = 0) := by
  refine ⟨hearing_of rfl, hearing_of rfl, ?_, ?_, ?_, ?_, ?_⟩ <;> decide +kernel

/-- A producer entry with page 3 RETAINED in slot 4. -/
def kept (passes : Nat) : State :=
  withSlot 4 (.retained 0 3 129) (publisher { opened .freeRun with
    lastClosed := some 3, nextPage := 4, retained := some 4, repairPasses := passes })

theorem test_witness_GapsJoinTheRepairSet : (kept 1).hearing ∧ flying.hearing ∧
    (gapOk 0 nine 7 [0, 31] = true ∧ (kept 1).findStream nine = some 0 ∧ (kept 1).seg.pass = none ∧ (kept 1).link.holding = none) ∧
    ((kept 1).slot 4 = .retained 0 3 129 ∧ (kept 1).retainedPage (opened .freeRun) ≠ some 3) ∧
    (flying.seg.flight = some aFlight ∧ aFlight.entry = 0 ∧ aFlight.page = 6 ∧ aFlight.page ≠ 5) ∧
    (setOfList [0] &&& setBelow ((3 + 127) / 128) &&& setBelow 1 ≠ 0 ∧
      setOfList [0] &&& setBelow ((3 + 127) / 128) &&& setBelow aFlight.next = 0) := by
  refine ⟨hearing_of rfl, hearing_of rfl, ?_, ?_, ?_, ?_⟩ <;> decide +kernel

theorem test_witness_RollsKeepThePeerTable : (part .active).hearing ∧ (part .configured).hearing ∧
    (withPeer 7 [] (part .active)).hearing ∧ (rollOk 0 [aRawClaim] = true ∧ (7 : Station) ≠ (part .active).presence.station ∧
      (∀ i : EntryIx, (part .active).entry i = none)) ∧
    (((part .active).peer 7).isPresent = false ∧ ((withPeer 7 [] (part .active)).peer 7).isPresent = true ∧
      ((withPeer 7 [] (part .active)).peer 7).lastCount = some 3 ∧ (2 : Byte) < 3 ∧ ¬ (3 : Byte) < 3) := by
  refine ⟨hearing_of rfl, hearing_of rfl, hearing_of rfl, ?_, ?_⟩ <;> decide +kernel

theorem test_witness_OwnRollsLeadToConflict : (part .active).hearing ∧ (part .quiet).hearing ∧
    ((part .active).presence.state ∈ [.listening, .active, .leaving, .muted] ∧
      (part .quiet).presence.state ∈ [.configured, .quiet, .conflict] ∧ rollOk 0 [] = true) ∧
    ((part .active).publish.queue = [] ∧ (part .active).seg.flight = none ∧ ∀ i : EntryIx, (part .active).entry i = none) := by
  refine ⟨hearing_of rfl, hearing_of rfl, ?_, ?_⟩ <;> decide +kernel

/-- An OPEN producer entry on a station that has peer 2 PRESENT. -/
def contested : State := withPeer 2 [] (publisher (opened .freeRun))

theorem test_witness_DisputesDisputeTheEntry : contested.hearing ∧ (rollOk 0 [aRawClaim] = true ∧ contested.presence.state = .active ∧
      (2 : Station) < contested.presence.station ∧ (contested.peer 2).isPresent = true ∧ (contested.peer 2).lastCount = some 3 ∧
      ¬ (4 : Byte) < 3) ∧
    (contested.entry 0 = some (.producer (opened .freeRun)) ∧ (∀ j : EntryIx, j ≠ 0 → contested.entry j = none) ∧
      (∃ c ∈ [aRawClaim], c.stream = (opened .freeRun).stream) ∧ contested.publish.queue = [] ∧ contested.seg.flight = none ∧
      contested.link.holding = none) := by
  refine ⟨hearing_of rfl, ?_, ?_⟩ <;> decide +kernel

theorem test_witness_NotesReachTheNoticeTable : (part .active).hearing ∧ ((31 : Byte).toNat = (31 : Station).val ∧ (0 : BitVec 5) = 0 ∧
      (5 : BitVec 5).toNat = (part .active).presence.station.val ∧ (6 : BitVec 5).toNat ≠ (part .active).presence.station.val) ∧
    ((part .active).notices[(31 : Station)].pending = false ∧ (⟨true, 255, some 1⟩ : Notice).pending = true) := by
  refine ⟨hearing_of rfl, ?_, ?_⟩ <;> decide +kernel

/-- A LISTENING station with a running listen timer and roll timer and one DECLARED entry. -/
def waking : State :=
  withPresence (fun p => { p with listenTimer := some 10000, rollTimer := some 10000 })
    (withEntry (.producer (.declared 9 .freeRun 256 20 .zero)) (part .listening))

theorem test_witness_RollAndListenTimers : (waking.port.inReset = false ∧ waking.presence.rollTimer = some 10000 ∧
      waking.presence.listenTimer = some 10000 ∧ waking.presence.state = .listening) ∧
    ((part .active).presence.rollTimer = none ∧ (part .active).presence.listenTimer = none ∧
      (∀ i : EntryIx, (part .listening).entry i = none)) ∧
    (waking.entry 0 = some (.producer (.declared 9 .freeRun 256 waking.floor .zero)) ∧
      (∀ j : EntryIx, j ≠ 0 → waking.entry j = none) ∧ waking.publish.queue = [] ∧ waking.seg = ⟨none, none, none, none⟩ ∧
      waking.link.holding = none) ∧
    ((∀ n ∈ waking.claimants nine, waking.presence.station ≤ n) ∧
      ((withPeer 2 [aClaim] waking).claimants nine).find? (fun m => decide (m < (withPeer 2 [aClaim] waking).presence.station)) = some 2) := by
  decide +kernel

/-- A free-run consumer entry whose producer of record is the PRESENT peer 7. -/
def followed : State := withPeer 7 [aClaim] (listener (follows .freeRun .receiving))

theorem test_witness_SilentPeersGoAbsent : ((followed.peer 7).silence = some 1000 ∧ (followed.peer 7).isPresent = true ∧
      followed.entry 0 = some (.consumer (follows .freeRun .receiving)) ∧ (∀ j : EntryIx, j ≠ 0 → followed.entry j = none) ∧
      (follows .freeRun .receiving).filling = none ∧ followed.claimants nine = [7] ∧ followed.link.holding = none) ∧
    ((withPeer 7 [] (part .active)).peer 7).silence = some 1000 ∧ (∀ i : EntryIx, (part .active).entry i = none) ∧
    ((part .active).peer 7).silence = none := by decide +kernel

theorem test_witness_ConsumerTimersExpire :
    ((filling .freeRun 0 0).entry 0 = some (.consumer { follows .freeRun .receiving with filling := some 2, timer := some 10000 })) ∧
    ({ follows .lockStep .joining with joinTries := 2, timer := some 9 }.joinTries < 3 ∧
      3 ≤ { follows .lockStep .joining with joinTries := 3, timer := some 9 }.joinTries ∧
      (follows .lockStep .joining).state = .joining ∧ (follows .lockStep .joining).timer = none) ∧
    (filling .freeRun 0 0).link.holding = none ∧ (filling .freeRun 0 0).port.inReset = false := by decide +kernel

theorem test_witness_ReleaseTimersPromptAndCut : ((publisher awaiting).entry 0 = some (.producer awaiting) ∧
      awaiting.timer = some ⟨0, 0, 80000⟩ ∧ awaiting.phase = some .awaitingRelease ∧ awaiting.promptSent = false) ∧
    (awaiting.awaited &&& ~~~awaiting.released = 1#32 <<< (7 : Station).val ∧ awaiting.cuts.length < 8 ∧
      (publisher awaiting).publish.queue = [] ∧ (publisher awaiting).link.holding = none) ∧
    ((opened .lockStep).timer = none ∧ (opened .lockStep).phase ≠ some .awaitingRelease ∧ (publisher awaiting).port.inReset = false) := by
  decide +kernel

theorem test_witness_PageNumbersWrap : ((0 - 1 : PageNum).toNat + 65536 - (0 : PageNum).toNat) % 65536 = 65535 ∧
    ((32767 : PageNum).toNat + 65536 - (65535 : PageNum).toNat) % 65536 = 32768 ∧
    (listener (follows .freeRun .receiving)).consumer 0 = some (follows .freeRun .receiving) := by decide +kernel


/-! ### Widened statements: more states that meet their hypotheses -/

/-- A state at a given instant. -/
def later (t : Micros) (s : State) : State := { s with time := t }

theorem test_witness_DueTimers :
    (isDue 80 (BitVec.ofNat 32 80) = true ∧ isDue 0x80000050 (BitVec.ofNat 32 80) = true ∧ isDue 0x80000051 (BitVec.ofNat 32 80) = false) ∧
    ((later 81 clearingAt80).port.clearing = true ∧ (later 81 clearingAt80).dueEvent = some .pageMemoryClearingEnd) ∧
    ((later 10001 waking).port.clearing = false ∧ (later 10001 waking).presence.state = .listening ∧
      isDue (later 10001 waking).time 10000 = true ∧ (later 10001 waking).dueEvent = some .listenTimerExpiry) ∧
    (let s := withPresence (fun p => { p with listenTimer := none }) (later 10001 waking)
     s.presence.rollTimer = some 10000 ∧ s.dueEvent = some .rollTimerDue) := by decide +kernel

theorem test_witness_DueTimers_silence :
    (let s := later 1001 (withPeer 8 [] (withPeer 7 [] (part .active)))
     s.port.clearing = false ∧ s.presence.listenTimer = none ∧ s.presence.rollTimer = none ∧ (s.peer 7).isPresent = true ∧
       (s.peer 7).silence = some 1000 ∧ isDue s.time 1000 = true ∧ (∀ m : Station, m < 7 → (s.peer m).isPresent = false) ∧
       s.dueEvent = some (.silenceTimerExpiry 7)) ∧
    ∀ n : Station, (part .active).peer n = .reset := by decide +kernel

theorem test_witness_DueTimers_entries :
    ((later 10001 (filling .freeRun 0 0)).entry 0 =
        some (.consumer { follows .freeRun .receiving with filling := some 2, timer := some 10000 }) ∧
      (later 10001 (filling .freeRun 0 0)).dueEvent = some (.receptionTimerExpiry 0)) ∧
    ((later 9 (listener { follows .lockStep .joining with timer := some 9 })).dueEvent = some (.joinWaitExpiry 0)) ∧
    (publisher awaiting).entry 0 = some (.producer awaiting) ∧
    ((later 40000 (publisher awaiting)).dueEvent = some (.releaseTimerHalf 0) ∧
      (later 90000 (publisher awaiting)).dueEvent = some (.releaseTimerHalf 0)) ∧
    ((later 80001 (publisher { awaiting with promptSent := true })).dueEvent = some (.releaseTimerExpiry 0) ∧
      (later 79999 (publisher { awaiting with promptSent := true })).dueEvent = none) := by decide +kernel

theorem test_witness_WindowSelectsASlot_lanes : (7 : BitVec 4) ≠ 0xF ∧ (0xF : BitVec 4) = 0xF := by decide

theorem test_witness_LineIsDriven : (part .active).port.inReset = false ∧ (part .active).port.clearing = false ∧
    (withHolding .contending (.take 0) (.take 9 5) taking).link.holding = some ⟨.contending, .take 0, .take 9 5, false, false⟩ ∧
    (withHolding .transmitting (.take 0) (.take 9 5) taking).linkDE = true ∧
    (withHolding .transmitting (.take 0) (.take 9 5) taking).linkDrive = .frame ∧
    (withHolding .aborting (.take 0) (.take 9 5) taking).linkDrive = .abort ∧
    (withHolding .held (.take 0) (.take 9 5) taking).linkDrive = .high ∧ taking.linkDE = false := by decide +kernel

/-- The limit of dropped frames reached. -/
def spent (s : State) : State := { s with link := { s.link with drops := 8 } }

/-- A pass on page 3, whose segment 1 waits. -/
def passing (position : Option Nat) (closing : Bool) (o : Option Offered) : State :=
  withSeg ⟨none, o, none, some ⟨0, 3, position, closing⟩⟩ (withSlot 4 (.retained 0 3 129) (publisher { opened .freeRun with
    lastClosed := some 3, nextPage := 4, retained := some 4, repairPasses := 1, repairSet := 2, repairTag := some 3 }))

/-- What a pass offers. -/
def passFrame (k : OfferedKind) : Option Offered := some ⟨k, .cut nine 7 .timeout⟩

theorem test_witness_MutedReachesPasses :
    (let s := spent (passing (some 0) false (passFrame (.passSeg 0 none)))
     s.port.inReset = false ∧ s.transmits = true ∧ 8 ≤ s.link.drops ∧ s.seg.pass = some ⟨0, 3, some 0, false⟩ ∧ s.seg.flight = none ∧
       answers (exec .muted s) (fun t => t.seg.pass == some ⟨0, 3, none, false⟩ &&
         (t.producer 0).any (fun p => p.repairSet == 3)) = true) ∧
    (let s := spent (passing (some 0) true (passFrame .passClose))
     answers (exec .muted s) (fun t => t.seg.pass == some ⟨0, 3, some 0, true⟩ && t.seg.offered == none) = true) := by
  decide +kernel

theorem test_witness_MutedReachesPagesAndDrops :
    (let s := spent { withSeg ⟨some { aFlight with withdrawAtClose := true }, none, none, none⟩ flying with publish := ⟨[], 2⟩ }
     s.port.inReset = false ∧ s.transmits = true ∧ 8 ≤ s.link.drops ∧ s.seg.pass = none ∧ s.publish.queue = [] ∧
       (∀ i : EntryIx, s.consumer i = none) ∧ s.slot 1 ≠ .free ∧
       answers (exec .muted s) (fun t => t.slot 1 == .writing && t.seg.withdrawn == some ⟨9, 6, 3, 0⟩ &&
         told t == [.stationState .active .muted, .sent 9 1 (some 6) .disputed 4]) = true) ∧
    (let s := spent (listener { follows .lockStep .departing with drop := true })
     s.seg.flight = none ∧ s.publish.queue = [] ∧ s.link.holding = none ∧ (∀ j : EntryIx, j ≠ 0 → s.entry j = none) ∧
       answers (exec .muted s) (fun t => t.entry 0 == none) = true) := by decide +kernel

/-- A lock-step entry whose DROP waits behind its FILLING page. -/
def droppedEntry : Consumer := { follows .lockStep .receiving with filling := some 2, timer := some 10000, drop := true }

theorem test_witness_MutedReachesPagesAndDrops_filling :
    (let s := spent (withEntry (.consumer droppedEntry) (filling .lockStep 0 0))
     s.slot 2 = .filling 0 6 (some 3) 0 0 ∧ s.link.holding = none ∧
       answers (exec .muted s) (fun t => t.slot 2 == .free && told t == [.stationState .active .muted, .pageLost 9 6 (some 2) .producerLost] &&
         (t.consumer 0).any (fun c => c.state == .waiting && c.drop == false && c.filling == none)) = true) := by decide +kernel

/-- A pass sends what its set holds above its position; once its REPAIR CLOSE has been offered and taken back, what joined
the set waits (R92, R94). -/
theorem test_witness_RepairWorkComesFirst :
    (let s := passing (some 0) false none
     s.presence.state = .active ∧ s.seg.offered = none ∧ s.publish.queue = [] ∧ s.seg.pass = some ⟨0, 3, some 0, false⟩ ∧
       s.slot 4 = .retained 0 3 129 ∧ (s.settle).seg.offered.any (fun o => o.kind == .passSeg 1 (some 0)) = true) ∧
    ((passing (some 0) true none).settle.seg.offered.any (fun o => o.kind == .passClose) = true) ∧
    ((passing (some 1) false none).settle.seg.offered.any (fun o => o.kind == .passClose) = true) := by decide +kernel

theorem test_witness_RepairWorkComesFirst_begin :
    (let s := { passing none false none with seg := .reset }
     s.seg.pass = none ∧ s.passWanted 0 = some 0 ∧ (∀ j : EntryIx, j ≠ 0 → s.passWanted j = none) ∧
       s.settle.seg.pass = some ⟨0, 3, some 1, false⟩ ∧ (s.settle.producer 0).any (fun p => p.repairPasses == 2) = true) ∧
    (let s := passing none false none
     let d := withEntry (.producer { opened .freeRun with state := .disputed }) s
     d.seg.pass = some ⟨0, 3, none, false⟩ ∧ d.settle.seg.pass = none) ∧
    (let s := withSeg ⟨none, none, some ⟨9, 6, 3, 0⟩, none⟩ (publisher (opened .freeRun))
     (∀ i : EntryIx, s.passWanted i = none) ∧ s.settle.seg.offered = some ⟨.withdrawnClose, .close 9 6 3 .withdrawn 0⟩) := by
  decide +kernel

theorem test_witness_RepairPassReports :
    (passing (some 1) false (passFrame (.passSeg 1 none))).seg.offered = some ⟨.passSeg 1 none, .cut nine 7 .timeout⟩ ∧
    (withSeg ⟨none, passFrame .withdrawnClose, none, none⟩ (part .active)).seg.offered = some ⟨.withdrawnClose, .cut nine 7 .timeout⟩ ∧
    (let s := passing (some 1) true (passFrame .passClose)
     s.seg.offered = some ⟨.passClose, .cut nine 7 .timeout⟩ ∧ s.seg.pass = some ⟨0, 3, some 1, true⟩ ∧ s.link.holding = none ∧
       (s.producer 0).any (fun p => p.repairTag == some 3 && p.repairSet != 0 && decide (p.repairPasses < 2)) = true) ∧
    (let s := withEntry (.producer { opened .lockStep with
        phase := some .awaitingRelease, timer := some ⟨0, 0, 80000⟩, repairTag := some 3, repairSet := 2, repairPasses := 2 })
        (later 5 (passing (some 1) true (passFrame .passClose)))
     (s.segmenterReport true).producer 0 = some { opened .lockStep with
        phase := some .awaitingRelease, timer := some ⟨0, 5, 80005⟩, repairPasses := 2, gones := [3] } ∧
     (s.segmenterReport false).producer 0 = some { opened .lockStep with
        phase := some .awaitingRelease, timer := some ⟨0, 0, 80000⟩, repairPasses := 2, gones := [3] }) := by decide +kernel

/-- A page in flight whose CLOSE NORMAL is offered, with a tail note; the RETAINED page 5 has a repair pending. -/
def closing (f : Flight) (s : State) : State :=
  withSeg ⟨some f, some ⟨.pageClose, .close 9 6 3 .normal 0⟩, none, none⟩ (withSlot 3 (.retained 0 5 3) (withEntry (.producer
    { opened .freeRun with
      phase := some .sending, nextPage := 7, sending := some 1, retained := some 3, repairTag := some 5, repairSet := 1 })
    (withSlot 1 (.sending 0 6 3) s)))

theorem test_witness_CloseNormalCompletesThePage :
    (let s := closing { aFlight with tail := some ⟨.all, 1⟩, report := false } (noted 8)
     s.entry 0 = some (.producer { opened .freeRun with
        phase := some .sending, nextPage := 7, sending := some 1, retained := some 3, repairTag := some 5, repairSet := 1 }) ∧
       (s.slot 3).page? = some 5 ∧ 8 ≤ s.link.notes.length ∧ s.link.holding = none ∧
       (s.segmenterReport true).slot 3 = .free ∧ ((s.segmenterReport true).producer 0).any (fun p => p.gones == [5]) = true ∧
       told (s.segmenterReport true) = [.sent 9 1 (some 6) .doneNoteDropped 4]) ∧
    (let s := closing { aFlight with tail := some ⟨.all, 1⟩, report := false } (noted 7)
     (s.segmenterReport true).link.notes.length = 8 ∧ told (s.segmenterReport true) = []) ∧
    (let s := closing { aFlight with withdrawAtClose := true } (part .active)
     (s.segmenterReport true).slot 1 = .writing ∧ (s.segmenterReport true).seg.withdrawn = none ∧
       told (s.segmenterReport true) = [.sent 9 1 (some 6) .disputed 4]) := by decide +kernel

theorem test_witness_MarkersTakeEffect :
    (let s := withQueue [aPause, aPage] (publisher (opened .freeRun))
     s.publish.queue.filter (fun d => d.entry == 0) = aPause :: [aPage] ∧ aPause.isPause = true ∧ aPage.isPause = false ∧
       s.entry 0 = some (.producer (opened .freeRun)) ∧ told (State.applyMarkers 0 s) = [.paused 9 5]) ∧
    (withQueue [aPage] (publisher (opened .freeRun))).publish.queue.head? = some aPage ∧
    ¬ (awaiting.state = .opened ∧ awaiting.phase = some .idle) := by decide +kernel

theorem test_witness_ClosesOfOtherPages : (filling .freeRun 0 0).hearing ∧
    ((filling .freeRun 0 0).presence.state ≠ .conflict ∧ (filling .freeRun 0 0).findStream nine = some 0 ∧
      (filling .freeRun 0 0).slot 2 = .filling 0 6 (some 3) 0 0 ∧ isOlder 6 7 = true ∧ (7 : PageNum) ≠ 6 ∧ isOlder 6 5 = false ∧
      (follows .freeRun .receiving).producer ≠ some 8 ∧ (follows .lockStep .joining).state ≠ .receiving ∧ isOlder 5 6 = true) ∧
    (answers (exec (.closeFrame 7 0 9 7 0 0 0) (filling .freeRun 0 0)) (fun t =>
      t.slot 2 == .ready 0 7 0 && told t == [.pageLost 9 6 (some 2) .superseded, .pageReady 9 7 2]) = true) ∧
    (answers (exec (.closeFrame 7 0 9 7 3 0 0) (filling .freeRun 0 0)) (fun t =>
      t.slot 2 == .filling 0 6 (some 3) 0 0 && t.link.counters.staleSegments == 1) = true) := by
  refine ⟨hearing_of rfl, ?_, ?_, ?_⟩ <;> decide +kernel

/-- Eight targets. -/
def eightCuts : List (Station × CutReason) := (List.finRange 8).map fun k => (⟨k.val, by omega⟩, .timeout)

theorem test_witness_DropsAndFrees_more : (8 : Byte).toNat ≠ (7 : Station).val ∧ (opened .freeRun).mode = .freeRun ∧
    ({ opened .lockStep with state := .disputed }.state ≠ .opened) ∧
    ((∀ r, ((9 : Station), r) ∉ eightCuts) ∧ 8 ≤ eightCuts.length ∧ ((7 : Station), CutReason.timeout) ∈ eightCuts) := by
  refine ⟨by decide, rfl, by decide, ?_, by decide, by decide⟩
  intro r
  cases r <;> decide

theorem test_witness_GapsJoinTheRepairSet_pass : (passing (some 0) false none).hearing ∧
    ((passing (some 0) false none).seg.pass = some ⟨0, 3, some 0, false⟩ ∧ (passing (some 0) false none).seg.offered = none ∧
      (passing (some 0) false none).slot 4 = .retained 0 3 129 ∧
      (passing (some 0) false (passFrame (.passSeg 0 none))).seg.offered = some ⟨.passSeg 0 none, .cut nine 7 .timeout⟩) ∧
    ({ opened .freeRun with repairTag := some 6 }.repairTag = some 6 ∧ (6 : PageNum) ≠ 3) ∧
    answers (exec (.gapFrame 7 0 9 7 3 [0]) (passing (some 1) true (passFrame .passClose))) (fun t =>
      (t.producer 0).any (fun p => p.repairSet == 3)) = true := by
  refine ⟨hearing_of rfl, ?_, ?_, ?_⟩ <;> decide +kernel

theorem test_witness_RollsReachTheEntries : followed.hearing ∧
    (rollOk 0 [] = true ∧ (7 : Station) ≠ followed.presence.station ∧ followed.presence.state ≠ .configured ∧
      (followed.peer 7).isPresent = true ∧ (followed.peer 7).lastCount = some 3) ∧
    (followed.entry 0 = some (.consumer (follows .freeRun .receiving)) ∧ (follows .freeRun .receiving).producer = some 7 ∧
      (followed.peer 7).claims = [aClaim] ∧ aClaim.stream = nine ∧ (Consumer.created nine .freeRun).producer = none) ∧
    ((withPeer 7 [] followed).peer 7).claims = [] ∧
    (contested.transmits = true ∧ (2 : Station) < contested.presence.station ∧ contested.entry 0 = some (.producer (opened .freeRun)) ∧
      ((withPeer 2 [aClaim] contested).disputesAtRoll 2) = [(0, 2)] ∧ contested.consumer 0 = none) := by
  refine ⟨hearing_of rfl, ?_, ?_, ?_, ?_⟩ <;> decide +kernel

theorem test_witness_ConflictReachesEntriesAndSlots : flying.hearing ∧ (filling .lockStep 0 0).hearing ∧
    (flying.presence.state ∈ [.listening, .active, .leaving, .muted] ∧ rollOk 0 [] = true ∧ flying.seg.flight = some aFlight ∧
      flying.slot 1 ≠ .free ∧ (∀ j : EntryIx, flying.consumer j = none) ∧ flying.entry 1 = none ∧
      (publisher awaiting).seg.flight = none) ∧
    answers (exec (.rollFrame 5 false 0 3 []) flying) (fun t => t.slot 1 == .writing &&
      (t.producer 0).any (fun p => p.phase == some .idle && p.sending == none)) = true ∧
    answers (exec (.rollFrame 5 false 0 3 []) (filling .lockStep 0 0)) (fun t => t.slot 2 == .free &&
      t.entry 0 == some (.consumer (follows .lockStep .receiving))) = true ∧
    answers (exec (.rollFrame 5 false 0 3 []) (listener (follows .lockStep .departing))) (fun t => t.entry 0 == none) = true := by
  refine ⟨hearing_of rfl, hearing_of rfl, ?_, ?_, ?_, ?_⟩ <;> decide +kernel

/-- A LISTENING station with the entry `e` alone. -/
def wakingWith (e : Entry) : State := withEntry e waking

theorem test_witness_EntriesMeetTheirClaimants :
    (let p := { opened .freeRun with retained := some 4 }
     let s := withSlot 4 (.retained 0 3 129) (withPeer 2 [aClaim] (wakingWith (.producer p)))
     s.presence.state = .listening ∧ s.presence.listenTimer = some 10000 ∧ (∀ j : EntryIx, j ≠ 0 → s.entry j = none) ∧
       s.publish.queue = [] ∧ s.seg = ⟨none, none, none, none⟩ ∧ s.link.holding = none ∧ s.entry 0 = some (.producer p) ∧
       (s.claimants nine).find? (fun m => decide (m < s.presence.station)) = some 2 ∧
       answers (exec .listenTimerExpiry s) (fun t => t.slot 4 == .free &&
         told t == [.stationState .listening .active, .streamDisputed 9 2]) = true) ∧
    (let s := withPeer 7 [aClaim] (wakingWith (.consumer (.created nine .lockStep)))
     s.claimants nine = 7 :: [] ∧ answers (exec .listenTimerExpiry s) (fun t =>
       t.entry 0 == some (.consumer { follows .lockStep .joining with take := true })) = true) ∧
    (wakingWith (.consumer (.created nine .lockStep))).claimants nine = [] ∧
    (follows .lockStep .receiving).state ≠ .waiting := by decide +kernel

theorem test_witness_AbsenceReachesTheEntries :
    (awaiting.members.getLsbD 7 = true ∧ awaiting.members.getLsbD 8 = false ∧ awaiting.phase = some .awaitingRelease ∧
      (awaiting.awaited &&& ~~~(1#32 <<< 7)) &&& ~~~(awaiting.released &&& ~~~(1#32 <<< 7)) = 0 ∧
      ({ awaiting with awaited := 0x180 }.awaited &&& ~~~(1#32 <<< 7)) &&& ~~~(awaiting.released &&& ~~~(1#32 <<< 7)) ≠ 0) ∧
    ((listener (follows .lockStep .departing)).entry 0 = some (.consumer (follows .lockStep .departing)) ∧
      (filling .lockStep 0 0).slot 2 = .filling 0 6 (some 3) 0 0 ∧ (filling .lockStep 0 0).link.holding = none) ∧
    ((withPeer 8 [aClaim] (listener (.created nine .lockStep))).claimants nine = 8 :: [] ∧
      (withPeer 8 [aClaim] (withEntry (.consumer (.created nine .lockStep)) (part .quiet))).presence.state ∈ [.leaving, .quiet]) ∧
    answers (exec (.silenceTimerExpiry 7) (withPeer 8 [aClaim] (withPeer 7 [aClaim] (filling .lockStep 0 0)))) (fun t =>
      told t == [.peerDown 7 .silent, .pageLost 9 6 (some 2) .producerLost] && t.slot 2 == .free &&
        (t.consumer 0).any (fun c => c.state == .joining && c.producer == some 8)) = true := by decide +kernel

theorem test_witness_ReleaseTimersPromptAndCut_several :
    (let p := { awaiting with members := 0x1C0, awaited := 0x1C0, released := 0x40 }
     (publisher p).entry 0 = some (.producer p) ∧
       answers (exec (.releaseTimerExpiry 0) (publisher p)) (fun t => told t == [.memberCut 9 7 (some 3) .timeout, .memberCut 9 8 (some 3) .timeout] &&
         (t.producer 0).any (fun q => q.members == 0x40 && q.cuts == [(7, .timeout), (8, .timeout)])) = true) := by decide +kernel

theorem test_peer_part :
    answers (exec (.readStatus 5 1 7 1) (withPeer 7 [⟨nine, .lockStep, some 0x0102⟩] (part .active))) (fun t =>
      lastResult t == some (.ok, 0x01020089, 0x00000080)) = true := by decide +kernel

theorem test_gap_replaced : answers (exec .attemptSent (withHolding .transmitting (.gap 0) (.gap 9 5 6 1)
      (withEntry (.consumer { follows .freeRun .receiving with filling := some 2, timer := some 10000, gap := some (6, 1) })
        (filling .freeRun 0 1)))) (fun t => t.slot 2 == .filling 0 6 (some 3) 0 2) = true := by decide +kernel

/-! ### Bits on the line, a start on an idle line, and more states that meet widened hypotheses -/

/-- The line is idle. -/
def onIdleLine (s : State) : State := { s with link := { s.link with lineIdle := true } }

/-- A station that has a frame on an idle line starts before a due timer and before any passing of time (R135). -/
theorem test_starts_on_idle_line :
    (let s := withPresence (fun p => { p with rollTimer := some 0 }) (onIdleLine taking)
     s.pending = [] ∧ s.port.inReset = false ∧ s.dueEvent = some .opportunity ∧ answers (step s) (fun t =>
       t.link.holding == some ⟨.contending, .take 0, .take 9 5, false, false⟩ && t.time == 0 && !t.link.lineIdle) = true) ∧
    (onIdleLine (withHolding .held (.take 0) (.take 9 5) taking)).dueEvent = some .opportunity ∧
    taking.dueEvent = none ∧ (onIdleLine (part .active)).dueEvent = none ∧
    (onIdleLine (withHolding .transmitting (.take 0) (.take 9 5) taking)).dueEvent = none ∧
    (onIdleLine { taking with presence := { taking.presence with state := .muted } }).dueEvent = none := by decide +kernel

/-- Byte 4Ah on the line: start bit, 01001010, stop bit (R134). -/
theorem test_byteLevels : levelsOf [0x4A] = [.dominant, .dominant, .recessive, .dominant, .dominant, .recessive, .dominant,
    .recessive, .dominant, .recessive] := by decide

theorem test_levelEvent :
    (frameBytes (.takeFrame 5 0 9 5)).map (fun l => levelEvent (levelsOf l ++ interframeSpace)) = some (.takeFrame 5 0 9 5) ∧
    levelEvent (levelsOf [0x4A, 0x09] ++ interframeSpace) = .frameDiscarded .truncated ∧
    levelEvent (levelsOf [0x4A] ++ abortMark) = .frameDiscarded .abortMark ∧
    levelEvent (levelsOf [0x4A] ++ .dominant :: List.replicate 8 .recessive ++ [.dominant]) = .frameDiscarded .framing := by
  decide +kernel

theorem test_linkTX :
    (withHolding .contending (.take 0) (.take 9 5) taking).linkTX.take 20 = levelsOf [0x4A, 0x09] ∧
    (withHolding .aborting (.take 0) (.take 9 5) taking).linkTX = abortMark ∧
    (withHolding .held (.take 0) (.take 9 5) taking).linkTX = [] := by decide +kernel

/-- A GAP replaced during its attempt is placed again after the first GAP of its page and removed after the second (R83, log
32); a DROP set at LEAVING lets the entry wait (R115, R26). -/
theorem test_witness_ReportedElements :
    (let asks := fun g => withEntry (.consumer { follows .freeRun .receiving with
        filling := some 2, timer := some 10000, gap := some (6, 1) }) (filling .freeRun 0 g)
     let left := fun g => (((asks g).report (.gap 0) (.gap 9 5 6 1) true true).consumer 0).map fun c => (c.gap, c.counters.repairs)
     (asks 0).link.holding = none ∧ (asks 1).slot 2 = .filling 0 6 (some 3) 0 1 ∧ left 0 = some (some (6, 1), 1) ∧
       left 1 = some (none, 1)) ∧
    (let s := withEntry (.consumer droppedEntry) (filling .lockStep 0 0)
     let t := s.report (.drop 0) (.drop 9 5) false true
     droppedEntry.state ≠ .departing ∧ droppedEntry.filling = some 2 ∧ t.slot 2 = .free ∧
       told t = [.pageLost 9 6 (some 2) .producerLost] ∧ (t.consumer 0).any (fun c => c.state == .waiting && c.producer == none) = true) ∧
    (follows .lockStep .expelled).filling = none ∧ (follows .lockStep .expelled).state ≠ .departing := by decide +kernel

/-- QUIET frees the RETAINED slot of an OPEN entry and empties the pending set of a consumer entry (R123, R27). -/
theorem test_witness_Quiet :
    (let s := withSlot 4 (.retained 0 3 129) (publisher { opened .freeRun with retained := some 4 })
     ((s.report .roll (.roll true 0 []) false true).slot 4 = .free) ∧
       (s.report .roll (.roll true 0 []) false true).entry 0 = some (.producer (.declared 9 .freeRun 256 s.floor .zero))) ∧
    ((taking.report .roll (.roll true 0 []) false true).entry 0 = some (.consumer (follows .lockStep .joining))) ∧
    ((publisher { opened .freeRun with state := .disputed, prompt := true }).report .roll (.roll true 0 []) false true).entry 0 =
      some (.producer { opened .freeRun with state := .disputed }) := by decide +kernel

/-- The same station in LEAVING. -/
def leavingNow (s : State) : State := withPresence (fun p => { p with state := .leaving, rollTimer := some 7 }) s

theorem test_witness_LeavingWorkEndsWithTheRoll :
    (let s := leavingNow (part .active)
     s.presence.state = .leaving ∧ s.presence.leavingPlaced = false ∧ s.seg = ⟨none, none, none, none⟩ ∧ s.publish.queue = [] ∧
       (∀ i : EntryIx, s.entry i = none) ∧ s.settle.presence.rollTimer = none ∧ s.settle.presence.rollPending = true ∧
       s.settle.presence.leavingPlaced = true) ∧
    (let s := leavingNow flying
     s.seg.flight ≠ none ∧ s.seg.offered ≠ none ∧ s.settle = s) ∧
    (let s := leavingNow (listener droppedEntry)
     (s.consumer 0).any (·.drop) = true ∧ s.testLeaving = s) ∧
    (let s := leavingNow (publisher { opened .freeRun with repairTag := some 3 })
     (s.producer 0).any (fun p => p.repairTag != none) = true ∧ s.testLeaving = s) ∧
    (let s := leavingNow (withQueue [aPage] (publisher (opened .freeRun)))
     s.publish.queue = [aPage] ∧ (s.settle).seg.flight = none) := by decide +kernel

/-- In LEAVING the page in flight and a repair pass go on (R47, R59, R123). -/
theorem test_witness_LeavingGoesOn :
    (let s := leavingNow { flying with publish := ⟨[], 2⟩ }
     (s.presence.state ∈ [.active, .leaving] ∧ (∀ i : EntryIx, s.passWanted i = none)) ∧
       ((s.segmenterReport true).settle).seg.offered = some ⟨.pageClose, .close 9 6 3 .normal 0⟩) ∧
    ((leavingNow (passing (some 0) false none)).settle.seg.offered.any (fun o => o.kind == .passSeg 1 (some 0)) = true) ∧
    ((leavingNow { passing none false none with seg := .reset }).settle.seg.pass = some ⟨0, 3, some 1, false⟩) := by
  decide +kernel

/-- A source that removes its element releases a HELD frame and lets an attempt run on; one that replaces its content marks
the attempt (R138). -/
theorem test_witness_HoldingFrameFollowsItsSource :
    ((withHolding .held (.take 0) (.take 9 5) taking).clearTake 0).link.holding = none ∧
    ((withHolding .aborting (.take 0) (.take 9 5) taking).clearTake 0).link.holding = some ⟨.aborting, .take 0, .take 9 5, true, false⟩ ∧
    ((withHolding .held (.take 1) (.take 9 5) taking).clearTake 0).link.holding = some ⟨.held, .take 1, .take 9 5, false, false⟩ ∧
    (let s := withHolding .contending (.free 0) (.free 9 5 6 false) (listener { follows .lockStep .receiving with free := some (6, false) })
     (s.setFree 0 7 false).link.holding = some ⟨.contending, .free 0, .free 9 5 6 false, false, true⟩ ∧
       (s.setFree 0 6 false).link.holding = s.link.holding ∧
       ((s.emptyPending 0).setFree 0 7 false).link.holding = some ⟨.contending, .free 0, .free 9 5 6 false, true, false⟩) ∧
    (let s := withHolding .held (.free 0) (.free 9 5 6 false) (listener { follows .lockStep .receiving with free := some (6, false) })
     (s.setFree 0 7 false).link.holding = s.link.holding) ∧
    ((∃ e ∈ eightCuts, e.1 = 7) ∨ eightCuts.length < 8) := by decide +kernel

/-- A dispute with a page in flight and a page queued: both slots return, and SENT follows STREAM_DISPUTED in posting order;
with the CLOSE NORMAL offered the page is marked (R54, R56). -/
theorem test_witness_DisputeReachesQueueAndFlight :
    (([((0 : EntryIx), (2 : Station))].map Prod.fst).Nodup ∧ flying.entry 0 =
        some (.producer { opened .freeRun with phase := some .sending, nextPage := 7, sending := some 1 })) ∧
    (flying.seg.flight = some aFlight ∧ aFlight.closeOffered = false ∧ flying.slot 1 ≠ .free ∧ flying.slot 2 ≠ .free ∧
      flying.publish.queue = [] ++ [{ aPage with seq := 1, body := .page 2 3 true none }]) ∧
    (let t := flying.disputeAll [(0, 2)]
     told t = [.streamDisputed 9 2, .sent 9 1 (some 6) .disputed 4, .sent 9 2 none .disputed 4] ∧ t.slot 1 = .writing ∧
       t.slot 2 = .writing ∧ t.publish.queue = [] ∧ t.seg.flight = none ∧ t.seg.withdrawn = some ⟨9, 6, 3, 0⟩) ∧
    (let t := (closing { aFlight with closeOffered := true } (part .active)).disputeAll [(0, 2)]
     t.seg.flight = some { aFlight with closeOffered := true, withdrawAtClose := true } ∧ t.slot 1 = .sending 0 6 3 ∧
       t.slot 3 = .free ∧ told t = [.streamDisputed 9 2]) ∧
    (let s := withEntry (.producer { opened .freeRun with state := .disputed }) flying
     answers (exec (.rollFrame 5 false 0 3 []) s) (fun t => t.slot 1 == .writing && t.slot 2 == .writing &&
       (t.producer 0).any (fun p => p.state == .disputed && p.phase == some .idle) &&
       told t == [.stationState .active .conflict, .sent 9 1 (some 6) .failed 4, .sent 9 2 none .failed 4]) = true) := by
  decide +kernel

/-! ### Points that the rules settle together -/

/-- CONFLICT discards a pass: the tag of a set that the pass emptied goes with it, one of a set that holds a number stays, and so
does one of an empty GAP that no pass serves (R87, R94, log 43). -/
theorem test_witness_ConflictDiscardsThePass :
    (let tagAfter := fun s => answers (exec (.rollFrame 5 false 0 3 []) s) fun t =>
       t.seg.pass == none && (t.producer 0).any (fun p => p.repairTag == none)
     let emptied := withEntry (.producer { opened .freeRun with
       lastClosed := some 3, nextPage := 4, retained := some 4, repairPasses := 1, repairTag := some 3 }) (passing (some 1) false none)
     emptied.hearing ∧ emptied.seg.pass = some ⟨0, 3, some 1, false⟩ ∧ tagAfter emptied = true ∧
       tagAfter (passing (some 0) false none) = false ∧ tagAfter { emptied with seg := .reset } = false) := by
  refine ⟨⟨?_, ?_, ?_⟩, ?_⟩ <;> decide +kernel

/-- A consumer entry in READ_STATUS, the number of a peer's claims, and an unused entry (R163, R164, 11.4, log 18). -/
theorem test_witness_StatusOfAConsumer :
    (let s := withPeer 7 [⟨nine, .lockStep, some 3⟩] (withEntry (.consumer { follows .lockStep .joining with take := true, joinTries := 2 })
       (part .active))
     let shown := fun selector index n => (s.statusPart selector index n).map fun r => (r.value1, r.value2)
     s.entry 0 = some (.consumer { follows .lockStep .joining with take := true, joinTries := 2 }) ∧
       shown 2 0 0 = some (0x00003327, 0x00202020) ∧ shown 2 0 3 = some (0, 0x000A0000) ∧ shown 1 7 0 = some (0x00030011, 0xFFFF0000) ∧
       s.entry 1 = none ∧ shown 2 1 0 = some (0x00003F02, 0x00202020)) := by decide +kernel

/-- Rows of the port while page memory is being cleared or at an offset that is not aligned, and REGISTER_WRITE at the offset of
another row (R156, R170, log 24). -/
theorem test_witness_RowsAreRefused :
    (let s := { part .active with port := { (part .active).port with clearing := true } }
     let error := fun (t : State) => t.port.bus == some ⟨true, 0⟩ && !t.port.refused && t.events.records.isEmpty
     s.port.inReset = false ∧ s.port.clearing = true ∧ answers (exec (.submit 0xF 9) s) error = true ∧
       answers (exec (.pageWindowRead 8) s) error = true ∧ answers (exec (.windowWrite 0xF 3) s) error = true ∧
       ((2 : BitVec 12).toNat % 4 ≠ 0 ∧ answers (exec (.pageWindowWrite 2 0xF 1) (withSlot 0 .writing (part .active))) error = true)) ∧
    (let b : BusAccess := ⟨true, .word, 0x1004, 0xF, 1⟩
     let s := withSlot 0 .writing (part .active)
     b.addr = BitVec.ofNat 32 (0x1000 + (4 : BitVec 12).toNat) ∧
       answers (exec (.registerWrite b) s) (fun t => t != s && answers (exec (.pageWindowWrite 4 0xF 1) s) (t == ·)) = true) ∧
    (let b : BusAccess := ⟨true, .word, 0x0030, 0xF, 0x0101⟩
     answers (exec (.registerWrite b) (part .active)) (fun t => answers (exec (.submit 0xF 0x0101) (part .active)) (t == ·)) = true) := by decide +kernel

/-- Frames that no entry takes: of a stream without an entry, at an entry of the other role or not OPEN, and in CONFLICT (R20, R62,
R88, R95). -/
theorem test_witness_FramesThatNoEntryTakes :
    (segOk 0 nine 0 1 3 3 = true ∧ closeOk 0 nine 3 0 = true ∧ admitOk 0 nine 5 0 = true ∧ cutOk 0 nine 5 0 = true ∧
      promptOk 0 nine [5] = true ∧ stationFrameOk 0 nine 7 = true ∧ gapOk 0 nine 7 [1] = true) ∧
    (part .active).findStream nine = none ∧ (publisher (opened .lockStep)).findStream nine = some 0 ∧
    (listener (follows .freeRun .receiving)).findStream nine = some 0 ∧ (part .conflict).presence.state = .conflict ∧
    (let ignored := fun s i => answers (exec i s) fun t => t.streams == s.streams && t.link.counters.framesReceived == 1 &&
       t.link.counters.checkFailures == 0 && t.slots == s.slots && t.events == s.events
     let declared := withPeer 7 [] (publisher { opened .lockStep with state := .declared, phase := none })
     ignored (part .active) (.segFrame 7 0 9 6 0 1 3 [1, 2, 3]) = true ∧
       ignored (publisher (opened .lockStep)) (.closeFrame 7 0 9 6 3 0 0) = true ∧
       ignored (listener (follows .lockStep .receiving)) (.gapFrame 7 0 9 7 6 [1]) = true ∧
       ignored declared (.takeFrame 7 0 9 7) = true ∧ ignored declared (.gapFrame 7 0 9 7 6 [1]) = true ∧
       ignored (withEntry (.consumer (follows .freeRun .receiving)) (part .conflict)) (.segFrame 7 0 9 6 0 1 3 [1, 2, 3]) = true ∧
       ignored (withPeer 7 [] (withEntry (.producer (opened .lockStep)) (part .conflict))) (.takeFrame 7 0 9 7) = true) := by
  decide +kernel

/-- In CONFIGURED a ROLL is only counted, with DECLARED entries too (R116, R127). -/
theorem test_witness_RollInConfigured :
    (let s := withEntry (.producer (.declared 9 .freeRun 256 20 .zero)) (part .configured)
     s.presence.state = .configured ∧ rollOk 0 [aRawClaim] = true ∧ answers (exec (.rollFrame 2 false 0 3 [aRawClaim]) s) (fun t =>
       t.presence == s.presence && t.streams == s.streams && t.link.counters.framesReceived == 1) = true) := by decide +kernel

/-- A page held from a replaced producer is released without FREE, also when the new one has completed a page of that number; a
page held from the present one with FREE (R80, R81). -/
theorem test_release_of_a_replaced_producer :
    (let held := fun old => withSlot 2 (.held 0 6 3) (withSlot 3 (.ready 0 6 3)
       (listener { follows .lockStep .receiving with
         held := some 2, earlier := ⟨false, old, false⟩, ready := some 3, lastCompleted := some 6 }))
     let left := fun s => answers (exec (.release 1 9) s) fun t => (t.consumer 0).any fun c =>
       c.free == some (6, false) && c.lastReleased == some 6 && c.earlier == .none
     left (held false) = true ∧ left (held true) = false ∧
       answers (exec (.release 1 9) (held true)) (fun t => lastResult t == some (.ok, 0x00060002, 0) && t.slot 2 == .free &&
         (t.consumer 0).any fun c => c.free == none && c.earlier == ⟨false, false, true⟩) = true) := by decide +kernel

/-- The join wait places TAKE again in LEAVING too (R98, log 44). -/
theorem test_join_wait_in_leaving : answers (exec (.joinWaitExpiry 0) (leavingNow (withEntry (.consumer { follows .lockStep .joining with
      joinTries := 1, timer := some 5, drop := true }) (part .active)))) (fun t =>
    (t.consumer 0).any fun c => c.take && c.drop && c.timer == none) = true := by decide +kernel

/-- A gap between two bytes ends the frame, whole bytes behind a complete frame are ignored, and a dominant stop bit there
discards it (R144, log 45). -/
theorem test_bits_without_a_layout :
    (let frame := (frameBytes (.takeFrame 7 0 9 7)).getD []
     let broken : List Level := .dominant :: (List.replicate 8 .recessive ++ [.dominant])
     levelEvent (levelsOf frame) = .takeFrame 7 0 9 7 ∧
       levelEvent (levelsOf (frame.take 2) ++ .recessive :: levelsOf (frame.drop 2)) = .frameDiscarded .truncated ∧
       levelEvent (levelsOf (frame ++ [0xA5])) = .takeFrame 7 0 9 7 ∧
       levelEvent (levelsOf frame ++ broken) = .frameDiscarded .framing) := by decide +kernel

/-! ### Pages of an earlier producer of record, what frames carry, and orders -/

/-- An entry that has page 6 READY and page 5 HELD. -/
def keeping (e : Earlier) (c : Consumer) : State :=
  withSlot 3 (.ready 0 6 3) (withSlot 4 (.held 0 5 3) (listener { c with ready := some 3, held := some 4, earlier := e }))

/-- The loss of the producer of record makes READY and HELD pages of an earlier one, and ACQUIRE carries that along (R33, R81). -/
theorem test_pages_of_an_earlier_producer :
    (let s := withPeer 7 [⟨nine, .lockStep, none⟩] (keeping .none { follows .lockStep .receiving with lastCompleted := some 6 })
     answers (exec (.silenceTimerExpiry 7) s) (fun t => (t.consumer 0).any fun c =>
       c.earlier == ⟨true, true, false⟩ && c.ready == some 3 && c.held == some 4 && c.lastCompleted == none) = true) ∧
    answers (exec (.acquire 1 9 0) (keeping ⟨true, false, false⟩ (follows .freeRun .receiving))) (fun t => (t.consumer 0).any fun c =>
      c.held == some 3 && c.ready == none && c.earlier == ⟨false, true, false⟩) = true := by decide +kernel

/-- A PROMPT for a page that only an earlier producer numbered begins a full repair; for one the entry keeps it does nothing
(R112, R30, log 42). -/
theorem test_prompt_and_an_earlier_producer :
    (let prompted := fun e page => answers (exec (.promptFrame 7 0 9 page [5])
        (keeping e { follows .lockStep .receiving with firstAdmitted := some 0 })) fun t =>
       (t.consumer 0).any fun c => c.gap == some (page, 0) && c.filling.isSome
     prompted .none 6 = false ∧ prompted ⟨true, true, false⟩ 6 = true ∧ prompted ⟨true, true, false⟩ 5 = true ∧
       prompted .none 5 = false) := by decide +kernel

/-- READY slot 9 and FILLING slot 2 join the free list behind the others, slot 2 first (R3, R35). -/
theorem test_witness_FreedSlotsJoinInOrder :
    (let s := withSlot 9 (.ready 0 5 3) (withSlot 2 (.filling 0 6 (some 3) 1 0) (listener { follows .freeRun .receiving with
       ready := some 9, filling := some 2 }))
     s.ready ∧ s.presence.state ≠ .unconfigured ∧ s.findStream 9 = some 0 ∧ s.link.holding = none ∧
       answers (exec (.unsubscribe 1 9) s) (fun t => t.slots.free == s.slots.free ++ [2, 9]) = true) ∧
    (let s := part .active
     let u := { s with slots := { s.slots with free := s.slots.free ++ [5, 3] } }
     (s.joinAscending u).slots.free = s.slots.free ++ [3, 5]) := by
  refine ⟨⟨⟨⟨?_, ?_⟩, ?_, ?_⟩, ?_⟩, ?_⟩ <;> decide +kernel

/-- An entry with every element of a producer pending. -/
def pendingAll : State := publisher { opened .lockStep with
  stream := 9, lastClosed := some 6, cuts := [(7, .timeout), (8, .notMember)], admits := [(3, .full), (4, .accepted 7)], prompt := true
  gones := [2, 1], awaited := 0x118, released := 0x100 }

/-- What frames carry: the listed reason and result, the stations not yet released, the claims in ascending stream id (R97, R102,
R89, R125, R153). -/
theorem test_witness_FramesCarryTheirContent :
    (let row := fun (s : State) src => (s.buildFrame src).map (Frame.row s.presence.station)
     row pendingAll (.cut 0 8) = some (.cutFrame 5 0 9 8 1) ∧ row pendingAll (.admission 0 4) = some (.admitFrame 5 0 9 4 0 7) ∧
       row pendingAll (.cut 0 3) = none ∧ row pendingAll (.prompt 0) = some (.promptFrame 5 0 9 6 [3, 4]) ∧
       row pendingAll (.gone 0 1) = some (.goneFrame 5 0 9 1) ∧
       (let s := listener { follows .lockStep .receiving with drop := true, take := true, free := some (6, true), gap := some (6, 5) }
        row s (.drop 0) = some (.dropFrame 5 0 9 5) ∧ row s (.take 0) = some (.takeFrame 5 0 9 5) ∧
          row s (.free 0) = some (.freeFrame 5 true 9 5 6) ∧ row s (.gap 0) = some (.gapFrame 5 0 9 5 6 [0, 2])) ∧
       (let s := withPresence (fun p => { p with rollPending := true, rollCount := 4 }) pendingAll
        row { s with streams := vput s.streams 1 (some (.producer { opened .freeRun with stream := 2 })) } .roll =
          some (.rollFrame 5 false 0 4 [⟨false, false, 2, 0⟩, ⟨true, true, 9, 6⟩])) ∧
       row { part .active with link := { (part .active).link with notes := [⟨.one 12, 1⟩, ⟨.all, 2⟩] } } .note =
         some (.noteFrame 5 false 0 12 5 1) ∧
       flying.buildFrame .segmenter = some (.seg 9 6 0 1 3 [1, 2, 3])) := by decide +kernel

/-- Two markers of a stream one behind the other take effect in one event, each with its own PAUSED (R42). -/
theorem test_witness_MarkersOneBehindAnother :
    (let s := withQueue [⟨0, 1, 0, .pause⟩, ⟨0, 2, 1, .pause⟩, { aPage with seq := 2 }] (publisher (opened .freeRun))
     let t := State.applyMarkers 0 s
     s.entry 0 = some (.producer (opened .freeRun)) ∧ (Descriptor.isPause ⟨0, 1, 0, .pause⟩ = true) ∧
       t.publish.queue = [{ aPage with seq := 2 }] ∧ told t = [.paused 9 1, .paused 9 2]) := by decide +kernel

/-- The loss of a page with no slot, and of one whose slot is kept, beside a FILLING page (R66, R67, R76). -/
theorem test_witness_PageLostWithAnySlot :
    (let s := withEntry (.consumer { follows .lockStep .receiving with filling := some 2, timer := some 10000, gap := some (6, 1) })
       (filling .lockStep 0 1)
     s.link.holding = none ∧ told (s.pageLost 0 8 none .noSlot) = [.pageLost 9 8 none .noSlot] ∧
       (s.pageLost 0 8 none .noSlot).slot 2 = s.slot 2 ∧
       ((s.pageLost 0 8 none .noSlot).consumer 0).any (fun c => c.free == some (8, true) && c.gap == some (6, 1)) = true ∧
       ((s.pageLost 0 6 (some 2) .superseded).consumer 0).any (fun c => c.free == some (6, true) && c.gap == none) = true ∧
       s.report .segmenter (.cut 9 7 .timeout) false true = s.segmenterReport true) := by decide +kernel

end Sys2Proof.Tests
end

section
/-! SUPPORT. What an event and a step can do, and that every step keeps a safe state safe. -/

namespace Sys2Proof.Machine

/-! ### What an event can do

Every event answers a next state, and that state is one of six kinds. A proof about all events goes through `exec_effect`. -/

/-- What event `i` makes of the state `s`: its command record arrives, the port answers an access, one of the three reset rows
acts, or the event is an inner operation. -/
inductive Effect (s : State) : Instr → State → Prop
  | record {i : Instr} {r : CmdRecord} (h : commandRecord i = some r) : Effect s i (s.submitRecord r)
  | access {i : Instr} (b : BusAccess) : Effect s i (s.busAccess b)
  | resetAsserted : Effect s .pinReset (s.modPort fun p => { p with inReset := true })
  | resetReleased (n : Station) (r : BitVec 2) : Effect s (.pinResetRelease n r) (.atRelease n r s.slots.mem s.pending)
  | cleared : Effect s .pageMemoryClearingEnd
      { s with slots := { s.slots with mem := [] }, port := { s.port with clearing := false } }
  | inner {i : Instr} {t : State} (h : Inner s t) : Effect s i t

/-- The answer `o` to event `i` is a next state, of one of the kinds of `Effect`. -/
def AnswersNext (i : Instr) (s : State) (o : Host.Outcome State Fault Refusal) : Prop := ∃ t, o = .next t ∧ Effect s i t

theorem AnswersNext.of_inner {i : Instr} {s t : State} (h : Inner s t) : AnswersNext i s (.next t) := ⟨t, rfl, .inner h⟩

/-- An event that waits for the reset input and is an inner operation otherwise. -/
theorem AnswersNext.of_awake {i : Instr} {s : State} {f : State → State} (h : Inner s (f s)) :
    AnswersNext i s (.next (s.awake f)) := .of_inner (State.awake_inner (Inner.refl s) f h)

/-- An event of the attempt on the line (R136 to R140). -/
theorem AnswersNext.of_attempt {i : Instr} {s : State} {p : HoldPhase → Bool} {f : State → HeldFrame → State}
    (h : ∀ x, Inner s (f s x)) : AnswersNext i s (.next (s.awake fun s => s.attempt p f)) :=
  .of_awake (State.attempt_inner (Inner.refl s) p f h)

/-- A received frame (R144). -/
theorem AnswersNext.of_receive {i : Instr} {s : State} {ok : Bool} {take : State → State} (h : ∀ t, Inner t (take t)) :
    AnswersNext i s (.next (s.receive ok take)) := .of_inner (State.receive_inner (Inner.refl s) ok take h)

/-! #### The line -/

theorem execOpportunity_answers (s : State) : AnswersNext .opportunity s (execOpportunity s) := by
  refine .of_awake ?_
  split
  · exact Inner.refl s
  · exact State.takeOpportunity_inner (Inner.refl s)

theorem execMuted_answers (s : State) : AnswersNext .muted s (execMuted s) := by
  refine .of_awake ?_
  split
  · exact State.joinAscending_inner (State.settle_inner (State.enterMuted_inner (Inner.refl s))) s
  · exact Inner.refl s

theorem execFrameDiscarded_answers (c : DiscardCause) (s : State) :
    AnswersNext (.frameDiscarded c) s (execFrameDiscarded c s) := by
  refine .of_awake ?_
  split
  · exact Inner.refl s
  · exact State.countCheckFailure_inner (State.modLink_inner (Inner.refl s) _ ⟨id, id, id⟩)

/-! #### Timers: a row acts when its timer runs and its state is the timer's (log 8) -/

theorem execRollTimerDue_answers (s : State) : AnswersNext .rollTimerDue s (execRollTimerDue s) := by
  refine .of_awake ?_
  split
  · exact State.rollDue_inner (Inner.refl s) _
  · exact Inner.refl s

theorem execListenTimerExpiry_answers (s : State) : AnswersNext .listenTimerExpiry s (execListenTimerExpiry s) := by
  refine .of_awake ?_
  split
  · split
    · exact State.joinAscending_inner (State.settle_inner (State.enterActive_inner (State.reach_inner (Inner.refl s) _))) s
    · exact Inner.refl s
  · exact Inner.refl s

theorem execSilenceTimerExpiry_answers (n : Station) (s : State) :
    AnswersNext (.silenceTimerExpiry n) s (execSilenceTimerExpiry n s) := by
  refine .of_awake ?_
  split
  · split
    · exact State.joinAscending_inner (State.settle_inner (State.peerAbsent_inner (State.reach_inner (Inner.refl s) _) ..)) s
    · exact Inner.refl s
  · exact Inner.refl s

theorem execReceptionTimerExpiry_answers (i : EntryIx) (s : State) :
    AnswersNext (.receptionTimerExpiry i) s (execReceptionTimerExpiry i s) := by
  refine .of_awake ?_
  split
  · split
    · split
      · exact State.unfinished_inner (State.modConsumer_inner (State.reach_inner (Inner.refl s) _) ..) i
      · exact Inner.refl s
    · exact Inner.refl s
  · exact Inner.refl s

theorem execJoinWaitExpiry_answers (i : EntryIx) (s : State) : AnswersNext (.joinWaitExpiry i) s (execJoinWaitExpiry i s) := by
  refine .of_awake ?_
  split
  · split
    · split
      · exact State.joinExpired_inner (State.reach_inner (Inner.refl s) _) ..
      · exact Inner.refl s
    · exact Inner.refl s
  · exact Inner.refl s

theorem execReleaseTimerExpiry_answers (i : EntryIx) (s : State) :
    AnswersNext (.releaseTimerExpiry i) s (execReleaseTimerExpiry i s) := by
  refine .of_awake ?_
  split
  · split
    · split
      · have cut : ∀ t n, Inner t (State.cutMember i t n) := fun t n => State.cutMember_inner (Inner.refl t) i n
        exact State.settle_inner (State.completeBarrier_inner (foldl_inner cut _ (State.reach_inner (Inner.refl s) _)) ..)
      · exact Inner.refl s
    · exact Inner.refl s
  · exact Inner.refl s

theorem execReleaseTimerHalf_answers (i : EntryIx) (s : State) :
    AnswersNext (.releaseTimerHalf i) s (execReleaseTimerHalf i s) := by
  refine .of_awake ?_
  split
  · split
    · split
      · exact State.modProducer_inner (State.setPrompt_inner (State.reach_inner (Inner.refl s) _) i) ..
      · exact Inner.refl s
    · exact Inner.refl s
  · exact Inner.refl s

/-! #### All events -/

theorem execPageMemoryClearingEnd_answers (s : State) :
    AnswersNext .pageMemoryClearingEnd s (execPageMemoryClearingEnd s) := by
  unfold execPageMemoryClearingEnd State.awake
  split
  · exact .of_inner (Inner.refl s)
  · dsimp only
    split
    · exact ⟨_, rfl, .cleared⟩
    · exact .of_inner (Inner.refl s)

/-- Every event answers a next state, and what it does is of one of the kinds of `Effect`. -/
theorem exec_effect (i : Instr) (s : State) : ∃ t, exec i s = .next t ∧ Effect s i t := by
  cases i with
  | configure | start | leave | rejoin | restart | claim | discard | publish | publishPause | resume | cancel | subscribe
  | unsubscribe | acquire | release | sendNote | clearNotice | readStatus | unknownCommand =>
    exact ⟨_, exec_commandRecord rfl s, .record rfl⟩
  | submit | respNext | evtNext | windowWrite | pageWindowRead | pageWindowWrite | registerWrite =>
    exact ⟨_, rfl, .access _⟩
  | pinReset => exact ⟨_, rfl, .resetAsserted⟩
  | pinResetRelease n r => exact ⟨_, rfl, .resetReleased n r⟩
  | pageMemoryClearingEnd => exact execPageMemoryClearingEnd_answers s
  | opportunity => exact execOpportunity_answers s
  | arbitrationLost => exact AnswersNext.of_attempt fun x => State.loseArbitration_inner (Inner.refl s) x
  | arbitrationWon => exact AnswersNext.of_attempt fun x => State.holdPhase_inner (Inner.refl s) x _
  | echoMismatch => exact AnswersNext.of_attempt fun x => State.holdPhase_inner (Inner.refl s) x _
  | attemptSent =>
    exact AnswersNext.of_attempt fun x =>
      State.joinAscending_inner (State.settle_inner (State.sentAttempt_inner (Inner.refl s) x)) s
  | attemptFailed =>
    exact AnswersNext.of_attempt fun x =>
      State.joinAscending_inner (State.settle_inner (State.failAttempt_inner (Inner.refl s) x)) s
  | muted => exact execMuted_answers s
  | frameDiscarded c => exact execFrameDiscarded_answers c s
  | segFrame => exact AnswersNext.of_receive fun t => State.takeSeg_inner (Inner.refl t) ..
  | closeFrame =>
    refine AnswersNext.of_receive fun t => ?_
    split
    · exact State.takeClose_inner (Inner.refl t) ..
    · exact Inner.refl t
  | admitFrame =>
    refine AnswersNext.of_receive fun t => ?_
    split
    · exact State.takeAdmit_inner (Inner.refl t) ..
    · exact Inner.refl t
  | cutFrame =>
    refine AnswersNext.of_receive fun t => ?_
    split
    · exact State.takeCut_inner (Inner.refl t) ..
    · exact Inner.refl t
  | promptFrame => exact AnswersNext.of_receive fun t => State.takePrompt_inner (Inner.refl t) ..
  | goneFrame => exact AnswersNext.of_receive fun t => State.takeGone_inner (Inner.refl t) ..
  | takeFrame =>
    refine AnswersNext.of_receive fun t => ?_
    split
    · exact State.takeTake_inner (Inner.refl t) ..
    · exact Inner.refl t
  | dropFrame =>
    refine AnswersNext.of_receive fun t => ?_
    split
    · exact State.settle_inner (State.takeDrop_inner (Inner.refl t) ..)
    · exact Inner.refl t
  | freeFrame =>
    refine AnswersNext.of_receive fun t => ?_
    split
    · exact State.settle_inner (State.takeFree_inner (Inner.refl t) ..)
    · exact Inner.refl t
  | gapFrame => exact AnswersNext.of_receive fun t => State.settle_inner (State.takeGap_inner (Inner.refl t) ..)
  | rollFrame => exact AnswersNext.of_receive fun t => State.settle_inner (State.takeRoll_inner (Inner.refl t) ..)
  | noteFrame => exact AnswersNext.of_receive fun t => State.takeNote_inner (Inner.refl t) ..
  | rollTimerDue => exact execRollTimerDue_answers s
  | listenTimerExpiry => exact execListenTimerExpiry_answers s
  | silenceTimerExpiry n => exact execSilenceTimerExpiry_answers n s
  | receptionTimerExpiry i => exact execReceptionTimerExpiry_answers i s
  | joinWaitExpiry i => exact execJoinWaitExpiry_answers i s
  | releaseTimerExpiry i => exact execReleaseTimerExpiry_answers i s
  | releaseTimerHalf i => exact execReleaseTimerHalf_answers i s

/-- What an event that answered `t` has done. -/
theorem effect_of_exec {i : Instr} {s t : State} (h : exec i s = .next t) : Effect s i t := by
  obtain ⟨u, hu, he⟩ := exec_effect i s
  rw [hu, Host.Outcome.next.injEq] at h
  exact h ▸ he

/-- What a step does: the event it takes acts on the state without it, or, with no event waiting, nothing happens or one
microsecond passes. -/
theorem step_cases {s t : State} (h : step s = .next t) :
    (∃ i, Effect { s with pending := s.pending.tail } i t) ∨ t = s ∨ t = s.tick := by
  unfold step at h
  split at h
  · rename_i c rest hp
    left
    rw [hp]
    exact ⟨c, effect_of_exec h⟩
  · rename_i hp
    have hs : { s with pending := s.pending.tail } = s := by
      rw [hp, List.tail_nil, ← hp]
    unfold idle at h
    split at h
    · cases h
      exact Or.inr (Or.inl rfl)
    · split at h
      · rename_i i _
        left
        rw [hs]
        exact ⟨i, effect_of_exec h⟩
      · cases h
        exact Or.inr (Or.inr rfl)

/-! ### Safe states stay safe -/

/-- Every block at its reset value is safe, with any page memory in canonical form (R13, R170). -/
theorem State.atRelease_safe (n : Station) (r : BitVec 2) {mem : List Host.Cell} (hm : Memory.wf mem = true)
    (pending : List Instr) : (State.atRelease n r mem pending).Safe where
  memory := hm
  slots := SlotManager.reset_listsFree mem
  bounded :=
    { commands := Nat.zero_le _
      responses := Nat.zero_le _
      events := Nat.zero_le _
      descriptors := Nat.zero_le _
      notes := Nat.zero_le _
      attempts := Nat.zero_lt_succ _
      drops := Nat.zero_le _ }

/-- The end of the clearing empties page memory and leaves the queues, the counts and the slot records alone (R13). -/
theorem State.cleared_safe {s : State} (h : s.Safe) : State.Safe
    { s with slots := { s.slots with mem := [] }, port := { s.port with clearing := false } } :=
  have emptied : Inner s { s with slots := { s.slots with mem := [] } } := (Inner.refl s).of_slots (fun _ => rfl) id
  State.modPort_safe (emptied.safe h) (fun p => { p with clearing := false }) h.bounded.commands h.bounded.responses

/-- Which events wait does not matter. -/
theorem State.pending_safe {s : State} (h : s.Safe) (l : List Instr) : State.Safe { s with pending := l } :=
  ⟨h.memory, h.slots, ⟨h.bounded.commands, h.bounded.responses, h.bounded.events, h.bounded.descriptors, h.bounded.notes,
    h.bounded.attempts, h.bounded.drops⟩⟩

/-- Every event keeps a safe state safe. -/
theorem Effect.safe {i : Instr} {s t : State} (e : Effect s i t) (h : s.Safe) : t.Safe := by
  cases e with
  | record _ => exact State.submitRecord_safe h _
  | access b => exact State.busAccess_safe h b
  | resetAsserted => exact State.modPort_safe h _ h.bounded.commands h.bounded.responses
  | resetReleased n r => exact State.atRelease_safe n r h.memory s.pending
  | cleared => exact State.cleared_safe h
  | inner k => exact k.safe h

/-- Settles O8: what a step does is one effect, a microsecond or nothing, and each keeps a safe state safe. -/
theorem stepKeepsSafe : Obligations.StepKeepsSafe := by
  intro s t hs h
  rcases step_cases h with ⟨i, e⟩ | rfl | rfl
  · exact e.safe (State.pending_safe hs _)
  · exact hs
  · exact (State.tick_inner (Inner.refl s)).safe hs

/-- Settles O7: the state of the release with no byte listed in page memory. -/
theorem resetIsSafe : Obligations.ResetIsSafe := State.atRelease_safe 0 0 rfl []

end Sys2Proof.Machine
end

section
/-! SUPPORT. The WINDOW register, the page window, CLAIM and DISCARD (chapter 1). -/

namespace Sys2Proof.Machine

/-! ### Numbers of slots -/

theorem below32?_val (n : SlotNum) : below32? n.val = some n := dif_pos n.isLt

theorem below32?_above {k : Nat} (h : 31 < k) : below32? k = none := dif_neg (by omega)

/-! ### The WINDOW register (R14) -/

/-- A write of WINDOW on a running part: a register takes all four byte enables (R156). -/
theorem exec_windowWrite {s : State} (hs : s.running) (e : BitVec 4) (data : Word) :
    exec (.windowWrite e data) s = .next (if e ≠ 0xF then s.busError else s.windowSelect data) :=
  congrArg Host.Outcome.next (State.busAccess_write hs Config.regWindow (by decide) (by decide) e data)

/-- A value from 0 to 31 selects its slot. -/
theorem State.windowSelect_of {data : Word} {n : SlotNum} (h : data.toNat = n.val) (s : State) :
    s.windowSelect data = (s.modPort fun p => { p with window := n }).answer false 0 := by
  unfold State.windowSelect
  rw [h, below32?_val]

/-- A value above 31 selects nothing. -/
theorem State.windowSelect_above {data : Word} (h : 31 < data.toNat) (s : State) : s.windowSelect data = s.busError := by
  unfold State.windowSelect
  rw [below32?_above h]

/-- A read of WINDOW on a running part. -/
theorem exec_read_window {s : State} (hs : s.running) (e : BitVec 4) (data : Word) :
    exec (.registerWrite ⟨false, .word, 0x0008, e, data⟩) s = .next (s.answer false (number s.port.window.val)) :=
  congrArg Host.Outcome.next (State.busAccess_read hs Config.regWindow (by decide) (by decide) e data)

/-- A command taken on a part that is ready leaves WINDOW alone. -/
theorem exec_command_window {i : Instr} {r : CmdRecord} (hi : commandRecord i = some r) {s : State} (hs : s.ready) :
    ∃ t, exec i s = .next t ∧ t.port.window = s.port.window :=
  have hw : (s.accepted.answered r).port.window = (s.accepted.runCommand r).1.port.window := rfl
  ⟨_, exec_commandRecord_ready hi hs, hw.trans (by rw [State.runCommand_port]; rfl)⟩

/-- Settles O13. The register clauses are the three kinds of answer of `exec_windowWrite`. -/
theorem windowSelectsASlot : Obligations.WindowSelectsASlot := by
  refine ⟨fun data s hs => ⟨fun n hn => ?_, fun hn => ?_, fun e he => ?_⟩, fun e data s hs => exec_read_window hs e data,
    fun n r s => ⟨_, rfl, rfl⟩, fun tag s hs => exec_command_window (i := .restart tag) rfl hs⟩
  · rw [exec_windowWrite hs, if_neg (by decide), State.windowSelect_of hn]
    rfl
  · rw [exec_windowWrite hs, if_neg (by decide), State.windowSelect_above hn]
    rfl
  · rw [exec_windowWrite hs, if_pos he]
    rfl

/-! ### The page window (R15, R16) -/

/-- The address of a byte of a slot: 4096 bytes to each slot (R1). -/
theorem slotAddr_eq (n : SlotNum) (off : Nat) : slotAddr n off = 4096 * n.val + off := by
  rw [slotAddr, Nat.mul_comm]

/-- Above all registers a read is one of the page window. -/
theorem State.readAt_page (s : State) {o : Nat} (h : o < 4096) : s.readAt (Config.regPage + o) = s.windowReadAt o := by
  have notCmd : ¬ isWordOf Config.regCmd 8 (Config.regPage + o) = true :=
    isWordOf_not (by simp only [Config.regCmd, Config.regPage]; omega)
  have notResp : ¬ isWordOf Config.regResp 4 (Config.regPage + o) = true :=
    isWordOf_not (by simp only [Config.regResp, Config.regPage]; omega)
  have notEvt : ¬ isWordOf Config.regEvt 4 (Config.regPage + o) = true :=
    isWordOf_not (by simp only [Config.regEvt, Config.regPage]; omega)
  have page : isWordOf Config.regPage 1024 (Config.regPage + o) = true := isWordOf_of (by omega)
  unfold State.readAt
  rw [if_neg (by simp only [Config.regPage, Config.regId]; omega),
    if_neg (by simp only [Config.regPage, Config.regStatus]; omega),
    if_neg (by simp only [Config.regPage, Config.regWindow]; omega), if_neg notCmd, if_neg notResp, if_neg notEvt, if_pos page,
    Nat.add_sub_cancel_left]

/-- The page window takes a write with any byte enables. -/
theorem State.writeAt_page (s : State) {o : Nat} (h : o < 4096) (e : BitVec 4) (data : Word) :
    s.writeAt (Config.regPage + o) e data = s.windowWriteAt o e data := by
  unfold State.writeAt
  rw [if_pos (isWordOf_of (by omega)), Nat.add_sub_cancel_left]

/-- A word-aligned offset of the page window is one of the register window. -/
theorem pageOffset_bounds {offset : BitVec 12} (h : offset.toNat % 4 = 0) :
    offset.toNat < 4096 ∧ Config.regPage + offset.toNat < 0x2000 ∧ (Config.regPage + offset.toNat) % 4 = 0 := by
  have ho := offset.isLt
  simp only [Config.regPage]
  omega

/-- A read of the page window on a running part. -/
theorem exec_pageWindowRead {s : State} (hs : s.running) {offset : BitVec 12} (h : offset.toNat % 4 = 0) :
    exec (.pageWindowRead offset) s = .next (s.windowReadAt offset.toNat) := by
  obtain ⟨ho, hw, hm⟩ := pageOffset_bounds h
  rw [← State.readAt_page s ho, ← State.busAccess_read hs _ hw hm 0 0]
  rfl

/-- A write of the page window on a running part. -/
theorem exec_pageWindowWrite {s : State} (hs : s.running) {offset : BitVec 12} (h : offset.toNat % 4 = 0) (e : BitVec 4)
    (data : Word) : exec (.pageWindowWrite offset e data) s = .next (s.windowWriteAt offset.toNat e data) := by
  obtain ⟨ho, hw, hm⟩ := pageOffset_bounds h
  rw [← State.writeAt_page s ho, ← State.busAccess_write hs _ hw hm]
  rfl

/-- A WRITING slot shows its bytes. -/
theorem State.windowReadAt_writing {s : State} (h : s.slot s.port.window = .writing) (o : Nat) :
    let byteAt := fun k => memRead s.slots.mem (4096 * s.port.window.val + o + k)
    s.windowReadAt o = s.answer false (wordOfBytes (byteAt 0) (byteAt 1) (byteAt 2) (byteAt 3)) := by
  unfold State.windowReadAt
  simp only [h, slotAddr_eq, Nat.add_assoc, Nat.add_zero]

/-- A HELD slot shows the bytes below the page's length, and 00h above them. -/
theorem State.windowReadAt_held {s : State} {i : EntryIx} {page : PageNum} {len : Nat}
    (h : s.slot s.port.window = .held i page len) (o : Nat) :
    let shown := fun k => if o + k < len then memRead s.slots.mem (4096 * s.port.window.val + o + k) else 0
    s.windowReadAt o = s.answer false (wordOfBytes (shown 0) (shown 1) (shown 2) (shown 3)) := by
  unfold State.windowReadAt
  simp only [h, State.heldByte, slotAddr_eq, Nat.add_assoc, Nat.add_zero]

/-- Any other slot answers a read with ACCESS_FAULT. -/
theorem State.windowReadAt_other {s : State} (hw : s.slot s.port.window ≠ .writing)
    (hh : ∀ i page len, s.slot s.port.window ≠ .held i page len) (o : Nat) : s.windowReadAt o = s.accessFault .read := by
  unfold State.windowReadAt
  dsimp only
  split
  · exact absurd (by assumption) hw
  · exact absurd (by assumption) (hh _ _ _)
  · rfl

/-- A WRITING slot takes the enabled bytes of a write. -/
theorem State.windowWriteAt_writing {s : State} (h : s.slot s.port.window = .writing) (o : Nat) (e : BitVec 4) (data : Word) :
    s.windowWriteAt o e data = State.answer { s with slots := { s.slots with
      mem := storeLanes s.slots.mem (4096 * s.port.window.val + o) e data } } false 0 := by
  unfold State.windowWriteAt
  simp only [h, slotAddr_eq]

/-- Any other slot answers a write with ACCESS_FAULT. -/
theorem State.windowWriteAt_other {s : State} (h : s.slot s.port.window ≠ .writing) (o : Nat) (e : BitVec 4) (data : Word) :
    s.windowWriteAt o e data = s.accessFault .write := by
  unfold State.windowWriteAt
  dsimp only
  split
  · exact absurd (by assumption) h
  · rfl

/-- A refused access as a record: ACCESS_FAULT is inserted, and the bus answers with the error response (R16). -/
theorem State.accessFault_eq (s : State) (k : AccessKind) : s.accessFault k =
    { s.insertEvent (.accessFault s.port.window k ((s.slot s.port.window).owner?.map s.streamOf) (s.slot s.port.window).page?)
      with port := { s.port with bus := some ⟨true, 0⟩ } } := by
  simp only [State.accessFault, State.busError, State.answer, State.modPort, State.insertEvent_port]

/-- A word of a slot lies inside page memory (R1). -/
theorem slotWord_inside (n : SlotNum) {offset : BitVec 12} (h : offset.toNat % 4 = 0) :
    4096 * n.val + offset.toNat + 4 ≤ memSize := by
  have ho := offset.isLt
  have hn := n.isLt
  simp only [memSize, Config.slotBytes]
  omega

/-- Settles O14: reads, writes of a WRITING slot, and refused accesses. -/
theorem windowAccessesThePage : Obligations.WindowAccessesThePage := by
  refine ⟨fun offset s hs ha => ⟨fun hw => ?_, fun i page len hh => ?_⟩, fun offset e data s hs hm ha hw => ?_,
    fun offset e data s hs ha => ⟨fun hw hh => ?_, fun hw => ?_, fun k => State.insertEvent_slots _ _⟩⟩
  · rw [exec_pageWindowRead hs ha, State.windowReadAt_writing hw]
    rfl
  · rw [exec_pageWindowRead hs ha, State.windowReadAt_held hh]
    rfl
  · have inside := slotWord_inside s.port.window ha
    refine ⟨_, by rw [exec_pageWindowWrite hs ha, State.windowWriteAt_writing hw]; rfl, storeLanes_wf hm _ e data,
      fun k => ?_, fun a outside => ?_⟩
    · rw [memRead_storeLanes hm _ e data inside, Nat.add_sub_cancel_left]
      have hk := k.isLt
      by_cases he : e.getLsbD k.val = true
      · rw [if_pos ⟨by omega, by omega, he⟩, if_pos he]
      · rw [if_neg fun c => he c.2.2, if_neg he]
    · rw [memRead_storeLanes hm _ e data inside, if_neg (by omega)]
  · rw [exec_pageWindowRead hs ha, State.windowReadAt_other hw hh, State.accessFault_eq]
  · rw [exec_pageWindowWrite hs ha, State.windowWriteAt_other hw, State.accessFault_eq]

/-! ### CLAIM and DISCARD (R18, R19) -/

theorem State.isUnconfigured_iff (s : State) : s.isUnconfigured = true ↔ s.presence.state = .unconfigured := beq_iff_eq

/-- CLAIM in UNCONFIGURED. -/
theorem State.cmdClaim_unconfigured {s : State} (h : s.presence.state = .unconfigured) : s.cmdClaim = s.refuse .badState :=
  if_pos (s.isUnconfigured_iff.2 h)

/-- CLAIM with an empty free list. -/
theorem State.cmdClaim_empty {s : State} (h : s.presence.state ≠ .unconfigured) (hf : s.slots.free = []) :
    s.cmdClaim = s.refuse .noSlot := by
  unfold State.cmdClaim
  rw [if_neg fun c => h (s.isUnconfigured_iff.1 c), (SlotManager.grant_none (by decide)).2 hf]

/-- A grant of the head of the free list (R5). -/
theorem SlotManager.grant_head {m : SlotManager} {n : SlotNum} {rest : List SlotNum} (h : m.free = n :: rest) {r : Slot}
    (hr : r ≠ .free) : m.grant r = some (n, { m with records := vput m.records n r, free := rest }) := by
  unfold SlotManager.grant
  rw [h]
  exact if_neg hr

/-- CLAIM with a slot on the free list. -/
theorem State.cmdClaim_head {s : State} (h : s.presence.state ≠ .unconfigured) {n : SlotNum} {rest : List SlotNum}
    (hf : s.slots.free = n :: rest) : s.cmdClaim =
      ({ s with slots := { s.slots with records := vput s.slots.records n .writing, free := rest } },
        .of .ok (number n.val) (number rest.length)) := by
  unfold State.cmdClaim
  rw [if_neg fun c => h (s.isUnconfigured_iff.1 c), SlotManager.grant_head hf (by decide)]

/-- Settles O24: one case of `State.cmdClaim` for each clause. -/
theorem claimGrantsTheHeadSlot : Obligations.ClaimGrantsTheHeadSlot := by
  refine fun tag s hs => ⟨fun hu => ?_, fun hu hf => ?_, fun n rest hu hf => ?_, rfl⟩
  · rw [exec_claim hs, State.cmdClaim_unconfigured (s := s.accepted) hu, State.finish_refuse]
  · rw [exec_claim hs, State.cmdClaim_empty (s := s.accepted) hu hf, State.finish_refuse]
  · rw [exec_claim hs, State.cmdClaim_head (s := s.accepted) hu hf, State.finish_of]
    rfl

/-- DISCARD in UNCONFIGURED. -/
theorem State.cmdDiscard_unconfigured {s : State} (h : s.presence.state = .unconfigured) (slot : Nat) :
    s.cmdDiscard slot = s.refuse .badState :=
  if_pos (s.isUnconfigured_iff.2 h)

/-- DISCARD of a slot number above 31. -/
theorem State.cmdDiscard_above {s : State} (h : s.presence.state ≠ .unconfigured) {slot : Nat} (hn : 31 < slot) :
    s.cmdDiscard slot = s.refuse .badArg := by
  unfold State.cmdDiscard
  rw [if_neg fun c => h (s.isUnconfigured_iff.1 c), below32?_above hn]

/-- DISCARD of a slot that is not WRITING. -/
theorem State.cmdDiscard_other {s : State} (h : s.presence.state ≠ .unconfigured) {n : SlotNum} (hw : s.slot n ≠ .writing) :
    s.cmdDiscard n.val = s.badSlot n := by
  unfold State.cmdDiscard
  rw [if_neg fun c => h (s.isUnconfigured_iff.1 c), below32?_val]
  exact if_neg hw

/-- A slot that is not FREE becomes FREE and joins the free list tail (R3). -/
theorem SlotManager.giveBack_used {m : SlotManager} {n : SlotNum} (h : m.records[n] ≠ .free) :
    m.giveBack n = { m with records := vput m.records n .free, free := m.free ++ [n] } := if_neg h

/-- DISCARD of a WRITING slot. -/
theorem State.cmdDiscard_writing {s : State} (h : s.presence.state ≠ .unconfigured) {n : SlotNum} (hw : s.slot n = .writing) :
    s.cmdDiscard n.val =
      ({ s with slots := { s.slots with records := vput s.slots.records n .free, free := s.slots.free ++ [n] } },
        .of .ok (number n.val) (number (s.slots.free.length + 1))) := by
  have used : s.slots.records[n] ≠ .free := fun hf => absurd (hf.symm.trans hw) (by decide)
  unfold State.cmdDiscard
  rw [if_neg fun c => h (s.isUnconfigured_iff.1 c), below32?_val]
  simp only [hw, if_true, State.freeSlot, SlotManager.giveBack_used used, List.length_append, List.length_singleton]

/-- Settles O25: one case of `State.cmdDiscard` for each clause. -/
theorem discardFreesAWritingSlot : Obligations.DiscardFreesAWritingSlot := by
  refine fun tag slot s hs => ⟨fun hu => ?_, fun hu hn => ?_, fun n hu hn hw => ?_, fun n hu hn hw => ?_⟩
  · rw [exec_discard hs, State.cmdDiscard_unconfigured (s := s.accepted) hu, State.finish_refuse]
  · rw [exec_discard hs, State.cmdDiscard_above (s := s.accepted) hu hn, State.finish_refuse]
  · rw [exec_discard hs, hn, State.cmdDiscard_other (s := s.accepted) hu hw]
    rfl
  · rw [exec_discard hs, hn, State.cmdDiscard_writing (s := s.accepted) hu hw, State.finish_of]
    rfl

end Sys2Proof.Machine
end

section
/-! SUPPORT. Comparison of page numbers, and the operations under which a consumer entry stays one (chapter 2). -/

namespace Sys2Proof.Machine

/-! ### Comparison of page numbers (R30) -/

/-- The distance from `a` to `b` as the difference of the words. -/
theorem pageDistance (a b : PageNum) : (b - a).toNat = (b.toNat + 65536 - a.toNat) % 65536 := by
  have ha := a.isLt
  rw [BitVec.toNat_sub]
  congr 1
  omega

theorem isNewer_iff (b a : PageNum) : isNewer b a = true ↔ 1 ≤ (b - a).toNat ∧ (b - a).toNat ≤ 32767 := by
  simp [isNewer]

theorem isOlder_iff (b a : PageNum) : isOlder b a = true ↔ 32768 ≤ (b - a).toNat := decide_eq_true_iff

/-- The two distances between different pages make up 65536. -/
theorem pageDistance_swap {a b : PageNum} (h : b ≠ a) : (a - b).toNat = 65536 - (b - a).toNat := by
  have hne : b.toNat ≠ a.toNat := fun e => h (BitVec.eq_of_toNat_eq e)
  have ha := a.isLt
  have hb := b.isLt
  rw [pageDistance, pageDistance]
  omega

theorem pageDistance_zero (a b : PageNum) : (b - a).toNat = 0 ↔ b = a := by
  rw [← BitVec.toNat_zero (w := 16), ← BitVec.toNat_eq, BitVec.sub_eq_iff_eq_add, BitVec.zero_add]

theorem isOlder_false_iff (b a : PageNum) : isOlder b a = false ↔ b = a ∨ isNewer b a = true := by
  rw [← Bool.not_eq_true, isOlder_iff, isNewer_iff, ← pageDistance_zero]
  omega

/-- Half way round each page is older than the other. -/
theorem isOlder_both {a b : PageNum} (h : (b - a).toNat = 32768) :
    isOlder b a = true ∧ isOlder a b = true ∧ isNewer b a = false ∧ isNewer a b = false := by
  have hne : b ≠ a := fun e => by rw [(pageDistance_zero a b).2 e] at h; cases h
  have back := pageDistance_swap hne
  rw [isOlder_iff, isOlder_iff, ← Bool.not_eq_true, ← Bool.not_eq_true, isNewer_iff, isNewer_iff]
  omega

/-! ### Operations under which a consumer entry stays one -/

@[simp] theorem State.modConsumer_consumer (s : State) (i : EntryIx) (f : Consumer → Consumer) :
    (s.modConsumer i f).consumer i = (s.consumer i).map f := by
  cases h : s.consumer i with
  | some c =>
    rw [State.modConsumer_of (State.entry_of_consumer h)]
    exact State.consumer_of (State.entry_of_streams rfl)
  | none =>
    unfold State.modConsumer
    split
    · rename_i c e
      rw [State.consumer_of e] at h
      cases h
    · exact h

theorem State.consumer_congr {s t : State} {i : EntryIx} (h : t.entry i = s.entry i) : t.consumer i = s.consumer i := by
  unfold State.consumer
  rw [h]

@[simp] theorem State.elementRemoved_consumer (s : State) (src : FrameSource) (i : EntryIx) :
    (s.elementRemoved src).consumer i = s.consumer i :=
  State.consumer_congr (State.sourceRemoved_entry s _ i)

@[simp] theorem State.contentReplaced_consumer (s : State) (src : FrameSource) (f : Frame) (i : EntryIx) :
    (s.contentReplaced src f).consumer i = s.consumer i := by
  unfold State.contentReplaced
  split
  · split <;> rfl
  · rfl

@[simp] theorem State.insertEvent_consumer (s : State) (e : Event) (i : EntryIx) : (s.insertEvent e).consumer i = s.consumer i := by
  rw [State.insertEvent_eq]
  rfl

@[simp] theorem State.freeRef_consumer (s : State) (r : Option SlotNum) (i : EntryIx) :
    (s.freeRef r).consumer i = s.consumer i := by
  cases r <;> rfl

@[simp] theorem State.clearTake_consumer (s : State) (i : EntryIx) :
    (s.clearTake i).consumer i = (s.consumer i).map fun c => { c with take := false } := by
  rw [State.clearTake, State.elementRemoved_consumer, State.modConsumer_consumer]

@[simp] theorem State.clearGap_consumer (s : State) (i : EntryIx) :
    (s.clearGap i).consumer i = (s.consumer i).map fun c => { c with gap := none } := by
  rw [State.clearGap, State.elementRemoved_consumer, State.modConsumer_consumer]

@[simp] theorem State.clearFree_consumer (s : State) (i : EntryIx) :
    (s.clearFree i).consumer i = (s.consumer i).map fun c => { c with free := none } := by
  rw [State.clearFree, State.elementRemoved_consumer, State.modConsumer_consumer]

@[simp] theorem State.setFree_consumer (s : State) (i : EntryIx) (page : PageNum) (lost : Bool) :
    (s.setFree i page lost).consumer i = (s.consumer i).map fun c => { c with free := some (page, lost) } := by
  rw [State.setFree, State.contentReplaced_consumer, State.modConsumer_consumer]

/-- The entry that loses a page stays a consumer entry, whichever elements the loss removes and places. -/
theorem State.pageLost_isConsumer {s : State} {i : EntryIx} (h : (s.consumer i).isSome) (page : PageNum)
    (slot : Option SlotNum) (r : LossReason) : ((s.pageLost i page slot r).consumer i).isSome := by
  unfold State.pageLost
  split
  · dsimp only
    repeat' split
    all_goals simpa using h
  · exact h

theorem State.loseFilling_isConsumer {s : State} {i : EntryIx} (h : (s.consumer i).isSome) (r : LossReason) :
    ((s.loseFilling i r).consumer i).isSome := by
  unfold State.loseFilling
  split
  · split
    · have lost := State.pageLost_isConsumer h
      unfold State.dropFilling
      split
      · simpa using lost _ _ _
      · exact lost _ _ _
    · exact h
  · exact h

/-- Settles O60: each clause by the distance of the two pages as a word, and `State.dropProducer` writes its page numbers last. -/
theorem pageNumbersWrap : Obligations.PageNumbersWrap := by
  refine ⟨fun a b => ?_, fun s i c hc => ?_⟩
  · simp only [← pageDistance]
    exact ⟨pageDistance_zero a b, isNewer_iff b a, isOlder_iff b a, isOlder_false_iff b a, isOlder_both⟩
  · have lost := State.loseFilling_isConsumer (s := s) (i := i) (by rw [hc]; rfl) .producerLost
    obtain ⟨d, hd⟩ := Option.isSome_iff_exists.1 lost
    unfold State.dropProducer
    simp [hd]

end Sys2Proof.Machine
end

section
/-! SUPPORT. SUBSCRIBE and the choice of a producer of record (chapter 2). -/

namespace Sys2Proof.Machine

/-! ### SUBSCRIBE (R34) -/

theorem modeOf?_of {mode : Byte} (h : mode.toNat ≤ 1) :
    modeOf? mode.toNat = some (if mode = 0 then .freeRun else .lockStep) := by
  have zero : mode = 0 ↔ mode.toNat = 0 := by
    rw [BitVec.toNat_eq]
    rfl
  unfold modeOf?
  by_cases h0 : mode.toNat = 0
  · rw [if_pos h0, if_pos (zero.2 h0)]
  · rw [if_neg h0, if_pos (by omega), if_neg fun e => h0 (zero.1 e)]

theorem modeOf?_none {n : Nat} (h : 1 < n) : modeOf? n = none := by
  unfold modeOf?
  rw [if_neg (by omega), if_neg (by omega)]

/-- With every entry in use there is no unused one. -/
theorem State.unusedEntry_none {s : State} (h : ∀ i, s.entry i ≠ none) : s.unusedEntry = none :=
  List.find?_eq_none.2 fun i _ k => h i (Option.isNone_iff_eq_none.1 k)

/-- The unused entry that is taken is the lowest one. -/
theorem State.unusedEntry_lowest {s : State} {i : EntryIx} (h : s.entry i = none) (lower : ∀ j, j < i → s.entry j ≠ none) :
    s.unusedEntry = some i := by
  unfold State.unusedEntry allEntries
  rw [List.find?_eq_some_iff_getElem]
  refine ⟨by rw [h]; rfl, i.val, by simp, by simp, fun j hj => ?_⟩
  simpa [Option.isSome_iff_ne_none] using lower ⟨j, by omega⟩ hj

theorem State.cmdSubscribe_unconfigured {s : State} (h : s.presence.state = .unconfigured) (stream mode : Nat) :
    s.cmdSubscribe stream mode = s.refuse .badState :=
  if_pos (s.isUnconfigured_iff.2 h)

/-- An identifier or a mode outside its range. -/
theorem State.cmdSubscribe_range {s : State} (h : s.presence.state ≠ .unconfigured) {stream mode : Nat}
    (hr : streamOf? stream = none ∨ modeOf? mode = none) : s.cmdSubscribe stream mode = s.refuse .badArg := by
  unfold State.cmdSubscribe
  rw [if_neg fun c => h (s.isUnconfigured_iff.1 c)]
  rcases hr with hr | hr
  · rw [hr]
  · rw [hr]
    cases streamOf? stream <;> rfl

section
variable {s : State} {stream mode : Nat} {id : StreamId} {m : Mode} (h : s.presence.state ≠ .unconfigured)
  (hid : streamOf? stream = some id) (hm : modeOf? mode = some m)
include h hid hm

theorem State.cmdSubscribe_found {i : EntryIx} (hf : s.findStream id = some i) :
    s.cmdSubscribe stream mode = (s, .of .exists_ (number i.val) 0) := by
  simp only [State.cmdSubscribe, h, State.isUnconfigured_iff, hid, hm, hf, if_false]

theorem State.cmdSubscribe_full (hf : s.findStream id = none) (hu : s.unusedEntry = none) :
    s.cmdSubscribe stream mode = s.refuse .full := by
  simp only [State.cmdSubscribe, h, State.isUnconfigured_iff, hid, hm, hf, hu, if_false]

/-- The entry that SUBSCRIBE makes, and the producer of record it chooses. -/
theorem State.cmdSubscribe_unused {i : EntryIx} (hf : s.findStream id = none) (hu : s.unusedEntry = some i) {c : Consumer}
    (hc : (s.setEntry i (some (.consumer (.created id m)))).chooseProducer i = s.setEntry i (some (.consumer c))) :
    s.cmdSubscribe stream mode =
      (s.setEntry i (some (.consumer c)), .of .ok (number i.val) (number (numberOr32 c.producer))) := by
  have made : (s.setEntry i (some (.consumer c))).consumer i = some c := State.consumer_of (State.entry_setEntry _ _ _)
  simp only [State.cmdSubscribe, h, State.isUnconfigured_iff, hid, hm, hf, hu, hc, made, if_false, Option.bind_some]

end

section
variable {s : State} {i : EntryIx} {c : Consumer} (he : s.entry i = some (.consumer c)) (hp : c.producer = none)
include he hp

/-- With no claimant the entry stays as it is (R32). -/
theorem State.chooseProducer_unclaimed (hn : s.claimants c.stream = []) : s.chooseProducer i = s := by
  simp only [State.chooseProducer, State.consumer_of he, hp, hn]

/-- A LOCK_STEP entry of a station that is LEAVING or QUIET takes no producer of record (R26, R32). -/
theorem State.chooseProducer_leaving (hm : c.mode = .lockStep) (hl : s.presence.state = .leaving ∨ s.presence.state = .quiet) :
    s.chooseProducer i = s := by
  unfold State.chooseProducer
  rw [State.consumer_of he]
  dsimp only
  rw [hp, hm]
  split
  · exact if_pos hl
  · rfl

theorem State.chooseProducer_freeRun {n : Station} {rest : List Station} (hn : s.claimants c.stream = n :: rest)
    (hm : c.mode = .freeRun) : s.chooseProducer i =
      s.setEntry i (some (.consumer { c with producer := some n, state := .receiving, timer := none })) := by
  simp only [State.chooseProducer, State.consumer_of he, hp, hn, hm, State.modConsumer_of he]
  rfl

theorem State.chooseProducer_lockStep {n : Station} {rest : List Station} (hn : s.claimants c.stream = n :: rest)
    (hm : c.mode = .lockStep) (hl : ¬ (s.presence.state = .leaving ∨ s.presence.state = .quiet)) : s.chooseProducer i =
      s.setEntry i (some (.consumer { c with
        producer := some n, state := .joining, joinTries := 0, take := true, timer := none })) := by
  simp only [State.chooseProducer, State.consumer_of he, hp, hn, hm, State.modConsumer_of he, if_neg hl]
  rfl

end

/-- Settles O29: one case of `State.cmdSubscribe` for each clause; the made entry is what `State.chooseProducer` makes of a
created one. -/
theorem subscribeCreatesAnEntry : Obligations.SubscribeCreatesAnEntry := by
  refine fun tag b mode s hs => ⟨fun hu => ?_, fun hu hr => ?_, fun id hu hb hid hmode => ?_⟩
  · rw [exec_subscribe hs, State.cmdSubscribe_unconfigured (s := s.accepted) hu, State.finish_refuse]
  · have range : streamOf? b.toNat = none ∨ modeOf? mode.toNat = none := by
      rcases hr with hr | hr | hr
      · exact .inl (streamOf?_none (.inl hr))
      · exact .inl (streamOf?_none (.inr hr))
      · exact .inr (modeOf?_none hr)
    rw [exec_subscribe hs, State.cmdSubscribe_range (s := s.accepted) hu range, State.finish_refuse]
  have stream := streamOf?_of hb hid
  have code := modeOf?_of hmode
  intro m
  refine ⟨fun i hf => ?_, fun hf full => ?_, fun i hf free lower => ?_⟩
  · rw [exec_subscribe hs, State.cmdSubscribe_found (s := s.accepted) hu stream code hf]
    rfl
  · rw [exec_subscribe hs, State.cmdSubscribe_full (s := s.accepted) hu stream code hf (State.unusedEntry_none full),
      State.finish_refuse]
  have unused : s.accepted.unusedEntry = some i := State.unusedEntry_lowest free lower
  have made : (s.accepted.setEntry i (some (.consumer (.created id m)))).entry i = some (.consumer (.created id m)) :=
    State.entry_setEntry _ _ _
  have again : ∀ c, (s.accepted.setEntry i (some (.consumer (.created id m)))).setEntry i (some (.consumer c)) =
      s.accepted.setEntry i (some (.consumer c)) := fun c => by
    simp only [State.setEntry, vput_vput]
  refine ⟨fun none => ?_, fun n rest hn hm => ?_, fun n rest hn hm hl => ?_⟩
  · rw [exec_subscribe hs, State.cmdSubscribe_unused (s := s.accepted) hu stream code hf unused (c := .created id m)]
    · rfl
    rcases none with none | ⟨hm, hl⟩
    · exact State.chooseProducer_unclaimed made rfl none
    · exact State.chooseProducer_leaving made rfl hm (by simpa using hl)
  · rw [exec_subscribe hs, State.cmdSubscribe_unused (s := s.accepted) hu stream code hf unused
      ((State.chooseProducer_freeRun made rfl hn hm).trans (again _))]
    rfl
  · rw [exec_subscribe hs, State.cmdSubscribe_unused (s := s.accepted) hu stream code hf unused
      ((State.chooseProducer_lockStep made rfl hn hm (by simpa using hl)).trans (again _))]
    rfl

end Sys2Proof.Machine
end

section
/-! SUPPORT. UNSUBSCRIBE (chapter 2), and the slots that an event gives back to the free list. -/

namespace Sys2Proof.Machine

/-! ### What is kept by every turn over the entries -/

/-- What every turn keeps is kept when all entries have had their turn. -/
theorem State.forEntries_inv {f : EntryIx → State → State} {P : State → Prop} (step : ∀ i t, P t → P (f i t)) {s : State}
    (start : P s) : P (s.forEntries f) := by
  unfold State.forEntries
  generalize allEntries = l
  induction l generalizing s with
  | nil => exact start
  | cons i l ih => exact ih (step i s start)

/-- What no turn changes is as before when all entries have had their turn. -/
theorem State.forEntries_keeps {α : Type} (g : State → α) {f : EntryIx → State → State} (step : ∀ i t, g (f i t) = g t)
    (s : State) : g (s.forEntries f) = g s :=
  State.forEntries_inv (P := fun t => g t = g s) (fun i t h => (step i t).trans h) rfl

/-! ### The end of an event grants and frees no slot (R3) -/

@[simp] theorem State.modProducer_slots (s : State) (i : EntryIx) (f : Producer → Producer) :
    (s.modProducer i f).slots = s.slots := by
  unfold State.modProducer
  split <;> rfl

theorem State.markerEffect_slots (i : EntryIx) (s : State) (d : Descriptor) : (State.markerEffect i s d).slots = s.slots := by
  simp [State.markerEffect]

theorem State.applyMarkers_slots (i : EntryIx) (s : State) : (State.applyMarkers i s).slots = s.slots := by
  have markers : ∀ (l : List Descriptor) (t : State), (l.foldl (State.markerEffect i) t).slots = t.slots := by
    intro l
    induction l with
    | nil => exact fun _ => rfl
    | cons d l ih => exact fun t => (ih _).trans (State.markerEffect_slots i t d)
  unfold State.applyMarkers
  split
  · split
    · exact markers _ _
    · rfl
  · rfl

@[simp] theorem State.offer_slots (s : State) (k : OfferedKind) (f : Frame) : (s.offer k f).slots = s.slots := rfl

@[simp] theorem State.offerFlight_slots (s : State) (f : Flight) : (s.offerFlight f).slots = s.slots := by
  unfold State.offerFlight
  split <;> rfl

/-- A selected page's slot becomes SENDING, which moves no slot to or from the free list (R45). -/
theorem State.select_free (s : State) : s.select.slots.free = s.slots.free := by
  unfold State.select State.selectDescriptor
  split
  · split
    · simp
    · rfl
  · rfl

@[simp] theorem State.offerPass_slots (s : State) (ps : Pass) (p : Producer) (n : SlotNum) :
    (s.offerPass ps p n).slots = s.slots := by
  unfold State.offerPass
  dsimp only
  split <;> simp

theorem State.beginPass_slots (s : State) (i : EntryIx) : (s.beginPass i).slots = s.slots := by
  unfold State.beginPass
  split
  · split
    · simp
    · rfl
  · rfl

theorem State.continuePass_slots (s : State) (ps : Pass) : (s.continuePass ps).slots = s.slots := by
  unfold State.continuePass
  split
  · split
    · simp
    · rfl
  · rfl

theorem State.boundaryNew_free (s : State) : s.boundaryNew.slots.free = s.slots.free := by
  unfold State.boundaryNew State.boundaryRest
  split
  · rw [State.beginPass_slots]
  · split
    · rfl
    · rw [State.offerFlight_slots]
    · exact State.select_free s

theorem State.boundary_free (s : State) : s.boundary.slots.free = s.slots.free := by
  unfold State.boundary
  split
  · split
    · split
      · rw [State.continuePass_slots]
      · exact State.boundaryNew_free _
    · exact State.boundaryNew_free s
  · rfl

theorem State.testLeaving_slots (s : State) : s.testLeaving.slots = s.slots := by
  unfold State.testLeaving
  split <;> rfl

/-- The end of an event leaves the free list as it is. -/
theorem State.settle_free (s : State) : s.settle.slots.free = s.slots.free := by
  unfold State.settle
  rw [State.testLeaving_slots, State.boundary_free, State.forEntries_keeps State.slots State.applyMarkers_slots]

/-! ### Slots that references name become FREE (R3) -/

theorem State.freeRef_eq (s : State) (r : Option SlotNum) : s.freeRef r = { s with slots := (s.freeRef r).slots } := by
  cases r <;> rfl

theorem State.freeRef_slot (s : State) (r : Option SlotNum) (m : SlotNum) :
    (s.freeRef r).slot m = if r = some m then .free else s.slot m := by
  cases r with
  | none => rfl
  | some n =>
    rw [State.freeRef, State.freeSlot_slot]
    simp only [Option.some.injEq]

/-- The slot that joins the free list when the slot of a reference is freed: the one it names, unless that is FREE already. -/
def State.joins (s : State) (r : Option SlotNum) : List SlotNum := r.toList.filter fun n => decide (s.slot n ≠ .free)

theorem State.mem_joins (s : State) (r : Option SlotNum) (n : SlotNum) : n ∈ s.joins r ↔ r = some n ∧ s.slot n ≠ .free := by
  simp [State.joins, Option.mem_toList]

theorem State.joins_nodup (s : State) (r : Option SlotNum) : (s.joins r).Nodup := by
  unfold State.joins
  cases r <;> simp [List.Nodup.filter]

theorem State.joins_free {s : State} {n : SlotNum} (h : s.slot n = .free) : s.joins (some n) = [] := by
  simp [State.joins, h]

theorem State.joins_used {s : State} {n : SlotNum} (h : s.slot n ≠ .free) : s.joins (some n) = [n] := by
  simp [State.joins, h]

theorem State.freeRef_free (s : State) (r : Option SlotNum) : (s.freeRef r).slots.free = s.slots.free ++ s.joins r := by
  cases r with
  | none => exact (List.append_nil _).symm
  | some n =>
    by_cases h : s.slot n = .free
    · have same : (s.freeSlot n).slots = s.slots := if_pos h
      rw [State.joins_free h, List.append_nil, State.freeRef, same]
    · rw [State.joins_used h, State.freeRef, State.freeSlot_slots, SlotManager.giveBack_used h]

/-- The slots that two references name, the second one freed after the first. -/
theorem State.mem_joins_two (s : State) (r q : Option SlotNum) (n : SlotNum) :
    n ∈ s.joins r ++ (s.freeRef r).joins q ↔ (r = some n ∨ q = some n) ∧ s.slot n ≠ .free := by
  rw [List.mem_append, State.mem_joins, State.mem_joins, State.freeRef_slot]
  by_cases h : r = some n <;> simp [h]

/-- No slot joins the list twice: what the first reference has freed is FREE for the second. -/
theorem State.joins_two_nodup (s : State) (r q : Option SlotNum) : (s.joins r ++ (s.freeRef r).joins q).Nodup := by
  refine List.nodup_append'.2 ⟨s.joins_nodup r, (s.freeRef r).joins_nodup q, fun n hr hq => ?_⟩
  rw [State.mem_joins] at hr hq
  exact hq.2 (by rw [State.freeRef_slot, if_pos hr.1])

/-- A list without repetition in ascending order is the numbers 0 to 31 that are in it. -/
theorem ascending_eq_filter {l : List SlotNum} (nodup : l.Nodup) {p : SlotNum → Bool} (h : ∀ n, n ∈ l ↔ p n = true) :
    ascending l = (List.finRange 32).filter p := by
  have perm : (ascending l).Perm ((List.finRange 32).filter p) := by
    refine (ascending_perm l).trans ((List.perm_ext_iff_of_nodup nodup ((List.nodup_finRange 32).filter p)).2 fun n => ?_)
    rw [h, List.mem_filter]
    exact ⟨fun k => ⟨List.mem_finRange n, k⟩, And.right⟩
  have sorted : ((List.finRange 32).filter p).Pairwise (· ≤ ·) :=
    ((List.sortedLT_finRange 32).pairwise.imp le_of_lt).filter p
  exact perm.eq_of_pairwise' (ascending_sorted l) sorted

/-! ### UNSUBSCRIBE (R35) -/

/-- The entry that UNSUBSCRIBE has stripped of its READY and FILLING slots, its timer, and its pending TAKE, GAP and FREE. -/
def Consumer.stripped (c : Consumer) : Consumer :=
  { c with
    ready := none
    earlier := { c.earlier with ready := false }
    filling := none
    timer := none
    take := false
    gap := none
    free := none }

theorem State.stripConsumer_of {s : State} {i : EntryIx} {c : Consumer} (he : s.entry i = some (.consumer c))
    (hn : s.holdsNone i) : s.stripConsumer i c =
      { (s.freeRef c.ready).freeRef c.filling with streams := vput s.streams i (some (.consumer c.stripped)) } := by
  have freed : (s.freeRef c.ready).freeRef c.filling = { s with slots := ((s.freeRef c.ready).freeRef c.filling).slots } := by
    rw [State.freeRef_eq (s.freeRef c.ready), State.freeRef_eq s]
  unfold State.stripConsumer
  rw [freed, State.clearTake_of (c := c) (by exact he) (by exact hn), State.clearGap_of (State.entry_of_streams rfl) (by exact hn),
    State.clearFree_of (State.entry_of_streams rfl) (by exact hn), State.modConsumer_of (State.entry_of_streams rfl)]
  simp only [vput_vput]
  rfl

/-- An entry that no frame of the holding frame is of is removed with its pending control set (R36). -/
theorem State.removeEntry_of {s : State} {i : EntryIx} (hn : s.holdsNone i) :
    s.removeEntry i = { s with streams := vput s.streams i none } := by
  unfold State.removeEntry
  rw [State.emptyPending_other hn]
  simp only [State.setEntry, vput_vput]

theorem Consumer.leaves_iff (c : Consumer) :
    c.leaves = true ↔ c.mode = .lockStep ∧ (c.state = .joining ∨ c.state = .receiving) := by
  simp [Consumer.leaves]

theorem State.transmits_iff (s : State) : s.transmits = true ↔ s.presence.state ∈ [.active, .leaving] := by
  simp [State.transmits]

/-- What UNSUBSCRIBE leaves of the entry: DEPARTING with DROP pending, or nothing (R35, R36). -/
def Consumer.unsubscribed (c : Consumer) (departs : Bool) : Option Entry :=
  if departs then some (.consumer { c.stripped with state := .departing, drop := true }) else none

/-- The slots freed and the entry as UNSUBSCRIBE leaves it, before the end of the event. -/
def State.unsubscribed (s : State) (i : EntryIx) (c : Consumer) (departs : Bool) : State :=
  { (s.freeRef c.ready).freeRef c.filling with streams := vput s.streams i (c.unsubscribed departs) }

/-- The free list after UNSUBSCRIBE (R3). -/
theorem State.unsubscribed_free (s : State) (i : EntryIx) (c : Consumer) (departs : Bool) :
    (s.joinAscending (s.unsubscribed i c departs).settle).slots.free = s.slots.free ++ (List.finRange 32).filter fun n =>
      decide ((c.ready = some n ∨ c.filling = some n) ∧ s.slot n ≠ .free) := by
  have freed : (s.unsubscribed i c departs).settle.slots.free =
      s.slots.free ++ (s.joins c.ready ++ (s.freeRef c.ready).joins c.filling) := by
    rw [State.settle_free, ← List.append_assoc, ← State.freeRef_free, ← State.freeRef_free]
    rfl
  rw [State.joinAscending_append freed, ascending_eq_filter (s.joins_two_nodup _ _)
    (p := fun n => decide ((c.ready = some n ∨ c.filling = some n) ∧ s.slot n ≠ .free))]
  exact fun n => (s.mem_joins_two _ _ n).trans decide_eq_true_iff.symm

section
variable {s : State} {b : Byte} {id : StreamId} {i : EntryIx} {c : Consumer} (hu : s.presence.state ≠ .unconfigured)
  (hb : b.toNat = id.toNat) (hid : id ≠ 0) (hf : s.findStream id = some i) (he : s.entry i = some (.consumer c))
include hu hb hid hf he

theorem State.cmdUnsubscribe_departing (hd : c.state = .departing) : s.cmdUnsubscribe b.toNat = s.refuse .badState := by
  unfold State.cmdUnsubscribe
  rw [if_neg fun k => hu (s.isUnconfigured_iff.1 k), State.withConsumer_of hb hid hf he, if_pos hd]

theorem State.cmdUnsubscribe_held (hd : c.state ≠ .departing) {n : SlotNum} (hh : c.held = some n) :
    s.cmdUnsubscribe b.toNat = (s, .of .held (number n.val) 0) := by
  unfold State.cmdUnsubscribe
  rw [if_neg fun k => hu (s.isUnconfigured_iff.1 k), State.withConsumer_of hb hid hf he, if_neg hd, hh]

/-- UNSUBSCRIBE of a consumer entry that is not DEPARTING and holds no page. -/
theorem State.cmdUnsubscribe_of (hd : c.state ≠ .departing) (hh : c.held = none) (hn : s.holdsNone i) :
    s.cmdUnsubscribe b.toNat =
      (s.joinAscending (s.unsubscribed i c (c.leaves && s.transmits)).settle,
        .of .ok (number i.val) (if c.leaves && s.transmits then 1 else 0)) := by
  have link : ((s.freeRef c.ready).freeRef c.filling).link = s.link := by
    rw [State.freeRef_eq (s.freeRef c.ready), State.freeRef_eq s]
  unfold State.cmdUnsubscribe
  rw [if_neg fun k => hu (s.isUnconfigured_iff.1 k), State.withConsumer_of hb hid hf he, if_neg hd, hh]
  dsimp only
  rw [State.stripConsumer_of he hn]
  by_cases leaves : c.leaves = true ∧ s.transmits = true
  · rw [if_pos leaves, State.modConsumer_of (State.entry_of_streams rfl), State.setDrop_of (State.entry_of_streams rfl)]
    simp only [State.unsubscribed, Consumer.unsubscribed, leaves.1, leaves.2, vput_vput, Bool.and_true, if_true]
    rfl
  · have stays : (c.leaves && s.transmits) = false := by simpa using leaves
    rw [if_neg leaves, State.removeEntry_of fun x hx => hn x (by rw [← link]; exact hx)]
    simp only [State.unsubscribed, Consumer.unsubscribed, stays, vput_vput, Bool.false_eq_true, if_false]
    rfl

end

theorem State.joinAscending_accepted (s t : State) : s.accepted.joinAscending t = s.joinAscending t := rfl

theorem State.respond_slots (s : State) (tag kind : Byte) (r : Result) (v1 v2 : Word) :
    (s.respond tag kind r v1 v2).slots = s.slots := rfl

/-- Settles O30: `State.cmdUnsubscribe` case by case; the free list by `State.unsubscribed_free`. -/
theorem unsubscribeEndsAnEntry : Obligations.UnsubscribeEndsAnEntry := by
  intro tag b id i c s hs hu hb hid hf he
  have departs : (c.mode = .lockStep ∧ (c.state = .joining ∨ c.state = .receiving) ∧ s.presence.state ∈ [.active, .leaving]) ↔
      (c.leaves && s.accepted.transmits) = true := by
    rw [Bool.and_eq_true, Consumer.leaves_iff, State.transmits_iff, and_assoc]
    rfl
  have ends (hd : c.state ≠ .departing) (hh : c.held = none) (hn : s.holdsNone i) : exec (.unsubscribe tag b) s =
      .next ((s.joinAscending (s.accepted.unsubscribed i c (c.leaves && s.accepted.transmits)).settle).respond tag 12 .ok
        (number i.val) (if c.leaves && s.accepted.transmits then 1 else 0)) := by
    rw [exec_unsubscribe hs, State.cmdUnsubscribe_of (s := s.accepted) hu hb hid hf he hd hh hn, State.finish_of,
      State.joinAscending_accepted]
  refine ⟨fun hd => ?_, fun n hd hh => ?_, fun hd hh hn => ⟨fun leaves => ?_, fun stays => ?_⟩, fun hd hh hn => ?_,
    fun u freed hfree => ⟨ascending freed, ascending_perm freed, ascending_sorted freed, State.joinAscending_append hfree⟩⟩
  · rw [exec_unsubscribe hs, State.cmdUnsubscribe_departing (s := s.accepted) hu hb hid hf he hd, State.finish_refuse]
  · rw [exec_unsubscribe hs, State.cmdUnsubscribe_held (s := s.accepted) hu hb hid hf he hd hh, State.finish_of]
    rfl
  · rw [ends hd hh hn, departs.1 leaves, if_pos rfl]
    rfl
  · rw [ends hd hh hn, Bool.eq_false_iff.2 fun k => stays (departs.2 k), if_neg Bool.false_ne_true]
    rfl
  · refine ⟨_, ends hd hh hn, ?_⟩
    rw [State.respond_slots, ← State.joinAscending_accepted, State.unsubscribed_free, State.accepted_slots]
    exact congrArg (s.slots.free ++ ·) (List.filter_congr fun n _ => decide_eq_decide.2 Iff.rfl)

end Sys2Proof.Machine
end

section
/-! SUPPORT. What the report of a frame does at its source (chapters 2, 5, 6 and 8), and how a station becomes QUIET (chapter 7). -/

namespace Sys2Proof.Machine

/-! ### The entry loses its producer of record (R33) -/

theorem State.holdsNone_empty {s : State} (h : s.link.holding = none) (i : EntryIx) : s.holdsNone i := fun x hx => by
  rw [h] at hx
  cases hx

/-- The Event Queue after an insertion depends on the queue and the Time Base alone. -/
theorem State.insertEvent_events_congr {s t : State} (he : t.events = s.events) (ht : t.time = s.time) (e : Event) :
    (t.insertEvent e).events = (s.insertEvent e).events := by
  rw [State.insertEvent_eq, State.insertEvent_eq, he, ht]

theorem State.insertEvent_entry (s : State) (e : Event) (i : EntryIx) : (s.insertEvent e).entry i = s.entry i := by
  rw [State.insertEvent_eq]
  rfl

theorem State.insertEvent_slot (s : State) (e : Event) (n : SlotNum) : (s.insertEvent e).slot n = s.slot n := by
  rw [State.insertEvent_eq]
  rfl

/-- A consumer entry WAITING without a producer of record: no timer, page number or pending TAKE, GAP or FREE; what it has
READY and HELD is of an earlier one. -/
def Consumer.withoutProducer (c : Consumer) : Consumer :=
  { c with
    state := .waiting
    producer := none
    timer := none
    firstAdmitted := none
    lastCompleted := none
    lastReleased := none
    earlier := ⟨c.ready.isSome, c.held.isSome, false⟩
    joinTries := 0
    take := false
    gap := none
    free := none }

/-- A consumer entry whose GAP has been reported: the repair wait runs, and a sent GAP counts as a repair asked for (R83). -/
def Consumer.asked (c : Consumer) (waitEnd : Micros) (sent : Bool) : Consumer :=
  { c with
    timer := some waitEnd
    counters := if sent then { c.counters with repairs := satInc c.counters.repairs } else c.counters }

section
variable {s : State} {i : EntryIx} {c : Consumer} (he : s.entry i = some (.consumer c))
include he

theorem State.loseFilling_none (hf : c.filling = none) (r : LossReason) : s.loseFilling i r = s := by
  unfold State.loseFilling
  rw [State.consumer_of he]
  dsimp only
  rw [hf]

/-- The FILLING page lost with its producer of record: its slot is freed and PAGE_LOST inserted. -/
theorem State.loseFilling_producerLost (hn : s.holdsNone i) {n : SlotNum} {page : PageNum} (hf : c.filling = some n)
    (hp : (s.slot n).page? = some page) : s.loseFilling i .producerLost =
      ({ s.freeSlot n with streams := vput s.streams i (some (.consumer { c with
        filling := none
        timer := none
        counters := c.counters.addLost
        gap := c.gap.filter fun e => e.1 != page })) } : State).insertEvent (.pageLost c.stream page (some n) .producerLost) := by
  have hfp : s.fillingPage c = some page := by
    rw [State.fillingPage, hf]
    exact hp
  have keepsFree : ¬ (c.mode = .lockStep ∧ c.state = .receiving ∧ LossReason.producerLost.setsFree = true) := by
    simp [LossReason.setsFree]
  unfold State.loseFilling
  rw [State.consumer_of he]
  dsimp only
  rw [hf, hfp]
  dsimp only
  rw [State.pageLost_of he hn, if_neg keepsFree, State.insertEvent_eq, State.insertEvent_eq]
  unfold State.dropFilling
  rw [State.consumer_of (State.entry_of_streams rfl)]
  dsimp only
  rw [hf, State.freeRef, State.modConsumer_of (State.entry_of_streams rfl)]
  simp only [State.freeSlot_streams, vput_vput]
  rfl

theorem State.dropProducer_of (hn : s.holdsNone i) (hf : c.filling = none) :
    s.dropProducer i = { s with streams := vput s.streams i (some (.consumer c.withoutProducer)) } := by
  unfold State.dropProducer
  rw [State.loseFilling_none he hf]
  dsimp only
  rw [State.clearTake_of he hn, State.clearGap_of (State.entry_of_streams rfl) (by exact hn),
    State.clearFree_of (State.entry_of_streams rfl) (by exact hn), State.modConsumer_of (State.entry_of_streams rfl)]
  simp only [vput_vput]
  rfl

theorem State.dropProducer_filling (hn : s.holdsNone i) {n : SlotNum} {page : PageNum} (hf : c.filling = some n)
    (hp : (s.slot n).page? = some page) : s.dropProducer i =
      ({ s.freeSlot n with streams := vput s.streams i (some (.consumer { c.withoutProducer with
        filling := none
        counters := c.counters.addLost })) } : State).insertEvent (.pageLost c.stream page (some n) .producerLost) := by
  unfold State.dropProducer
  rw [State.loseFilling_producerLost he hn hf hp, State.insertEvent_eq, State.insertEvent_eq]
  dsimp only
  rw [State.clearTake_of (State.entry_of_streams rfl) (by exact hn), State.clearGap_of (State.entry_of_streams rfl) (by exact hn),
    State.clearFree_of (State.entry_of_streams rfl) (by exact hn), State.modConsumer_of (State.entry_of_streams rfl)]
  simp only [vput_vput]
  rfl

/-! ### The report of a DROP (R36, R115) -/

theorem State.dropDone_departing (hn : s.holdsNone i) (hd : c.state = .departing) :
    s.dropDone i = { s with streams := vput s.streams i none } := by
  unfold State.dropDone
  rw [State.consumer_of he]
  dsimp only
  rw [if_pos hd, State.removeEntry_of hn]

theorem State.dropDone_of (hd : c.state ≠ .departing) : s.dropDone i = (s.clearDrop i).dropProducer i := by
  unfold State.dropDone
  rw [State.consumer_of he]
  exact if_neg hd

theorem State.dropDone_waiting (hn : s.holdsNone i) (hd : c.state ≠ .departing) (hf : c.filling = none) :
    s.dropDone i = { s with streams := vput s.streams i (some (.consumer { c.withoutProducer with drop := false })) } := by
  rw [State.dropDone_of he hd, State.clearDrop_of he hn,
    State.dropProducer_of (State.entry_of_streams rfl) (by exact hn) (by exact hf)]
  simp only [vput_vput]
  rfl

theorem State.dropDone_filling (hn : s.holdsNone i) (hd : c.state ≠ .departing) {n : SlotNum} {page : PageNum}
    (hf : c.filling = some n) (hp : (s.slot n).page? = some page) : s.dropDone i =
      ({ s.freeSlot n with streams := vput s.streams i (some (.consumer { c.withoutProducer with
        drop := false
        filling := none
        counters := c.counters.addLost })) } : State).insertEvent (.pageLost c.stream page (some n) .producerLost) := by
  rw [State.dropDone_of he hd, State.clearDrop_of he hn,
    State.dropProducer_filling (State.entry_of_streams rfl) (by exact hn) (by exact hf) (by exact hp)]
  simp only [vput_vput]
  rfl

/-! ### The report of a GAP (R83) -/

theorem State.gapReported_of {n : SlotNum} (hf : c.filling = some n) {o : EntryIx} {page : PageNum} {len : Option Nat}
    {received : SegSet} {gaps : Nat} (hs : s.slot n = .filling o page len received gaps) (sent : Bool) : s.gapReported i sent =
      ({ s with streams := vput s.streams i (some (.consumer (c.asked s.receptionEnd sent))) } : State).changeSlot n
        (.filling o page len received (min Config.repairMax (gaps + 1))) := by
  unfold State.gapReported
  rw [State.consumer_of he]
  dsimp only
  rw [hf]
  dsimp only
  rw [hs]
  dsimp only
  rw [State.modConsumer_of (c := c) (by exact he)]
  rfl

/-- The GAP leaves its set unless replaced content may still be asked for: the first GAP of the page (R83). -/
theorem State.report_gap {n : SlotNum} (hn : s.holdsNone i) (hf : c.filling = some n) {o : EntryIx} {page : PageNum}
    {len : Option Nat} {received : SegSet} {gaps : Nat} (hs : s.slot n = .filling o page len received gaps) (f : Frame)
    (keep sent : Bool) : s.report (.gap i) f keep sent =
      ({ s with streams := vput s.streams i (some (.consumer
        { c.asked s.receptionEnd sent with gap := if keep && decide (gaps = 0) then c.gap else none })) } : State).changeSlot n
        (.filling o page len received (min Config.repairMax (gaps + 1))) := by
  unfold State.report
  dsimp only
  rw [State.asksAgain_filling (State.consumer_of he) hf hs]
  cases keep && decide (gaps = 0) with
  | true => exact State.gapReported_of he hf hs sent
  | false =>
    rw [if_neg Bool.false_ne_true, State.clearGap_of he hn, State.gapReported_of (State.entry_of_streams rfl)
      (by exact hf) (by exact hs)]
    simp only [vput_vput]
    rfl

end

/-! ### The other reports while the holding frame is empty (R97, R98, R139) -/

theorem State.takeReported_of {s : State} {i : EntryIx} {c : Consumer} (he : s.entry i = some (.consumer c)) :
    s.takeReported i = { s with streams := vput s.streams i (some (.consumer { c with
      take := false
      joinTries := min Config.joinTriesMax (c.joinTries + 1)
      timer := some (s.afterRolls 2) })) } := by
  unfold State.takeReported
  rw [State.modConsumer_of he]

/-! ### The station becomes QUIET (R123) -/

/-- What the turns of an entry to QUIET leave alone. -/
def State.aside (s : State) : Presence × EventQueue × Vector Notice 32 × Micros × List Host.Cell :=
  (s.presence, s.events, s.notices, s.time, s.slots.mem)

theorem State.sourceRemoved_eq (s : State) (p : FrameSource → Bool) : ∃ l, s.sourceRemoved p = { s with link := l } := by
  unfold State.sourceRemoved
  split
  · split
    · split
      · exact ⟨_, rfl⟩
      · exact ⟨_, rfl⟩
    · exact ⟨_, rfl⟩
  · exact ⟨_, rfl⟩

theorem State.emptyPendingOf_aside (i : EntryIx) (s : State) : (State.emptyPendingOf i s).aside = s.aside := by
  obtain ⟨l, h⟩ := (s.setEntry i ((s.entry i).map Entry.withoutPending)).sourceRemoved_eq fun src => src.entry? == some i
  unfold State.emptyPendingOf State.emptyPending
  rw [h]
  rfl

theorem State.emptyPendingOf_entry_other {i j : EntryIx} (h : j ≠ i) (s : State) :
    (State.emptyPendingOf j s).entry i = s.entry i := State.emptyPending_entry_other s h

theorem State.emptyPendingOf_slot (m : SlotNum) (i : EntryIx) (s : State) : (State.emptyPendingOf i s).slot m = s.slot m :=
  State.emptyPending_slot s i m

/-- The slot that an entry retains if it is an OPEN producer entry. -/
def Entry.retainedOpen : Entry → Option SlotNum
  | .producer p => if p.state = .opened then p.retained else none
  | .consumer _ => none

/-- An OPEN producer entry back in DECLARED; any other entry as it is (R23). -/
def Entry.closed (floor : Nat) : Entry → Entry
  | .producer p => .producer (if p.state = .opened then .declared p.stream p.mode p.maxLen floor p.counters else p)
  | .consumer c => .consumer c

theorem Entry.retainedOpen_withoutPending (e : Entry) : e.withoutPending.retainedOpen = e.retainedOpen := by
  cases e <;> rfl

/-- A closed entry is not OPEN and retains nothing. -/
theorem Entry.retainedOpen_closed (floor : Nat) (e : Entry) : (e.closed floor).retainedOpen = none := by
  cases e with
  | producer p =>
    by_cases h : p.state = .opened
    · simp [Entry.closed, Entry.retainedOpen, h, Producer.declared]
    · simp [Entry.closed, Entry.retainedOpen, h]
  | consumer c => rfl

/-- The slot that entry `i` retains if it is an OPEN producer entry. -/
def State.retainedOpen (s : State) (i : EntryIx) : Option SlotNum := (s.entry i).bind Entry.retainedOpen

theorem State.closeEntry_eq (i : EntryIx) (s : State) : State.closeEntry i s =
    { s.freeRef (s.retainedOpen i) with streams := vput s.streams i ((s.entry i).map (Entry.closed s.floor)) } := by
  have unchanged : ∀ e, s.entry i = e → s = { s with streams := vput s.streams i e } := fun e h => by rw [vput_self _ _ _ h]
  unfold State.closeEntry State.retainedOpen
  cases he : s.entry i with
  | none =>
    rw [State.producer_of_none he]
    exact unchanged none he
  | some e =>
    cases e with
    | consumer c =>
      rw [State.producer_of_consumer he]
      exact unchanged _ he
    | producer p =>
      rw [State.producer_of he]
      dsimp only [Option.map_some, Option.bind_some, Entry.closed, Entry.retainedOpen]
      by_cases ho : p.state = .opened
      · rw [if_pos ho, if_pos ho, if_pos ho, State.freeRef_eq, State.modProducer_of (p := p) (by exact he)]
      · rw [if_neg ho, if_neg ho, if_neg ho]
        exact unchanged _ he

theorem State.closeEntry_entry (i : EntryIx) (s : State) :
    (State.closeEntry i s).entry i = (s.entry i).map (Entry.closed s.floor) := by
  rw [State.closeEntry_eq]
  exact State.entry_of_streams rfl

theorem State.closeEntry_entry_other {i j : EntryIx} (h : j ≠ i) (s : State) : (State.closeEntry j s).entry i = s.entry i := by
  rw [State.closeEntry_eq]
  exact State.entry_vput_other s h _

theorem State.closeEntry_slot (i : EntryIx) (s : State) (m : SlotNum) :
    (State.closeEntry i s).slot m = if s.retainedOpen i = some m then .free else s.slot m := by
  rw [State.closeEntry_eq]
  exact State.freeRef_slot s _ m

theorem State.closeEntry_aside (i : EntryIx) (s : State) : (State.closeEntry i s).aside = s.aside := by
  have mem : (s.freeRef (s.retainedOpen i)).slots.mem = s.slots.mem := by
    cases s.retainedOpen i with
    | none => rfl
    | some n => exact SlotManager.giveBack_mem _ _
  rw [State.closeEntry_eq, State.freeRef_eq]
  simp only [State.aside, mem]

theorem State.floor_of_aside {s t : State} (h : t.aside = s.aside) : t.floor = s.floor := by
  have presence : t.presence = s.presence := congrArg Prod.fst h
  rw [State.floor, presence]
  rfl

theorem State.emptyAll_entry (s : State) (i : EntryIx) :
    (s.forEntries State.emptyPendingOf).entry i = (s.entry i).map Entry.withoutPending :=
  State.forEntries_at i (Q := fun t => t.entry i = s.entry i)
    (R := fun t => t.entry i = (s.entry i).map Entry.withoutPending) rfl
    (fun _ t hj ht => (State.emptyPendingOf_entry_other hj t).trans ht)
    (fun t ht => (State.emptyPending_entry t i).trans (by rw [ht]))
    (fun _ t hj ht => (State.emptyPendingOf_entry_other hj t).trans ht)

theorem State.closeAll_entry (s : State) (i : EntryIx) :
    (s.forEntries State.closeEntry).entry i = (s.entry i).map (Entry.closed s.floor) :=
  State.forEntries_at i (Q := fun t => t.entry i = s.entry i ∧ t.aside = s.aside)
    (R := fun t => t.entry i = (s.entry i).map (Entry.closed s.floor)) ⟨rfl, rfl⟩
    (fun j t hj ht => ⟨(State.closeEntry_entry_other hj t).trans ht.1, (State.closeEntry_aside j t).trans ht.2⟩)
    (fun t ht => (State.closeEntry_entry i t).trans (by rw [ht.1, State.floor_of_aside ht.2]))
    (fun _ t hj ht => (State.closeEntry_entry_other hj t).trans ht)

/-- The slot that an OPEN producer entry retains is FREE at the end (R9). -/
theorem State.closeAll_slot_freed {s : State} {i : EntryIx} {m : SlotNum} (h : s.retainedOpen i = some m) :
    (s.forEntries State.closeEntry).slot m = .free := by
  refine State.forEntries_at i (Q := fun t => t.entry i = s.entry i) (R := fun t => t.slot m = .free) rfl
    (fun _ t hj ht => (State.closeEntry_entry_other hj t).trans ht) (fun t ht => ?_) (fun j t _ ht => ?_)
  · have retains : t.retainedOpen i = some m := by
      rw [State.retainedOpen, ht]
      exact h
    rw [State.closeEntry_slot, if_pos retains]
  · rw [State.closeEntry_slot, ht, ite_self]

/-- A slot that no OPEN producer entry retains keeps its record. -/
theorem State.closeAll_slot_kept {s : State} {m : SlotNum} (h : ∀ i, s.retainedOpen i ≠ some m) :
    (s.forEntries State.closeEntry).slot m = s.slot m := by
  refine (State.forEntries_inv (P := fun t => t.slot m = s.slot m ∧ ∀ i, t.retainedOpen i ≠ some m) (fun j t ht => ?_)
    ⟨rfl, h⟩).1
  refine ⟨by rw [State.closeEntry_slot, if_neg (ht.2 j), ht.1], fun i => ?_⟩
  by_cases hj : j = i
  · rw [← hj, State.retainedOpen, State.closeEntry_entry]
    cases t.entry j <;> simp [Entry.retainedOpen_closed]
  · rw [State.retainedOpen, State.closeEntry_entry_other hj]
    exact ht.2 i

/-- The Presence Unit's own part of an entry to QUIET. -/
def State.quieted (s : State) : State :=
  (s.enterState .quiet).modPresence fun p => { p with rollTimer := none, rollPending := false, leavingPlaced := false }

theorem State.enterQuiet_eq (s : State) : s.enterQuiet = ((s.quieted.forEntries State.emptyPendingOf).forEntries
    State.closeEntry).modSeg fun g => { g with offered := none, pass := none } := rfl

theorem State.quieted_entry (s : State) (i : EntryIx) : s.quieted.entry i = s.entry i := by
  simp [State.quieted, State.enterState, State.entry]

theorem State.quieted_slot (s : State) (m : SlotNum) : s.quieted.slot m = s.slot m := by
  simp [State.quieted, State.enterState, State.slot]

theorem State.quieted_aside (s : State) : s.quieted.aside =
    ({ s.presence with state := .quiet, rollTimer := none, rollPending := false, leavingPlaced := false },
      (s.insertEvent (.stationState s.presence.state .quiet)).events, s.notices, s.time, s.slots.mem) := by
  have told := State.insertEvent_events_congr (s := s) (t := s.modPresence fun p => { p with state := .quiet }) rfl rfl
    (.stationState s.presence.state .quiet)
  simp [State.aside, State.quieted, State.enterState, told]

theorem State.emptyAll_aside (s : State) : (s.forEntries State.emptyPendingOf).aside = s.aside :=
  State.forEntries_keeps State.aside State.emptyPendingOf_aside s

theorem State.modSeg_aside (s : State) (f : Segmenter → Segmenter) : (s.modSeg f).aside = s.aside := rfl

theorem State.modSeg_entry (s : State) (f : Segmenter → Segmenter) (i : EntryIx) : (s.modSeg f).entry i = s.entry i := rfl

theorem State.modSeg_slot (s : State) (f : Segmenter → Segmenter) (m : SlotNum) : (s.modSeg f).slot m = s.slot m := rfl

theorem State.enterQuiet_aside (s : State) : s.enterQuiet.aside = s.quieted.aside := by
  rw [State.enterQuiet_eq, State.modSeg_aside, State.forEntries_keeps State.aside State.closeEntry_aside, State.emptyAll_aside]

theorem State.quieted_floor (s : State) : s.quieted.floor = s.floor := by
  simp [State.floor, State.quieted, State.enterState]

theorem State.enterQuiet_entry (s : State) (i : EntryIx) :
    s.enterQuiet.entry i = (s.entry i).map fun e => e.withoutPending.closed s.floor := by
  rw [State.enterQuiet_eq, State.modSeg_entry, State.closeAll_entry, State.emptyAll_entry,
    State.floor_of_aside (State.emptyAll_aside _), State.quieted_floor, State.quieted_entry, Option.map_map]
  rfl

/-- Emptying the pending control sets retains the same slots. -/
theorem State.emptyAll_retainedOpen (s : State) (i : EntryIx) :
    (s.forEntries State.emptyPendingOf).retainedOpen i = s.retainedOpen i := by
  rw [State.retainedOpen, State.retainedOpen, State.emptyAll_entry]
  cases s.entry i with
  | none => rfl
  | some e => exact e.retainedOpen_withoutPending

theorem State.enterQuiet_retainedOpen (s : State) (i : EntryIx) :
    (s.quieted.forEntries State.emptyPendingOf).retainedOpen i = s.retainedOpen i := by
  rw [State.emptyAll_retainedOpen, State.retainedOpen, State.quieted_entry]
  rfl

theorem State.enterQuiet_slot_freed {s : State} {i : EntryIx} {m : SlotNum} (h : s.retainedOpen i = some m) :
    s.enterQuiet.slot m = .free := by
  rw [State.enterQuiet_eq, State.modSeg_slot, State.closeAll_slot_freed ((s.enterQuiet_retainedOpen i).trans h)]

theorem State.enterQuiet_slot_kept {s : State} {m : SlotNum} (h : ∀ i, s.retainedOpen i ≠ some m) :
    s.enterQuiet.slot m = s.slot m := by
  have kept : ∀ i, (s.quieted.forEntries State.emptyPendingOf).retainedOpen i ≠ some m := fun i => by
    rw [State.enterQuiet_retainedOpen]
    exact h i
  rw [State.enterQuiet_eq, State.modSeg_slot, State.closeAll_slot_kept kept,
    State.forEntries_keeps (fun t => t.slot m) (State.emptyPendingOf_slot m), State.quieted_slot]

/-! ### The report of a ROLL (R123, R125) -/

/-- The roll count raised by the report of a ROLL. -/
def State.rolled (s : State) : State :=
  s.modPresence fun p => { p with rollPending := p.leavingPlaced, rollCount := satInc p.rollCount }

theorem State.report_leavingRoll (s : State) (count : Byte) (claims : List RawClaim) (keep sent : Bool) :
    s.report .roll (.roll true count claims) keep sent = s.rolled.enterQuiet := rfl

theorem State.enterQuiet_rolled_aside (s : State) : s.rolled.enterQuiet.aside =
    ({ s.presence with
        state := .quiet, rollTimer := none, rollPending := false, leavingPlaced := false
        rollCount := satInc s.presence.rollCount },
      (s.insertEvent (.stationState s.presence.state .quiet)).events, s.notices, s.time, s.slots.mem) := by
  have told := State.insertEvent_events_congr (s := s) (t := s.rolled) rfl rfl (.stationState s.presence.state .quiet)
  rw [State.enterQuiet_aside, State.quieted_aside, ← told]
  rfl

theorem State.retainedOpen_of {s : State} {i : EntryIx} {p : Producer} (he : s.entry i = some (.producer p))
    (ho : p.state = .opened) : s.retainedOpen i = p.retained := by
  rw [State.retainedOpen, he]
  exact if_pos ho

/-- What an entry retains it retains as an OPEN producer entry. -/
theorem State.retainedOpen_eq_some {s : State} {i : EntryIx} {m : SlotNum} (h : s.retainedOpen i = some m) :
    ∃ p, s.entry i = some (.producer p) ∧ p.state = .opened ∧ p.retained = some m := by
  obtain ⟨e, he, hm⟩ := Option.bind_eq_some_iff.1 h
  cases e with
  | consumer c => cases hm
  | producer p =>
    by_cases ho : p.state = .opened
    · exact ⟨p, he, ho, (if_pos ho).symm.trans hm⟩
    · rw [Entry.retainedOpen, if_neg ho] at hm
      cases hm

/-- Settles O39: each report by the lemma on its operation; QUIET by what its turns do at one entry and at one slot. -/
theorem reportedElementsLeaveTheirSet : Obligations.ReportedElementsLeaveTheirSet := by
  refine ⟨fun s f sent empty => ⟨fun i p he => ?_, fun i c he => ?_, rfl, fun keep => rfl⟩,
    fun s count claims keep sent => ⟨rfl, ?_⟩⟩
  · have hn := State.holdsNone_empty empty i
    exact ⟨fun n => ⟨State.removeCut_of he hn n, rfl, State.removeAdmit_of he hn n, rfl⟩, State.clearPrompt_of he hn,
      State.removeGone_of he hn⟩
  · have hn := State.holdsNone_empty empty i
    refine ⟨State.takeReported_of he, State.clearFree_of he hn, rfl, State.dropDone_departing he hn,
      fun n j page len rcv g hf hs => ⟨?_, ?_⟩, fun hd => ⟨State.dropDone_waiting he hn hd, fun n j page len rcv g hf hs => ?_⟩⟩
    · exact State.report_gap he hn hf hs f false sent
    · rw [State.report_gap he hn hf hs]
      simp only [Bool.true_and, decide_eq_true_iff]
      rfl
    · have lost : s.report (.drop i) f false sent = _ := State.dropDone_filling he hn hd hf (page := page) (by rw [hs]; rfl)
      dsimp only
      rw [lost]
      refine ⟨?_, ?_, ?_, fun m hm => ?_, fun k hk => ?_⟩
      · exact State.entry_of_streams (State.insertEvent_streams _ _)
      · refine State.insertEvent_events_congr (s := s) ?_ ?_ _ <;> rfl
      · rw [State.insertEvent_slot]
        exact (s.freeSlot_slot n n).trans (if_pos rfl)
      · rw [State.insertEvent_slot]
        exact (s.freeSlot_slot n m).trans (if_neg hm.symm)
      · rw [State.insertEvent_entry]
        exact State.entry_vput_other _ hk.symm _
  · rw [State.report_leavingRoll]
    have aside := s.enterQuiet_rolled_aside
    simp only [State.aside, Prod.mk.injEq] at aside
    obtain ⟨presence, events, notices, time, mem⟩ := aside
    have entry : ∀ i, s.rolled.enterQuiet.entry i = (s.entry i).map fun e => e.withoutPending.closed s.floor :=
      s.rolled.enterQuiet_entry
    refine ⟨presence, events, rfl, rfl, notices, time, mem, fun i p he ho => ⟨?_, fun m hm => ?_⟩, fun m hm => ?_,
      fun i p he ho => ?_, fun i c he => ?_, fun i he => ?_⟩
    · rw [entry, he]
      exact congrArg (some ∘ Entry.producer) (if_pos ho)
    · exact State.enterQuiet_slot_freed (s := s.rolled) (i := i) ((State.retainedOpen_of he ho).trans hm)
    · refine State.enterQuiet_slot_kept (s := s.rolled) fun i h => ?_
      obtain ⟨p, he, ho, hr⟩ := State.retainedOpen_eq_some h
      exact hm i p he ho hr
    · rw [entry, he]
      exact congrArg (some ∘ Entry.producer) (if_neg ho)
    · rw [entry, he]
      rfl
    · rw [entry, he]
      rfl

end Sys2Proof.Machine
end

section
/-! SUPPORT. The checks that the commands on a stream share, and how each command on a stream refuses (chapter 3, R35, R78, R80). -/

namespace Sys2Proof.Machine

/-! ### The checks that name an entry, and where they refuse (R40, R35) -/

/-- The checks that name a producer entry end in the refusal `r`, whatever the command would do. -/
def State.refusesProducer (s : State) (b : Byte) (r : Result) : Prop := ∀ f, s.withProducer b.toNat f = s.refuse r

/-- The checks that name a consumer entry end in the refusal `r`, whatever the command would do. -/
def State.refusesConsumer (s : State) (b : Byte) (r : Result) : Prop := ∀ f, s.withConsumer b.toNat f = s.refuse r

theorem State.refusesProducer_range (s : State) {b : Byte} (h : b = 0 ∨ 63 < b.toNat) : s.refusesProducer b .badArg := fun f => by
  unfold State.withProducer
  rw [streamOf?_none h]

theorem State.refusesConsumer_range (s : State) {b : Byte} (h : b = 0 ∨ 63 < b.toNat) : s.refusesConsumer b .badArg := fun f => by
  unfold State.withConsumer
  rw [streamOf?_none h]

section
variable {s : State} {b : Byte} {id : StreamId} (hb : b.toNat = id.toNat) (hid : id ≠ 0)
include hb hid

theorem State.refusesProducer_notFound (hf : s.findStream id = none) : s.refusesProducer b .notFound := fun f => by
  unfold State.withProducer
  rw [streamOf?_of hb hid]
  dsimp only
  rw [hf]

theorem State.refusesConsumer_notFound (hf : s.findStream id = none) : s.refusesConsumer b .notFound := fun f => by
  unfold State.withConsumer
  rw [streamOf?_of hb hid]
  dsimp only
  rw [hf]

theorem State.refusesProducer_consumer {i : EntryIx} {c : Consumer} (hf : s.findStream id = some i)
    (he : s.entry i = some (.consumer c)) : s.refusesProducer b .notProducer := fun f => by
  unfold State.withProducer
  rw [streamOf?_of hb hid]
  dsimp only
  rw [hf]
  dsimp only
  rw [State.producer_of_consumer he]

theorem State.refusesConsumer_producer {i : EntryIx} {p : Producer} (hf : s.findStream id = some i)
    (he : s.entry i = some (.producer p)) : s.refusesConsumer b .notConsumer := fun f => by
  unfold State.withConsumer
  rw [streamOf?_of hb hid]
  dsimp only
  rw [hf]
  dsimp only
  rw [State.consumer_of_producer he]

theorem State.refusesProducer_disputed {i : EntryIx} {p : Producer} (hf : s.findStream id = some i)
    (he : s.entry i = some (.producer p)) (hd : p.state = .disputed) : s.refusesProducer b .disputed := fun f => by
  unfold State.withProducer
  rw [streamOf?_of hb hid]
  dsimp only
  rw [hf]
  dsimp only
  rw [State.producer_of he]
  exact if_pos hd

end

/-! ### Each command behind those checks -/

theorem StationState.noPublish_iff (x : StationState) : x.noPublish = true ↔ x ∈ [.unconfigured, .leaving, .conflict] := by
  cases x <;> decide

section
variable {s : State} {b : Byte} {r : Result}

theorem State.cmdResume_unconfigured (hu : s.presence.state = .unconfigured) (stream : Nat) :
    s.cmdResume stream = s.refuse .badState := if_pos (s.isUnconfigured_iff.2 hu)

theorem State.cmdCancel_unconfigured (hu : s.presence.state = .unconfigured) (stream : Nat) :
    s.cmdCancel stream = s.refuse .badState := if_pos (s.isUnconfigured_iff.2 hu)

theorem State.cmdUnsubscribe_unconfigured (hu : s.presence.state = .unconfigured) (stream : Nat) :
    s.cmdUnsubscribe stream = s.refuse .badState := if_pos (s.isUnconfigured_iff.2 hu)

theorem State.cmdAcquire_unconfigured (hu : s.presence.state = .unconfigured) (stream selector : Nat) :
    s.cmdAcquire stream selector = s.refuse .badState := if_pos (s.isUnconfigured_iff.2 hu)

theorem State.cmdRelease_unconfigured (hu : s.presence.state = .unconfigured) (stream : Nat) :
    s.cmdRelease stream = s.refuse .badState := if_pos (s.isUnconfigured_iff.2 hu)

theorem State.cmdResume_refuses (hu : s.presence.state ≠ .unconfigured) (h : s.refusesProducer b r) :
    s.cmdResume b.toNat = s.refuse r := by
  unfold State.cmdResume
  rw [if_neg fun k => hu (s.isUnconfigured_iff.1 k), h]

theorem State.cmdCancel_refuses (hu : s.presence.state ≠ .unconfigured) (h : s.refusesProducer b r) :
    s.cmdCancel b.toNat = s.refuse r := by
  unfold State.cmdCancel
  rw [if_neg fun k => hu (s.isUnconfigured_iff.1 k), h]

theorem State.cmdUnsubscribe_refuses (hu : s.presence.state ≠ .unconfigured) (h : s.refusesConsumer b r) :
    s.cmdUnsubscribe b.toNat = s.refuse r := by
  unfold State.cmdUnsubscribe
  rw [if_neg fun k => hu (s.isUnconfigured_iff.1 k), h]

theorem State.cmdRelease_refuses (hu : s.presence.state ≠ .unconfigured) (h : s.refusesConsumer b r) :
    s.cmdRelease b.toNat = s.refuse r := by
  unfold State.cmdRelease
  rw [if_neg fun k => hu (s.isUnconfigured_iff.1 k), h]

/-- ACQUIRE tests its selector behind the range of the identifier and before the entry (R78). -/
theorem State.cmdAcquire_refuses (hu : s.presence.state ≠ .unconfigured) {selector : Nat}
    (hsel : ¬ ((streamOf? b.toNat).isSome = true ∧ 1 < selector)) (h : s.refusesConsumer b r) :
    s.cmdAcquire b.toNat selector = s.refuse r := by
  unfold State.cmdAcquire
  rw [if_neg fun k => hu (s.isUnconfigured_iff.1 k), if_neg hsel, h]

/-- A selector above 1 is BAD_ARG whether the identifier is in range or not. -/
theorem State.cmdAcquire_selector (hu : s.presence.state ≠ .unconfigured) {selector : Nat} (hsel : 1 < selector) :
    s.cmdAcquire b.toNat selector = s.refuse .badArg := by
  unfold State.cmdAcquire
  rw [if_neg fun k => hu (s.isUnconfigured_iff.1 k)]
  by_cases h : (streamOf? b.toNat).isSome = true
  · rw [if_pos ⟨h, hsel⟩]
  · rw [if_neg fun k => h k.1]
    unfold State.withConsumer
    rw [Option.not_isSome_iff_eq_none.1 h]

end

/-! ### The rows refused -/

section
variable (tag b slot target code sel : Byte) (report note : Bool) (length : Half) {s : State} {r : Result}

/-- PUBLISH with and without PAUSE in UNCONFIGURED, LEAVING and CONFLICT. -/
theorem exec_publishes_badState (hs : s.ready) (hp : s.presence.state ∈ [.unconfigured, .leaving, .conflict]) :
    ∀ i ∈ [.publish tag b slot report note length target code, .publishPause tag b],
      exec i s = .next (s.accepted.respond tag 8 .badState 0 0) := by
  have no := (StationState.noPublish_iff _).2 hp
  refine List.forall_mem_cons.2 ⟨?_, List.forall_mem_singleton.2 ?_⟩
  · rw [exec_publish hs, if_pos no, State.finish_refuse]
  · rw [exec_publishPause hs, if_pos no, State.finish_refuse]

/-- PUBLISH with and without PAUSE whose entry is refused. -/
theorem exec_publishes_refuse (hs : s.ready) (hp : s.presence.state ∉ [.unconfigured, .leaving, .conflict])
    (h : s.accepted.refusesProducer b r) :
    ∀ i ∈ [.publish tag b slot report note length target code, .publishPause tag b],
      exec i s = .next (s.accepted.respond tag 8 r 0 0) := by
  have yes := mt (StationState.noPublish_iff _).1 hp
  refine List.forall_mem_cons.2 ⟨?_, List.forall_mem_singleton.2 ?_⟩
  · rw [exec_publish hs, if_neg yes, h, State.finish_refuse]
  · rw [exec_publishPause hs, if_neg yes, h, State.finish_refuse]

/-- RESUME and CANCEL, by what the command itself refuses. -/
theorem exec_producers_refuse (hs : s.ready) (resume : s.accepted.cmdResume b.toNat = s.accepted.refuse r)
    (cancel : s.accepted.cmdCancel b.toNat = s.accepted.refuse r) :
    ∀ e ∈ [(Instr.resume tag b, (9 : Byte)), (.cancel tag b, 10)], exec e.1 s = .next (s.accepted.respond tag e.2 r 0 0) := by
  refine List.forall_mem_cons.2 ⟨?_, List.forall_mem_singleton.2 ?_⟩
  · rw [exec_resume hs, resume, State.finish_refuse]
  · rw [exec_cancel hs, cancel, State.finish_refuse]

/-- UNSUBSCRIBE, ACQUIRE and RELEASE, by what the command itself refuses. -/
theorem exec_consumers_refuse (hs : s.ready) (unsubscribe : s.accepted.cmdUnsubscribe b.toNat = s.accepted.refuse r)
    (acquire : s.accepted.cmdAcquire b.toNat sel.toNat = s.accepted.refuse r)
    (release : s.accepted.cmdRelease b.toNat = s.accepted.refuse r) :
    ∀ e ∈ [(Instr.unsubscribe tag b, (12 : Byte)), (.acquire tag b sel, 13), (.release tag b, 14)],
      exec e.1 s = .next (s.accepted.respond tag e.2 r 0 0) := by
  refine List.forall_mem_cons.2 ⟨?_, List.forall_mem_cons.2 ⟨?_, List.forall_mem_singleton.2 ?_⟩⟩
  · rw [exec_unsubscribe hs, unsubscribe, State.finish_refuse]
  · rw [exec_acquire hs, acquire, State.finish_refuse]
  · rw [exec_release hs, release, State.finish_refuse]

end

/-- Settles O19: the station state first, then the refusals of the shared checks in their order. -/
theorem commandsOnAStreamRefuse : Obligations.CommandsOnAStreamRefuse := by
  intro tag b slot target code sel report note length s hs refuse publishes producers consumers posts actsOnProducer
    actsOnConsumer names
  have onProducer {r : Result} (hu : s.presence.state ≠ .unconfigured) (h : s.accepted.refusesProducer b r) :
      actsOnProducer r :=
    ⟨fun hl => exec_publishes_refuse tag b slot target code report note length hs
        (fun hm => (List.mem_cons.1 hm).elim hu hl) h,
      exec_producers_refuse tag b hs (State.cmdResume_refuses (s := s.accepted) hu h)
        (State.cmdCancel_refuses (s := s.accepted) hu h)⟩
  have onConsumer {r : Result} (hu : s.presence.state ≠ .unconfigured)
      (hsel : ¬ ((streamOf? b.toNat).isSome = true ∧ 1 < sel.toNat)) (h : s.accepted.refusesConsumer b r) :
      actsOnConsumer r :=
    exec_consumers_refuse tag b sel hs (State.cmdUnsubscribe_refuses (s := s.accepted) hu h)
      (State.cmdAcquire_refuses (s := s.accepted) hu hsel h) (State.cmdRelease_refuses (s := s.accepted) hu h)
  refine ⟨fun hu => ⟨⟨fun _ => ?_, ?_⟩, ?_⟩, fun hl => ?_, fun hu => ⟨fun hr => ⟨?_, ?_⟩, fun hsel => ?_,
    fun id hb hid hf => ⟨?_, fun hsel => ?_⟩, ?_, ?_, ?_⟩⟩
  · exact exec_publishes_badState tag b slot target code report note length hs (hu ▸ List.mem_cons_self)
  · exact exec_producers_refuse tag b hs (State.cmdResume_unconfigured (s := s.accepted) hu _)
      (State.cmdCancel_unconfigured (s := s.accepted) hu _)
  · exact exec_consumers_refuse tag b sel hs (State.cmdUnsubscribe_unconfigured (s := s.accepted) hu _)
      (State.cmdAcquire_unconfigured (s := s.accepted) hu _ _) (State.cmdRelease_unconfigured (s := s.accepted) hu _)
  · exact exec_publishes_badState tag b slot target code report note length hs
      (List.mem_cons_of_mem _ (by rcases hl with h | h <;> simp [h]))
  · exact onProducer hu (s.accepted.refusesProducer_range hr)
  · exact onConsumer hu (fun k => by simp [streamOf?_none hr] at k) (s.accepted.refusesConsumer_range hr)
  · show exec _ s = _
    rw [exec_acquire hs, State.cmdAcquire_selector (s := s.accepted) hu hsel, State.finish_refuse]
  · exact onProducer hu (State.refusesProducer_notFound (s := s.accepted) hb hid hf)
  · exact onConsumer hu (fun k => absurd k.2 (by omega)) (State.refusesConsumer_notFound (s := s.accepted) hb hid hf)
  · rintro i c ⟨id, hb, hid, hf, he⟩
    exact onProducer hu (State.refusesProducer_consumer (s := s.accepted) hb hid hf he)
  · rintro i p hsel ⟨id, hb, hid, hf, he⟩
    exact onConsumer hu (fun k => absurd k.2 (by omega)) (State.refusesConsumer_producer (s := s.accepted) hb hid hf he)
  · rintro i p ⟨id, hb, hid, hf, he⟩ hd
    exact onProducer hu (State.refusesProducer_disputed (s := s.accepted) hb hid hf he hd)

end Sys2Proof.Machine
end

section
/-! SUPPORT. What PUBLISH posts: a page or a pause marker; when markers take effect; and RESUME (chapter 3). -/

namespace Sys2Proof.Machine

/-! ### Posting a descriptor (R38, R40) -/

theorem State.queuedOf_eq (s : State) (i : EntryIx) : s.queuedOf i = s.publish.queue.countP fun d => d.entry == i :=
  List.countP_eq_length_filter.symm

/-- A slot that is not FREE takes any record but FREE (R3). -/
theorem SlotManager.change_used {m : SlotManager} {n : SlotNum} (h : m.records[n] ≠ .free) {r : Slot} (hr : r ≠ .free) :
    m.change n r = { m with records := vput m.records n r } := if_neg (not_or.2 ⟨h, hr⟩)

theorem State.changeSlot_used {s : State} {n : SlotNum} (h : s.slot n ≠ .free) {r : Slot} (hr : r ≠ .free) :
    s.changeSlot n r = { s with slots := { s.slots with records := vput s.slots.records n r } } := by
  unfold State.changeSlot
  rw [SlotManager.change_used h hr]

/-- The tail note of a PUBLISH whose target is in range: a station below 32, or ALL at 32. -/
def tailOf (note : Bool) (target code : Byte) : Option Note :=
  if note then
    if h : target.toNat < 32 then some ⟨.one ⟨target.toNat, h⟩, code⟩ else some ⟨.all, code⟩
  else none

theorem tailNote_above {note : Bool} {target : Nat} (h : note = true ∧ 32 < target) (code : Byte) :
    tailNote note target code = none := by
  have ne : target ≠ 32 := by omega
  have above : ¬ target < 32 := by omega
  simp [tailNote, noteTarget?, below32?, h.1, ne, above]

theorem tailNote_of {note : Bool} {target : Byte} (h : ¬ (note = true ∧ 32 < target.toNat)) (code : Byte) :
    tailNote note target.toNat code = some (tailOf note target code) := by
  cases note with
  | false => rfl
  | true =>
    have le : target.toNat ≤ 32 := by simpa using h
    by_cases lt : target.toNat < 32
    · have ne : target.toNat ≠ 32 := by omega
      simp [tailNote, tailOf, noteTarget?, below32?, lt, ne]
    · have eq : target.toNat = 32 := by omega
      simp [tailNote, tailOf, noteTarget?, eq]

section
variable (s : State) (tag : Byte) (i : EntryIx) (p : Producer) (report : Bool)

/-- PUBLISH with an operand out of range (R40 step 6). -/
theorem State.publishPage_badArg {slot len : Nat} {tail : Option (Option Note)}
    (h : 31 < slot ∨ p.maxLen < len ∨ tail = none) : s.publishPage tag i p slot len report tail = s.refuse .badArg := by
  unfold State.publishPage
  rcases h with h | h | h
  · rw [below32?_above h]
  · split
    · exact if_pos h
    · rfl
  · rw [h]
    split
    · contradiction
    · rfl

variable {p} {n : SlotNum} {len : Nat} (hl : len ≤ p.maxLen) (tail : Option Note)
include hl

theorem State.publishPage_badSlot (hw : s.slot n ≠ .writing) :
    s.publishPage tag i p n.val len report (some tail) = s.badSlot n := by
  unfold State.publishPage
  rw [below32?_val]
  dsimp only
  rw [if_neg (Nat.not_lt.2 hl), if_pos hw]

theorem State.publishPage_full (hw : s.slot n = .writing) (hq : 16 ≤ s.publish.queue.length) :
    s.publishPage tag i p n.val len report (some tail) = s.refuse .full := by
  unfold State.publishPage
  rw [below32?_val]
  dsimp only
  rw [if_neg (Nat.not_lt.2 hl), if_neg (not_not.2 hw)]
  exact if_pos hq

theorem State.publishPage_posts (hw : s.slot n = .writing) (hq : s.publish.queue.length < 16) :
    s.publishPage tag i p n.val len report (some tail) =
      s.post (s.changeSlot n (.queued i len)) i tag (.page n len report tail) := by
  unfold State.publishPage
  rw [below32?_val]
  dsimp only
  rw [if_neg (Nat.not_lt.2 hl), if_neg (not_not.2 hw)]
  exact if_neg (Nat.not_le.2 hq)

end

/-- PUBLISH of a page for a producer entry that passes the shared checks. -/
theorem exec_publish_of {s : State} (hs : s.ready) (hp : s.presence.state ∉ [.unconfigured, .leaving, .conflict]) {b : Byte}
    {id : StreamId} (hb : b.toNat = id.toNat) (hid : id ≠ 0) {i : EntryIx} (hf : s.findStream id = some i) {p : Producer}
    (he : s.entry i = some (.producer p)) (hd : p.state ≠ .disputed) (tag slot : Byte) (report note : Bool) (length : Half)
    (target code : Byte) : exec (.publish tag b slot report note length target code) s = .next (State.finish tag 8
      (s.accepted.publishPage tag i p slot.toNat length.toNat report (tailNote note target.toNat code))) := by
  rw [exec_publish hs, if_neg (mt (StationState.noPublish_iff _).1 hp),
    State.withProducer_of (s := s.accepted) hb hid hf he hd]

/-- Settles O26: `State.publishPage` case by case. -/
theorem publishPostsAPage : Obligations.PublishPostsAPage := by
  intro tag b slot target code report note length id i p s hs hp hb hid hf he hd go badTarget tail
  have page : go = _ := exec_publish_of hs hp hb hid hf he hd tag slot report note length target code
  refine ⟨fun bad => ?_, fun n hn hl ok => ⟨fun hw => ?_, fun hw hq => ?_, fun hw hq => ?_⟩⟩
  · rw [page, State.publishPage_badArg _ _ _ _ _ (bad.imp_right (Or.imp_right fun h => tailNote_above h code)),
      State.finish_refuse]
  · rw [page, tailNote_of ok, hn, State.publishPage_badSlot s.accepted _ _ _ hl _ hw]
    rfl
  · rw [page, tailNote_of ok, hn, State.publishPage_full s.accepted _ _ _ hl _ hw (Nat.le_of_eq hq.symm),
      State.finish_refuse]
  · have used : s.accepted.slot n ≠ .free := fun h => absurd (h.symm.trans hw) (by decide)
    rw [page, tailNote_of ok, hn, State.publishPage_posts s.accepted _ _ _ hl _ hw hq, State.post,
      State.changeSlot_used used (by simp), State.finish_of, State.queuedOf_eq]
    rfl

/-! ### Pause markers (R41, R42) -/

/-- One marker of a producer entry that takes effect. -/
theorem State.markerEffect_of {s : State} {i : EntryIx} {p : Producer} (he : s.entry i = some (.producer p)) (d : Descriptor) :
    State.markerEffect i s d = ({ s with
      publish := { s.publish with queue := s.publish.queue.erase d }
      streams := vput s.streams i (some (.producer { p with paused := true })) } : State).insertEvent (.paused p.stream d.tag) := by
  unfold State.markerEffect
  rw [State.modProducer_of (p := p) (by exact he), State.streamOf_of he]
  rfl

/-- No marker of an entry that is not an OPEN producer entry in IDLE takes effect. -/
theorem State.applyMarkers_notIdle {s : State} {i : EntryIx}
    (h : ∀ p, s.entry i = some (.producer p) → ¬ (p.state = .opened ∧ p.phase = some .idle)) : State.applyMarkers i s = s := by
  unfold State.applyMarkers
  split
  · next p hp => exact if_neg (h p (State.entry_of_producer hp))
  · rfl

/-- No marker takes effect while a page of its stream is the oldest descriptor, or none is queued. -/
theorem State.applyMarkers_page {s : State} {i : EntryIx}
    (h : ∀ d ∈ (s.publish.queue.filter fun d => d.entry == i).head?, d.isPause = false) : State.applyMarkers i s = s := by
  refine State.applyMarkers_nil ?_
  unfold State.leadingMarkers
  cases hq : s.publish.queue.filter fun d => d.entry == i with
  | nil => rfl
  | cons d rest =>
    have page : d.isPause = false := h d (by rw [hq]; rfl)
    rw [List.takeWhile_cons_of_neg (by simp [page])]

/-- The oldest marker, with no marker of the stream directly behind it, takes effect alone. -/
theorem State.applyMarkers_one {s : State} {i : EntryIx} {p : Producer} {d : Descriptor} {rest : List Descriptor}
    (he : s.entry i = some (.producer p)) (ho : p.state = .opened ∧ p.phase = some .idle)
    (hq : (s.publish.queue.filter fun e => e.entry == i) = d :: rest) (hd : d.isPause = true)
    (hr : ∀ e ∈ rest.head?, e.isPause = false) : State.applyMarkers i s = State.markerEffect i s d := by
  rw [State.applyMarkers_marker he ho hq hd]
  refine State.applyMarkers_page ?_
  have left : ((State.markerEffect i s d).publish.queue.filter fun e => e.entry == i) = rest := by
    rw [State.markerEffect_of he, State.insertEvent_publish, ← List.erase_filter, hq, List.erase_cons_head]
  rwa [left]

/-- On a MUTED station whose queue is one marker of an OPEN, IDLE entry, the end of the event is the marker's effect alone. -/
theorem State.settle_marker {s : State} {i : EntryIx} {p : Producer} {d : Descriptor} (hq : s.publish.queue = [d])
    (hi : d.entry = i) (hd : d.isPause = true) (he : s.entry i = some (.producer p))
    (ho : p.state = .opened ∧ p.phase = some .idle) (hm : s.presence.state = .muted) :
    s.settle = State.markerEffect i s d := by
  have own : State.applyMarkers i s = State.markerEffect i s d :=
    State.applyMarkers_one (rest := []) he ho (by simp [hq, hi]) hd (by simp)
  have empty : (State.markerEffect i s d).publish.queue = [] := by
    rw [State.markerEffect_of he, State.insertEvent_publish, hq]
    exact List.erase_cons_head ..
  have muted : (State.markerEffect i s d).presence.state = .muted := by
    rw [State.markerEffect_of he, State.insertEvent_presence]
    exact hm
  have turn : s.forEntries State.applyMarkers = State.markerEffect i s d := by
    rw [State.forEntries_only i (fun j hj => ?_) fun j _ => ?_, own]
    · refine State.applyMarkers_nil (State.leadingMarkers_nil fun e he' hej => ?_)
      rw [hq, List.mem_singleton] at he'
      exact absurd (hej.symm.trans (he' ▸ hi)) hj
    · refine State.applyMarkers_nil (State.leadingMarkers_nil fun e he' _ => ?_)
      rw [own, empty] at he'
      cases he'
  unfold State.settle
  rw [turn, State.boundary_quiet (.inl (by simp [State.transmits, muted])), State.testLeaving_other (by rw [muted]; decide)]

/-! ### PUBLISH of a marker, and RESUME (R41, R43) -/

/-- PUBLISH of a pause marker for a producer entry that passes the shared checks. -/
theorem exec_publishPause_of {s : State} (hs : s.ready) (hp : s.presence.state ∉ [.unconfigured, .leaving, .conflict])
    {b : Byte} {id : StreamId} (hb : b.toNat = id.toNat) (hid : id ≠ 0) {i : EntryIx} (hf : s.findStream id = some i)
    {p : Producer} (he : s.entry i = some (.producer p)) (hd : p.state ≠ .disputed) (tag : Byte) :
    exec (.publishPause tag b) s = .next (State.finish tag 8 (s.accepted.publishMarker tag i)) := by
  rw [exec_publishPause hs, if_neg (mt (StationState.noPublish_iff _).1 hp),
    State.withProducer_of (s := s.accepted) hb hid hf he hd]

theorem State.publishMarker_full {s : State} (hq : 16 ≤ s.publish.queue.length) (tag : Byte) (i : EntryIx) :
    s.publishMarker tag i = s.refuse .full := if_pos hq

theorem State.publishMarker_posts {s : State} (hq : s.publish.queue.length < 16) (tag : Byte) (i : EntryIx) :
    s.publishMarker tag i = s.post s i tag .pause := if_neg (Nat.not_le.2 hq)

/-- RESUME of a producer entry that passes the shared checks. -/
theorem State.cmdResume_of {s : State} (hu : s.presence.state ≠ .unconfigured) {b : Byte} {id : StreamId}
    (hb : b.toNat = id.toNat) (hid : id ≠ 0) {i : EntryIx} (hf : s.findStream id = some i) {p : Producer}
    (he : s.entry i = some (.producer p)) (hd : p.state ≠ .disputed) : s.cmdResume b.toNat =
      (({ s with streams := vput s.streams i (some (.producer { p with paused := false })) } : State).settle,
        .of .ok (number p.paused.toNat) (number (s.queuedOf i))) := by
  unfold State.cmdResume
  rw [if_neg fun k => hu (s.isUnconfigured_iff.1 k), State.withProducer_of hb hid hf he hd, State.modProducer_of he]

theorem number_toNat (b : Bool) : number b.toNat = if b then 1 else 0 := by
  cases b <;> rfl

/-- Settles O27: PUBLISH of a marker by its queue, `State.applyMarkers` by the oldest descriptor of the stream, RESUME. -/
theorem pausesAreSetAndCleared : Obligations.PausesAreSetAndCleared := by
  refine ⟨fun tag b id i p s hs hp hb hid hf he hd => ⟨fun hq => ?_, fun hq => ?_, fun hq hm ho hi => ?_⟩,
    fun i s => ⟨State.applyMarkers_notIdle, State.applyMarkers_page, fun p d rest he ho hi hq hd hr => ?_,
      fun p d rest he ho hi hq hd _ => ?_⟩,
    fun tag b id i p s hs hu hb hid hf he hd => ?_⟩
  · rw [exec_publishPause_of hs hp hb hid hf he hd, State.publishMarker_full (s := s.accepted) (Nat.le_of_eq hq.symm),
      State.finish_refuse]
  · rw [exec_publishPause_of hs hp hb hid hf he hd, State.publishMarker_posts (s := s.accepted) hq, State.post,
      State.finish_of, State.queuedOf_eq]
    rfl
  · have stream : p.stream = id := (State.streamOf_of he).symm.trans (State.streamOf_found hf)
    have room : s.accepted.publish.queue.length < 16 := by simp [hq]
    have queue : (s.accepted.appendDescriptor i tag .pause).publish.queue = [⟨i, tag, s.publish.nextSeq, .pause⟩] := by
      simp [State.appendDescriptor, hq]
    have entry : (s.accepted.appendDescriptor i tag .pause).entry i = some (.producer p) := he
    rw [exec_publishPause_of hs hp hb hid hf he hd, State.publishMarker_posts room, State.post,
      State.settle_marker queue rfl rfl entry ⟨ho, hi⟩ hm, State.markerEffect_of entry, State.finish_of, queue,
      List.erase_cons_head, State.queuedOf_eq, stream, State.accepted_publish, hq]
    rfl
  · rw [State.applyMarkers_one he ⟨ho, hi⟩ hq hd hr, State.markerEffect_of he]
  · rw [State.applyMarkers_marker he ⟨ho, hi⟩ hq hd, State.markerEffect_of he]
  · rw [exec_resume hs, State.cmdResume_of (s := s.accepted) hu hb hid hf he hd, State.finish_of, State.queuedOf_eq,
      number_toNat]
    rfl

end Sys2Proof.Machine
end

section
/-! SUPPORT. CANCEL: the descriptors of a stream leave the queue, and its page in flight is withdrawn (chapter 3). -/

namespace Sys2Proof.Machine

/-! ### Queued pages: their slots and their SENT events (R8, R51) -/

/-- The SENT of a queued page of stream `id`, with the slot that returns to WRITING; none for a marker. -/
def Descriptor.sentPage (id : StreamId) (r : SentResult) (d : Descriptor) : Option (Event × SlotNum) :=
  match d.body with
  | .page slot _ _ _ => some (.sent id slot none r d.tag, slot)
  | .pause => none

/-- The descriptors of entry `i`, oldest first. -/
def State.queueOf (s : State) (i : EntryIx) : List Descriptor := s.publish.queue.filter fun d => d.entry == i

theorem State.foldl_returnSlot (id : StreamId) (r : SentResult) (l : List Descriptor) (s : State) :
    l.foldl State.returnSlot s = (l.filterMap (Descriptor.sentPage id r)).foldl (fun t e => t.changeSlot e.2 .writing) s := by
  induction l generalizing s with
  | nil => rfl
  | cons d l ih =>
    rw [List.foldl_cons, ih, List.filterMap_cons]
    unfold State.returnSlot Descriptor.sentPage
    cases d.body <;> rfl

theorem State.foldl_changeSlot_publish (l : List (Event × SlotNum)) (r : Slot) (s : State) :
    (l.foldl (fun t e => t.changeSlot e.2 r) s).publish = s.publish := by
  induction l generalizing s with
  | nil => rfl
  | cons e l ih => exact (ih _).trans (State.changeSlot_publish s e.2 r)

/-- The descriptors of an entry leave the queue and their slots return to WRITING, page by page. -/
theorem State.returnQueued_pages (s : State) (i : EntryIx) (id : StreamId) (r : SentResult) :
    s.returnQueued (fun d => d.entry == i) =
      { ((s.queueOf i).filterMap (Descriptor.sentPage id r)).foldl (fun t e => t.changeSlot e.2 .writing) s with
        publish := { s.publish with queue := s.publish.queue.filter fun d => !(d.entry == i) } } := by
  unfold State.returnQueued State.queueOf
  rw [State.foldl_returnSlot id r]
  unfold State.setQueue
  rw [State.foldl_changeSlot_publish]

/-- The SENT events of the queued pages of a stream, in posting order. -/
theorem State.queueOf_sent {s : State} {i : EntryIx} {id : StreamId} (hi : s.streamOf i = id) (r : SentResult) :
    (s.queueOf i).filterMap (fun d => (s.queuedSent r d).map Prod.snd) =
      ((s.queueOf i).filterMap (Descriptor.sentPage id r)).map Prod.fst := by
  rw [List.map_filterMap]
  refine List.filterMap_congr fun d hd => ?_
  have own : d.entry = i := by simpa using (List.mem_filter.1 hd).2
  unfold State.queuedSent Descriptor.sentPage
  rw [own, hi]
  cases d.body <;> rfl

/-! ### The page in flight (R53, R54) -/

theorem State.cancellable_none {s : State} {i : EntryIx}
    (h : ∀ f, s.seg.flight = some f → f.entry = i → f.closeOffered = true) : s.cancellable i = none := by
  unfold State.cancellable
  refine Option.filter_eq_none_iff.2 fun f hf => ?_
  by_cases own : f.entry = i
  · simp [h f hf own]
  · simp [own]

theorem State.cancellable_some {s : State} {f : Flight} (hf : s.seg.flight = some f) (hc : f.closeOffered = false) :
    s.cancellable f.entry = some f := by
  simp [State.cancellable, hf, hc]

/-- The withdrawal of a page in flight of a producer entry (R54). -/
theorem State.withdrawFlight_of {s : State} {f : Flight} {p : Producer} (he : s.entry f.entry = some (.producer p))
    (phase : Option PagePhase) : s.withdrawFlight f phase = { s.changeSlot f.slot .writing with
      streams := vput s.streams f.entry (some (.producer (p.withoutFlight f.page phase)))
      seg := { s.seg with flight := none, withdrawn := some ⟨p.stream, f.page, f.len, f.check⟩ } } := by
  unfold State.withdrawFlight
  rw [State.modProducer_of (s := s.changeSlot f.slot .writing) he, State.streamOf_of he]
  rfl

/-! ### CANCEL (R53) -/

/-- The state in which the descriptors of entry `i`, of stream `id`, have left the queue. -/
def State.cancelled (s : State) (i : EntryIx) (id : StreamId) : State :=
  { ((s.queueOf i).filterMap (Descriptor.sentPage id .cancelled)).foldl (fun t e => t.changeSlot e.2 .writing) s with
    publish := { s.publish with queue := s.publish.queue.filter fun d => !(d.entry == i) } }

/-- The SENT events of the queued pages that CANCEL takes back. -/
def State.cancelledSents (s : State) (i : EntryIx) (id : StreamId) : List Event :=
  ((s.queueOf i).filterMap (Descriptor.sentPage id .cancelled)).map Prod.fst

theorem State.cancelled_streams (s : State) (i : EntryIx) (id : StreamId) : (s.cancelled i id).streams = s.streams := by
  obtain ⟨r, hr⟩ := s.returnQueued_eq fun d => d.entry == i
  rw [State.cancelled, ← State.returnQueued_pages, hr]

theorem State.cancelled_seg (s : State) (i : EntryIx) (id : StreamId) : (s.cancelled i id).seg = s.seg := by
  obtain ⟨r, hr⟩ := s.returnQueued_eq fun d => d.entry == i
  rw [State.cancelled, ← State.returnQueued_pages, hr]

theorem State.cancelled_entry (s : State) (i j : EntryIx) (id : StreamId) : (s.cancelled i id).entry j = s.entry j := by
  unfold State.entry
  rw [State.cancelled_streams]

section
variable {s : State} {b : Byte} {id : StreamId} {i : EntryIx} {p : Producer} (hu : s.presence.state ≠ .unconfigured)
  (hb : b.toNat = id.toNat) (hid : id ≠ 0) (hf : s.findStream id = some i) (he : s.entry i = some (.producer p))
  (hd : p.state ≠ .disputed)
include hu hb hid hf he hd

/-- CANCEL that withdraws no page in flight. -/
theorem State.cmdCancel_queued (hc : s.cancellable i = none) : s.cmdCancel b.toNat =
    (((s.cancelled i id).insertEvents (s.cancelledSents i id)).settle, .of .ok (number (s.queueOf i).length) 0) := by
  unfold State.cmdCancel
  rw [if_neg fun k => hu (s.isUnconfigured_iff.1 k), State.withProducer_of hb hid hf he hd, hc]
  simp only [Option.map_none, State.sentOf, State.insertSents_queued, s.returnQueued_pages i id .cancelled]
  rw [show (s.publish.queue.filter fun d => d.entry == i) = s.queueOf i from rfl, State.queueOf_sent (State.streamOf_found hf)]
  rfl

/-- CANCEL that withdraws the page in flight, posted before the queued ones. -/
theorem State.cmdCancel_flight {f : Flight} (hc : s.cancellable i = some f) (own : f.entry = i)
    (first : ∀ d ∈ s.queueOf i, f.seq < d.seq) : s.cmdCancel b.toNat =
    ((((s.cancelled i id).withdrawFlight f (some .idle)).insertEvents
      (.sent id f.slot (some f.page) .cancelled f.tag :: s.cancelledSents i id)).settle,
      .of .ok (number (s.queueOf i).length) 1) := by
  have stream : s.streamOf i = id := State.streamOf_found hf
  have order := fun t : State => State.insertSents_flight t s .cancelled [] (s.queueOf i) (s.flightSent f .cancelled)
    (fun d hd => by cases hd) fun d hd => Nat.le_of_lt (first d hd)
  unfold State.cmdCancel
  rw [if_neg fun k => hu (s.isUnconfigured_iff.1 k), State.withProducer_of hb hid hf he hd, hc]
  simp only [Option.map_some, State.sentOf, s.returnQueued_pages i id .cancelled]
  rw [show (s.publish.queue.filter fun d => d.entry == i) = s.queueOf i from rfl, ← List.nil_append (s.queueOf i), order,
    State.queueOf_sent stream]
  simp only [State.flightSent, own, stream]
  rfl

end

/-- Settles O28: CANCEL without and with a page in flight to withdraw. -/
theorem cancelCompletesTheStream : Obligations.CancelCompletesTheStream := by
  intro tag b id i p s hs hu hb hid hf he hd mine pages returned
  refine ⟨fun offered => ?_, ?_⟩
  · rw [exec_cancel hs, State.cmdCancel_queued (s := s.accepted) hu hb hid hf he hd (State.cancellable_none offered),
      State.finish_of]
    rfl
  · intro f flight own unoffered ho first withdrawn
    subst own
    obtain rfl : p.stream = id := (State.streamOf_of he).symm.trans (State.streamOf_found hf)
    have left : (s.accepted.cancelled f.entry p.stream).withdrawFlight f (some .idle) = withdrawn := by
      rw [State.withdrawFlight_of ((s.accepted.cancelled_entry ..).trans he), State.cancelled_streams, State.cancelled_seg,
        Producer.withoutFlight, if_pos ho]
      rfl
    rw [exec_cancel hs, State.cmdCancel_flight (s := s.accepted) hu hb hid hf he hd
      (State.cancellable_some (s := s.accepted) flight unoffered) rfl first, State.finish_of, left]
    rfl

end Sys2Proof.Machine
end

section
/-! SUPPORT. The boundary of the Segmenter: which entry's repair pass begins, what a pass, a page in flight and a selection
offer, and what the end of an event comes to there (chapters 3 and 5). -/

namespace Sys2Proof.Machine

/-! ### The lowest stream (R91) -/

/-- One turn of the search for the lowest stream. -/
def State.lower {α : Type} (s : State) (f : EntryIx → Option α) (best : Option (StreamId × α)) (i : EntryIx) :
    Option (StreamId × α) :=
  match f i, best with
  | none, _ => best
  | some x, none => some (s.streamOf i, x)
  | some x, some (id, y) => if s.streamOf i < id then some (s.streamOf i, x) else some (id, y)

theorem State.lowestStream_eq {α : Type} (s : State) (f : EntryIx → Option α) :
    s.lowestStream f = (allEntries.foldl (s.lower f) none).map (·.2) := rfl

section
variable {α : Type} {s : State} {f : EntryIx → Option α} {i j : EntryIx} {x : α} {id : StreamId}

/-- An entry whose stream is not below the best one leaves the best one. -/
theorem State.lower_stays (h : (f j).isSome → ¬ s.streamOf j < id) : s.lower f (some (id, x)) j = some (id, x) := by
  unfold State.lower
  cases hj : f j with
  | none => rfl
  | some y => exact if_neg (h (by rw [hj]; rfl))

/-- An entry whose stream is below the best one, if there is one, becomes the best one. -/
theorem State.lower_chosen {best : Option (StreamId × α)} (hi : f i = some x) (h : ∀ y ∈ best, s.streamOf i < y.1) :
    s.lower f best i = some (s.streamOf i, x) := by
  unfold State.lower
  rw [hi]
  cases best with
  | none => rfl
  | some y => exact if_pos (h y rfl)

/-- The best one stays above `id` while every entry that is considered is above it. -/
theorem State.lower_above {best : Option (StreamId × α)} (h : ∀ y ∈ best, id < y.1) (hj : (f j).isSome → id < s.streamOf j) :
    ∀ y ∈ s.lower f best j, id < y.1 := by
  unfold State.lower
  cases hfj : f j with
  | none => exact h
  | some z =>
    have above := hj (by rw [hfj]; rfl)
    cases best with
    | none => exact fun y hy => Option.some.inj hy ▸ above
    | some b =>
      intro y hy
      dsimp only at hy
      split at hy
      · exact Option.some.inj hy ▸ above
      · exact h y hy

/-- The entry whose stream is below that of every other entry for which `f` gives something is chosen. -/
theorem State.lowestStream_of (hi : f i = some x) (above : ∀ j, j ≠ i → (f j).isSome → s.streamOf i < s.streamOf j) :
    s.lowestStream f = some x := by
  have stays (l : List EntryIx) : l.foldl (s.lower f) (some (s.streamOf i, x)) = some (s.streamOf i, x) := by
    induction l with
    | nil => rfl
    | cons j l ih =>
      rw [List.foldl_cons, State.lower_stays fun hj => ?_, ih]
      by_cases e : j = i
      · exact e ▸ BitVec.lt_irrefl _
      · exact BitVec.not_lt.2 (BitVec.le_of_lt (above j e hj))
  have found (l : List EntryIx) (hl : i ∈ l) (best : Option (StreamId × α)) (hb : ∀ y ∈ best, s.streamOf i < y.1) :
      l.foldl (s.lower f) best = some (s.streamOf i, x) := by
    induction l generalizing best with
    | nil => cases hl
    | cons j l ih =>
      rw [List.foldl_cons]
      by_cases e : j = i
      · rw [e, State.lower_chosen hi hb, stays]
      · exact ih ((List.mem_cons.1 hl).resolve_left (Ne.symm e)) _ (State.lower_above hb (above j e))
  rw [State.lowestStream_eq, found allEntries (List.mem_finRange i) none (fun y hy => by cases hy), Option.map_some]

end

/-! ### Frames of a page (R48, R92) -/

theorem State.slotBytes_eq (s : State) (n : SlotNum) (len : Nat) :
    s.slotBytes n len = memReadList s.slots.mem (4096 * n.val) len := by
  unfold State.slotBytes
  rw [slotAddr_eq, Nat.add_zero]

theorem State.segFrame_eq (s : State) (stream : StreamId) (n : SlotNum) (page : PageNum) (len k : Nat) :
    s.segFrame stream n page len k = .seg stream page k ((len + 127) / 128) len
      (memReadList s.slots.mem (4096 * n.val + 128 * k) (min 128 (len - 128 * k))) := by
  unfold State.segFrame
  rw [slotAddr_eq]
  rfl

/-- The page in flight offers a segment that is left (R47). -/
theorem State.offerFlight_seg {f : Flight} (h : f.next < (f.len + 127) / 128) (s : State) : s.offerFlight f =
    { s with seg := { s.seg with offered := some ⟨.pageSeg f.next,
      .seg (s.streamOf f.entry) f.page f.next ((f.len + 127) / 128) f.len
        (memReadList s.slots.mem (4096 * f.slot.val + 128 * f.next) (min 128 (f.len - 128 * f.next)))⟩ } } := by
  unfold State.offerFlight
  rw [if_pos (show f.next < segmentCount f.len from h), State.segFrame_eq]
  rfl

/-- The page in flight offers its CLOSE NORMAL when no segment is left (R49, R52). -/
theorem State.offerFlight_close {f : Flight} (h : (f.len + 127) / 128 ≤ f.next) (s : State) : s.offerFlight f =
    { s with seg := { s.seg with
      flight := some { f with closeOffered := true }
      offered := some ⟨.pageClose, .close (s.streamOf f.entry) f.page f.len .normal f.check⟩ } } :=
  if_neg (show ¬ f.next < segmentCount f.len from Nat.not_lt.2 h)

theorem State.offerFlight_presence (s : State) (f : Flight) : (s.offerFlight f).presence = s.presence := by
  unfold State.offerFlight
  split <;> rfl

/-! ### Repair passes (R91, R92) -/

/-- The lowest number of the repair set above the position, as a search through the numbers 0 to 31. -/
theorem nextRepair_eq (set : SegSet) (above : Option Nat) :
    nextRepair set above = (List.range 32).find? fun k => set.getLsbD k && above.all fun a => decide (a < k) := by
  have position (k : Nat) : abovePosition above k = above.all fun a => decide (a < k) := by
    cases above <;> rfl
  rw [← List.map_coe_finRange_eq_range, List.find?_map]
  unfold nextRepair elemsOf stationsOf
  rw [List.find?_map, List.find?_filter]
  congr 2
  funext n
  rw [Function.comp_apply, Function.comp_apply, position]
  simp [hasElem]

/-- What a pass of the producer entry `p` offers of the page of length `len` in slot `m`, with the entry put in place. -/
def State.passOffered (s : State) (ps : Pass) (p : Producer) (m : SlotNum) (len : Nat) : State :=
  match ps.nextNumber p.repairSet with
  | some k => { s with
      streams := vput s.streams ps.entry (some (.producer { p with repairSet := dropElem p.repairSet k }))
      seg := { s.seg with
        pass := some { ps with position := some k }
        offered := some ⟨.passSeg k ps.position, s.segFrame p.stream m ps.page len k⟩ } }
  | none => { s with
      streams := vput s.streams ps.entry (some (.producer p))
      seg := { s.seg with
        pass := some { ps with closing := true }
        offered := some ⟨.passClose, .close p.stream ps.page len .repair (pageCheck (s.slotBytes m len))⟩ } }

/-- A pass offers its next frame when the entry has been put in place, with the stream and the repair set the pass reads. -/
theorem State.offerPass_vput {s : State} {ps : Pass} {p q : Producer} (hs : q.stream = p.stream)
    (hr : q.repairSet = p.repairSet) {m : SlotNum} {o : EntryIx} {page : PageNum} {len : Nat}
    (hm : s.slot m = .retained o page len) (x : Option Pass) :
    ({ s with streams := vput s.streams ps.entry (some (.producer q)), seg := { s.seg with pass := x } } : State).offerPass
      ps p m = s.passOffered ps q m len := by
  have same : ({ s with streams := vput s.streams ps.entry (some (.producer q)), seg := { s.seg with pass := x } } :
      State).slot m = .retained o page len := hm
  unfold State.offerPass State.passOffered
  rw [same, ← hs, ← hr]
  cases ps.nextNumber q.repairSet with
  | none => rfl
  | some k =>
    dsimp only
    rw [State.modProducer_of (State.entry_of_streams rfl), vput_vput]
    rfl

/-- The pass in progress goes on (R92). -/
theorem State.continuePass_of {s : State} {ps : Pass} {p : Producer} (he : s.entry ps.entry = some (.producer p))
    {m : SlotNum} (hr : p.retained = some m) {o : EntryIx} {page : PageNum} {len : Nat}
    (hm : s.slot m = .retained o page len) : s.continuePass ps = s.passOffered ps p m len := by
  have placed := State.offerPass_vput (ps := ps) (p := p) (q := p) rfl rfl hm s.seg.pass
  rw [vput_self _ _ _ he] at placed
  unfold State.continuePass
  rw [State.producer_of he]
  dsimp only
  rw [hr]
  exact placed

/-- A producer entry whose pass begins (R91). -/
def Producer.passBegun (p : Producer) : Producer :=
  { p with
    repairPasses := p.repairPasses + 1
    counters := { p.counters with repairs := satInc p.counters.repairs } }

theorem State.beginPass_of {s : State} {i : EntryIx} {p : Producer} (he : s.entry i = some (.producer p)) {page : PageNum}
    (ht : p.repairTag = some page) {m : SlotNum} (hr : p.retained = some m) {o : EntryIx} {page' : PageNum} {len : Nat}
    (hm : s.slot m = .retained o page' len) :
    s.beginPass i = s.passOffered ⟨i, page, none, false⟩ p.passBegun m len := by
  unfold State.beginPass
  rw [State.producer_of he]
  dsimp only
  rw [ht, hr]
  dsimp only
  rw [State.modProducer_of he]
  exact State.offerPass_vput (ps := ⟨i, page, none, false⟩) (q := p.passBegun) rfl rfl hm _

/-- An entry asks for a pass exactly when it is OPEN with a pass left and its tag names its RETAINED page (R91). -/
theorem State.passWanted_iff {s : State} {i : EntryIx} {p : Producer} (he : s.entry i = some (.producer p)) :
    s.passWanted i = some i ↔ p.state = .opened ∧ p.repairPasses < 2 ∧
      ∃ page, p.repairTag = some page ∧ p.retained.bind (fun m => (s.slot m).page?) = some page := by
  unfold State.passWanted
  rw [State.producer_of he]
  dsimp only
  rw [Option.ite_none_right_eq_some]
  constructor
  · rintro ⟨⟨ho, tagged, names, left⟩, _⟩
    obtain ⟨page, ht⟩ := Option.isSome_iff_exists.1 tagged
    exact ⟨ho, left, page, ht, (names.symm.trans ht)⟩
  · rintro ⟨ho, left, page, ht, hp⟩
    exact ⟨⟨ho, by rw [ht]; rfl, ht.trans hp.symm, left⟩, rfl⟩

/-- An entry that asks for a pass asks for its own. -/
theorem State.passWanted_self {s : State} {j : EntryIx} (h : (s.passWanted j).isSome) : s.passWanted j = some j := by
  unfold State.passWanted at h ⊢
  split at h
  · split at h
    · next hc => rw [if_pos hc]
    · cases h
  · cases h

/-! ### Selection (R44, R45) -/

/-- Entry `i` is an OPEN producer entry in IDLE that is not paused. -/
def State.opensPage (s : State) (i : EntryIx) : Bool :=
  match s.entry i with
  | some (.producer p) => p.state == .opened && p.phase == some .idle && !p.paused
  | _ => false

/-- On an ACTIVE station with no pass in progress these are the eligible entries (R44). -/
theorem State.eligible_eq {s : State} (ha : s.presence.state = .active) (hp : s.seg.pass = none) (i : EntryIx) :
    s.eligible i = s.opensPage i := by
  have free : s.inPass i = false := by simp [State.inPass, hp]
  unfold State.eligible State.opensPage State.producer
  rw [free, ha]
  cases s.entry i with
  | none => rfl
  | some e =>
    cases e with
    | consumer c => rfl
    | producer p =>
      rw [Bool.eq_iff_iff]
      simp [and_assoc]

theorem State.selectable_eq {s : State} (ha : s.presence.state = .active) (hp : s.seg.pass = none) :
    s.selectable = s.publish.queue.find? fun d => s.opensPage d.entry := by
  unfold State.selectable
  simp only [State.eligible_eq ha hp]

/-- The page in flight that the selection of a descriptor starts, no frame of it offered yet (R45). -/
def State.selectedFlight (s : State) (d : Descriptor) (p : Producer) (slot : SlotNum) (len : Nat) (report : Bool)
    (tail : Option Note) : Flight :=
  ⟨d.entry, slot, p.nextPage, len, pageCheck (memReadList s.slots.mem (4096 * slot.val) len), 0, report, tail, d.tag, d.seq,
    false, false⟩

/-- The selection of a page descriptor, up to the offer of its first frame (R45). -/
theorem State.selectDescriptor_of {s : State} {d : Descriptor} {p : Producer} {slot : SlotNum} {len : Nat} {report : Bool}
    {tail : Option Note} (hb : d.body = .page slot len report tail) (he : s.entry d.entry = some (.producer p))
    (hs : s.slot slot ≠ .free) : s.selectDescriptor d = ({ s with
      publish := { s.publish with queue := s.publish.queue.erase d }
      slots := { s.slots with records := vput s.slots.records slot (.sending d.entry p.nextPage len) }
      streams := vput s.streams d.entry (some (.producer { p with
        nextPage := p.nextPage + 1, sending := some slot, phase := some .sending }))
      seg := { s.seg with flight := some (s.selectedFlight d p slot len report tail) } } : State).offerFlight
        (s.selectedFlight d p slot len report tail) := by
  have used : (s.setQueue (s.publish.queue.erase d)).slot slot ≠ .free := hs
  unfold State.selectDescriptor
  rw [hb, State.producer_of he]
  dsimp only
  rw [State.changeSlot_used used (by simp), State.modProducer_of (p := p) (by exact he), State.slotBytes_eq]
  rfl

/-! ### The end of an event at a boundary (R47) -/

section
variable {s : State}

theorem State.settle_noMarkers (hm : ∀ d ∈ s.publish.queue, d.isPause = false) : s.settle = s.boundary.testLeaving := by
  unfold State.settle
  rw [State.forEntries_applyMarkers hm]

theorem State.boundary_new (ht : s.transmits = true) (ho : s.seg.offered = none) (hp : s.seg.pass = none) :
    s.boundary = s.boundaryNew := by
  unfold State.boundary
  rw [if_pos ⟨ht, ho⟩, hp]

theorem State.boundary_alive (ht : s.transmits = true) (ho : s.seg.offered = none) {ps : Pass} (hp : s.seg.pass = some ps)
    (ha : s.passAlive ps = true) : s.boundary = s.continuePass ps := by
  unfold State.boundary
  rw [if_pos ⟨ht, ho⟩, hp]
  exact if_pos ha

theorem State.boundary_dead (ht : s.transmits = true) (ho : s.seg.offered = none) {ps : Pass} (hp : s.seg.pass = some ps)
    (ha : s.passAlive ps = false) : s.boundary = ({ s with seg := { s.seg with pass := none } } : State).boundaryNew := by
  unfold State.boundary
  rw [if_pos ⟨ht, ho⟩, hp]
  exact if_neg (by rw [ha]; decide)

theorem State.boundaryNew_rest (hw : ∀ i, s.passWanted i = none) : s.boundaryNew = s.boundaryRest := by
  unfold State.boundaryNew
  rw [State.lowestStream_none hw]

/-- With no pass the page in flight offers its next frame. -/
theorem State.settle_flight (ht : s.transmits = true) (hm : ∀ d ∈ s.publish.queue, d.isPause = false)
    (hw : ∀ i, s.passWanted i = none) {f : Flight} (hs : s.seg = ⟨some f, none, none, none⟩) : s.settle = s.offerFlight f := by
  have rest : s.boundaryRest = s.offerFlight f := by
    unfold State.boundaryRest
    rw [hs]
  have working : (s.offerFlight f).seg.flight ≠ none := by
    by_cases h : f.next < (f.len + 127) / 128
    · rw [State.offerFlight_seg h, hs]
      simp
    · rw [State.offerFlight_close (Nat.not_lt.1 h)]
      simp
  rw [State.settle_noMarkers hm, State.boundary_new ht (by rw [hs]) (by rw [hs]), State.boundaryNew_rest hw, rest,
    State.testLeaving_working (.inl working)]

/-- With a free Segmenter an ACTIVE station selects, if it can. -/
theorem State.settle_select (ha : s.presence.state = .active) (hs : s.seg = ⟨none, none, none, none⟩)
    (hm : ∀ d ∈ s.publish.queue, d.isPause = false) (hw : ∀ i, s.passWanted i = none) : s.settle = s.select.testLeaving := by
  have rest : s.boundaryRest = s.select := by
    unfold State.boundaryRest
    rw [hs]
  rw [State.settle_noMarkers hm, State.boundary_new (by simp [State.transmits, ha]) (by rw [hs]) (by rw [hs]),
    State.boundaryNew_rest hw, rest]

/-- A pass that offers a frame is work of a LEAVING station. -/
theorem State.testLeaving_passOffered (s : State) (ps : Pass) (p : Producer) (m : SlotNum) (len : Nat) :
    (s.passOffered ps p m len).testLeaving = s.passOffered ps p m len := by
  refine State.testLeaving_working (.inr (.inr ?_))
  unfold State.passOffered
  split <;> simp

end

/-- The end of the event that selects a page (R45): what is offered is SEG 0, or the CLOSE NORMAL of an empty page. -/
theorem State.settle_selects {s : State} (ha : s.presence.state = .active) (hs : s.seg = ⟨none, none, none, none⟩)
    (hm : ∀ d ∈ s.publish.queue, d.isPause = false) (hw : ∀ i, s.passWanted i = none) {d : Descriptor}
    (hd : (s.publish.queue.find? fun d => s.opensPage d.entry) = some d) {p : Producer} {slot : SlotNum} {len : Nat}
    {report : Bool} {tail : Option Note} (hb : d.body = .page slot len report tail)
    (he : s.entry d.entry = some (.producer p)) (used : s.slot slot ≠ .free) : s.settle = { s with
      publish := { s.publish with queue := s.publish.queue.erase d }
      slots := { s.slots with records := vput s.slots.records slot (.sending d.entry p.nextPage len) }
      streams := vput s.streams d.entry (some (.producer { p with
        nextPage := p.nextPage + 1, sending := some slot, phase := some .sending }))
      seg := ⟨some { s.selectedFlight d p slot len report tail with closeOffered := len == 0 },
        some (if len = 0 then ⟨.pageClose, .close p.stream p.nextPage 0 .normal
            (pageCheck (memReadList s.slots.mem (4096 * slot.val) len))⟩
          else ⟨.pageSeg 0, .seg p.stream p.nextPage 0 ((len + 127) / 128) len
            (memReadList s.slots.mem (4096 * slot.val) (min 128 len))⟩), none, none⟩ } := by
  have chosen : s.select = s.selectDescriptor d := by
    unfold State.select
    rw [State.selectable_eq ha (by rw [hs]), hd]
  rw [State.settle_select ha hs hm hw, chosen, State.selectDescriptor_of hb he used, hs,
    State.testLeaving_other (by rw [State.offerFlight_presence, ha]; decide)]
  by_cases empty : len = 0
  · subst empty
    rw [State.offerFlight_close (show (0 + 127) / 128 ≤ 0 by decide), State.streamOf_of (State.entry_of_streams rfl)]
    rfl
  · rw [State.offerFlight_seg (show 0 < (len + 127) / 128 by omega),
      State.streamOf_of (State.entry_of_streams rfl), if_neg empty, beq_false_of_ne empty]
    rfl

/-- What a pass of entry `i` offers, with the search for the lowest number left written out (R92). -/
theorem State.passOffered_eq (s : State) (i : EntryIx) (page : PageNum) (above : Option Nat) (closing : Bool) (p : Producer)
    (m : SlotNum) (len : Nat) : s.passOffered ⟨i, page, above, closing⟩ p m len =
      match if closing then none else
          (List.range 32).find? fun k => p.repairSet.getLsbD k && above.all fun a => decide (a < k) with
      | some k => { s with
          streams := vput s.streams i (some (.producer { p with repairSet := p.repairSet &&& ~~~(1#32 <<< k) }))
          seg := { s.seg with
            pass := some ⟨i, page, some k, false⟩
            offered := some ⟨.passSeg k above, .seg p.stream page k ((len + 127) / 128) len
              (memReadList s.slots.mem (4096 * m.val + 128 * k) (min 128 (len - 128 * k)))⟩ } }
      | none => { s with
          streams := vput s.streams i (some (.producer p))
          seg := { s.seg with
            pass := some ⟨i, page, above, true⟩
            offered := some ⟨.passClose, .close p.stream page len .repair
              (pageCheck (memReadList s.slots.mem (4096 * m.val) len))⟩ } } := by
  have close := s.slotBytes_eq m len
  unfold State.passOffered
  cases closing with
  | true => rw [Pass.nextNumber_closing rfl, if_pos rfl, ← close]
  | false =>
    rw [Pass.nextNumber_open rfl, nextRepair_eq, if_neg (by decide)]
    simp only [State.segFrame_eq, close]
    rfl

/-- Settles O41: the selection of a page; then the pass in progress, the pass that begins, the pass that has ended, the
withdrawn close, and which entries ask for a pass. -/
theorem endOfEventSelectsAPage : Obligations.EndOfEventSelectsAPage := by
  refine ⟨?_, ?_⟩
  · intro s ha hs hm hw opens
    refine ⟨fun hn => ?_, ?_⟩
    · have unchanged : s.select = s := by
        unfold State.select
        rw [State.selectable_eq ha (by rw [hs]), show (s.publish.queue.find? fun d => s.opensPage d.entry) = none from hn]
      rw [State.settle_select ha hs hm hw, unchanged, State.testLeaving_other (by rw [ha]; decide)]
    · intro d p slot len report tail hd hb he used bytes f offered
      rw [State.settle_selects ha hs hm hw hd hb he used]
      rfl
  · intro s hst ho hm retains lowest offers serves
    have ht : s.transmits = true := (State.transmits_iff s).2 hst
    refine ⟨?_, ?_, fun ps p hps he hd => ?_, fun w hp hw hc => ?_, fun i p he => State.passWanted_iff he⟩
    · rintro i p m page len above closing ⟨he, hopen, htag, hret, o, hslot⟩ hps
      have alive : s.passAlive ⟨i, page, above, closing⟩ = true := by
        simp [State.passAlive, State.producer_of he, hopen, htag, hret]
      rw [State.settle_noMarkers hm, State.boundary_alive ht ho hps alive,
        State.continuePass_of (ps := ⟨i, page, above, closing⟩) he hret hslot, State.testLeaving_passOffered]
      exact State.passOffered_eq s i page above closing p m len
    · rintro i p m page len ⟨he, hopen, htag, hret, o, hslot⟩ hp hpasses first
      have wanted : s.passWanted i = some i :=
        (State.passWanted_iff he).2 ⟨hopen, hpasses, page, htag, by rw [hret, Option.bind_some, hslot]; rfl⟩
      have lowest : s.lowestStream s.passWanted = some i := State.lowestStream_of wanted fun j hj hwj => by
        rw [State.streamOf_of he]
        exact first j hj (State.passWanted_self hwj)
      have begins : s.boundaryNew = s.beginPass i := by
        unfold State.boundaryNew
        rw [lowest]
      rw [State.settle_noMarkers hm, State.boundary_new ht ho hp, begins, State.beginPass_of he htag hret hslot,
        State.testLeaving_passOffered]
      exact State.passOffered_eq s i page none false p.passBegun m len
    · have dead : s.passAlive ps = false := by simp [State.passAlive, State.producer_of he, hd]
      rw [State.settle_noMarkers hm, State.boundary_dead ht ho hps dead,
        State.settle_noMarkers (s := { s with seg := { s.seg with pass := none } }) hm,
        State.boundary_new (s := { s with seg := { s.seg with pass := none } }) ht ho rfl]
    · have rest : s.boundaryRest = s.offer .withdrawnClose (.close w.stream w.page w.len .withdrawn w.check) := by
        unfold State.boundaryRest
        rw [hc]
      rw [State.settle_noMarkers hm, State.boundary_new ht ho hp, State.boundaryNew_rest hw, rest,
        State.testLeaving_working (.inr (.inl (by simp [State.offer, hc])))]
      rfl

end Sys2Proof.Machine
end

section
/-! SUPPORT. What the report of the Segmenter's offered frame does: the next frame of a page, its CLOSE NORMAL, the frames of a
repair pass and the withdrawn close (chapters 3, 5 and 6). -/

namespace Sys2Proof.Machine

/-! ### The report by the kind of the offered frame (R47, R48, R55, R92) -/

/-- The state in which the Segmenter has no frame offered any more. -/
def State.unoffered (s : State) : State := { s with seg := { s.seg with offered := none } }

section
variable {s : State} {fr : Frame}

theorem State.segmenterReport_pageSeg {k : Nat} (ho : s.seg.offered = some ⟨.pageSeg k, fr⟩) {f : Flight}
    (hf : s.seg.flight = some f) (sent : Bool) : s.segmenterReport sent =
      { s with seg := { s.seg with offered := none, flight := some { f with next := k + 1 } } } := by
  have kept : (s.modSeg fun g => { g with offered := none }).seg.flight = some f := hf
  unfold State.segmenterReport
  rw [ho]
  dsimp only
  rw [kept]
  rfl

theorem State.segmenterReport_pageClose (ho : s.seg.offered = some ⟨.pageClose, fr⟩) {f : Flight}
    (hf : s.seg.flight = some f) (sent : Bool) : s.segmenterReport sent =
      s.unoffered.closeReported f := by
  have kept : (s.modSeg fun g => { g with offered := none }).seg.flight = some f := hf
  unfold State.segmenterReport
  rw [ho]
  dsimp only
  rw [kept]
  rfl

theorem State.segmenterReport_passSeg {k : Nat} {before : Option Nat} (ho : s.seg.offered = some ⟨.passSeg k before, fr⟩)
    (sent : Bool) : s.segmenterReport sent = s.unoffered := by
  unfold State.segmenterReport
  rw [ho]
  rfl

theorem State.segmenterReport_withdrawnClose (ho : s.seg.offered = some ⟨.withdrawnClose, fr⟩) (sent : Bool) :
    s.segmenterReport sent = { s with seg := { s.seg with offered := none, withdrawn := none } } := by
  unfold State.segmenterReport
  rw [ho]
  rfl

theorem State.segmenterReport_passClose (ho : s.seg.offered = some ⟨.passClose, fr⟩) {ps : Pass} (hp : s.seg.pass = some ps)
    (sent : Bool) : s.segmenterReport sent =
      (if sent then s.unoffered.restartBarrier ps.entry else s.unoffered).endPass ps := by
  have kept : (s.modSeg fun g => { g with offered := none }).seg.pass = some ps := hp
  unfold State.segmenterReport
  rw [ho]
  dsimp only
  rw [kept]
  rfl

end

/-! ### The page in flight at its CLOSE NORMAL (R49) -/

/-- The repair state after a CLOSE NORMAL that replaces the RETAINED page `old` (R49, R87). -/
def Producer.closeRepaired (p : Producer) (old : Option PageNum) : Producer :=
  if p.repairTag.isSome ∧ p.repairTag = old then { p with
    repairPasses := 0
    repairSet := 0
    repairTag := none
    gones := if p.repairSet = 0 then p.gones else placedGone p.gones (p.repairTag.getD 0) }
  else { p with repairPasses := 0 }

theorem State.closeRepair_of {s : State} {i : EntryIx} {p : Producer} (he : s.entry i = some (.producer p))
    (hn : s.holdsNone i) (old : Option PageNum) : s.closeRepair i old =
      { s with streams := vput s.streams i (some (.producer (p.closeRepaired old))) } := by
  unfold State.closeRepair Producer.closeRepaired
  rw [State.producer_of he]
  dsimp only
  rw [State.modProducer_of he]
  by_cases named : p.repairTag.isSome = true ∧ p.repairTag = old
  · rw [if_pos named, if_pos named, State.modProducer_of (State.entry_of_streams rfl), vput_vput]
    by_cases empty : p.repairSet = 0
    · rw [if_pos empty, if_pos empty]
    · rw [if_neg empty, if_neg empty, State.placeGone_of (State.entry_of_streams rfl) (by exact hn), vput_vput]
  · rw [if_neg named, if_neg named]

/-- The page phase after a CLOSE NORMAL: the barrier of a LOCK_STEP entry with members, or IDLE (R49, R101). -/
def State.phaseClosed (s : State) (p : Producer) : Producer :=
  if p.mode = .lockStep ∧ p.members ≠ 0 then { p with
    phase := some .awaitingRelease
    awaited := p.members
    released := 0
    promptSent := false
    timer := some ⟨s.time, s.time, s.time + s.releaseTime p⟩ }
  else { p with phase := some .idle }

theorem State.closePhase_of {s : State} {i : EntryIx} {p : Producer} (he : s.entry i = some (.producer p)) :
    s.closePhase i = { s with streams := vput s.streams i (some (.producer (s.phaseClosed p))) } := by
  unfold State.closePhase State.phaseClosed State.beginBarrier
  rw [State.producer_of he]
  dsimp only
  split <;> rw [State.modProducer_of he]

/-- The tail note finds no place in the NOTE out-queue (R50). -/
def State.tailDropped (s : State) (tail : Option Note) : Prop := tail.isSome = true ∧ 8 ≤ s.link.notes.length

/-- The NOTE out-queue takes 8 notes (R50, R153). -/
theorem State.placeTail_dropped {s : State} {tail : Option Note} (h : s.tailDropped tail) :
    s.placeTail tail = (s, .doneNoteDropped) := by
  obtain ⟨noted, full⟩ := h
  obtain ⟨n, rfl⟩ := Option.isSome_iff_exists.1 noted
  exact if_neg (Nat.not_lt.2 full)

theorem State.placeTail_placed {s : State} {tail : Option Note} (h : ¬ s.tailDropped tail) :
    s.placeTail tail = (s.setNotes (s.link.notes ++ tail.toList), .done) := by
  cases tail with
  | none => rw [Option.toList_none, List.append_nil]; rfl
  | some n => exact if_pos (Nat.not_le.1 fun full => h ⟨rfl, full⟩)

/-- The entry whose page in flight has completed: steps 1 to 4 of R49. -/
def State.flightClosed (s : State) (f : Flight) (p : Producer) : Producer :=
  s.phaseClosed { ({ p with sending := none, retained := some f.slot } : Producer).closeRepaired (s.retainedPage p) with
    lastClosed := some f.page
    counters := { p.counters with closed := satInc p.counters.closed } }

theorem Producer.closeRepaired_counters (p : Producer) (old : Option PageNum) : (p.closeRepaired old).counters = p.counters := by
  unfold Producer.closeRepaired
  split <;> rfl

/-- The slots after step 1 of R49: the page's slot is RETAINED, the one before it FREE. -/
def State.slotsClosed (s : State) (f : Flight) (p : Producer) : SlotManager :=
  ((s.changeSlot f.slot (.retained f.entry f.page f.len)).freeRef p.retained).slots

/-- Which slots are freed depends on the slots alone. -/
theorem State.freeRef_slots_congr {s t : State} (h : s.slots = t.slots) (r : Option SlotNum) :
    (s.freeRef r).slots = (t.freeRef r).slots := by
  cases r with
  | none => exact h
  | some n => exact congrArg (SlotManager.giveBack · n) h

/-- The state with the slots and the entry as steps 1 to 4 of R49 leave them. -/
def State.pageClosed (s : State) (f : Flight) (p : Producer) : State :=
  { s with
    slots := s.slotsClosed f p
    streams := vput s.streams f.entry (some (.producer (s.flightClosed f p))) }

/-- An event inserted before or after a change of the Segmenter. -/
theorem State.insertEvent_modSeg (s : State) (e : Event) (g : Segmenter → Segmenter) :
    (s.insertEvent e).modSeg g = (s.modSeg g).insertEvent e := by
  rw [State.insertEvent_eq, State.insertEvent_eq]
  rfl

section
variable {s : State} {f : Flight} {p : Producer} (he : s.entry f.entry = some (.producer p)) (hn : s.holdsNone f.entry)
include he hn

/-- Steps 1 to 4 of R49. -/
theorem State.closeSteps_of : ((((((s.changeSlot f.slot (.retained f.entry f.page f.len)).freeRef p.retained).modProducer f.entry
    fun q => { q with sending := none, retained := some f.slot }).closeRepair f.entry (s.retainedPage p)).modProducer f.entry
    fun q => { q with
      lastClosed := some f.page
      counters := { q.counters with closed := satInc q.counters.closed } }).closePhase f.entry) = s.pageClosed f p := by
  have slots : (s.changeSlot f.slot (.retained f.entry f.page f.len)).freeRef p.retained =
      { s with slots := s.slotsClosed f p } := State.freeRef_eq _ _
  rw [slots, State.modProducer_of (s := { s with slots := s.slotsClosed f p }) he,
    State.closeRepair_of (State.entry_of_streams rfl) (by exact hn), State.modProducer_of (State.entry_of_streams rfl),
    State.closePhase_of (State.entry_of_streams rfl), Producer.closeRepaired_counters]
  simp only [vput_vput]
  rfl

/-- The page in flight completes, its tail note placed (R49, R50). -/
theorem State.completeFlight_placed (ht : ¬ s.tailDropped f.tail) : s.completeFlight f = State.applyMarkers f.entry
    (let t := ((s.pageClosed f p).setNotes (s.link.notes ++ f.tail.toList)).modSeg fun g => { g with flight := none }
    if f.report = true then t.insertEvent (.sent p.stream f.slot (some f.page) .done f.tag) else t) := by
  unfold State.completeFlight
  rw [State.producer_of he]
  dsimp only
  rw [State.closeSteps_of he hn, State.placeTail_placed (by exact ht)]
  cases f.report with
  | false => rfl
  | true =>
    rw [if_neg (by simp), if_pos rfl, State.insertEvent_modSeg]
    rfl

/-- The page in flight completes, its tail note dropped (R49, R50). -/
theorem State.completeFlight_dropped (ht : s.tailDropped f.tail) : s.completeFlight f = State.applyMarkers f.entry
    (((s.pageClosed f p).modSeg fun g => { g with flight := none }).insertEvent
      (.sent p.stream f.slot (some f.page) .doneNoteDropped f.tag)) := by
  unfold State.completeFlight
  rw [State.producer_of he]
  dsimp only
  rw [State.closeSteps_of he hn, State.placeTail_dropped (by exact ht), if_neg (by simp), State.insertEvent_modSeg]

end

/-- The CLOSE NORMAL of a page marked for withdrawal (R54). -/
theorem State.withdrawAtClose_of {s : State} {f : Flight} {p : Producer} (he : s.entry f.entry = some (.producer p)) :
    s.withdrawAtClose f = ({ s with
      slots := (s.changeSlot f.slot .writing).slots
      streams := vput s.streams f.entry (some (.producer { p with sending := none, counters := p.counters.addLost }))
      seg := { s.seg with flight := none } } : State).insertEvent (.sent p.stream f.slot (some f.page) .disputed f.tag) := by
  unfold State.withdrawAtClose State.flightSent
  rw [State.modProducer_of (p := p) (by exact he), State.streamOf_of he]
  rfl

/-! ### The end of a repair pass (R93, R107) -/

/-- The entry whose REPAIR CLOSE is reported: sent in AWAITING_RELEASE, it restarts the release timer (R107). -/
def State.restarted (s : State) (p : Producer) (sent : Bool) : Producer :=
  if sent = true ∧ p.phase = some .awaitingRelease then { p with
    promptSent := false
    timer := p.timer.map fun t => { t with started := s.time, expiry := s.time + s.releaseTime p } }
  else p

theorem State.restartBarrier_of {s : State} {i : EntryIx} {p : Producer} (he : s.entry i = some (.producer p)) (sent : Bool) :
    (if sent then s.restartBarrier i else s) =
      { s with streams := vput s.streams i (some (.producer (s.restarted p sent))) } := by
  cases sent with
  | false => exact (congrArg (fun v => { s with streams := v }) (vput_self s.streams i _ he)).symm
  | true =>
    unfold State.restartBarrier State.restarted
    rw [if_pos rfl, State.modProducer_of he]
    simp only [true_and]

/-- A restarted release timer leaves the repair state as it is. -/
theorem State.restarted_repair (s : State) (p : Producer) (sent : Bool) :
    (s.restarted p sent).repairTag = p.repairTag ∧ (s.restarted p sent).repairSet = p.repairSet ∧
      (s.restarted p sent).repairPasses = p.repairPasses ∧ (s.restarted p sent).gones = p.gones := by
  unfold State.restarted
  split <;> exact ⟨rfl, rfl, rfl, rfl⟩

/-- The entry after a pass of page `page` has ended (R93). -/
def Producer.passEnded (p : Producer) (page : PageNum) : Producer :=
  if p.repairTag = some page then
    if p.repairSet = 0 then { p with repairTag := none }
    else if p.repairPasses < 2 then p
    else { p with repairSet := 0, repairTag := none, gones := placedGone p.gones page }
  else p

theorem State.endPass_of {s : State} {ps : Pass} {p : Producer} (he : s.entry ps.entry = some (.producer p))
    (hn : s.holdsNone ps.entry) : s.endPass ps = { s with
      streams := vput s.streams ps.entry (some (.producer (p.passEnded ps.page)))
      seg := { s.seg with pass := none } } := by
  have ended : (s.modSeg fun g => { g with pass := none }).entry ps.entry = some (.producer p) := he
  have same : s.streams = vput s.streams ps.entry (some (.producer p)) := (vput_self _ _ _ he).symm
  unfold State.endPass Producer.passEnded
  dsimp only
  rw [State.producer_of ended]
  dsimp only
  by_cases tagged : p.repairTag = some ps.page
  · rw [if_pos tagged, if_pos tagged]
    by_cases empty : p.repairSet = 0
    · rw [if_pos empty, if_pos empty, State.modProducer_of ended]
      rfl
    · rw [if_neg empty, if_neg empty]
      by_cases left : p.repairPasses < 2
      · rw [if_pos (by exact left), if_pos left, ← same]
        rfl
      · rw [if_neg (by exact left), if_neg left, State.modProducer_of ended,
          State.placeGone_of (State.entry_of_streams rfl) (by exact hn), vput_vput]
        rfl
  · rw [if_neg tagged, if_neg tagged, ← same]
    rfl

/-- The report of the REPAIR CLOSE of a producer entry. -/
theorem State.segmenterReport_passClose_of {s : State} {fr : Frame} (ho : s.seg.offered = some ⟨.passClose, fr⟩) {ps : Pass}
    (hp : s.seg.pass = some ps) {p : Producer} (he : s.entry ps.entry = some (.producer p)) (hn : s.holdsNone ps.entry)
    (sent : Bool) : s.segmenterReport sent = { s with
      streams := vput s.streams ps.entry (some (.producer ((s.restarted p sent).passEnded ps.page)))
      seg := { s.seg with offered := none, pass := none } } := by
  rw [State.segmenterReport_passClose ho hp,
    State.restartBarrier_of (s := s.unoffered) he,
    State.endPass_of (State.entry_of_streams rfl) (by exact hn), vput_vput]
  rfl

/-- Settles O42: the next frame of a page, its CLOSE NORMAL, and the reports of a pass and of the withdrawn close. -/
theorem pagesGoOutAndComplete : Obligations.PagesGoOutAndComplete := by
  refine ⟨?_, ?_, ?_⟩
  · intro s f k fr sent hst hs hq hw g id len
    have ht : s.transmits = true := (State.transmits_iff s).2 hst
    have report : s.segmenterReport sent = { s with seg := ⟨some g, none, none, none⟩ } := by
      rw [State.segmenterReport_pageSeg (by rw [hs]) (by rw [hs]), hs]
    have ends : (s.segmenterReport sent).settle = ({ s with seg := ⟨some g, none, none, none⟩ } : State).offerFlight g := by
      rw [report]
      exact State.settle_flight (s := { s with seg := ⟨some g, none, none, none⟩ }) ht (by rw [hq]; simp) hw rfl
    refine ⟨fun more => ?_, fun last => ?_⟩
    · rw [ends, State.offerFlight_seg (f := g) more]
      rfl
    · rw [ends, State.offerFlight_close (f := g) last]
      rfl
  · intro s f p fr sent hf ho he
    refine ⟨?_, fun marked => ?_⟩
    · intro unmarked hn due old gone repaired closed after full t result
      have entry : s.unoffered.flightClosed f p = after := by
        unfold State.flightClosed Producer.closeRepaired
        by_cases named : p.repairTag.isSome = true ∧ p.repairTag = old
        · have r : repaired = _ := if_pos named
          simp only [after, closed, r]
          rw [if_pos (by exact named)]
          rfl
        · have r : repaired = _ := if_neg named
          simp only [after, closed, r]
          rw [if_neg (by exact named)]
          rfl
      have slots : s.unoffered.slotsClosed f p =
          ((s.changeSlot f.slot (.retained f.entry f.page f.len)).freeRef p.retained).slots :=
        State.freeRef_slots_congr (by rfl) _
      rw [State.segmenterReport_pageClose ho hf, State.closeReported, if_neg (by rw [unmarked]; decide)]
      by_cases hfull : full
      · rw [State.completeFlight_dropped (s := s.unoffered) he hn hfull, State.pageClosed, entry, slots,
          if_pos (Or.inr hfull)]
        simp only [t, result, if_pos hfull]
        rfl
      · rw [State.completeFlight_placed (s := s.unoffered) he hn hfull, State.pageClosed, entry, slots]
        simp only [t, result, if_neg hfull, or_iff_left hfull]
        rfl
    · rw [State.segmenterReport_pageClose ho hf, State.closeReported, if_pos marked,
        State.withdrawAtClose_of (s := s.unoffered) he]
      rfl
  · intro s fr sent
    refine ⟨fun k before ho => State.segmenterReport_passSeg ho sent,
      fun ho => State.segmenterReport_withdrawnClose ho sent, ?_⟩
    intro i page above closing p ho hp he hn q gone ends
    have report : s.segmenterReport sent = ends (q.passEnded page) := State.segmenterReport_passClose_of ho hp he hn sent
    obtain ⟨tag, set, passes, gones⟩ : q.repairTag = p.repairTag ∧ q.repairSet = p.repairSet ∧
      q.repairPasses = p.repairPasses ∧ q.gones = p.gones := s.restarted_repair p sent
    refine ⟨fun untagged => ?_, fun tagged empty => ?_, fun tagged numbers left => ?_, fun tagged numbers used => ?_⟩
    · rw [report, Producer.passEnded, if_neg (by rw [tag]; exact untagged)]
    · rw [report, Producer.passEnded, if_pos (by rw [tag]; exact tagged), if_pos (by rw [set]; exact empty)]
    · rw [report, Producer.passEnded, if_pos (by rw [tag]; exact tagged), if_neg (by rw [set]; exact numbers),
        if_pos (by rw [passes]; exact left)]
    · rw [report, Producer.passEnded, if_pos (by rw [tag]; exact tagged), if_neg (by rw [set]; exact numbers),
        if_neg (by rw [passes]; exact Nat.not_lt.2 used), gones]
      rfl

end Sys2Proof.Machine
end

section
/-! SUPPORT. The FILLING page of a consumer entry: completed, lost or found unfinished; and the timers of a consumer entry
(chapters 4 and 6). -/

namespace Sys2Proof.Machine

/-! ### Completion, loss and request of repair (R69, R72, R76) -/

theorem LossReason.setsFree_iff (r : LossReason) : r.setsFree = true ↔ r ∉ [.withdrawn, .producerLost] := by
  cases r <;> decide

theorem State.fillingPage_of {s : State} {c : Consumer} {m : SlotNum} (hf : c.filling = some m) {o : EntryIx} {page : PageNum}
    {len : Option Nat} {received : SegSet} {gaps : Nat} (hs : s.slot m = .filling o page len received gaps) :
    s.fillingPage c = some page := by
  rw [State.fillingPage, hf, Option.bind_some, hs]
  rfl

section
variable {s : State} {i : EntryIx} {c : Consumer} (he : s.entry i = some (.consumer c)) {m : SlotNum} (hf : c.filling = some m)
  {o : EntryIx} {page : PageNum}
include he hf

theorem State.loseFilling_eq {len : Option Nat} {received : SegSet} {gaps : Nat}
    (hs : s.slot m = .filling o page len received gaps) (r : LossReason) :
    s.loseFilling i r = (s.pageLost i page (some m) r).dropFilling i := by
  unfold State.loseFilling
  rw [State.consumer_of he]
  dsimp only
  rw [State.fillingPage_of hf hs, hf]

/-- The FILLING page is lost and its slot freed, while the holding frame holds no frame of the entry. -/
theorem State.loseFilling_of {len : Option Nat} {received : SegSet} {gaps : Nat}
    (hs : s.slot m = .filling o page len received gaps) (hn : s.holdsNone i) (r : LossReason) : s.loseFilling i r =
      { (s.insertEvent (.pageLost c.stream page (some m) r)).freeSlot m with streams := vput s.streams i (some (.consumer { c with
        filling := none
        timer := none
        counters := c.counters.addLost
        gap := c.gap.filter fun e => e.1 != page
        free := if c.mode = .lockStep ∧ c.state = .receiving ∧ r.setsFree then some (page, true) else c.free })) } := by
  rw [State.loseFilling_eq he hf hs, State.pageLost_of he hn, State.insertEvent_eq, State.insertEvent_eq]
  unfold State.dropFilling
  rw [State.consumer_of (State.entry_of_streams rfl)]
  dsimp only
  rw [hf, State.freeRef, State.modConsumer_of (State.entry_of_streams rfl)]
  simp only [State.freeSlot_streams, vput_vput]
  rfl

/-- With fewer than two GAPs reported the missing segments are asked for. -/
theorem State.unfinished_asks {len : Option Nat} {received : SegSet} {gaps : Nat}
    (hs : s.slot m = .filling o page len received gaps) (hg : gaps < 2) :
    s.unfinished i = s.setGap i page (Slot.filling o page len received gaps).missing := by
  unfold State.unfinished
  rw [State.consumer_of he]
  dsimp only
  rw [hf]
  dsimp only
  rw [hs]
  exact if_pos hg

theorem State.unfinished_loses {len : Option Nat} {received : SegSet} {gaps : Nat}
    (hs : s.slot m = .filling o page len received gaps) (hg : 2 ≤ gaps) : s.unfinished i = s.loseFilling i .repairTimeout := by
  unfold State.unfinished
  rw [State.consumer_of he]
  dsimp only
  rw [hf]
  dsimp only
  rw [hs]
  exact if_neg (Nat.not_lt.2 hg)

end

/-- The entry after page `page` in slot `m` has completed (R72): an older READY page is skipped. -/
def Consumer.completed (c : Consumer) (m : SlotNum) (page : PageNum) : Consumer :=
  { c with
    filling := none
    ready := some m
    earlier := { c.earlier with ready := false }
    lastCompleted := some page
    timer := none
    gap := none
    skipCount := if c.ready.isSome then satInc c.skipCount else c.skipCount
    readyNotified := c.readyNotified || c.ready.isNone
    counters := { c.counters with
      completed := satInc c.counters.completed
      skipped := if c.ready.isSome then satInc c.counters.skipped else c.counters.skipped } }

/-- Completion, while the holding frame holds no frame of the entry: slots and entry, then PAGE_READY when it is due (R77). -/
theorem State.completePage_of {s : State} {i : EntryIx} {c : Consumer} (he : s.entry i = some (.consumer c)) {m : SlotNum}
    (hf : c.filling = some m) {o : EntryIx} {page : PageNum} {len : Nat} {received : SegSet} {gaps : Nat}
    (hs : s.slot m = .filling o page (some len) received gaps) (hn : s.holdsNone i) :
    s.completePage i =
      let done := { (s.changeSlot m (.ready o page len)).freeRef c.ready with
        streams := vput s.streams i (some (.consumer (c.completed m page))) }
      if c.ready = none ∧ c.readyNotified = false then done.insertEvent (.pageReady c.stream page m) else done := by
  have freed := (s.changeSlot m (.ready o page len)).freeRef_eq c.ready
  unfold State.completePage
  rw [State.consumer_of he]
  dsimp only
  rw [hf]
  dsimp only
  rw [hs]
  dsimp only
  rw [freed, State.modConsumer_of (c := c) (by exact he), State.clearGap_of (State.entry_of_streams rfl) (by exact hn)]
  simp only [vput_vput, Option.isNone_iff_eq_none]
  rfl

/-- Settles O46: completion, loss and request of repair by the lemma on each; the loss alone by `State.pageLost_of`. -/
theorem pagesCompleteAsReady : Obligations.PagesCompleteAsReady := by
  intro i c m o page flen rcv g s he hf hs hn put
  refine ⟨fun len known => ?_, fun r => ?_, fun below => ?_, State.unfinished_loses he hf hs,
    fun j d q slot r hd hj => ?_⟩
  · subst known
    rw [State.completePage_of he hf hs hn]
    dsimp only
    rw [State.freeRef_eq]
    rfl
  · rw [State.loseFilling_of he hf hs hn]
    simp only [LossReason.setsFree_iff, put, State.freeSlot_streams, State.insertEvent_streams]
    rfl
  · rw [State.unfinished_asks he hf hs below, State.setGap_of he hn]
    cases flen <;> rfl
  · rw [State.pageLost_of hd hj]
    simp only [LossReason.setsFree_iff]
    rfl

/-! ### The timers of a consumer entry (R68, R98) -/

theorem State.awake_of {s : State} (h : s.port.inReset = false) (f : State → State) : s.awake f = f s :=
  if_neg (by rw [h]; decide)

section
variable {i : EntryIx} {c : Consumer} {s : State} (h : s.port.inReset = false) (he : s.entry i = some (.consumer c))
include h he

theorem exec_receptionTimerExpiry_runs {due : Micros} (ht : c.timer = some due) (hr : c.state = .receiving)
    (hf : c.filling.isSome) : exec (.receptionTimerExpiry i) s = .next
      (({ s.reach due with streams := vput s.streams i (some (.consumer { c with timer := none })) } : State).unfinished i) := by
  change execReceptionTimerExpiry i s = _
  unfold execReceptionTimerExpiry
  rw [State.awake_of h, State.consumer_of he]
  dsimp only
  rw [ht]
  dsimp only
  rw [if_pos ⟨hr, hf⟩, State.modConsumer_of (c := c) (by exact he)]
  rfl

theorem exec_receptionTimerExpiry_idle (idle : c.timer = none ∨ c.state ≠ .receiving ∨ c.filling = none) :
    exec (.receptionTimerExpiry i) s = .next s := by
  change execReceptionTimerExpiry i s = _
  unfold execReceptionTimerExpiry
  rw [State.awake_of h, State.consumer_of he]
  dsimp only
  split
  · next due ht =>
    have other : c.state ≠ .receiving ∨ c.filling = none := idle.resolve_left (by simp [ht])
    rw [if_neg fun ⟨hr, hf⟩ => other.elim (· hr) fun none => by simp [none] at hf]
  · rfl

theorem exec_joinWaitExpiry_runs {due : Micros} (ht : c.timer = some due) (hj : c.state = .joining) :
    exec (.joinWaitExpiry i) s = .next ((s.reach due).joinExpired i c) := by
  change execJoinWaitExpiry i s = _
  unfold execJoinWaitExpiry
  rw [State.awake_of h, State.consumer_of he]
  dsimp only
  rw [ht]
  exact congrArg Host.Outcome.next (if_pos hj)

theorem exec_joinWaitExpiry_idle (idle : c.timer = none ∨ c.state ≠ .joining) : exec (.joinWaitExpiry i) s = .next s := by
  change execJoinWaitExpiry i s = _
  unfold execJoinWaitExpiry
  rw [State.awake_of h, State.consumer_of he]
  dsimp only
  split
  · next due ht => rw [if_neg (idle.resolve_left (by simp [ht]))]
  · rfl

end

theorem State.joinExpired_again {s : State} {i : EntryIx} {c : Consumer} (he : s.entry i = some (.consumer c))
    (ht : c.joinTries < 3) : s.joinExpired i c =
      { s with streams := vput s.streams i (some (.consumer { c with timer := none, take := true })) } := by
  unfold State.joinExpired
  rw [if_pos (show _ < Config.joinTriesMax from ht), State.modConsumer_of he, State.setTake_of (State.entry_of_streams rfl)]
  simp only [vput_vput]

theorem State.joinExpired_fails {s : State} {i : EntryIx} {c : Consumer} (he : s.entry i = some (.consumer c))
    (hn : s.holdsNone i) (ht : 3 ≤ c.joinTries) : s.joinExpired i c =
      ({ s.freeRef c.filling with streams := vput s.streams i (some (.consumer { c with
        filling := none, timer := none, take := false, gap := none, free := none, state := .expelled })) } : State).insertEvent
          (.joinFailed c.stream c.producer .noAnswer) := by
  unfold State.joinExpired
  rw [if_neg (Nat.not_lt.2 (show Config.joinTriesMax ≤ _ from ht)), State.expel_of he hn]

/-- Settles O58: each row while its timer runs in its state, and otherwise. -/
theorem consumerTimersExpire : Obligations.ConsumerTimersExpire := by
  intro i c s h he put
  refine ⟨fun due runs => ⟨fun hr hf => ?_, fun hj ht => ?_, fun hj ht hn => ?_⟩, exec_receptionTimerExpiry_idle h he,
    exec_joinWaitExpiry_idle h he⟩
  · exact exec_receptionTimerExpiry_runs h he runs hr hf
  · rw [exec_joinWaitExpiry_runs h he runs hj, State.joinExpired_again (s := s.reach due) he ht]
  · rw [exec_joinWaitExpiry_runs h he runs hj, State.joinExpired_fails (s := s.reach due) he hn ht, State.freeRef_eq]

end Sys2Proof.Machine
end

section
/-! SUPPORT. ACQUIRE and RELEASE: the READY page becomes HELD, the HELD page is released (chapter 4). -/

namespace Sys2Proof.Machine

/-! ### The value words of the answers (11.3) -/

/-- A slot number in the low byte, or 32 for none, and a page number in the high half. -/
theorem slotAndPage_some {n : Nat} (h : n < 2 ^ 8) (page : PageNum) :
    slotAndPage n (some page) = BitVec.ofNat 32 n ||| page.setWidth 32 <<< 16 := by
  rw [slotAndPage, wordOf_pair, placed_low 8 n h, pageAt, Option.getD_some, placed_high]

theorem slotAndPage_slot (n : SlotNum) (page : PageNum) :
    slotAndPage n.val (some page) = BitVec.ofNat 32 n.val ||| page.setWidth 32 <<< 16 :=
  slotAndPage_some (Nat.lt_trans n.isLt (by decide)) page

theorem slotAndPage_noRef (s : State) : slotAndPage (numberOr32 none) (s.pageOfRef none) = 32 := by
  rw [State.pageOfRef, Option.bind_none]
  decide

/-- Two halves in a word. -/
theorem wordOf_halves {low : Nat} (h : low < 2 ^ 16) (high : Half) :
    wordOf [placed 0 16 low, placed 16 16 high.toNat] = BitVec.ofNat 32 low ||| high.setWidth 32 <<< 16 := by
  rw [wordOf_pair, placed_low 16 low h, placed_high]

theorem placed_highHalf (high : Half) : placed 16 16 high.toNat = BitVec.ofNat 32 0 ||| high.setWidth 32 <<< 16 := by
  rw [placed_high, BitVec.zero_or]

/-! ### ACQUIRE (R78, R79) -/

/-- The entry whose READY slot `n` has become HELD (R79). -/
def Consumer.acquired (c : Consumer) (n : SlotNum) : Consumer :=
  { c with
    ready := none
    held := some n
    earlier := ⟨false, c.earlier.ready, c.earlier.released⟩
    skipCount := 0
    readyNotified := false }

theorem State.acquireReady_of {s : State} {i : EntryIx} {c : Consumer} (he : s.entry i = some (.consumer c)) {n : SlotNum}
    {j : EntryIx} {page : PageNum} {len : Nat} (hs : s.slot n = .ready j page len) (hl : len ≤ 4096) :
    s.acquireReady i c n =
      (({ s.freeRef c.held with streams := vput s.streams i (some (.consumer (c.acquired n))) } : State).changeSlot n
          (.held j page len),
        .of .ok (BitVec.ofNat 32 n.val ||| page.setWidth 32 <<< 16)
          (BitVec.ofNat 32 len ||| c.skipCount.setWidth 32 <<< 16)) := by
  have fits : len < 2 ^ 16 := by omega
  unfold State.acquireReady
  dsimp only
  rw [hs, State.freeRef_eq, State.modConsumer_of (c := c) (by exact he)]
  simp only [Slot.page?, Slot.len?, Slot.toHeld, Option.getD_some, slotAndPage_slot, wordOf_halves fits]
  rfl

section
variable {s : State} {b : Byte} {id : StreamId} {i : EntryIx} {c : Consumer} (hu : s.presence.state ≠ .unconfigured)
  (hb : b.toNat = id.toNat) (hid : id ≠ 0) (hf : s.findStream id = some i) (he : s.entry i = some (.consumer c))
include hu hb hid hf he

section
variable {selector : Nat} (hsel : selector ≤ 1)
include hsel

theorem State.cmdAcquire_noReady (hr : c.ready = none) : s.cmdAcquire b.toNat selector =
    ({ s with streams := vput s.streams i (some (.consumer { c with readyNotified := false })) },
      .of .noNewer (slotAndPage (numberOr32 c.held) (s.pageOfRef c.held)) (placed 16 16 c.skipCount.toNat)) := by
  unfold State.cmdAcquire
  rw [if_neg fun k => hu (s.isUnconfigured_iff.1 k), if_neg fun k => Nat.not_lt.2 hsel k.2,
    State.withConsumer_of hb hid hf he]
  split
  · rw [State.modConsumer_of he]
  · next n ready => exact absurd (hr.symm.trans ready) (by simp)

variable {n : SlotNum} (hr : c.ready = some n)
include hr

/-- Nothing is HELD, or the HELD page gives way. -/
theorem State.cmdAcquire_takes (hh : c.held = none ∨ c.mode = .freeRun ∧ selector = 0) :
    s.cmdAcquire b.toNat selector = s.acquireReady i c n := by
  unfold State.cmdAcquire
  rw [if_neg fun k => hu (s.isUnconfigured_iff.1 k), if_neg fun k => Nat.not_lt.2 hsel k.2,
    State.withConsumer_of hb hid hf he, hr]
  dsimp only
  split
  · next h held => rw [if_pos (hh.resolve_left (by simp [held]))]
  · rfl

theorem State.cmdAcquire_held {h : SlotNum} (hh : c.held = some h) (stays : ¬ (c.mode = .freeRun ∧ selector = 0)) :
    s.cmdAcquire b.toNat selector = (s, .of .held (slotAndPage h.val (s.slot h).page?)
      (wordOf [pageAt 0 (s.slot n).page?, placed 16 16 c.skipCount.toNat])) := by
  unfold State.cmdAcquire
  rw [if_neg fun k => hu (s.isUnconfigured_iff.1 k), if_neg fun k => Nat.not_lt.2 hsel k.2,
    State.withConsumer_of hb hid hf he, hr]
  dsimp only
  rw [hh]
  exact if_neg stays

end

/-! ### RELEASE (R80, R81) -/

theorem State.cmdRelease_none (hh : c.held = none) : s.cmdRelease b.toNat = s.refuse .badState := by
  unfold State.cmdRelease
  rw [if_neg fun k => hu (s.isUnconfigured_iff.1 k), State.withConsumer_of hb hid hf he, hh]

end

/-- The entry whose HELD page has been released (R80). -/
def Consumer.releasedPage (c : Consumer) (page : PageNum) : Consumer :=
  { c with held := none, lastReleased := some page, earlier := ⟨c.earlier.ready, false, c.earlier.held⟩ }

/-- RELEASE of page `page` sets FREE pending (R81). -/
def Consumer.releaseSetsFree (c : Consumer) (page : PageNum) : Prop :=
  c.mode = .lockStep ∧ c.state = .receiving ∧ c.lastCompleted = some page ∧ c.earlier.held = false

/-- The HELD slot `n` freed and the page released, with `free` for the entry's FREE. -/
def State.releasedHeld (s : State) (i : EntryIx) (c : Consumer) (n : SlotNum) (page : PageNum) (free : Option (PageNum × Bool)) :
    State :=
  { s.freeSlot n with streams := vput s.streams i (some (.consumer { c.releasedPage page with free := free })) }

section
variable {s : State} {b : Byte} {id : StreamId} {i : EntryIx} {c : Consumer} (hu : s.presence.state ≠ .unconfigured)
  (hb : b.toNat = id.toNat) (hid : id ≠ 0) (hf : s.findStream id = some i) (he : s.entry i = some (.consumer c))
  {n : SlotNum} (hh : c.held = some n) {j : EntryIx} {page : PageNum} {len : Nat} (hs : s.slot n = .held j page len)
include hu hb hid hf he hh hs

theorem State.cmdRelease_plain (no : ¬ c.releaseSetsFree page) : s.cmdRelease b.toNat =
    (s.releasedHeld i c n page c.free, .of .ok (BitVec.ofNat 32 n.val ||| page.setWidth 32 <<< 16) 0) := by
  unfold State.cmdRelease
  rw [if_neg fun k => hu (s.isUnconfigured_iff.1 k), State.withConsumer_of hb hid hf he, hh]
  dsimp only
  rw [hs, State.modConsumer_of (s := s.freeSlot n) he]
  dsimp only [Slot.page?]
  rw [if_neg (by exact no), slotAndPage_slot]
  rfl

theorem State.cmdRelease_setsFree (yes : c.releaseSetsFree page) : s.cmdRelease b.toNat =
    ((s.releasedHeld i c n page (some (page, false))).contentReplaced (.free i) (.free id s.presence.station page false),
      .of .ok (BitVec.ofNat 32 n.val ||| page.setWidth 32 <<< 16) 1) := by
  obtain rfl : c.stream = id := (State.streamOf_of he).symm.trans (State.streamOf_found hf)
  unfold State.cmdRelease
  rw [if_neg fun k => hu (s.isUnconfigured_iff.1 k), State.withConsumer_of hb hid hf he, hh]
  dsimp only
  rw [hs, State.modConsumer_of (s := s.freeSlot n) he]
  dsimp only [Slot.page?]
  rw [if_pos (by exact yes), slotAndPage_slot, State.setFree, State.modConsumer_of (State.entry_of_streams rfl),
    State.streamOf_of (State.entry_of_streams rfl)]
  simp only [vput_vput]
  rfl

end

/-- An attempt of the element is on the line only with its source in a holding frame that is past HELD (R138). -/
theorem State.contentReplaced_idle {s : State} {src : FrameSource}
    (h : ∀ x, s.link.holding = some x → x.source ≠ src ∨ x.phase = .held) (f : Frame) : s.contentReplaced src f = s := by
  unfold State.contentReplaced
  split
  · next x hx => exact if_neg fun ⟨own, _, driven⟩ => (h x hx).elim (· own) driven
  · rfl

/-- Settles O31: ACQUIRE by what is READY and HELD. -/
theorem acquireHoldsTheReadyPage : Obligations.AcquireHoldsTheReadyPage := by
  intro tag b sel id i c s hs hu hb hid hsel hf he go slotPage pair with' taken
  have takes {n : SlotNum} (hr : c.ready = some n) (hh : c.held = none ∨ c.mode = .freeRun ∧ sel.toNat = 0) :
      go = .next (State.finish tag 13 (s.accepted.acquireReady i c n)) := by
    show exec _ s = _
    rw [exec_acquire hs, State.cmdAcquire_takes (s := s.accepted) hu hb hid hf he hsel hr hh]
  refine ⟨fun hr hh => ?_, fun h j page len hr hh slot => ?_,
    fun n j page len hr slot hl => ⟨fun hh => ?_, fun h hh other hm newest => ?_, fun h k q m hh held stays => ?_⟩⟩
  · show exec _ s = _
    rw [exec_acquire hs, State.cmdAcquire_noReady (s := s.accepted) hu hb hid hf he hsel hr, hh, State.finish_of,
      placed_highHalf, slotAndPage_noRef]
    rfl
  · show exec _ s = _
    rw [exec_acquire hs, State.cmdAcquire_noReady (s := s.accepted) hu hb hid hf he hsel hr, hh, State.finish_of,
      placed_highHalf, State.pageOfRef, Option.bind_some, State.accepted_slot, slot]
    exact congrArg (fun w => Host.Outcome.next (State.respond _ tag 13 .noNewer w _)) (slotAndPage_slot h page)
  · rw [takes hr (.inl hh), State.acquireReady_of (s := s.accepted) he slot hl, hh, State.finish_of]
    rfl
  · rw [takes hr (.inr ⟨hm, by rw [newest]; rfl⟩), State.acquireReady_of (s := s.accepted) he slot hl, hh, State.finish_of]
    rfl
  · have keeps : ¬ (c.mode = .freeRun ∧ sel.toNat = 0) := by
      rintro ⟨hm, zero⟩
      rcases stays with lock | one
      · simp [lock] at hm
      · simp [one] at zero
    show exec _ s = _
    rw [exec_acquire hs, State.cmdAcquire_held (s := s.accepted) hu hb hid hf he hsel hr hh keeps, State.finish_of,
      State.accepted_slot, State.accepted_slot, slot, held]
    dsimp only [Slot.page?]
    rw [slotAndPage_slot, pageAt, Option.getD_some, wordOf_halves page.isLt]

/-- Settles O32: RELEASE with nothing HELD, without and with FREE. -/
theorem releaseFreesTheHeldPage : Obligations.ReleaseFreesTheHeldPage := by
  intro tag b id i c s hs hu hb hid hf he go sets next slotPage
  refine ⟨fun hh => ?_, fun n j page len hh slot => ⟨fun no => ?_, fun yes => ?_, fun idle x => ?_⟩⟩
  · show exec _ s = _
    rw [exec_release hs, State.cmdRelease_none (s := s.accepted) hu hb hid hf he hh, State.finish_refuse]
  · show exec _ s = _
    rw [exec_release hs, State.cmdRelease_plain (s := s.accepted) hu hb hid hf he hh slot no, State.finish_of]
    rfl
  · show exec _ s = _
    rw [exec_release hs, State.cmdRelease_setsFree (s := s.accepted) hu hb hid hf he hh slot yes, State.finish_of]
    rfl
  · exact State.contentReplaced_idle (s := next n page x) idle _

end Sys2Proof.Machine
end

section
/-! SUPPORT. Received frames: how a frame reaches its block, and the range checks of each kind (R61, R172). -/

namespace Sys2Proof.Machine

/-! ### A frame on a station that hears the line (R144) -/

/-- A frame that passes its range checks is counted and taken by its block. -/
theorem State.receive_ok {s : State} (h : s.hearing) (take : State → State) : s.receive true take = take s.heard := by
  obtain ⟨out, quiet, configured⟩ := h
  unfold State.receive State.awake
  dsimp only
  rw [if_neg (by rw [out]; decide), if_neg (by rw [quiet]; decide)]
  exact if_neg configured

/-- A frame that fails them is counted twice and goes no further. -/
theorem State.receive_bad {s : State} (h : s.hearing) (take : State → State) :
    s.receive false take = s.heard.countCheckFailure := by
  obtain ⟨out, quiet, configured⟩ := h
  unfold State.receive State.awake
  dsimp only
  rw [if_neg (by rw [out]; decide), if_neg (by rw [quiet]; decide)]
  exact if_neg configured

/-! ### The ranges of single fields -/

theorem stationOf?_above {b : Byte} (h : 31 < b.toNat) : stationOf? b = none := dif_neg (by omega)

theorem closeKind?_above {b : Byte} (h : 2 < b.toNat) : closeKind? b = none := by
  have ne : ∀ k : Byte, k.toNat ≤ 2 → b ≠ k := fun k hk e => by rw [e] at h; omega
  rw [closeKind?, if_neg (ne 0 (by decide)), if_neg (ne 1 (by decide)), if_neg (ne 2 (by decide))]

theorem admitResult?_above {b : Byte} (h : 2 < b.toNat) (first : PageNum) : admitResult? b first = none := by
  have ne : ∀ k : Byte, k.toNat ≤ 2 → b ≠ k := fun k hk e => by rw [e] at h; omega
  rw [admitResult?, if_neg (ne 0 (by decide)), if_neg (ne 1 (by decide)), if_neg (ne 2 (by decide))]

theorem cutReason?_above {b : Byte} (h : 1 < b.toNat) : cutReason? b = none := by
  have ne : ∀ k : Byte, k.toNat ≤ 1 → b ≠ k := fun k hk e => by rw [e] at h; omega
  rw [cutReason?, if_neg (ne 0 (by decide)), if_neg (ne 1 (by decide))]

theorem strictlyRising_iff (l : List Nat) : strictlyRising l = true ↔ l.Pairwise (· < ·) := by
  induction l with
  | nil => simp [strictlyRising]
  | cons a l ih =>
    cases l with
    | nil => simp [strictlyRising]
    | cons b l =>
      rw [strictlyRising, Bool.and_eq_true, decide_eq_true_iff, ih]
      refine ⟨fun ⟨first, rest⟩ => List.pairwise_cons.2 ⟨fun x hx => ?_, rest⟩, fun h => ?_⟩
      · rcases List.mem_cons.1 hx with rfl | hx
        · exact first
        · exact Nat.lt_trans first (List.rel_of_pairwise_cons rest hx)
      · exact ⟨List.rel_of_pairwise_cons h List.mem_cons_self, h.of_cons⟩

/-- Numbers read off a list that stand in strictly ascending order. -/
theorem strictlyRising_map_iff {α : Type} (f : α → Nat) (l : List α) :
    strictlyRising (l.map f) = true ↔ l.Pairwise fun a b => f a < f b := by
  rw [strictlyRising_iff, List.pairwise_map]

/-! ### What passes the checks of each kind -/

section
variable {z : BitVec 1} {id : StreamId}

theorem closeOk_iff {len : Nat} {kind : Byte} :
    closeOk z id len kind = true ↔ z = 0 ∧ id ≠ 0 ∧ len ≤ 4096 ∧ (closeKind? kind).isSome := by
  simp [closeOk, Config.slotBytes, and_assoc]

theorem segOk_iff {k n len bytes : Nat} : segOk z id k n len bytes = true ↔
    z = 0 ∧ id ≠ 0 ∧ 1 ≤ len ∧ len ≤ 4096 ∧ n = (len + 127) / 128 ∧ k < n ∧ bytes = min 128 (len - 128 * k) := by
  simp [segOk, segmentCount, segmentLength, Config.slotBytes, Config.segmentBytes, and_assoc]

theorem admitOk_iff {target result : Byte} : admitOk z id target result = true ↔
    z = 0 ∧ id ≠ 0 ∧ (stationOf? target).isSome ∧ (admitResult? result 0).isSome := by
  simp [admitOk, and_assoc]

theorem cutOk_iff {target reason : Byte} : cutOk z id target reason = true ↔
    z = 0 ∧ id ≠ 0 ∧ (stationOf? target).isSome ∧ (cutReason? reason).isSome := by
  simp [cutOk, and_assoc]

theorem goneOk_iff : goneOk z id = true ↔ z = 0 ∧ id ≠ 0 := by
  simp [goneOk]

theorem stationFrameOk_iff {station : Byte} :
    stationFrameOk z id station = true ↔ z = 0 ∧ id ≠ 0 ∧ (stationOf? station).isSome := by
  simp [stationFrameOk, and_assoc]

theorem promptOk_iff {stations : List Byte} : promptOk z id stations = true ↔
    z = 0 ∧ id ≠ 0 ∧ 1 ≤ stations.length ∧ stations.length ≤ 8 ∧ (∀ b ∈ stations, (stationOf? b).isSome) ∧
      stations.Pairwise fun a b => a.toNat < b.toNat := by
  simp [promptOk, strictlyRising_map_iff, and_assoc]

theorem gapOk_iff {station : Byte} {segments : List Byte} : gapOk z id station segments = true ↔
    stationFrameOk z id station = true ∧ segments.length ≤ 32 ∧ (∀ b ∈ segments, b.toNat < 32) ∧
      segments.Pairwise fun a b => a.toNat < b.toNat := by
  simp [gapOk, strictlyRising_map_iff, and_assoc]

end

theorem rollOk_iff {z : BitVec 2} {claims : List RawClaim} : rollOk z claims = true ↔
    z = 0 ∧ claims.length ≤ 8 ∧ (∀ c ∈ claims, c.stream ≠ 0) ∧ claims.Pairwise fun a b => a.stream.toNat < b.stream.toNat := by
  simp [rollOk, strictlyRising_map_iff, and_assoc]

theorem noteOk_iff {src : Station} {all : Bool} {z : BitVec 1} {target : BitVec 5} {source : Byte} :
    noteOk src all z target source = true ↔ z = 0 ∧ (all = true → target = 0) ∧ source.toNat = src.val := by
  cases all <;> simp [noteOk, and_assoc]

/-- Settles O43: whatever fails a check of `segOk` to `noteOk` is received as a bad frame. -/
theorem framesOutOfRangeAreCounted : Obligations.FramesOutOfRangeAreCounted := by
  intro src z id page first k n target code kind len check payload bytes claims lost all z2 t5 s h failed bad
  have fails {ok : Bool} {p : Prop} (iff : ok = true ↔ p) (no : ¬ p) (take : State → State) :
      Host.Outcome.next (s.receive ok take) = (.next failed : Host.Outcome State Fault Refusal) := by
    rw [Bool.eq_false_iff.2 fun e => no (iff.1 e), State.receive_bad h]
    rfl
  have head {z : BitVec 1} (no : z ≠ 0 ∨ id = 0) : ¬ (z = 0 ∧ id ≠ 0) := fun ⟨hz, hid⟩ => no.elim (· hz) hid
  have above (far : 31 < target.toNat) : ¬ (stationOf? target).isSome = true := by simp [stationOf?_above far]
  refine ⟨fun no => ⟨?_, ?_, ?_, ?_, ?_, ?_, ?_, ?_, ?_⟩, fun no => ?_, fun far => ⟨?_, ?_, ?_, ?_, ?_, ?_⟩, fun far => ?_,
    fun far => ?_, fun no => ?_, fun no => ?_, fun no => ?_, fun no => ?_, fun no => ?_, fun no => ?_⟩
  -- a zero bit that is set, or stream 0
  · exact fails segOk_iff (fun ⟨hz, hid, _⟩ => head no ⟨hz, hid⟩) _
  · exact fails closeOk_iff (fun ⟨hz, hid, _⟩ => head no ⟨hz, hid⟩) _
  · exact fails admitOk_iff (fun ⟨hz, hid, _⟩ => head no ⟨hz, hid⟩) _
  · exact fails cutOk_iff (fun ⟨hz, hid, _⟩ => head no ⟨hz, hid⟩) _
  · exact fails promptOk_iff (fun ⟨hz, hid, _⟩ => head no ⟨hz, hid⟩) _
  · exact fails goneOk_iff (head no) _
  · exact fails stationFrameOk_iff (fun ⟨hz, hid, _⟩ => head no ⟨hz, hid⟩) _
  · exact fails stationFrameOk_iff (fun ⟨hz, hid, _⟩ => head no ⟨hz, hid⟩) _
  · refine fails gapOk_iff (fun ⟨key, _⟩ => ?_) _
    obtain ⟨hz, hid, _⟩ := stationFrameOk_iff.1 key
    exact head no ⟨hz, hid⟩
  · exact fails stationFrameOk_iff (fun ⟨_, hid, _⟩ => hid no) _
  -- a station or target above 31
  · exact fails admitOk_iff (fun ⟨_, _, ok, _⟩ => above far ok) _
  · exact fails cutOk_iff (fun ⟨_, _, ok, _⟩ => above far ok) _
  · exact fails stationFrameOk_iff (fun ⟨_, _, ok⟩ => above far ok) _
  · exact fails stationFrameOk_iff (fun ⟨_, _, ok⟩ => above far ok) _
  · exact fails stationFrameOk_iff (fun ⟨_, _, ok⟩ => above far ok) _
  · refine fails gapOk_iff (fun ⟨key, _⟩ => ?_) _
    obtain ⟨_, _, ok⟩ := stationFrameOk_iff.1 key
    exact above far ok
  -- codes, lengths and lists
  · exact fails admitOk_iff (fun ⟨_, _, _, ok⟩ => by simp [admitResult?_above far] at ok) _
  · exact fails cutOk_iff (fun ⟨_, _, _, ok⟩ => by simp [cutReason?_above far] at ok) _
  · refine fails closeOk_iff (fun ⟨_, _, short, ok⟩ => no.elim (by omega) fun far => ?_) _
    simp [closeKind?_above far] at ok
  · refine fails segOk_iff (fun ⟨_, _, long, short, count, number, bytes⟩ => ?_) _
    rcases no with zero | far | other | far | other
    · simp [zero] at long
    · omega
    · exact other count
    · omega
    · exact other bytes
  · refine fails promptOk_iff (fun ⟨_, _, any, few, stations, rising⟩ => ?_) _
    rcases no with none | many | ⟨b, hb, far⟩ | other
    · simp [none] at any
    · omega
    · simpa [stationOf?_above far] using stations b hb
    · exact other rising
  · refine fails gapOk_iff (fun ⟨_, few, numbers, rising⟩ => ?_) _
    rcases no with many | ⟨b, hb, far⟩ | other
    · omega
    · exact absurd (numbers b hb) (by omega)
    · exact other rising
  · refine fails rollOk_iff (fun ⟨hz, few, streams, rising⟩ => ?_) _
    rcases no with set | many | ⟨c, hc, zero⟩ | other
    · exact set hz
    · omega
    · exact streams c hc zero
    · exact other rising
  · refine fails noteOk_iff (fun ⟨hz, bits, own⟩ => ?_) _
    rcases no with set | ⟨toAll, bit⟩ | other
    · exact set hz
    · exact bit (bits toAll)
    · exact other own

end Sys2Proof.Machine
end

section
/-! SUPPORT. SEG frames: which the entry hears, where a segment is written, and what a page takes that is new to the entry
(chapter 4). -/

namespace Sys2Proof.Machine

/-! ### What an entry hears (R63, R31) -/

theorem newerThan_iff (page : PageNum) (field : Option PageNum) :
    newerThan page field = true ↔ ∀ q, field = some q → isNewer page q = true := by
  cases field <;> simp [newerThan]

theorem isNewer_irrefl (page : PageNum) : isNewer page page = false := by
  simp [isNewer]

theorem notOlderThan_iff (page : PageNum) (field : Option PageNum) :
    notOlderThan page field = true ↔ ¬ ∃ q, field = some q ∧ isOlder page q = true := by
  cases field <;> simp [notOlderThan]

theorem Consumer.hears_iff (c : Consumer) (src : Station) (page : PageNum) : c.hears src page = true ↔
    c.state = .receiving ∧ c.producer = some src ∧
      ¬ (c.mode = .lockStep ∧ ∃ q, c.firstAdmitted = some q ∧ isOlder page q = true) := by
  unfold Consumer.hears
  rw [Bool.and_eq_true, Bool.and_eq_true, Bool.or_eq_true, decide_eq_true_iff, decide_eq_true_iff, decide_eq_true_iff,
    notOlderThan_iff, and_assoc]
  cases c.mode <;> simp

theorem State.forConsumer_of {s : State} {id : StreamId} {i : EntryIx} {c : Consumer} (hf : s.findStream id = some i)
    (he : s.entry i = some (.consumer c)) (f : EntryIx → Consumer → State) : s.forConsumer id f = f i c := by
  unfold State.forConsumer
  rw [hf]
  dsimp only
  rw [State.consumer_of he]

/-! ### What a loss leaves alone -/

/-- The slots, the Time Base and the Presence Unit, which a loss leaves alone. -/
def State.apartFromEntries (s : State) : SlotManager × Micros × Presence := (s.slots, s.time, s.presence)

theorem State.insertEvent_apart (s : State) (e : Event) : (s.insertEvent e).apartFromEntries = s.apartFromEntries := by
  rw [State.insertEvent_eq]
  rfl

theorem State.modConsumer_apart (s : State) (i : EntryIx) (f : Consumer → Consumer) :
    (s.modConsumer i f).apartFromEntries = s.apartFromEntries := by
  unfold State.modConsumer
  split <;> rfl

theorem State.clearGap_apart (s : State) (i : EntryIx) : (s.clearGap i).apartFromEntries = s.apartFromEntries := by
  obtain ⟨l, h⟩ := (s.modConsumer i fun c => { c with gap := none }).sourceRemoved_eq (· == .gap i)
  unfold State.clearGap State.elementRemoved
  rw [h]
  exact State.modConsumer_apart ..

theorem State.contentReplaced_apart (s : State) (src : FrameSource) (f : Frame) :
    (s.contentReplaced src f).apartFromEntries = s.apartFromEntries := by
  unfold State.contentReplaced
  split
  · split <;> rfl
  · rfl

theorem State.setFree_apart (s : State) (i : EntryIx) (page : PageNum) (lost : Bool) :
    (s.setFree i page lost).apartFromEntries = s.apartFromEntries :=
  (State.contentReplaced_apart ..).trans (State.modConsumer_apart ..)

theorem State.pageLost_apart (s : State) (i : EntryIx) (page : PageNum) (slot : Option SlotNum) (r : LossReason) :
    (s.pageLost i page slot r).apartFromEntries = s.apartFromEntries := by
  unfold State.pageLost
  split
  · have told : ∀ (e : Event) f, ((s.insertEvent e).modConsumer i f).apartFromEntries = s.apartFromEntries := fun e f =>
      (State.modConsumer_apart ..).trans (s.insertEvent_apart e)
    dsimp only
    repeat' split
    all_goals simp only [State.setFree_apart, State.clearGap_apart, told]
  · rfl

theorem State.pageLost_slots (s : State) (i : EntryIx) (page : PageNum) (slot : Option SlotNum) (r : LossReason) :
    (s.pageLost i page slot r).slots = s.slots := congrArg Prod.fst (s.pageLost_apart i page slot r)

theorem State.receptionEnd_congr {s t : State} (h : t.apartFromEntries = s.apartFromEntries) : t.receptionEnd = s.receptionEnd := by
  have time : t.time = s.time := congrArg (·.2.1) h
  have presence : t.presence = s.presence := congrArg (·.2.2) h
  simp only [State.receptionEnd, State.wait, State.rollPeriod, time, presence]

/-! ### Claims of reception (R5, R64, R66) -/

/-- The head `m` of the free list granted to the entry for page `page`, with `rest` behind it. -/
def State.claimed (s : State) (i : EntryIx) (c : Consumer) (m : SlotNum) (rest : List SlotNum) (page : PageNum)
    (len : Option Nat) : State :=
  { s with
    slots := { s.slots with records := vput s.slots.records m (.filling i page len 0 0), free := rest }
    streams := vput s.streams i (some (.consumer { c with filling := some m })) }

theorem State.claimed_slot (s : State) (i : EntryIx) (c : Consumer) (m : SlotNum) (rest : List SlotNum) (page : PageNum)
    (len : Option Nat) : (s.claimed i c m rest page len).slot m = .filling i page len 0 0 := vput_get_same _ _ _

theorem State.claimed_entry (s : State) (i : EntryIx) (c : Consumer) (m : SlotNum) (rest : List SlotNum) (page : PageNum)
    (len : Option Nat) : (s.claimed i c m rest page len).entry i = some (.consumer { c with filling := some m }) :=
  State.entry_of_streams rfl

theorem State.claimFor_granted {s : State} {i : EntryIx} {c : Consumer} (he : s.entry i = some (.consumer c)) {m : SlotNum}
    {rest : List SlotNum} (hfree : s.slots.free = m :: rest) (page : PageNum) (len : Option Nat)
    (andThen : SlotNum → State → State) :
    s.claimFor i page len andThen = andThen m (s.claimed i c m rest page len) := by
  unfold State.claimFor SlotManager.grant
  rw [hfree]
  dsimp only
  rw [if_neg (by simp)]
  dsimp only
  rw [State.modConsumer_of (c := c) (by exact he)]
  rfl

theorem State.claimFor_refused {s : State} (hfree : s.slots.free = []) (i : EntryIx) (page : PageNum) (len : Option Nat)
    (andThen : SlotNum → State → State) : s.claimFor i page len andThen = s.pageLost i page none .noSlot := by
  unfold State.claimFor SlotManager.grant
  rw [hfree]

/-- The FILLING page gives way to a newer one in its slot (R67). -/
theorem State.supersede_of {s : State} {m : SlotNum} {o : EntryIx} {f : PageNum} {flen : Option Nat} {rcv : SegSet} {g : Nat}
    (hs : s.slot m = .filling o f flen rcv g) (i : EntryIx) (page : PageNum) (len : Nat) : s.supersede i m page len =
      (s.pageLost i f (some m) .superseded).changeSlot m (.filling i page (some len) 0 0) := by
  unfold State.supersede
  rw [hs]
  rfl

/-! ### Writing a segment (R10, R68, R83) -/

/-- Segment `k` written into slot `m`, whose record becomes `r`; a pending GAP no longer asks for it, and the reception timer
is armed. -/
def State.segWritten (s : State) (i : EntryIx) (c : Consumer) (m : SlotNum) (r : Slot) (k : Nat) (payload : List Byte) : State :=
  { s with
    slots := { s.slots with
      records := vput s.slots.records m r
      mem := memWriteList s.slots.mem (4096 * m.val + 128 * k) payload }
    streams := vput s.streams i (some (.consumer { c with
      filling := some m
      timer := some s.receptionEnd
      gap := c.gap.map fun g => (g.1, dropElem g.2 k) })) }

theorem addElem_empty (k : Nat) : addElem 0 k = Machine.setOf k := BitVec.zero_or

theorem State.writeSegment_of {s : State} {i : EntryIx} {c : Consumer} (he : s.entry i = some (.consumer c)) {m : SlotNum}
    (hf : c.filling = some m) {o : EntryIx} {page : PageNum} {flen : Option Nat} {rcv : SegSet} {g : Nat}
    (hs : s.slot m = .filling o page flen rcv g) (k len : Nat) (payload : List Byte) : s.writeSegment i m k len payload =
      s.segWritten i c m (.filling o page (some (flen.getD len)) (addElem rcv k) g) k payload := by
  have used : s.slot m ≠ .free := by simp [hs]
  have same : { c with filling := some m } = c := by rw [← hf]
  unfold State.writeSegment State.segWritten
  rw [hs]
  dsimp only
  rw [State.changeSlot_used used (by simp), State.modConsumer_of (c := c) (by exact he), slotAddr_eq, ← same]
  rfl

/-- The first segment of a page in a slot that was just claimed. -/
theorem State.writeSegment_claimed (s : State) (i : EntryIx) (c : Consumer) (m : SlotNum) (rest : List SlotNum) (page : PageNum)
    (k len : Nat) (payload : List Byte) : (s.claimed i c m rest page (some len)).writeSegment i m k len payload =
      ({ s with slots := { s.slots with free := rest } } : State).segWritten i c m (.filling i page (some len) (Machine.setOf k) 0)
        k payload := by
  rw [State.writeSegment_of (s.claimed_entry ..) rfl (s.claimed_slot ..), addElem_empty, Option.getD_some]
  unfold State.segWritten State.claimed
  simp only [vput_vput]
  rfl

/-- The first segment of a page in a slot that is reused for it. -/
theorem State.writeSegment_reused {s : State} {i : EntryIx} {c : Consumer} (he : s.entry i = some (.consumer c)) {m : SlotNum}
    (hf : c.filling = some m) (used : s.slot m ≠ .free) (page : PageNum) (k len : Nat) (payload : List Byte) :
    (s.changeSlot m (.filling i page (some len) 0 0)).writeSegment i m k len payload =
      s.segWritten i c m (.filling i page (some len) (Machine.setOf k) 0) k payload := by
  have slot : (s.changeSlot m (.filling i page (some len) 0 0)).slot m = .filling i page (some len) 0 0 := by
    rw [State.changeSlot_slot _ _ _ (by simp), if_pos ⟨rfl, used⟩]
  rw [State.writeSegment_of (c := c) (by exact he) hf slot, addElem_empty, Option.getD_some]
  rw [State.changeSlot_used used (by simp)]
  unfold State.segWritten
  simp only [vput_vput]
  rfl

/-- A segment whose page length is that of the slot passes the write checks (R10). -/
theorem writeChecks_agrees {z : BitVec 1} {id : StreamId} {k n len bytes : Nat} (h : segOk z id k n len bytes = true)
    {flen : Option Nat} (hl : flen.getD len = len) : writeChecks flen len n k bytes = true := by
  obtain ⟨_, _, _, _, rfl, number, rfl⟩ := segOk_iff.1 h
  simp only [writeChecks, hl, segmentCount, segmentLength, Config.segmentBytes, beq_self_eq_true, Bool.true_and, Bool.and_true]
  exact decide_eq_true number

theorem writeChecks_disagrees {l len : Nat} (h : l ≠ len) (n k bytes : Nat) : writeChecks (some l) len n k bytes = false := by
  simp [writeChecks, h.symm]

/-! ### A SEG that the entry hears (R64, R65, R67) -/

section
variable {s : State} {i : EntryIx} {c : Consumer} {page : PageNum} (k n len : Nat) (payload : List Byte)

theorem State.segForEntry_completed (hl : c.lastCompleted = some page) : s.segForEntry i c page k n len payload = s :=
  if_pos hl

variable (hl : c.lastCompleted ≠ some page)
include hl

theorem State.segForEntry_first (hf : c.filling = none) : s.segForEntry i c page k n len payload =
    if newerThan page c.lastCompleted then s.claimFor i page (some len) fun m t => t.writeSegment i m k len payload
    else s.countStale := by
  unfold State.segForEntry
  rw [if_neg hl, hf]

variable {m : SlotNum} (hf : c.filling = some m) {o : EntryIx} {f : PageNum} {flen : Option Nat} {rcv : SegSet} {g : Nat}
  (hs : s.slot m = .filling o f flen rcv g)
include hf hs

theorem State.segForEntry_same (same : page = f) : s.segForEntry i c page k n len payload =
    if hasElem rcv k then s
    else if writeChecks flen len n k payload.length then s.writeSegment i m k len payload
    else s.countStale := by
  unfold State.segForEntry
  rw [if_neg hl, hf]
  dsimp only
  rw [hs]
  exact if_pos same

theorem State.segForEntry_other (other : page ≠ f) : s.segForEntry i c page k n len payload =
    if isNewer page f ∧ newerThan page c.lastCompleted then (s.supersede i m page len).writeSegment i m k len payload
    else s.countStale := by
  unfold State.segForEntry
  rw [if_neg hl, hf]
  dsimp only
  rw [hs]
  exact if_neg other

end

/-- A SEG that passes its checks, for a consumer entry. -/
theorem exec_segFrame_of {s : State} (h : s.hearing) (hc : s.presence.state ≠ .conflict) {src : Station} {id : StreamId}
    {page : PageNum} {k n : Byte} {len : Half} {payload : List Byte}
    (hok : segOk 0 id k.toNat n.toNat len.toNat payload.length = true) {i : EntryIx} {c : Consumer}
    (hf : s.findStream id = some i) (he : s.entry i = some (.consumer c)) :
    exec (.segFrame src 0 id page k n len payload) s = .next (if c.hears src page then
      s.heard.segForEntry i c page k.toNat n.toNat len.toNat payload else s.heard.countStale) := by
  change execSegFrame src 0 id page k n len payload s = _
  unfold execSegFrame
  rw [hok, State.receive_ok h, State.takeSeg, if_neg (by exact hc), State.forConsumer_of (c := c) (by exact hf) (by exact he)]

/-- Settles O44: a SEG by whether the entry hears it, and then by its FILLING page. -/
theorem segmentsAreReceived : Obligations.SegmentsAreReceived := by
  intro src id page k n len payload i c s hh hc hok hf he go h stale old hears newer timer wrote
  have runs : go = _ := exec_segFrame_of (page := page) (src := src) hh hc hok hf he
  have heard : c.hears src page = true ↔ hears := c.hears_iff src page
  have isNew : newerThan page c.lastCompleted = true ↔ newer := newerThan_iff ..
  refine ⟨fun deaf => ?_, fun hears' hl => ?_, fun hears' hl none => ⟨fun new m rest hfree => ?_, fun new hfree => ?_,
    fun notNew => ?_⟩, fun m o f flen rcv g hears' hl fills hs => ⟨fun same dup => ?_, fun same new agrees => ?_,
    fun l same new known differs => ?_, fun newer' new d hd => ?_, fun other stays => ?_⟩⟩
  · rw [runs, if_neg (mt heard.1 deaf)]
    rfl
  · rw [runs, if_pos (heard.2 hears'), State.segForEntry_completed _ _ _ _ hl]
  · rw [runs, if_pos (heard.2 hears'), State.segForEntry_first _ _ _ _ hl none, if_pos (isNew.2 new),
      State.claimFor_granted (s := s.heard) he hfree, State.writeSegment_claimed]
    rfl
  · rw [runs, if_pos (heard.2 hears'), State.segForEntry_first _ _ _ _ hl none, if_pos (isNew.2 new),
      State.claimFor_refused (s := s.heard) hfree]
  · rw [runs, if_pos (heard.2 hears'), State.segForEntry_first _ _ _ _ hl none, if_neg (mt isNew.1 notNew)]
    rfl
  · rw [runs, if_pos (heard.2 hears'), State.segForEntry_same (s := s.heard) _ _ _ _ hl fills hs same, if_pos dup]
  · have length : flen.getD len.toNat = len.toNat := by rcases agrees with rfl | rfl <;> rfl
    rw [runs, if_pos (heard.2 hears'), State.segForEntry_same (s := s.heard) _ _ _ _ hl fills hs same,
      if_neg (by rw [new]; decide), if_pos (writeChecks_agrees hok length), State.writeSegment_of (s := s.heard) he fills hs,
      length]
    rfl
  · rw [runs, if_pos (heard.2 hears'), State.segForEntry_same (s := s.heard) _ _ _ _ hl fills hs same,
      if_neg (by rw [new]; decide), known, writeChecks_disagrees differs, if_neg Bool.false_ne_true]
    rfl
  · have other : page ≠ f := fun e => by simp [e, isNewer_irrefl] at newer'
    have lost := s.heard.pageLost_apart i f (some m) .superseded
    have used : (s.heard.pageLost i f (some m) .superseded).slot m ≠ .free := by
      rw [State.slot, State.pageLost_slots]
      exact fun free => absurd (hs.symm.trans free) (by simp)
    rw [runs, if_pos (heard.2 hears'), State.segForEntry_other (s := s.heard) _ _ _ _ hl fills hs other,
      if_pos ⟨newer', isNew.2 new⟩, State.supersede_of (s := s.heard) hs,
      State.writeSegment_reused (State.entry_of_consumer hd.1) hd.2 used, State.segWritten, State.receptionEnd_congr lost]
    rfl
  · rw [runs, if_pos (heard.2 hears'), State.segForEntry_other (s := s.heard) _ _ _ _ hl fills hs other, if_neg]
    · rfl
    · rintro ⟨newer', new⟩
      exact stays.elim (fun no => by simp [no] at newer') fun no => no (isNew.1 new)

end Sys2Proof.Machine
end

section
/-! SUPPORT. CLOSE frames: for the FILLING page, for a page new to the entry, and for a newer page than the FILLING one
(chapter 4). -/

namespace Sys2Proof.Machine

/-! ### The page check of a FILLING page (R71, R74) -/

/-- A record written over itself changes nothing. -/
theorem State.changeSlot_self {s : State} {m : SlotNum} {r : Slot} (h : s.slot m = r) : s.changeSlot m r = s := by
  unfold State.changeSlot SlotManager.change
  split
  · rfl
  · rw [vput_self _ _ _ h]

/-- The check of an empty page is 0. -/
theorem State.verifyPage_empty {len : Nat} (zero : len = 0) (s : State) (i : EntryIx) (m : SlotNum) (check : Word) :
    s.verifyPage i m len check = if check = 0 then s.completePage i else s.loseFilling i .check := by
  have none : pageCheck (s.slotBytes m 0) = 0 := by
    rw [State.slotBytes, memReadList]
    decide
  rw [State.verifyPage, zero, none]
  simp only [eq_comm]

section
variable {s : State} {m : SlotNum} {o : EntryIx} {f : PageNum} {flen : Option Nat} {rcv : SegSet} {g : Nat}
  (hs : s.slot m = .filling o f flen rcv g) (i : EntryIx) (check : Word)
include hs

/-- A CLOSE with another length than the slot's. -/
theorem State.closeFilling_differs {l len : Nat} (known : flen = some l) (h : l ≠ len) :
    s.closeFilling i m len check = s.loseFilling i .check := by
  unfold State.closeFilling
  rw [hs, known]
  exact if_pos h

/-- A CLOSE that gives the length, or agrees with it. -/
theorem State.closeFilling_agrees {len : Nat} (h : flen = none ∨ flen = some len) : s.closeFilling i m len check =
    if setMinus (setBelow ((len + 127) / 128)) rcv ≠ 0 then (s.changeSlot m (.filling o f (some len) rcv g)).unfinished i
    else (s.changeSlot m (.filling o f (some len) rcv g)).verifyPage i m len check := by
  have used : s.slot m ≠ .free := by simp [hs]
  have slot : (s.changeSlot m (.filling o f (some len) rcv g)).slot m = .filling o f (some len) rcv g := by
    rw [State.changeSlot_slot _ _ _ (by simp), if_pos ⟨rfl, used⟩]
  have split : s.closeFilling i m len check =
      if ((s.changeSlot m (.filling o f (some len) rcv g)).slot m).missing ≠ 0 then
        (s.changeSlot m (.filling o f (some len) rcv g)).unfinished i
      else (s.changeSlot m (.filling o f (some len) rcv g)).verifyPage i m len check := by
    unfold State.closeFilling
    rcases h with rfl | rfl
    · rw [hs]
    · rw [State.changeSlot_self hs, hs]
      exact if_neg fun differs => differs rfl
  rw [split, slot]
  rfl

end

/-! ### A page new to the entry (R74) -/

section
variable {s : State} {i : EntryIx} {c : Consumer} {page : PageNum} {len : Nat} (check : Word)

theorem State.closeNewer_empty (zero : len = 0) : s.closeNewer i c none page len check =
    s.claimFor i page (some len) fun m t => t.verifyPage i m len check := by
  subst zero
  rfl

theorem State.closeNewer_supersedes (zero : len = 0) (m : SlotNum) : s.closeNewer i c (some m) page len check =
    (s.supersede i m page 0).verifyPage i m 0 check := if_pos zero

/-- A LOCK_STEP entry with nothing FILLING asks for every segment. -/
theorem State.closeNewer_repairs (long : len ≠ 0) (hm : c.mode = .lockStep) :
    s.closeNewer i c none page len check = s.fullRepair i page (some len) := by
  unfold State.closeNewer
  rw [if_neg long, if_pos ⟨hm, rfl⟩]

/-- No slot is claimed for a FREE_RUN entry, or beside a FILLING page. -/
theorem State.closeNewer_stale (long : len ≠ 0) {filling : Option SlotNum} (h : c.mode = .freeRun ∨ filling ≠ none) :
    s.closeNewer i c filling page len check = s.countStale := by
  unfold State.closeNewer
  rw [if_neg long, if_neg]
  rintro ⟨hm, none⟩
  exact h.elim (fun free => by simp [free] at hm) (· none)

/-- An empty page, and any page of a LOCK_STEP entry, claims a slot. -/
theorem State.closeNewer_claims (h : len = 0 ∨ c.mode = .lockStep) :
    ∃ andThen, s.closeNewer i c none page len check = s.claimFor i page (some len) andThen := by
  by_cases zero : len = 0
  · exact ⟨_, State.closeNewer_empty check zero⟩
  · exact ⟨_, State.closeNewer_repairs check zero (h.resolve_left zero)⟩

end

theorem State.fullRepair_granted {s : State} {i : EntryIx} {c : Consumer} (he : s.entry i = some (.consumer c)) {m : SlotNum}
    {rest : List SlotNum} (hfree : s.slots.free = m :: rest) (page : PageNum) (len : Nat) :
    s.fullRepair i page (some len) =
      (s.claimed i c m rest page (some len)).setGap i page (setBelow ((len + 127) / 128)) := by
  have missing : (Slot.filling i page (some len) 0 0).missing = setBelow ((len + 127) / 128) := by
    show setMinus (setBelow ((len + 127) / 128)) 0 = _
    exact BitVec.and_allOnes
  rw [State.fullRepair, State.claimFor_granted he hfree,
    State.unfinished_asks (s.claimed_entry ..) rfl (s.claimed_slot ..) (by decide), missing]

/-! ### A CLOSE that the entry considers (R70) -/

section
variable {s : State} {i : EntryIx} {c : Consumer} {page : PageNum} {len : Nat} {kind : CloseKind} {check : Word}

theorem State.closeForEntry_vacant (hf : c.filling = none) : s.closeForEntry i c page len kind check =
    if kind ≠ .withdrawn ∧ newerThan page c.lastCompleted then s.closeNewer i c none page len check else s := by
  unfold State.closeForEntry
  rw [hf]

variable {m : SlotNum} (hf : c.filling = some m) {o : EntryIx} {f : PageNum} {flen : Option Nat} {rcv : SegSet} {g : Nat}
  (hs : s.slot m = .filling o f flen rcv g)
include hf hs

theorem State.closeForEntry_same (same : page = f) : s.closeForEntry i c page len kind check =
    if kind = .withdrawn then s.loseFilling i .withdrawn else s.closeFilling i m len check := by
  unfold State.closeForEntry
  rw [State.fillingPage_of hf hs, hf]
  exact if_pos same

theorem State.closeForEntry_other (other : page ≠ f) : s.closeForEntry i c page len kind check =
    if kind ≠ .withdrawn ∧ newerThan page c.lastCompleted ∧ isOlder f page then s.closeNewer i c (some m) page len check
    else s := by
  unfold State.closeForEntry
  rw [State.fillingPage_of hf hs, hf]
  exact if_neg other

end

theorem half_toNat_eq_zero (len : Half) : len.toNat = 0 ↔ len = 0 := (BitVec.toNat_eq (y := 0)).symm

theorem closeKind?_code (kind : CloseKind) : closeKind? (BitVec.ofNat 8 kind.code) = some kind := by
  cases kind <;> decide

/-- A CLOSE that passes its checks, for a consumer entry. -/
theorem exec_closeFrame_of {s : State} (h : s.hearing) (hc : s.presence.state ≠ .conflict) {id : StreamId} (hid : id ≠ 0)
    {len : Half} (hl : len.toNat ≤ 4096) {i : EntryIx} {c : Consumer} (hf : s.findStream id = some i)
    (he : s.entry i = some (.consumer c)) (src : Station) (page : PageNum) (kind : CloseKind) (check : Word) :
    exec (.closeFrame src 0 id page len (BitVec.ofNat 8 kind.code) check) s = .next (if c.hears src page then
      s.heard.closeForEntry i c page len.toNat kind check else s.heard) := by
  have code := closeKind?_code kind
  have ok : closeOk 0 id len.toNat (BitVec.ofNat 8 kind.code) = true := closeOk_iff.2 ⟨rfl, hid, hl, by rw [code]; rfl⟩
  change execCloseFrame src 0 id page len (BitVec.ofNat 8 kind.code) check s = _
  unfold execCloseFrame
  rw [ok, State.receive_ok h, code]
  dsimp only
  rw [State.takeClose, if_neg (by exact hc), State.forConsumer_of (c := c) (by exact hf) (by exact he)]

/-- Settles O45: a CLOSE that the entry considers by its FILLING page; then one that it does not, and one beside another
FILLING page. -/
theorem closesCompleteOrLosePages : Obligations.ClosesCompleteOrLosePages := by
  refine ⟨?_, ?_⟩
  · intro src id page len kind check i c s hh hc hid hl hf he hr hp current go h newer
    have considered : c.hears src page = true := (c.hears_iff src page).2 ⟨hr, hp, current⟩
    have runs : go = .next (h.closeForEntry i c page len.toNat kind check) :=
      (exec_closeFrame_of hh hc hid hl hf he src page kind check).trans (by rw [if_pos considered])
    have isNew : newerThan page c.lastCompleted = true ↔ newer := newerThan_iff ..
    refine ⟨fun m o flen rcv g fills hs => ?_, fun vacant loud new => ?_, fun vacant idle => ?_⟩
    · intro known whole bytes
      have same := State.closeForEntry_same (s := h) (i := i) (len := len.toNat) (kind := kind) (check := check) fills hs rfl
      have bytesOf : known.slotBytes m len.toNat = bytes := by
        rw [State.slotBytes_eq]
        exact congrArg (memReadList · _ _) (SlotManager.change_mem ..)
      refine ⟨fun w => ?_, fun loud => ⟨fun l given differs => ?_, fun agrees => ?_⟩⟩
      · rw [runs, same, if_pos w]
      · rw [runs, same, if_neg loud, State.closeFilling_differs (s := h) hs i check given differs]
      · have closed : go = .next (if ¬ whole then known.unfinished i else known.verifyPage i m len.toNat check) := by
          rw [runs, same, if_neg loud, State.closeFilling_agrees (s := h) hs i check agrees]
        refine ⟨fun part => ?_, fun all right => ?_, fun all wrong => ?_⟩
        · rw [closed, if_pos part]
        · rw [closed, if_neg (not_not.2 all), State.verifyPage, bytesOf, if_pos right]
        · rw [closed, if_neg (not_not.2 all), State.verifyPage, bytesOf, if_neg wrong]
    · have next : go = .next (h.closeNewer i c none page len.toNat check) := by
        rw [runs, State.closeForEntry_vacant vacant, if_pos ⟨loud, isNew.2 new⟩]
      have empty := half_toNat_eq_zero len
      refine ⟨fun m rest hfree claims => ?_, fun hfree claims => ?_, fun long free => ?_⟩
      · have grants := State.claimFor_granted (s := h) he hfree page
        refine ⟨fun zero right => ?_, fun zero wrong => ?_, fun long => ?_⟩
        · rw [next, State.closeNewer_empty check (empty.2 zero), grants, State.verifyPage_empty (empty.2 zero), if_pos right]
          rfl
        · rw [next, State.closeNewer_empty check (empty.2 zero), grants, State.verifyPage_empty (empty.2 zero), if_neg wrong]
          rfl
        · rw [next, State.closeNewer_repairs check (mt empty.1 long) (claims.resolve_left long),
            State.fullRepair_granted (s := h) he hfree]
          rfl
      · obtain ⟨andThen, claim⟩ := State.closeNewer_claims (s := h) (i := i) (page := page) (len := len.toNat) check
          (claims.imp_left empty.2)
        rw [next, claim, State.claimFor_refused (s := h) hfree]
      · rw [next, State.closeNewer_stale check (mt empty.1 long) (.inl free)]
        rfl
    · rw [runs, State.closeForEntry_vacant vacant, if_neg]
      rintro ⟨loud, new⟩
      exact idle.elim loud (· (isNew.1 new))
  · intro src id page len kind check i c s hh hc hid hl hf he go h old
    have runs : go = _ := exec_closeFrame_of hh hc hid hl hf he src page kind check
    have considers := c.hears_iff src page
    refine ⟨fun deaf => ?_, fun m o f flen rcv g hr hp current fills hs different => ?_⟩
    · have unheard : ¬ c.hears src page = true := fun hears => by
        obtain ⟨hr, hp, current⟩ := considers.1 hears
        exact deaf.elim (· hr) fun deaf => deaf.elim (· hp) current
      rw [runs, if_neg unheard]
    · intro super taken
      have empty := half_toNat_eq_zero len
      have other : go = .next (if taken then h.closeNewer i c (some m) page len.toNat check else h) := by
        rw [runs, if_pos (considers.2 ⟨hr, hp, current⟩), State.closeForEntry_other (s := h) fills hs different]
        simp only [newerThan_iff]
        rfl
      have beside (yes : taken) (zero : len = 0) : go = .next (super.verifyPage i m 0 check) := by
        rw [other, if_pos yes, State.closeNewer_supersedes check (empty.2 zero), State.supersede_of (s := h) hs]
      refine ⟨fun no => ?_, fun yes zero right => ?_, fun yes zero wrong => ?_, fun yes long => ?_⟩
      · rw [other, if_neg no]
      · rw [beside yes zero, State.verifyPage_empty rfl, if_pos right]
      · rw [beside yes zero, State.verifyPage_empty rfl, if_neg wrong]
      · rw [other, if_pos yes, State.closeNewer_stale check (mt empty.1 long) (.inr (by simp))]
        rfl

end Sys2Proof.Machine
end

section
/-! SUPPORT. GAP frames: for the RETAINED page, for the page in flight and for any other page of a producer entry
(chapter 5). -/

namespace Sys2Proof.Machine

/-! ### The GAP at a producer entry (R88) -/

/-- A GAP that passes its checks. -/
theorem exec_gapFrame_of {s : State} (h : s.hearing) {id : StreamId} {station : Byte} {segments : List Byte}
    (hok : gapOk 0 id station segments = true) (src : Station) (page : PageNum) :
    exec (.gapFrame src 0 id station page segments) s =
      .next (s.heard.takeGap id page (setOfList (segments.map BitVec.toNat))).settle := by
  change execGapFrame src 0 id station page segments s = _
  rw [execGapFrame, hok, State.receive_ok h]

/-- The entry has a pass in progress (R91). -/
theorem State.inPass_iff (s : State) (i : EntryIx) : s.inPass i = true ↔ ∃ ps, s.seg.pass = some ps ∧ ps.entry = i := by
  unfold State.inPass
  cases s.seg.pass <;> simp

theorem State.retainedPage_of {s : State} {p : Producer} {m : SlotNum} (hr : p.retained = some m) {j : EntryIx} {page : PageNum}
    {len : Nat} (hs : s.slot m = .retained j page len) : s.retainedPage p = some page := by
  rw [State.retainedPage, hr, Option.bind_some, hs]
  rfl

theorem State.retainedSegments_of {s : State} {p : Producer} {m : SlotNum} (hr : p.retained = some m) {j : EntryIx}
    {page : PageNum} {len : Nat} (hs : s.slot m = .retained j page len) : s.retainedSegments p = segmentCount len := by
  rw [State.retainedSegments, hr, Option.bind_some, hs]
  rfl

section
variable {s : State} {i : EntryIx} {p : Producer} (he : s.entry i = some (.producer p))
include he

theorem State.forProducer_of {id : StreamId} (hf : s.findStream id = some i) (ho : p.state = .opened)
    (hc : s.presence.state ≠ .conflict) (f : EntryIx → Producer → State) : s.forProducer id f = f i p := by
  unfold State.forProducer
  rw [hf]
  dsimp only
  rw [State.producer_of he]
  exact if_pos ⟨ho, hc⟩

/-! ### Which page the GAP names (R88) -/

section
variable {id : StreamId} (hf : s.findStream id = some i) (ho : p.state = .opened) (hc : s.presence.state ≠ .conflict)
  {page : PageNum} (want : SegSet)
include hf ho hc

theorem State.takeGap_retained {m : SlotNum} (hr : p.retained = some m) {j : EntryIx} {len : Nat}
    (hs : s.slot m = .retained j page len) :
    s.takeGap id page want = s.gapRetained i p page (want &&& setBelow ((len + 127) / 128)) := by
  rw [State.takeGap, State.forProducer_of he hf ho hc, if_pos (State.retainedPage_of hr hs), State.retainedSegments_of hr hs]
  rfl

theorem State.takeGap_sending (hr : s.retainedPage p ≠ some page) {f : Flight} (hfl : s.seg.flight = some f) (own : f.entry = i)
    (same : f.page = page) :
    s.takeGap id page want = s.gapSending i p page f.next (want &&& setBelow ((f.len + 127) / 128)) := by
  have flight : s.flightOf i = some f := by simp [State.flightOf, hfl, own]
  rw [State.takeGap, State.forProducer_of he hf ho hc, if_neg hr, flight]
  exact if_pos same

theorem State.takeGap_other (hr : s.retainedPage p ≠ some page) (hfl : ∀ f, s.seg.flight = some f → f.entry = i → f.page ≠ page) :
    s.takeGap id page want = s.placeGone i page := by
  rw [State.takeGap, State.forProducer_of he hf ho hc, if_neg hr]
  cases flight : s.flightOf i with
  | none => rfl
  | some f =>
    obtain ⟨found, own⟩ := Option.filter_eq_some_iff.1 flight
    exact if_neg (hfl f found (beq_iff_eq.1 own))

end

/-! ### The RETAINED page (R88, R92) -/

variable (page : PageNum) (want : SegSet)

/-- The number of the pass SEG that is offered does not join (R92). -/
theorem State.gapRetained_offered (hp : s.inPass i = true) {k : Nat} {before : Option Nat} {fr : Frame}
    (hof : s.seg.offered = some ⟨.passSeg k before, fr⟩) : s.gapRetained i p page want =
      { s with streams := vput s.streams i (some (.producer { p with repairSet := p.repairSet ||| (want &&& ~~~(1#32 <<< k)) })) } := by
  rw [State.gapRetained, if_pos hp, hof, State.modProducer_of he]
  rfl

theorem State.gapRetained_passing (hp : s.inPass i = true)
    (hof : ∀ k before fr, s.seg.offered ≠ some ⟨.passSeg k before, fr⟩) : s.gapRetained i p page want =
      { s with streams := vput s.streams i (some (.producer { p with repairSet := p.repairSet ||| want })) } := by
  have whole : setMinus want 0 = want := by
    show want &&& ~~~0#32 = want
    rw [BitVec.not_zero, BitVec.and_allOnes]
  rw [State.gapRetained, if_pos hp, State.modProducer_of he]
  split
  · rename_i found
    exact absurd found (hof _ _ _)
  · rw [whole]

omit he in
theorem State.gapRetained_used (hp : ¬ s.inPass i = true) (used : 2 ≤ p.repairPasses) :
    s.gapRetained i p page want = s.placeGone i page := by
  rw [State.gapRetained, if_neg hp]
  exact if_pos used

theorem State.gapRetained_joins (hp : ¬ s.inPass i = true) (left : p.repairPasses < 2)
    (tag : p.repairTag = none ∨ p.repairTag = some page) : s.gapRetained i p page want =
      { s with streams := vput s.streams i (some (.producer { p with
        repairSet := p.repairSet ||| want, repairTag := some page })) } := by
  rw [State.gapRetained, if_neg hp, if_neg (show ¬ Config.repairMax ≤ p.repairPasses from Nat.not_le.2 left), if_pos tag,
    State.modProducer_of he]

omit he in
theorem State.gapRetained_ignored (hp : ¬ s.inPass i = true) (left : p.repairPasses < 2)
    (tag : ¬ (p.repairTag = none ∨ p.repairTag = some page)) : s.gapRetained i p page want = s := by
  rw [State.gapRetained, if_neg hp, if_neg (show ¬ Config.repairMax ≤ p.repairPasses from Nat.not_le.2 left), if_neg tag]

/-! ### The page in flight (R90) -/

variable (next : Nat)

theorem State.gapSending_joins (some_join : want &&& setBelow next ≠ 0) (tag : p.repairTag = none ∨ p.repairTag = some page) :
    s.gapSending i p page next want = { s with streams := vput s.streams i (some (.producer { p with
      repairSet := p.repairSet ||| (want &&& setBelow next), repairTag := some page })) } := by
  rw [State.gapSending, if_pos ⟨tag, some_join⟩, State.modProducer_of he]

omit he in
theorem State.gapSending_ignored (no : want &&& setBelow next = 0 ∨ ¬ (p.repairTag = none ∨ p.repairTag = some page)) :
    s.gapSending i p page next want = s := by
  rw [State.gapSending, if_neg]
  rintro ⟨tag, some_join⟩
  exact no.elim some_join (· tag)

end

theorem tag_not_none_or_same {tag : Option PageNum} {q page : PageNum} (h : tag = some q) (other : q ≠ page) :
    ¬ (tag = none ∨ tag = some page) := by
  rintro (none | same)
  · exact absurd (h.symm.trans none) (by simp)
  · exact other (Option.some.inj (h.symm.trans same))

/-- Settles O51: a GAP by the page it names; for the RETAINED page by a pass in progress, the passes used and the tag, for
the page in flight by the numbers that join and the tag. -/
theorem gapsJoinTheRepairSet : Obligations.GapsJoinTheRepairSet := by
  intro src id station page segments i p s hh hc hok hf he ho hn go h put want earliest gone retained passing asked
  have runs : go = .next (h.takeGap id page want).settle := exec_gapFrame_of hh hok src page
  have entry : h.entry i = some (.producer p) := he
  have inPass : h.inPass i = true ↔ passing := h.inPass_iff i
  have places : h.placeGone i page = put { p with gones := gone } := State.placeGone_of entry hn page
  refine ⟨fun len ⟨m, j, hr, hs⟩ => ?_, fun f _ hr hfl own same => ?_, fun hr hfl => ?_⟩
  · rw [runs, State.takeGap_retained (s := h) entry hf ho hc want hr hs]
    refine ⟨fun k before fr pass hof => ?_, fun pass hof => ?_, fun idle used => ?_, fun idle left tag => ?_,
      fun q idle left tag other => ?_⟩
    · rw [State.gapRetained_offered entry page _ (inPass.2 pass) hof]
    · rw [State.gapRetained_passing entry page _ (inPass.2 pass) hof]
    · rw [State.gapRetained_used page _ (mt inPass.1 idle) used, places]
    · rw [State.gapRetained_joins entry page _ (mt inPass.1 idle) left tag]
    · rw [State.gapRetained_ignored page _ (mt inPass.1 idle) left (tag_not_none_or_same tag other)]
  · intro joined
    rw [runs, State.takeGap_sending (s := h) entry hf ho hc want hr hfl own same]
    refine ⟨fun some_join tag => ?_, fun none_join => ?_, fun q tag other => ?_⟩
    · rw [State.gapSending_joins entry page _ _ some_join tag]
    · rw [State.gapSending_ignored page _ _ (.inl none_join)]
    · rw [State.gapSending_ignored page _ _ (.inr (tag_not_none_or_same tag other))]
  · rw [runs, State.takeGap_other (s := h) entry hf ho hc want hr hfl, places]

end Sys2Proof.Machine
end

section
/-! SUPPORT. ADMIT and CUT frames at a consumer entry: it becomes a member, is turned away, or is cut (chapter 6). -/

namespace Sys2Proof.Machine

/-! ### The codes that pass the checks (11.1, R172) -/

theorem stationOf?_of {b : Byte} (h : b.toNat < 32) : stationOf? b = some ⟨b.toNat, h⟩ := dif_pos h

theorem admitResult?_upTo {b : Byte} (h : b.toNat ≤ 2) (first : PageNum) : ∃ r, admitResult? b first = some r := by
  have code : b = 0 ∨ b = 1 ∨ b = 2 := by bv_omega
  rcases code with rfl | rfl | rfl <;> exact ⟨_, rfl⟩

theorem cutReason?_upTo {b : Byte} (h : b.toNat ≤ 1) : ∃ r, cutReason? b = some r := by
  have code : b = 0 ∨ b = 1 := by bv_omega
  rcases code with rfl | rfl <;> exact ⟨_, rfl⟩

/-- Which result a code stands for does not depend on the first page number. -/
theorem admitResult?_isSome (b : Byte) (first other : PageNum) :
    (admitResult? b first).isSome = (admitResult? b other).isSome := by
  unfold admitResult?
  split_ifs <;> rfl

/-! ### The frames that pass the checks -/

section
variable {s : State} (h : s.hearing) {id : StreamId} (hid : id ≠ 0) {target : Byte} (ht : target.toNat < 32) (src : Station)
include h hid

/-- An ADMIT that passes its checks. -/
theorem exec_admitFrame_of {code : Byte} {first : PageNum} {r : AdmitResult} (hr : admitResult? code first = some r) :
    exec (.admitFrame src 0 id target code first) s = .next (s.heard.takeAdmit src id ⟨target.toNat, ht⟩ r) := by
  have station := stationOf?_of ht
  have ok : admitOk 0 id target code = true :=
    admitOk_iff.2 ⟨rfl, hid, by rw [station]; rfl, by rw [admitResult?_isSome code 0 first, hr]; rfl⟩
  change execAdmitFrame src 0 id target code first s = _
  rw [execAdmitFrame, ok, State.receive_ok h, station, hr]

/-- A CUT that passes its checks. -/
theorem exec_cutFrame_of {code : Byte} {r : CutReason} (hr : cutReason? code = some r) :
    exec (.cutFrame src 0 id target code) s = .next (s.heard.takeCut src id ⟨target.toNat, ht⟩ r) := by
  have station := stationOf?_of ht
  have ok : cutOk 0 id target code = true := cutOk_iff.2 ⟨rfl, hid, by rw [station]; rfl, by rw [hr]; rfl⟩
  change execCutFrame src 0 id target code s = _
  rw [execCutFrame, ok, State.receive_ok h, station, hr]

end

/-! ### What the entry makes of them (R99, R114, R26) -/

@[simp] theorem State.freeRef_streams (s : State) (r : Option SlotNum) : (s.freeRef r).streams = s.streams := by
  cases r <;> rfl

section
variable {s : State} {id : StreamId} {i : EntryIx} {c : Consumer} (hf : s.findStream id = some i)
  (he : s.entry i = some (.consumer c)) {src target : Station}
include hf he

theorem State.takeAdmit_accepted (hn : s.holdsNone i) (ours : c.state = .joining ∧ c.producer = some src ∧ target = s.own)
    (first : PageNum) : s.takeAdmit src id target (.accepted first) =
      ({ s with streams := vput s.streams i (some (.consumer { c with
        state := .receiving, firstAdmitted := some first, take := false, timer := none })) } : State).insertEvent
          (.joined id src first) := by
  rw [State.takeAdmit, State.forConsumer_of hf he, if_pos ours]
  dsimp only
  rw [State.clearTake_of he hn, State.modConsumer_of (State.entry_of_streams rfl)]
  simp only [vput_vput]

/-- An ADMIT that turns the entry away, with the reason it gives. -/
theorem State.takeAdmit_refused (ours : c.state = .joining ∧ c.producer = some src ∧ target = s.own)
    {r : AdmitResult} {why : JoinFailure} (refusal : (r = .full ∧ why = .full) ∨ (r = .notLockstep ∧ why = .notLockstep)) :
    s.takeAdmit src id target r = (s.expel i).insertEvent (.joinFailed id (some src) why) := by
  rw [State.takeAdmit, State.forConsumer_of hf he, if_pos ours]
  rcases refusal with ⟨rfl, rfl⟩ | ⟨rfl, rfl⟩ <;> rfl

theorem State.takeAdmit_ignored (other : ¬ (c.state = .joining ∧ c.producer = some src ∧ target = s.own)) (r : AdmitResult) :
    s.takeAdmit src id target r = s := by
  rw [State.takeAdmit, State.forConsumer_of hf he, if_neg other]

theorem State.takeCut_taken (ours : c.state = .receiving ∧ c.producer = some src ∧ target = s.own) (r : CutReason) :
    s.takeCut src id target r = (s.expel i).insertEvent (.cutReceived id src r) := by
  rw [State.takeCut, State.forConsumer_of hf he, if_pos ours]

theorem State.takeCut_ignored (other : ¬ (c.state = .receiving ∧ c.producer = some src ∧ target = s.own)) (r : CutReason) :
    s.takeCut src id target r = s := by
  rw [State.takeCut, State.forConsumer_of hf he, if_neg other]

end

/-- Settles O47: an ADMIT by its result and a CUT, each for this station in its state; and any other. -/
theorem admitsAndCutsMoveTheMember : Obligations.AdmitsAndCutsMoveTheMember := by
  intro src id target code first i c s hh hid ht hf he hn admission cut forUs h put expelled
  have below : target.toNat < 32 := Nat.lt_succ_of_le ht
  have own : forUs ↔ c.producer = some src ∧ (⟨target.toNat, below⟩ : Station) = h.own :=
    and_congr_right' (Fin.ext_iff (a := ⟨target.toNat, below⟩) (b := s.presence.station)).symm
  have admits {r : AdmitResult} (hr : admitResult? code first = some r) :
      admission = .next (h.takeAdmit src id ⟨target.toNat, below⟩ r) := exec_admitFrame_of hh hid below src hr
  have cuts {r : CutReason} (hr : cutReason? code = some r) :
      cut = .next (h.takeCut src id ⟨target.toNat, below⟩ r) := exec_cutFrame_of hh hid below src hr
  have expels : h.expel i = expelled := by
    simp only [State.expel_of (s := h) he hn, expelled, put, State.freeRef_streams]
  refine ⟨fun joining ours => ⟨?_, ?_, ?_⟩, fun other legal => ?_, fun receiving ours => ⟨?_, ?_⟩, fun other legal => ?_⟩
  · rintro rfl
    rw [admits rfl, State.takeAdmit_accepted (s := h) hf he hn ⟨joining, own.1 ours⟩]
  · rintro rfl
    rw [admits rfl, State.takeAdmit_refused (s := h) hf he ⟨joining, own.1 ours⟩ (.inl ⟨rfl, rfl⟩), expels]
  · rintro rfl
    rw [admits rfl, State.takeAdmit_refused (s := h) hf he ⟨joining, own.1 ours⟩ (.inr ⟨rfl, rfl⟩), expels]
  · obtain ⟨r, hr⟩ := admitResult?_upTo legal first
    rw [admits hr, State.takeAdmit_ignored (s := h) hf he (mt (And.imp_right own.2) other)]
  · rintro rfl
    rw [cuts rfl, State.takeCut_taken (s := h) hf he ⟨receiving, own.1 ours⟩, expels]
  · rintro rfl
    rw [cuts rfl, State.takeCut_taken (s := h) hf he ⟨receiving, own.1 ours⟩, expels]
  · obtain ⟨r, hr⟩ := cutReason?_upTo legal
    rw [cuts hr, State.takeCut_ignored (s := h) hf he (mt (And.imp_right own.2) other)]

end Sys2Proof.Machine
end

section
/-! SUPPORT. PROMPT and GONE frames at a consumer entry (chapters 5 and 6). -/

namespace Sys2Proof.Machine

/-! ### The frames that pass the checks -/

/-- A PROMPT that passes its checks. -/
theorem exec_promptFrame_of {s : State} (h : s.hearing) {id : StreamId} {stations : List Byte}
    (hok : promptOk 0 id stations = true) (src : Station) (page : PageNum) :
    exec (.promptFrame src 0 id page stations) s = .next (s.heard.takePrompt src id page (stations.map BitVec.toNat)) := by
  change execPromptFrame src 0 id page stations s = _
  rw [execPromptFrame, hok, State.receive_ok h]

/-- A GONE that passes its checks. -/
theorem exec_goneFrame_of {s : State} (h : s.hearing) {id : StreamId} (hid : id ≠ 0) (src : Station) (page : PageNum) :
    exec (.goneFrame src 0 id page) s = .next (s.heard.takeGone src id page) := by
  change execGoneFrame src 0 id page s = _
  rw [execGoneFrame, goneOk_iff.2 ⟨rfl, hid⟩, State.receive_ok h]

/-- A PROMPT names the station when one of its bytes is the own number. -/
theorem State.named_iff (s : State) (stations : List Byte) :
    (stations.map BitVec.toNat).contains s.own.val = true ↔ ∃ b ∈ stations, b.toNat = s.presence.station.val := by
  simp [State.own]

/-! ### Which entry they reach (R85, R112) -/

section
variable {s : State} {id : StreamId} {i : EntryIx} {c : Consumer} (hf : s.findStream id = some i)
  (he : s.entry i = some (.consumer c)) {src : Station} (page : PageNum)
include hf he

theorem State.takePrompt_of {stations : List Nat}
    (taken : c.state = .receiving ∧ c.producer = some src) (named : stations.contains s.own.val = true) :
    s.takePrompt src id page stations = s.answerPrompt i c page := by
  rw [State.takePrompt, State.forConsumer_of hf he, if_pos ⟨taken.1, taken.2, named⟩]

theorem State.takePrompt_ignored {stations : List Nat}
    (no : ¬ (c.state = .receiving ∧ c.producer = some src) ∨ ¬ stations.contains s.own.val = true) :
    s.takePrompt src id page stations = s := by
  rw [State.takePrompt, State.forConsumer_of hf he, if_neg]
  rintro ⟨receiving, producer, named⟩
  exact no.elim (· ⟨receiving, producer⟩) (· named)

theorem State.takeGone_of (taken : c.state = .receiving ∧ c.producer = some src) (fills : s.fillingPage c = some page) :
    s.takeGone src id page = s.loseFilling i .gone := by
  rw [State.takeGone, State.forConsumer_of hf he, if_pos ⟨taken.1, taken.2, fills⟩]

theorem State.takeGone_ignored (no : ¬ (c.state = .receiving ∧ c.producer = some src) ∨ s.fillingPage c ≠ some page) :
    s.takeGone src id page = s := by
  rw [State.takeGone, State.forConsumer_of hf he, if_neg]
  rintro ⟨receiving, producer, fills⟩
  exact no.elim (· ⟨receiving, producer⟩) (· fills)

end

/-! ### The answer to a PROMPT, row by row (R112) -/

section
variable {s : State} {i : EntryIx} {c : Consumer} {page : PageNum}

theorem State.answerPrompt_released (hr : c.hasReleased page = true) : s.answerPrompt i c page = s.setFree i page false :=
  if_pos hr

variable (hr : ¬ c.hasReleased page = true)
include hr

theorem State.answerPrompt_filling (fills : s.fillingPage c = some page) : s.answerPrompt i c page = s.unfinished i := by
  rw [State.answerPrompt, if_neg hr, if_pos fills]

variable (fills : s.fillingPage c ≠ some page)
include fills

theorem State.answerPrompt_kept (kept : s.hasPage c page = true) : s.answerPrompt i c page = s := by
  rw [State.answerPrompt, if_neg hr, if_neg fills, if_pos kept]

variable (kept : ¬ s.hasPage c page = true)
include kept

/-- The two last rows: a page that the entry still waits for is asked for from the start, any other needs no answer. -/
theorem State.answerPrompt_unknown : s.answerPrompt i c page =
    if c.filling = none ∧ newerThan page c.lastCompleted ∧ notOlderThan page c.firstAdmitted then s.fullRepair i page none
    else s := by
  rw [State.answerPrompt, if_neg hr, if_neg fills, if_neg kept]

end

/-- A full repair of a page whose length no frame has given asks for no segment by number (R113). -/
theorem State.fullRepair_unknown {s : State} {i : EntryIx} {c : Consumer} (he : s.entry i = some (.consumer c)) {m : SlotNum}
    {rest : List SlotNum} (hfree : s.slots.free = m :: rest) (page : PageNum) :
    s.fullRepair i page none = (s.claimed i c m rest page none).setGap i page 0 := by
  rw [State.fullRepair, State.claimFor_granted he hfree,
    State.unfinished_asks (s.claimed_entry ..) rfl (s.claimed_slot ..) (by decide)]
  rfl

theorem State.fillingPage_vacant {c : Consumer} (hf : c.filling = none) (s : State) : s.fillingPage c = none := by
  rw [State.fillingPage, hf, Option.bind_none]

/-- Settles O48: the rows of the answer to a PROMPT in their order, the FILLING page of a GONE, and frames that are ignored. -/
theorem promptsAndGonesAreAnswered : Obligations.PromptsAndGonesAreAnswered := by
  intro src id page stations i c s hh hok hf he prompt gone h named taken filling kept released wanted
  obtain ⟨_, hid, _⟩ := promptOk_iff.1 hok
  have prompts : prompt = .next (h.takePrompt src id page (stations.map BitVec.toNat)) := exec_promptFrame_of hh hok src page
  have gones : gone = .next (h.takeGone src id page) := exec_goneFrame_of hh hid src page
  have names : (stations.map BitVec.toNat).contains h.own.val = true ↔ named := h.named_iff stations
  have isReleased : c.hasReleased page = true ↔ released := c.hasReleased_iff page
  have isKept : h.hasPage c page = true ↔ kept := h.hasPage_iff c page
  have isWanted :
      c.filling = none ∧ newerThan page c.lastCompleted = true ∧ notOlderThan page c.firstAdmitted = true ↔ wanted := by
    simp only [newerThan_iff, notOlderThan_iff, not_exists, not_and, Bool.not_eq_true, wanted]
  have fills : filling → h.fillingPage c = some page := fun ⟨_, _, _, _, _, hm, hs⟩ => State.fillingPage_of (s := h) hm hs
  refine ⟨fun mine called => ?_, fun mine => ⟨fun full => ?_, fun other => ?_⟩, fun others => ⟨?_, ?_⟩, fun uncalled => ?_⟩
  · have answers : prompt = .next (h.answerPrompt i c page) := by
      rw [prompts, State.takePrompt_of (s := h) hf he page mine (names.2 called)]
    refine ⟨fun yes => ?_, fun no => ?_⟩
    · rw [answers, State.answerPrompt_released (isReleased.2 yes)]
    have fresh := mt isReleased.1 no
    refine ⟨fun full => ?_, fun yes other => ?_, fun lacks waits => ?_, fun other lacks idle => ?_⟩
    · rw [answers, State.answerPrompt_filling fresh (fills full)]
    · rw [answers, State.answerPrompt_kept (s := h) fresh other (isKept.2 yes)]
    · have vacant : h.fillingPage c ≠ some page := by simp [State.fillingPage_vacant waits.1]
      have repairs : prompt = .next (h.fullRepair i page none) := by
        rw [answers, State.answerPrompt_unknown fresh vacant (mt isKept.1 lacks), if_pos (isWanted.2 waits)]
      refine ⟨fun m rest hfree => ?_, fun hfree => ?_⟩
      · rw [repairs, State.fullRepair_unknown (s := h) he hfree]
        rfl
      · rw [repairs, State.fullRepair, State.claimFor_refused (s := h) hfree]
    · rw [answers, State.answerPrompt_unknown (s := h) fresh other (mt isKept.1 lacks), if_neg (mt isWanted.1 idle)]
  · rw [gones, State.takeGone_of (s := h) hf he page mine (fills full)]
  · rw [gones, State.takeGone_ignored (s := h) hf he page (.inr other)]
  · rw [prompts, State.takePrompt_ignored (s := h) hf he page (.inl others)]
  · rw [gones, State.takeGone_ignored (s := h) hf he page (.inl others)]
  · rw [prompts, State.takePrompt_ignored (s := h) hf he page (.inr (mt names.1 uncalled))]

end Sys2Proof.Machine
end

section
/-! SUPPORT. TAKE frames at a producer entry: which are answered, with which result, and the first page number (chapter 6). -/

namespace Sys2Proof.Machine

/-! ### Frames of a station to a producer entry (R61, R95, R103, R108) -/

theorem stationFrameOk_of {id : StreamId} (hid : id ≠ 0) {station : Byte} (ht : station.toNat < 32) :
    stationFrameOk 0 id station = true := stationFrameOk_iff.2 ⟨rfl, hid, by rw [stationOf?_of ht]; rfl⟩

/-- A TAKE that passes its checks. -/
theorem exec_takeFrame_of {s : State} (h : s.hearing) {id : StreamId} (hid : id ≠ 0) {station : Byte} (ht : station.toNat < 32)
    (src : Station) : exec (.takeFrame src 0 id station) s = .next (s.heard.takeTake src id ⟨station.toNat, ht⟩) := by
  change execTakeFrame src 0 id station s = _
  rw [execTakeFrame, stationFrameOk_of hid ht, State.receive_ok h, stationOf?_of ht]

/-- The place that R97 asks for: the target is listed, or the list has fewer than 8. -/
theorem hasPlace_iff {α : Type} (t : Station) (l : List (Station × α)) :
    hasPlace t l = true ↔ (∃ r, (t, r) ∈ l) ∨ l.length < 8 := by
  simp [hasPlace, Config.memberMax]

/-! ### The answer to a TAKE (R95 to R97) -/

/-- A TAKE of a PRESENT station other than the own one that names itself and finds a place is answered. -/
abbrev State.answersTake (s : State) (p : Producer) (src station : Station) : Prop :=
  src ≠ s.own ∧ station = src ∧ (s.peer src).isPresent = true ∧ hasPlace src p.admits = true

section
variable {s : State} {id : StreamId} {i : EntryIx} {p : Producer} (he : s.entry i = some (.producer p))
  (hf : s.findStream id = some i) (ho : p.state = .opened) (hc : s.presence.state ≠ .conflict) {src station : Station}
include he hf ho hc

theorem State.takeTake_ignored (no : ¬ s.answersTake p src station) : s.takeTake src id station = s := by
  rw [State.takeTake, State.forProducer_of he hf ho hc]
  exact if_neg no

variable (hn : s.holdsNone i) (yes : s.answersTake p src station)
include hn yes

theorem State.takeTake_freeRun (hm : p.mode = .freeRun) : s.takeTake src id station =
    { s with streams := vput s.streams i (some (.producer { p with admits := putTarget src .notLockstep p.admits })) } := by
  rw [State.takeTake, State.forProducer_of he hf ho hc, if_pos yes, if_pos hm, State.placeAdmit_of he hn]

theorem State.takeTake_full (hm : p.mode = .lockStep) (full : hasElem p.members src = false ∧ 8 ≤ cardOf p.members) :
    s.takeTake src id station =
      { s with streams := vput s.streams i (some (.producer { p with admits := putTarget src .full p.admits })) } := by
  rw [State.takeTake, State.forProducer_of he hf ho hc, if_pos yes, if_neg (by simp [hm]), if_pos full,
    State.placeAdmit_of he hn]

/-- The source is a member; only now a CUT pending for it leaves (log 33). -/
theorem State.takeTake_accepted (hm : p.mode = .lockStep) (room : ¬ (hasElem p.members src = false ∧ 8 ≤ cardOf p.members)) :
    s.takeTake src id station = { s with streams := vput s.streams i (some (.producer { p with
      members := addElem p.members src
      cuts := dropTarget src p.cuts
      admits := putTarget src (.accepted (s.firstPage p src)) p.admits })) } := by
  rw [State.takeTake, State.forProducer_of he hf ho hc, if_pos yes, if_neg (by simp [hm]), if_neg room,
    State.modProducer_of he, State.removeCut_of (State.entry_of_streams rfl) (by exact hn),
    State.placeAdmit_of (State.entry_of_streams rfl) (by exact hn)]
  simp only [vput_vput]

end

/-! ### The first page number of an ADMIT ACCEPTED (R96) -/

section
variable {p : Producer} (s : State) (t : Station)

theorem State.firstPage_awaiting (hp : p.phase = some .awaitingRelease) {c : PageNum} (hl : p.lastClosed = some c) :
    s.firstPage p t = if hasElem p.awaited t && !hasElem p.released t then c else p.nextPage := by
  simp [State.firstPage, hp, hl]

theorem State.firstPage_idle (hp : p.phase = some .idle) : s.firstPage p t = p.nextPage := by
  rw [State.firstPage, hp]

theorem State.firstPage_sending {s : State} (hp : p.phase = some .sending) {m : SlotNum} (hm : p.sending = some m) {j : EntryIx}
    {page : PageNum} {len : Nat} (hs : s.slot m = .sending j page len) : s.firstPage p t = page := by
  rw [State.firstPage, hp, hm, Option.bind_some, hs]
  rfl

end

/-- Settles O49: a TAKE that is not answered, then the three results; and the first page number by the page phase. -/
theorem takesAreAnswered : Obligations.TakesAreAnswered := by
  intro src id station i p s hh hc hid ht hf he ho hn go h put taken member
  have below : station.toNat < 32 := Nat.lt_succ_of_le ht
  have runs : go = .next (h.takeTake src id ⟨station.toNat, below⟩) := exec_takeFrame_of hh hid below src
  have answered : h.answersTake p src ⟨station.toNat, below⟩ ↔ taken := by
    rw [State.answersTake, hasPlace_iff, Fin.ext_iff]
    rfl
  refine ⟨fun no => ?_, fun yes hm => ?_, fun yes hm outside many => ?_, fun yes hm room => ?_,
    fun c hp hl => State.firstPage_awaiting s src hp hl, State.firstPage_idle s src,
    fun m j page len hp hm hs => State.firstPage_sending src hp hm hs⟩
  · rw [runs, State.takeTake_ignored (s := h) he hf ho hc (mt answered.1 no)]
  · rw [runs, State.takeTake_freeRun (s := h) he hf ho hc hn (answered.2 yes) hm]
  · rw [runs, State.takeTake_full (s := h) he hf ho hc hn (answered.2 yes) hm ⟨outside, many⟩]
  · have joins : ¬ (hasElem p.members src = false ∧ 8 ≤ cardOf p.members) := fun ⟨outside, many⟩ =>
      room.elim (fun inside => absurd (inside.symm.trans outside) (by decide)) (Nat.not_lt.2 many)
    rw [runs, State.takeTake_accepted (s := h) he hf ho hc hn (answered.2 yes) hm joins]
    rfl

end Sys2Proof.Machine
end

section
/-! SUPPORT. The barrier of a lock-step stream, and the DROP and FREE frames that reach it (chapter 6). -/

namespace Sys2Proof.Machine

/-! ### Membership and target lists -/

theorem Mode.ne_lockStep_iff (m : Mode) : m ≠ .lockStep ↔ m = .freeRun := by
  cases m <;> decide

/-- A producer entry without member `n`: it leaves the three sets and the ADMIT and CUT lists (R97, R108). -/
def Producer.withoutMember (p : Producer) (n : Station) : Producer :=
  { p with
    members := dropElem p.members n, awaited := dropElem p.awaited n, released := dropElem p.released n
    admits := dropTarget n p.admits, cuts := dropTarget n p.cuts }

/-- A producer entry to which station `n` has released the page (R103). -/
def Producer.withRelease (p : Producer) (n : Station) : Producer := { p with released := addElem p.released n }

/-- A producer entry whose barrier has completed, with pace estimate `pace` (R104, R105). -/
def Producer.pastBarrier (p : Producer) (pace : Nat) : Producer :=
  { p with phase := some .idle, timer := none, promptSent := false, prompt := false, pace := pace }

/-- The entry's barrier completes at the next test: it awaits releases, and every awaited station has released (R104). -/
abbrev Producer.barrierDone (p : Producer) : Prop := p.phase = some .awaitingRelease ∧ p.awaited &&& ~~~p.released = 0

theorem isSubset_iff (x y : BitVec 32) : isSubset x y = true ↔ x &&& ~~~y = 0 := beq_iff_eq

/-! ### The barrier is tested, and completes (R104, R105) -/

/-- The pace estimate after the barrier: measured anew when a FREE completes it, else as it was (R105). -/
def State.paceAfter (s : State) (p : Producer) (byFree : Bool) : Nat :=
  if byFree then (p.timer.map fun t => newPace s.floor p.pace (s.measured t)).getD p.pace else p.pace

section
variable {s : State} {i : EntryIx} {p : Producer} (he : s.entry i = some (.producer p))
include he

theorem State.completeBarrier_of (hn : s.holdsNone i) (byFree : Bool) : s.completeBarrier i byFree = State.applyMarkers i
    { s with streams := vput s.streams i (some (.producer (p.pastBarrier (s.paceAfter p byFree)))) } := by
  rw [State.completeBarrier, State.modProducer_of he, State.clearPrompt_of (State.entry_of_streams rfl) (by exact hn)]
  simp only [vput_vput]
  rfl

theorem State.testBarrier_done (hn : s.holdsNone i) (done : p.barrierDone) (byFree : Bool) :
    s.testBarrier i byFree = State.applyMarkers i
      { s with streams := vput s.streams i (some (.producer (p.pastBarrier (s.paceAfter p byFree)))) } := by
  rw [State.testBarrier, State.producer_of he]
  dsimp only
  rw [if_pos ⟨done.1, (isSubset_iff ..).2 done.2⟩, State.completeBarrier_of he hn]

theorem State.testBarrier_open (waits : ¬ p.barrierDone) (byFree : Bool) : s.testBarrier i byFree = s := by
  rw [State.testBarrier, State.producer_of he]
  dsimp only
  rw [if_neg (mt (And.imp_right (isSubset_iff ..).1) waits)]

end

/-! ### The frames that pass the checks -/

section
variable {s : State} (h : s.hearing) {id : StreamId} (hid : id ≠ 0) {station : Byte} (ht : station.toNat < 32) (src : Station)
include h hid

/-- A DROP that passes its checks. -/
theorem exec_dropFrame_of :
    exec (.dropFrame src 0 id station) s = .next (s.heard.takeDrop src id ⟨station.toNat, ht⟩).settle := by
  change execDropFrame src 0 id station s = _
  rw [execDropFrame, stationFrameOk_of hid ht, State.receive_ok h, stationOf?_of ht]

/-- A FREE that passes its checks; the lost flag makes no difference to the producer. -/
theorem exec_freeFrame_of (lost : Bool) (page : PageNum) :
    exec (.freeFrame src lost id station page) s = .next (s.heard.takeFree src id ⟨station.toNat, ht⟩ page).settle := by
  change execFreeFrame src lost id station page s = _
  rw [execFreeFrame, stationFrameOk_of hid ht, State.receive_ok h, stationOf?_of ht]

end

/-! ### Which of them the entry takes (R103, R108) -/

section
variable {s : State} {id : StreamId} {i : EntryIx} {p : Producer} (he : s.entry i = some (.producer p))
  (hf : s.findStream id = some i)
include he hf

/-- A frame that does nothing to the OPEN entry is ignored whatever the state of the entry. -/
theorem State.forProducer_eq_self {f : EntryIx → Producer → State} (nothing : p.state = .opened → f i p = s) :
    s.forProducer id f = s := by
  unfold State.forProducer
  rw [hf]
  dsimp only
  rw [State.producer_of he]
  dsimp only
  split
  · next open_entry => exact nothing open_entry.1
  · rfl

variable {src station : Station}

/-- A DROP with a station field that is not the source, for an entry that is not OPEN, or a FREE_RUN entry. -/
theorem State.takeDrop_refused (no : station ≠ src ∨ p.state ≠ .opened ∨ p.mode ≠ .lockStep) :
    s.takeDrop src id station = s :=
  State.forProducer_eq_self he hf fun ho => if_neg fun ⟨hm, own, _⟩ => no.elim (· own) fun no => no.elim (· ho) (· hm)

theorem State.takeFree_refused (no : station ≠ src ∨ p.state ≠ .opened ∨ p.mode ≠ .lockStep) (page : PageNum) :
    s.takeFree src id station page = s :=
  State.forProducer_eq_self he hf fun ho => if_neg fun ⟨hm, own⟩ => no.elim (· own) fun no => no.elim (· ho) (· hm)

/-! ### A DROP (R108) -/

theorem State.takeDrop_outside (outside : hasElem p.members src = false) : s.takeDrop src id station = s :=
  State.forProducer_eq_self he hf fun _ => if_neg fun ⟨_, _, inside⟩ => absurd (inside.symm.trans outside) (by decide)

variable (ho : p.state = .opened) (hc : s.presence.state ≠ .conflict) (hm : p.mode = .lockStep)
include ho hc hm

/-- A member that drops leaves the entry, and the barrier is tested. -/
theorem State.takeDrop_member (hn : s.holdsNone i) (inside : hasElem p.members src = true) : s.takeDrop src id src =
    State.testBarrier { s with streams := vput s.streams i (some (.producer (p.withoutMember src))) } i false := by
  rw [State.takeDrop, State.forProducer_of he hf ho hc, if_pos ⟨hm, rfl, inside⟩, State.removeAdmit_of he hn,
    State.removeCut_of (State.entry_of_streams rfl) (by exact hn), State.removeMember,
    State.modProducer_of (State.entry_of_streams rfl)]
  simp only [vput_vput]
  rfl

/-! ### A FREE, row by row (R103) -/

variable (page : PageNum)

theorem State.takeFree_outside (hn : s.holdsNone i) (outside : hasElem p.members src = false) :
    s.takeFree src id src page = if hasPlace src p.cuts then
      { s with streams := vput s.streams i (some (.producer { p with cuts := putTarget src .notMember p.cuts })) } else s := by
  rw [State.takeFree, State.forProducer_of he hf ho hc, if_pos ⟨hm, rfl⟩, if_pos outside, State.placeCut_of he hn]

variable (inside : hasElem p.members src = true)
include inside

/-- A FREE of a member for a page other than the last closed one. -/
theorem State.takeFree_other (hl : p.lastClosed ≠ some page) : s.takeFree src id src page =
    if p.lastClosed.any (isOlder page) then s.countLateFree else s := by
  rw [State.takeFree, State.forProducer_of he hf ho hc, if_pos ⟨hm, rfl⟩, if_neg (by simp [inside]), if_neg hl]
  cases p.lastClosed <;> rfl

theorem State.takeFree_last (hl : p.lastClosed = some page) : s.takeFree src id src page =
    if p.phase = some .awaitingRelease ∧ hasElem p.awaited src = true ∧ hasElem p.released src = false then
      State.testBarrier { s with streams := vput s.streams i (some (.producer (p.withRelease src))) } i true
    else s := by
  rw [State.takeFree, State.forProducer_of he hf ho hc, if_pos ⟨hm, rfl⟩, if_neg (by simp [inside]), if_pos hl,
    State.modProducer_of he]
  rfl

end

/-- Settles O50: frames that the entry does not take; then a DROP and a FREE by membership, the FREE of a member by its
page, and the barrier by its test. -/
theorem dropsAndFreesReachTheBarrier : Obligations.DropsAndFreesReachTheBarrier := by
  intro src id station page lost i p s hh hc hid ht hf he hn drop free h put member without left gave ended awaits
  have drops : drop = .next (h.takeDrop src id ⟨station.toNat, ht⟩).settle := exec_dropFrame_of hh hid ht src
  have frees : free = .next (h.takeFree src id ⟨station.toNat, ht⟩ page).settle := exec_freeFrame_of hh hid ht src lost page
  have entry (q : Producer) : (put q).entry i = some (.producer q) := State.entry_of_streams rfl
  have completes (q : Producer) (byFree : Bool) (done : q.barrierDone) :
      (put q).testBarrier i byFree = ended q ((put q).paceAfter q byFree) := by
    rw [State.testBarrier_done (entry q) hn done]
    simp only [put, vput_vput]
    rfl
  refine ⟨fun no => ?_, fun own ho hm => ?_⟩
  · have refused : (⟨station.toNat, ht⟩ : Station) ≠ src ∨ p.state ≠ .opened ∨ p.mode ≠ .lockStep :=
      no.imp (mt Fin.ext_iff.1) (Or.imp_right p.mode.ne_lockStep_iff.2)
    rw [drops, frees, State.takeDrop_refused (s := h) he hf refused, State.takeFree_refused (s := h) he hf refused]
    exact ⟨rfl, rfl⟩
  rw [show (⟨station.toNat, ht⟩ : Station) = src from Fin.ext own] at drops frees
  have dropped (inside : member = true) : drop = .next ((put left).testBarrier i false).settle := by
    rw [drops, State.takeDrop_member (s := h) he hf ho hc hm hn inside]
    rfl
  have freesOther (inside : member = true) (hl : p.lastClosed ≠ some page) : free =
      .next (if p.lastClosed.any (isOlder page) then h.countLateFree else h).settle := by
    rw [frees, State.takeFree_other (s := h) he hf ho hc hm page inside hl]
  refine ⟨fun outside => ⟨?_, fun place => ?_, fun unlisted full => ?_⟩,
    fun inside => ⟨fun aw done => ?_, fun waits => ?_, fun c hl older other => ?_, fun hl => ?_, fun c hl other young => ?_,
      fun hl => ?_⟩⟩
  · rw [drops, State.takeDrop_outside (s := h) he hf outside]
  · rw [frees, State.takeFree_outside (s := h) he hf ho hc hm page hn outside, if_pos ((hasPlace_iff ..).2 place)]
  · have none : ¬ hasPlace src p.cuts = true := fun place =>
      ((hasPlace_iff ..).1 place).elim (fun ⟨r, listed⟩ => unlisted r listed) (Nat.not_lt.2 full)
    rw [frees, State.takeFree_outside (s := h) he hf ho hc hm page hn outside, if_neg none]
  · rw [dropped inside, completes left false ⟨aw, done⟩]
    rfl
  · rw [dropped inside, State.testBarrier_open (entry left) fun ⟨aw, done⟩ => waits.elim (· aw) (· done)]
  · rw [freesOther inside (by simp [hl, other.symm]), if_pos (by simp [hl, older])]
    rfl
  · rw [freesOther inside (by simp [hl]), if_neg (by simp [hl])]
  · rw [freesOther inside (by simp [hl, other.symm]), if_neg (by simp [hl, young])]
  · intro counts
    have freesLast : free = .next (if counts then (put gave).testBarrier i true else h).settle := by
      rw [frees, State.takeFree_last (s := h) he hf ho hc hm page inside hl]
      rfl
    refine ⟨fun no => ?_, fun yes waits => ?_, fun t yes runs done => ?_⟩
    · rw [freesLast, if_neg no]
    · rw [freesLast, if_pos yes, State.testBarrier_open (entry gave) fun ⟨_, done⟩ => waits done]
    · have pace : (put gave).paceAfter gave true =
          min 1000 (max s.floor ((3 * p.pace + (s.time - t.barrierStart).toNat / 1000) / 4)) := by
        simp only [State.paceAfter, if_true, gave, runs]
        rfl
      rw [freesLast, if_pos yes, completes gave true ⟨yes.1, done⟩, pace]

end Sys2Proof.Machine
end

section
/-! SUPPORT. The release timer of a lock-step stream: PROMPT at its half, the cut members at its expiry (chapter 6). -/

namespace Sys2Proof.Machine

/-! ### Insertions and the stream table -/

/-- Insertions neither read nor change the stream table. -/
theorem State.insertEvents_withStreams (s : State) (v : Vector (Option Entry) 16) (l : List Event) :
    { s.insertEvents l with streams := v } = ({ s with streams := v } : State).insertEvents l := by
  induction l generalizing s with
  | nil => rfl
  | cons e l ih =>
    have one : { s.insertEvent e with streams := v } = ({ s with streams := v } : State).insertEvent e := by
      rw [State.insertEvent_eq, State.insertEvent_eq]
    exact (ih (s.insertEvent e)).trans (congrArg (State.insertEvents · l) one)

theorem State.insertEvents_streams (s : State) (l : List Event) : (s.insertEvents l).streams = s.streams := by
  obtain ⟨q, c, h⟩ := s.insertEvents_eq l
  rw [h]

theorem State.insertEvents_entry (s : State) (l : List Event) (i : EntryIx) : (s.insertEvents l).entry i = s.entry i :=
  congrArg (·[i]) (s.insertEvents_streams l)

theorem State.holdsNone_insertEvents {s : State} {i : EntryIx} (hn : s.holdsNone i) (l : List Event) :
    (s.insertEvents l).holdsNone i := by
  obtain ⟨q, c, h⟩ := s.insertEvents_eq l
  rw [h]
  exact hn

/-! ### The cut members (R97, R106) -/

/-- A CUT list with one more target that is cut for its silence: a listed target takes the reason, a full list of others
stays as it is (R97). -/
def placedTimeout (l : List (Station × CutReason)) (n : Station) : List (Station × CutReason) :=
  if hasPlace n l then putTarget n .timeout l else l

/-- A producer entry whose member `n` has been cut (R106). -/
def Producer.cutOff (p : Producer) (n : Station) : Producer :=
  { p with members := dropElem p.members n, admits := dropTarget n p.admits, cuts := placedTimeout p.cuts n }

theorem State.cutMember_of {s : State} {i : EntryIx} {p : Producer} (he : s.entry i = some (.producer p)) (hn : s.holdsNone i)
    (n : Station) : State.cutMember i s n =
      ({ s with streams := vput s.streams i (some (.producer (p.cutOff n))) } : State).insertEvent
        (.memberCut p.stream n p.lastClosed .timeout) := by
  rw [State.cutMember, State.producer_of he]
  dsimp only
  rw [State.modProducer_of he, State.removeAdmit_of (State.entry_of_streams rfl) (by exact hn),
    State.placeCut_of (State.entry_of_streams rfl) (by exact hn)]
  by_cases place : hasPlace n p.cuts = true
  · simp only [Producer.cutOff, placedTimeout, if_pos place, vput_vput]
  · simp only [Producer.cutOff, placedTimeout, if_neg place, vput_vput]

/-- Cutting member after member changes three fields of the entry, each by itself. -/
theorem Producer.foldl_cutOff (p : Producer) (l : List Station) : l.foldl Producer.cutOff p = { p with
    members := l.foldl (fun x n => dropElem x n.val) p.members
    admits := l.foldl (fun a n => dropTarget n a) p.admits
    cuts := l.foldl placedTimeout p.cuts } := by
  induction l generalizing p with
  | nil => rfl
  | cons n l ih =>
    rw [List.foldl_cons, ih]
    rfl

/-- MEMBER_CUT for each of the stations that are cut, with the last closed page (R106). -/
def Producer.memberCuts (p : Producer) (l : List Station) : List Event :=
  l.map fun n => .memberCut p.stream n p.lastClosed .timeout

/-- The members of a list are cut: the entry without them, and MEMBER_CUT for each in the order of the list. -/
theorem State.foldl_cutMember {s : State} {i : EntryIx} {p : Producer} (he : s.entry i = some (.producer p))
    (hn : s.holdsNone i) (l : List Station) : l.foldl (State.cutMember i) s =
      ({ s with streams := vput s.streams i (some (.producer (l.foldl Producer.cutOff p))) } : State).insertEvents
        (p.memberCuts l) := by
  induction l using List.reverseRecOn with
  | nil => exact congrArg (fun v => { s with streams := v }) (vput_self _ _ _ he).symm
  | append_singleton l n ih =>
    have entry : (({ s with streams := vput s.streams i (some (.producer (l.foldl Producer.cutOff p))) } : State).insertEvents
        (p.memberCuts l)).entry i = some (.producer (l.foldl Producer.cutOff p)) := by
      rw [State.insertEvents_entry, State.entry_vput]
    have same : (l.foldl Producer.cutOff p).stream = p.stream ∧ (l.foldl Producer.cutOff p).lastClosed = p.lastClosed := by
      rw [Producer.foldl_cutOff]
      exact ⟨rfl, rfl⟩
    have events : p.memberCuts (l ++ [n]) = p.memberCuts l ++ [.memberCut p.stream n p.lastClosed .timeout] :=
      List.map_append
    rw [List.foldl_append, List.foldl_append, ih, events, State.insertEvents_append]
    simp only [List.foldl_cons, List.foldl_nil]
    rw [State.cutMember_of entry (State.holdsNone_insertEvents (by exact hn) _), State.insertEvents_withStreams,
      State.insertEvents_streams, vput_vput, same.1, same.2]
    rfl

theorem hasElem_foldl_dropElem (l : List Station) (x : BitVec 32) (n : Nat) (hn : n < 32) :
    hasElem (l.foldl (fun x m => dropElem x m.val) x) n = (hasElem x n && !decide (⟨n, hn⟩ ∈ l)) := by
  induction l generalizing x with
  | nil => simp
  | cons a l ih =>
    rw [List.foldl_cons, ih, hasElem_dropElem x a n hn]
    simp [Fin.ext_iff, Bool.and_assoc]

/-- The elements of a set leave another set one by one. -/
theorem foldl_dropElem_stationsOf (x y : StationSet) : (stationsOf y).foldl (fun x n => dropElem x n.val) x = x &&& ~~~y := by
  refine BitVec.eq_of_getLsbD_eq fun n hn => ?_
  change hasElem _ n = _
  rw [hasElem_foldl_dropElem _ x n hn]
  simp [mem_stationsOf, hasElem, hn]

/-- The elements of a set leave a target list one by one. -/
theorem foldl_dropTarget_stationsOf {α : Type} (y : StationSet) (l : List (Station × α)) :
    (stationsOf y).foldl (fun l n => dropTarget n l) l = l.filter fun e => !y.getLsbD e.1.val := by
  have each (m : List Station) : m.foldl (fun l n => dropTarget n l) l = l.filter fun e => !decide (e.1 ∈ m) := by
    induction m using List.reverseRecOn with
    | nil => simp
    | append_singleton m n ih =>
      rw [List.foldl_append, List.foldl_cons, List.foldl_nil, ih, dropTarget, List.filter_filter]
      refine List.filter_congr fun e _ => ?_
      by_cases same : e.1 = n <;> simp [same]
  rw [each]
  simp [mem_stationsOf, hasElem]

/-- A producer entry whose outstanding members have all been cut (R106). -/
def Producer.allCut (p : Producer) : Producer := p.outstanding.foldl Producer.cutOff p

theorem Producer.allCut_eq (p : Producer) : p.allCut = { p with
    members := p.members &&& ~~~(p.awaited &&& ~~~p.released)
    admits := p.admits.filter fun e => !(p.awaited &&& ~~~p.released).getLsbD e.1.val
    cuts := p.outstanding.foldl placedTimeout p.cuts } := by
  rw [Producer.allCut, Producer.foldl_cutOff, Producer.outstanding, foldl_dropElem_stationsOf, foldl_dropTarget_stationsOf]
  rfl

/-! ### The release timer (R102, R106) -/

section
variable {i : EntryIx} {p : Producer} {s : State} (h : s.port.inReset = false) (he : s.entry i = some (.producer p))
include h he

theorem exec_releaseTimerHalf_runs {t : ReleaseTimer} (ht : p.timer = some t)
    (due : p.phase = some .awaitingRelease ∧ p.promptSent = false) : exec (.releaseTimerHalf i) s =
      .next (((s.reach t.half).setPrompt i).modProducer i fun q => { q with promptSent := true }) := by
  change execReleaseTimerHalf i s = _
  unfold execReleaseTimerHalf
  rw [State.awake_of h, State.producer_of he]
  dsimp only
  rw [ht]
  exact congrArg Host.Outcome.next (if_pos due)

theorem exec_releaseTimerHalf_idle (idle : p.timer = none ∨ p.phase ≠ some .awaitingRelease ∨ p.promptSent = true) :
    exec (.releaseTimerHalf i) s = .next s := by
  change execReleaseTimerHalf i s = _
  unfold execReleaseTimerHalf
  rw [State.awake_of h, State.producer_of he]
  dsimp only
  split
  · next t ht =>
    have other := idle.resolve_left (by simp [ht])
    rw [if_neg fun ⟨awaits, unsent⟩ => other.elim (· awaits) fun sent => by simp [sent] at unsent]
  · rfl

theorem exec_releaseTimerExpiry_runs {t : ReleaseTimer} (ht : p.timer = some t) (awaits : p.phase = some .awaitingRelease) :
    exec (.releaseTimerExpiry i) s = .next
      ((p.outstanding.foldl (State.cutMember i) (s.reach t.expiry)).completeBarrier i false).settle := by
  change execReleaseTimerExpiry i s = _
  unfold execReleaseTimerExpiry
  rw [State.awake_of h, State.producer_of he]
  dsimp only
  rw [ht]
  exact congrArg Host.Outcome.next (if_pos awaits)

theorem exec_releaseTimerExpiry_idle (idle : p.timer = none ∨ p.phase ≠ some .awaitingRelease) :
    exec (.releaseTimerExpiry i) s = .next s := by
  change execReleaseTimerExpiry i s = _
  unfold execReleaseTimerExpiry
  rw [State.awake_of h, State.producer_of he]
  dsimp only
  split
  · next t ht => rw [if_neg (idle.resolve_left (by simp [ht]))]
  · rfl

end

/-- PROMPT becomes pending and counts as sent (R102). -/
theorem State.setPrompt_sent {s : State} {i : EntryIx} {p : Producer} (he : s.entry i = some (.producer p)) :
    ((s.setPrompt i).modProducer i fun q => { q with promptSent := true }) =
      { s with streams := vput s.streams i (some (.producer { p with prompt := true, promptSent := true })) } := by
  rw [State.setPrompt_of he, State.modProducer_of (State.entry_of_streams rfl)]
  simp only [vput_vput]

/-- With the outstanding members cut the barrier completes; the pace estimate stays (R104, R106). -/
theorem State.cutAll_completeBarrier {s : State} {i : EntryIx} {p : Producer} (he : s.entry i = some (.producer p))
    (hn : s.holdsNone i) : (p.outstanding.foldl (State.cutMember i) s).completeBarrier i false =
      State.applyMarkers i
        (({ s with streams := vput s.streams i (some (.producer (p.allCut.pastBarrier p.allCut.pace))) } : State).insertEvents
          (p.memberCuts p.outstanding)) := by
  rw [State.foldl_cutMember he hn, ← Producer.allCut]
  generalize cut : ({ s with streams := vput s.streams i (some (.producer p.allCut)) } : State) = t
  have entry : t.entry i = some (.producer p.allCut) := cut ▸ State.entry_of_streams rfl
  have none : t.holdsNone i := cut ▸ hn
  rw [State.completeBarrier_of ((State.insertEvents_entry ..).trans entry) (State.holdsNone_insertEvents none _),
    State.insertEvents_withStreams, State.insertEvents_streams, ← cut, vput_vput]
  rfl

/-- Settles O59: the half and the expiry of a running release timer in AWAITING_RELEASE, and otherwise. -/
theorem releaseTimersPromptAndCut : Obligations.ReleaseTimersPromptAndCut := by
  intro i p s h he put
  refine ⟨fun t ht awaits => ⟨fun unsent => ?_, fun hn => ?_⟩, exec_releaseTimerExpiry_idle h he,
    exec_releaseTimerHalf_idle h he⟩
  · rw [exec_releaseTimerHalf_runs h he ht ⟨awaits, unsent⟩, State.setPrompt_sent (s := s.reach t.half) he]
    rfl
  · intro out cuts
    rw [exec_releaseTimerExpiry_runs h he ht awaits, State.cutAll_completeBarrier (s := s.reach t.expiry) he hn,
      Producer.allCut_eq]
    rfl

end Sys2Proof.Machine
end

section
/-! SUPPORT. The straps at every event, and the commands that change the station state: START, REJOIN and RESTART (chapter 7). -/

namespace Sys2Proof.Machine

/-! ### The straps (R132) -/

/-- Every event but the release of the reset input keeps the straps, and every event the waiting events. -/
theorem Effect.keeps {i : Instr} {s t : State} (e : Effect s i t) :
    t.pending = s.pending ∧ ((∀ n r, i ≠ .pinResetRelease n r) →
      t.presence.station = s.presence.station ∧ t.presence.rate = s.presence.rate) := by
  have outer (h : t.outer = s.outer) : t.pending = s.pending ∧ ((∀ n r, i ≠ .pinResetRelease n r) →
      t.presence.station = s.presence.station ∧ t.presence.rate = s.presence.rate) :=
    ⟨congrArg (·.1) h, fun _ => ⟨congrArg (·.2.1) h, congrArg (·.2.2) h⟩⟩
  cases e with
  | record _ => exact outer (State.submitRecord_outer ..)
  | access b => exact outer (State.busAccess_outer ..)
  | resetAsserted => exact outer (State.modPort_outer ..)
  | resetReleased n r => exact ⟨rfl, fun other => absurd rfl (other n r)⟩
  | cleared => exact outer rfl
  | inner k => exact outer k.outer

/-- Settles O3: what every event does is one of the effects, and each keeps what it must. -/
theorem everyEventAnswersNext : Obligations.EveryEventAnswersNext := by
  intro i s
  obtain ⟨t, ht, effect⟩ := exec_effect i s
  exact ⟨t, ht, effect.keeps⟩

/-- Settles O6: the release makes the state of `State.atRelease`, and the straps are kept as for O3. -/
theorem releaseResetsThePresenceUnit : Obligations.ReleaseResetsThePresenceUnit := by
  refine ⟨fun n r s => ⟨.atRelease n r s.slots.mem s.pending, rfl, rfl, rfl, rfl, rfl, fun k => ?_, rfl, rfl, rfl, rfl, rfl,
    rfl⟩, fun i s t other h => (effect_of_exec h).keeps.2 other⟩
  have reset : (State.atRelease n r s.slots.mem s.pending).peer k = .reset := Vector.getElem_replicate _
  rw [reset]
  exact ⟨rfl, rfl, rfl, rfl, rfl⟩

/-! ### An insertion and the fields it neither reads nor changes -/

theorem State.insertEvent_withPresence (s : State) (p : Presence) (e : Event) :
    ({ s with presence := p } : State).insertEvent e = { s.insertEvent e with presence := p } := by
  rw [State.insertEvent_eq, State.insertEvent_eq]

theorem State.accepted_insertEvent (s : State) (e : Event) : s.accepted.insertEvent e = (s.insertEvent e).accepted := by
  rw [State.insertEvent_eq, State.insertEvent_eq]
  rfl

/-- The station state and STATION_STATE (R116). -/
theorem State.enterState_eq (s : State) (n : StationState) : s.enterState n =
    { s.insertEvent (.stationState s.presence.state n) with presence := { s.presence with state := n } } :=
  s.insertEvent_withPresence _ _

/-! ### START and REJOIN (R120, R124) -/

theorem State.enterListening_eq (s : State) : s.enterListening =
    { s.insertEvent (.stationState s.presence.state .listening) with
      presence := { s.presence with state := .listening, listenTimer := some (s.afterRolls 2) }
      link := { (s.insertEvent (.stationState s.presence.state .listening)).link with drops := 0 } } := by
  unfold State.enterListening
  rw [State.enterState_eq]
  rfl

theorem State.accepted_enterListening (s : State) : s.accepted.enterListening = s.enterListening.accepted := by
  rw [State.enterListening_eq, State.accepted_insertEvent, State.enterListening_eq]
  rfl

theorem State.cmdStart_of {s : State} (h : s.presence.state = .configured ∨ s.presence.state = .quiet) : s.cmdStart =
    (s.enterListening.modPresence fun p => { p with rollCount := 0, leavingPlaced := false },
      .of .ok (number s.presentPeers) 0) := if_pos h

theorem State.cmdStart_refused {s : State} (h : ¬ (s.presence.state = .configured ∨ s.presence.state = .quiet)) :
    s.cmdStart = s.badStation := if_neg h

theorem State.cmdRejoin_of {s : State} (h : s.presence.state = .muted) : s.cmdRejoin = (s.enterListening, .plain .ok) :=
  if_pos h

theorem State.cmdRejoin_refused {s : State} (h : s.presence.state ≠ .muted) : s.cmdRejoin = s.badStation := if_neg h

/-- Settles O21: both commands by `State.enterListening_eq`. -/
theorem startAndRejoinListen : Obligations.StartAndRejoinListen := by
  intro tag s hs code due peers
  refine ⟨fun h => ?_, fun hc hq => ?_, fun h => ?_, fun h => ?_⟩
  · refine ⟨(s.enterListening.accepted).modPresence fun p => { p with rollCount := 0, leavingPlaced := false }, ?_, ?_⟩
    · rw [exec_start hs, State.cmdStart_of (s := s.accepted) h, State.accepted_enterListening]
      rfl
    rw [State.accepted_insertEvent, State.enterListening_eq]
    exact ⟨rfl, rfl, rfl, rfl, rfl⟩
  · rw [exec_start hs, State.cmdStart_refused (s := s.accepted) (not_or.2 ⟨hc, hq⟩)]
    rfl
  · refine ⟨s.enterListening.accepted, ?_, ?_⟩
    · rw [exec_rejoin hs, State.cmdRejoin_of (s := s.accepted) h, State.accepted_enterListening]
      rfl
    rw [State.accepted_insertEvent, State.enterListening_eq, h]
    exact ⟨rfl, rfl, rfl⟩
  · rw [exec_rejoin hs, State.cmdRejoin_refused (s := s.accepted) h]
    rfl

/-! ### RESTART (R133) -/

theorem State.cmdRestart_refused {s : State} (h : s.presence.state = .unconfigured) : s.cmdRestart = s.badStation :=
  if_pos (s.isUnconfigured_iff.2 h)

theorem State.cmdRestart_of {s : State} (h : s.presence.state ≠ .unconfigured) :
    s.cmdRestart = ((s.enterState .configured).restartBlocks, .plain .ok) := if_neg (mt s.isUnconfigured_iff.1 h)

/-- Settles O23: STATION_STATE is inserted first, and the blocks are reset behind it. -/
theorem restartResetsTheStation : Obligations.RestartResetsTheStation := by
  refine fun tag s hs => ⟨fun h => ?_, fun h => ?_⟩
  · rw [exec_restart hs, State.cmdRestart_refused (s := s.accepted) h, State.badStation, State.accepted_presence, h]
    rfl
  · rw [exec_restart hs, State.cmdRestart_of (s := s.accepted) h, State.enterState_eq, State.accepted_insertEvent,
      State.accepted_presence, State.insertEvent_eq, Vector.map_congr_left (g := restartEntry s.floor) fun e _ => ?_]
    · rfl
    · rcases e with _ | ⟨p | c⟩ <;> rfl

end Sys2Proof.Machine
end

section
/-! SUPPORT. CONFIGURE: the checks of its record in their order, and the stream table it makes (chapter 7). -/

namespace Sys2Proof.Machine

/-! ### Timing parameters (R118) -/

section
variable {n : Nat} {v : BitVec n} {low high : Nat} (default : Nat)

theorem parameter_within (h : v.toNat = 0 ∨ low ≤ v.toNat ∧ v.toNat ≤ high) :
    parameter v.toNat low high default = some (if v = 0 then default else v.toNat) := by
  have zero : v.toNat = 0 ↔ v = 0 := by simp [BitVec.toNat_eq]
  unfold parameter
  rw [if_congr zero rfl rfl]
  split
  · rfl
  · exact if_pos (h.resolve_left (mt zero.1 ‹_›))

theorem parameter_outside (h : ¬ (v.toNat = 0 ∨ low ≤ v.toNat ∧ v.toNat ≤ high)) :
    parameter v.toNat low high default = none := by
  obtain ⟨zero, range⟩ := not_or.1 h
  unfold parameter
  rw [if_neg zero, if_neg range]

end

/-! ### Declarations (R119, R21) -/

/-- What makes declaration `k` of a configuration fail: stream 0, a length above the slot's, or a stream id declared before. -/
def BadDeclaration (decls : Vector RawDecl 8) (k : Fin 8) : Prop :=
  decls[k].stream = 0 ∨ 4096 < decls[k].length.toNat ∨ ∃ j : Fin 8, j < k ∧ decls[j].stream = decls[k].stream

section
variable {n : Nat} (few : n ≤ 8) (decls : Vector RawDecl 8)
include few

theorem declared_length : (declared n decls).length = n := by simp [declared, few]

theorem declared_getElem {k : Nat} (h : k < (declared n decls).length) :
    (declared n decls)[k] = decls[k]'((h.trans_eq (declared_length few decls)).trans_le few) := by
  simp [declared]

theorem declarationOk_iff (k : Fin 8) (h : k.val < n) :
    declarationOk ((declared n decls).take k) decls[k] = true ↔ ¬ BadDeclaration decls k := by
  have before : ∀ e, e ∈ (declared n decls).take k ↔ ∃ j : Fin 8, j < k ∧ decls[j] = e := fun e => by
    rw [List.mem_take_iff_getElem]
    constructor
    · rintro ⟨j, hj, rfl⟩
      rw [declared_length few] at hj
      have below : j < k.val := by omega
      exact ⟨⟨j, by omega⟩, below, (declared_getElem few decls _).symm⟩
    · rintro ⟨j, hj, rfl⟩
      have : j.val < k.val := hj
      exact ⟨j, by rw [declared_length few]; omega, declared_getElem few decls _⟩
  simp [declarationOk, BadDeclaration, before, Config.slotBytes, and_assoc]

theorem firstBad_declared {k : Fin 8} (h : k.val < n) (bad : BadDeclaration decls k)
    (good : ∀ j : Fin 8, j < k → ¬ BadDeclaration decls j) : firstBad 0 [] (declared n decls) = some k.val := by
  rw [firstBad_some 0 k.val (by rw [declared_length few]; exact h), Nat.zero_add]
  · rw [List.nil_append, declared_getElem few, ← Bool.not_eq_true]
    exact fun ok => (declarationOk_iff few decls k h).1 ok bad
  · intro j hj
    rw [List.nil_append, declared_getElem few]
    exact (declarationOk_iff few decls ⟨j, by omega⟩ (hj.trans h)).2 (good ⟨j, by omega⟩ hj)

theorem firstBad_declared_none (good : ∀ k : Fin 8, k.val < n → ¬ BadDeclaration decls k) :
    firstBad 0 [] (declared n decls) = none := by
  refine firstBad_none 0 fun k hk => ?_
  have below : k < n := hk.trans_eq (declared_length few decls)
  rw [List.nil_append, declared_getElem few]
  exact (declarationOk_iff few decls ⟨k, by omega⟩ below).2 (good ⟨k, by omega⟩ below)

theorem declaredTable_declared (floor : Nat) : declaredTable floor (declared n decls) = Vector.ofFn fun i =>
    if h : i.val < 8 then
      if i.val < n then some (.producer (.declared decls[i.val].stream (Mode.ofBit decls[i.val].mode) decls[i.val].length.toNat
        floor .zero)) else none
    else none := by
  refine congrArg Vector.ofFn (funext fun i => ?_)
  by_cases h : i.val < n
  · have below : i.val < 8 := by omega
    rw [dif_pos below, if_pos h, List.getElem?_eq_getElem ((declared_length few decls).symm ▸ h), declared_getElem few]
    rfl
  · rw [List.getElem?_eq_none (by rw [declared_length few]; omega)]
    simp [h]

end

/-! ### The record (R119) -/

section
variable (tag : Byte) {r : Byte} {f : BitVec 10} {m : BitVec 4} {w : BitVec 3} {count : BitVec 4} (decls : Vector RawDecl 8)

/-- The configuration that the timing parameters and the count of a record stand for (R118). -/
def configuration (r : Byte) (f : BitVec 10) (m : BitVec 4) (w : BitVec 3) (count : BitVec 4) : StationConfig :=
  ⟨if r = 0 then 10 else r.toNat, if f = 0 then 20 else f.toNat, if m = 0 then 4 else m.toNat, if w = 0 then 1 else w.toNat,
    count.toNat⟩

theorem checkRecord_rollPeriod (hr : ¬ (r.toNat ≠ 1 ∧ r.toNat ≤ 250)) :
    checkRecord (record 1 tag (configureWords r f m w count decls)).words = .error 1 := by
  rw [checkRecord_of_record, parameter_outside _ (by omega)]

variable (hr : r.toNat ≠ 1 ∧ r.toNat ≤ 250)
include hr

theorem checkRecord_floor (hf : ¬ f.toNat ≤ 1000) :
    checkRecord (record 1 tag (configureWords r f m w count decls)).words = .error 2 := by
  rw [checkRecord_of_record, parameter_within _ (by omega), parameter_outside (v := f) _ (by omega)]

variable (hf : f.toNat ≤ 1000)
include hf

theorem checkRecord_mult (hm : ¬ (m.toNat ≠ 1 ∧ m.toNat ≤ 8)) :
    checkRecord (record 1 tag (configureWords r f m w count decls)).words = .error 3 := by
  rw [checkRecord_of_record, parameter_within _ (by omega), parameter_within (v := f) _ (by omega),
    parameter_outside (v := m) _ (by omega)]

variable (hm : m.toNat ≠ 1 ∧ m.toNat ≤ 8)
include hm

theorem checkRecord_wait (hw : ¬ w.toNat ≤ 4) :
    checkRecord (record 1 tag (configureWords r f m w count decls)).words = .error 4 := by
  rw [checkRecord_of_record, parameter_within _ (by omega), parameter_within (v := f) _ (by omega),
    parameter_within (v := m) _ (by omega), parameter_outside (v := w) _ (by omega)]

variable (hw : w.toNat ≤ 4)
include hw

/-- With every timing parameter in range the count and the declarations decide (R119). -/
theorem checkRecord_timed : checkRecord (record 1 tag (configureWords r f m w count decls)).words =
    if 8 < count.toNat then .error 5
    else
      match firstBad 0 [] (declared count.toNat decls) with
      | some i => .error (16 + i)
      | none => .ok (configuration r f m w count, declared count.toNat decls) := by
  rw [checkRecord_of_record, parameter_within _ (by omega), parameter_within (v := f) _ (by omega),
    parameter_within (v := m) _ (by omega), parameter_within (v := w) _ (by omega)]
  rfl

theorem checkRecord_count (many : 8 < count.toNat) :
    checkRecord (record 1 tag (configureWords r f m w count decls)).words = .error 5 := by
  rw [checkRecord_timed tag decls hr hf hm hw, if_pos many]

variable (few : count.toNat ≤ 8)
include few

theorem checkRecord_declaration {k : Fin 8} (h : k.val < count.toNat) (bad : BadDeclaration decls k)
    (good : ∀ j : Fin 8, j < k → ¬ BadDeclaration decls j) :
    checkRecord (record 1 tag (configureWords r f m w count decls)).words = .error (16 + k.val) := by
  rw [checkRecord_timed tag decls hr hf hm hw, if_neg (by omega), firstBad_declared few decls h bad good]

theorem checkRecord_ok (good : ∀ k : Fin 8, k.val < count.toNat → ¬ BadDeclaration decls k) :
    checkRecord (record 1 tag (configureWords r f m w count decls)).words =
      .ok (configuration r f m w count, declared count.toNat decls) := by
  rw [checkRecord_timed tag decls hr hf hm hw, if_neg (by omega), firstBad_declared_none few decls good]

end

/-! ### CONFIGURE -/

theorem State.cmdConfigure_refused {s : State} (h : s.presence.state ≠ .unconfigured) (words : Vector Word 8) :
    s.cmdConfigure words = s.badStation := if_neg (mt s.isUnconfigured_iff.1 h)

section
variable {s : State} (h : s.presence.state = .unconfigured) {words : Vector Word 8}
include h

theorem State.cmdConfigure_error {position : Nat} (error : checkRecord words = .error position) :
    s.cmdConfigure words = (s, .of .badArg (number position) 0) := by
  rw [State.cmdConfigure, if_pos (s.isUnconfigured_iff.2 h), error]

theorem State.cmdConfigure_ok {c : StationConfig} {decls : List RawDecl} (ok : checkRecord words = .ok (c, decls)) :
    s.cmdConfigure words = (({ s with
        streams := declaredTable c.floor decls
        presence := { s.presence with config := some c, state := .configured } } : State).insertEvent
      (.stationState .unconfigured .configured), .of .ok (number c.declarations) (number s.own.val)) := by
  rw [State.cmdConfigure, if_pos (s.isUnconfigured_iff.2 h), ok, ← h]
  rfl

end

/-- Settles O20: the checks of the record in their order, then the table and the station state. -/
theorem configureSetsTheStation : Obligations.ConfigureSetsTheStation := by
  intro tag r f m w count decls s hs go badArg okR okF okM okW bad
  have refused {position : Nat} (h : s.presence.state = .unconfigured)
      (error : checkRecord (record 1 tag (configureWords r f m w count decls)).words = .error position) : badArg position := by
    show exec _ s = _
    rw [exec_configure hs, State.cmdConfigure_error (s := s.accepted) h error]
    rfl
  refine ⟨fun h => ?_, fun h => ⟨fun hr => ?_, fun hr hf => ?_, fun hr hf hm => ?_, fun hr hf hm hw => ?_,
    fun hr hf hm hw many => ?_, fun hr hf hm hw few => ⟨fun k below hbad good => ?_, fun good => ?_⟩⟩⟩
  · show exec _ s = _
    rw [exec_configure hs, State.cmdConfigure_refused (s := s.accepted) h]
    rfl
  · exact refused h (checkRecord_rollPeriod tag decls hr)
  · exact refused h (checkRecord_floor tag decls hr hf)
  · exact refused h (checkRecord_mult tag decls hr hf hm)
  · exact refused h (checkRecord_wait tag decls hr hf hm hw)
  · exact refused h (checkRecord_count tag decls hr hf hm hw many)
  · exact refused h (checkRecord_declaration tag decls hr hf hm hw few below hbad good)
  · intro c table
    show exec _ s = _
    rw [exec_configure hs, State.cmdConfigure_ok (s := s.accepted) h (checkRecord_ok tag decls hr hf hm hw few good),
      declaredTable_declared few]
    rfl

end Sys2Proof.Machine
end

section
/-! SUPPORT. LEAVE, and the test of the LEAVING work that ends every event (chapters 3 and 7). -/

namespace Sys2Proof.Machine

/-! ### The pages that leave the queue (R59) -/

/-- The SENT of a queued page with the slot that it gives back (R51); none for a marker. -/
def State.sentPage (s : State) (r : SentResult) (d : Descriptor) : Option (Event × SlotNum) :=
  match d.body with
  | .page slot _ _ _ => some (.sent (s.streamOf d.entry) slot none r d.tag, slot)
  | .pause => none

/-- The pages of the Publish Queue in posting order, each with its SENT and its slot. -/
def State.sentPages (s : State) (r : SentResult) : List (Event × SlotNum) := s.publish.queue.filterMap (s.sentPage r)

theorem State.sentPage_event (s : State) (r : SentResult) (d : Descriptor) :
    (s.sentPage r d).map Prod.fst = (s.queuedSent r d).map Prod.snd := by
  unfold State.sentPage State.queuedSent
  cases d.body <;> rfl

theorem State.foldl_returnSlot_sentPage (s : State) (r : SentResult) (l : List Descriptor) (t : State) :
    l.foldl State.returnSlot t = (l.filterMap (s.sentPage r)).foldl (fun u e => u.changeSlot e.2 .writing) t := by
  induction l generalizing t with
  | nil => rfl
  | cons d l ih =>
    rw [List.foldl_cons, ih, List.filterMap_cons]
    unfold State.returnSlot State.sentPage
    cases d.body <;> rfl

theorem State.enterState_publish (s : State) (n : StationState) : (s.enterState n).publish = s.publish :=
  State.insertEvent_publish ..

/-- The whole queue is emptied. -/
theorem State.returnQueued_all (s t : State) (h : t.publish = s.publish) (r : SentResult) : t.returnQueued (fun _ => true) =
    { (s.sentPages r).foldl (fun u e => u.changeSlot e.2 .writing) t with publish := { s.publish with queue := [] } } := by
  have left : (s.publish.queue.filter fun d => !(fun _ => true) d) = [] := List.filter_false _
  unfold State.returnQueued State.sentPages
  rw [h, s.foldl_returnSlot_sentPage r, List.filter_true, left, State.setQueue, State.foldl_changeSlot_publish, h]

theorem State.sentOf_all (s : State) (r : SentResult) :
    s.sentOf (fun _ => true) r = s.publish.queue.filterMap (s.queuedSent r) := by
  rw [State.sentOf, List.filter_true]

theorem State.sentPages_events (s : State) (r : SentResult) :
    (s.sentPages r).map Prod.fst = (s.sentOf (fun _ => true) r).map Prod.snd := by
  rw [State.sentOf_all, State.sentPages, List.map_filterMap, List.map_filterMap]
  exact List.filterMap_congr fun d _ => s.sentPage_event r d

theorem State.sentOf_length (s : State) (r : SentResult) : (s.sentOf (fun _ => true) r).length = (s.sentPages r).length := by
  rw [← List.length_map (f := Prod.snd), ← s.sentPages_events, List.length_map]

/-! ### LEAVE (R122) -/

theorem State.leavers_eq (s : State) : s.leavers = (List.finRange 16).filter fun i => match s.entry i with
    | some (.consumer c) => c.mode == .lockStep && (c.state == .joining || c.state == .receiving)
    | _ => false := by
  refine List.filter_congr fun i _ => ?_
  unfold State.consumer
  rcases s.entry i with _ | ⟨p | c⟩ <;> rfl

theorem State.cmdLeave_refused {s : State} (h : s.presence.state ≠ .active) : s.cmdLeave = s.badStation := if_neg h

theorem State.cmdLeave_of {s : State} (h : s.presence.state = .active) : s.cmdLeave =
    let entered := ({ s with presence := { s.presence with state := .leaving } } : State).insertEvent (.stationState .active .leaving)
    let returned := { (s.sentPages .cancelled).foldl (fun t e => t.changeSlot e.2 .writing) entered with
      publish := { s.publish with queue := [] } }
    let told := returned.insertEvents ((s.sentPages .cancelled).map Prod.fst)
    ((s.leavers.foldl State.setDrop told).settle,
      .of .ok (number (s.sentPages .cancelled).length) (number s.leavers.length)) := by
  rw [State.cmdLeave, if_pos h]
  dsimp only
  rw [s.sentOf_length, State.returnQueued_all s _ (s.enterState_publish .leaving) .cancelled, State.insertSents, ← State.sentPages_events, State.enterState, h]
  rfl

/-! ### The end of the LEAVING work (R123) -/

theorem State.leavingDone_iff (s : State) : s.leavingDone = true ↔
    ¬ (s.seg.flight ≠ none ∨ s.seg.withdrawn ≠ none ∨ s.seg.pass ≠ none ∨
      (∃ i p, s.entry i = some (.producer p) ∧ p.repairTag ≠ none) ∨ ∃ i c, s.entry i = some (.consumer c) ∧ c.drop = true) := by
  simp only [State.leavingDone, Bool.and_eq_true, Option.isNone_iff_eq_none, List.all_eq_true]
  constructor
  · rintro ⟨⟨⟨flight, withdrawn⟩, pass⟩, all⟩ (h | h | h | ⟨i, p, he, h⟩ | ⟨i, c, he, h⟩)
    · exact h flight
    · exact h withdrawn
    · exact h pass
    · have none := all i (List.mem_finRange i)
      simp [he, h] at none
    · have none := all i (List.mem_finRange i)
      simp [he, h] at none
  · intro done
    simp only [not_or, not_not, not_exists, not_and, ne_eq, Bool.not_eq_true] at done
    obtain ⟨flight, withdrawn, pass, producers, consumers⟩ := done
    refine ⟨⟨⟨flight, withdrawn⟩, pass⟩, fun i _ => ?_⟩
    rcases he : s.entry i with _ | ⟨p | c⟩
    · rfl
    · simp [producers i p he]
    · simp [consumers i c he]

theorem State.testLeaving_waits {s : State} (h : ¬ (s.presence.state = .leaving ∧ s.presence.leavingPlaced = false ∧
    s.leavingDone = true)) : s.testLeaving = s := if_neg h

theorem State.testLeaving_done {s : State} (h : s.presence.state = .leaving ∧ s.presence.leavingPlaced = false ∧
    s.leavingDone = true) : s.testLeaving =
      { s with presence := { s.presence with rollTimer := none, leavingPlaced := true, rollPending := true } } := if_pos h

/-- In LEAVING no page is selected, and without repair work and a page the boundary offers nothing (R44, R47). -/
theorem State.boundary_leaving {s : State} (h : s.presence.state = .leaving) (hs : s.seg = ⟨none, none, none, none⟩)
    (hw : ∀ i, s.passWanted i = none) : s.boundary = s := by
  rw [State.boundary_new ((s.transmits_iff).2 (by simp [h])) (by rw [hs]) (by rw [hs]), State.boundaryNew_rest hw,
    State.boundaryRest, hs]
  exact State.select_other (by simp [h])

/-- Settles O22: LEAVE by `State.cmdLeave_of`, then the test of the LEAVING work by what is left of it. -/
theorem leaveEntersLeaving : Obligations.LeaveEntersLeaving := by
  refine ⟨fun tag s hs => ?_, fun s => ?_⟩
  · intro pages leavers entered returned told dropped
    refine ⟨fun h => ?_, fun h => ?_⟩
    · have leave : s.accepted.leavers = leavers := s.leavers_eq
      have sent : s.accepted.sentPages .cancelled = pages := rfl
      rw [exec_leave hs, State.cmdLeave_of (s := s.accepted) h, leave, sent, State.finish_of]
      rfl
    · rw [exec_leave hs, State.cmdLeave_refused (s := s.accepted) h]
      rfl
  · intro work
    refine ⟨fun h => State.testLeaving_waits ?_, fun h placed done => ?_, fun h markers quiet => ?_⟩
    · rintro ⟨leaving, placed, done⟩
      rcases h with h | h | h
      · exact h leaving
      · simp [placed] at h
      · exact s.leavingDone_iff.1 done h
    · exact State.testLeaving_done ⟨h, placed, s.leavingDone_iff.2 done⟩
    · have none : s.boundary = s := by
        rcases quiet with offered | ⟨hs, hw⟩
        · exact State.boundary_quiet (.inr offered)
        · exact State.boundary_leaving h hs hw
      rw [State.settle_noMarkers markers, none]

end Sys2Proof.Machine
end

section
/-! SUPPORT. The absence of a peer: what it does to each entry, the claimants of a stream, and SILENCE_TIMER_EXPIRY (chapters 2
and 7). -/

namespace Sys2Proof.Machine

/-! ### Claimants (chapter 2.6) -/

theorem claimsName_iff (l : List Claim) (id : StreamId) : claimsName l id = true ↔ ∃ c ∈ l, c.stream = id := by
  simp [claimsName]

theorem State.mem_claimants (s : State) (id : StreamId) (m : Station) :
    m ∈ s.claimants id ↔ (s.peer m).isPresent = true ∧ ∃ c ∈ (s.peer m).claims, c.stream = id := by
  simp only [State.claimants, List.mem_filter, List.mem_finRange, true_and, Bool.and_eq_true, claimsName_iff]
  rfl

theorem State.claimants_rising (s : State) (id : StreamId) : (s.claimants id).Pairwise (· < ·) :=
  (List.pairwise_lt_finRange 32).filter _

/-! ### The producer of record is lost (R33) -/

section
variable {s : State} {i : EntryIx} {c : Consumer} (he : s.entry i = some (.consumer c))
include he

theorem State.loseProducer_departing (hn : s.holdsNone i) (hd : c.state = .departing) :
    s.loseProducer i = { s with streams := vput s.streams i none } := by
  rw [State.loseProducer, State.consumer_of he, ← State.removeEntry_of hn]
  exact if_pos hd

theorem State.loseProducer_of (hd : c.state ≠ .departing) : s.loseProducer i = (s.dropProducer i).chooseProducer i := by
  rw [State.loseProducer, State.consumer_of he]
  exact if_neg hd

theorem State.absentForEntry_consumer (n : Station) :
    State.absentForEntry n i s = if c.producer = some n then s.loseProducer i else s := by
  rw [State.absentForEntry, State.absentForProducer, State.producer_of_consumer he, State.absentForConsumer, State.consumer_of he]

end

theorem State.absentForEntry_none {s : State} {i : EntryIx} (he : s.entry i = none) (n : Station) :
    State.absentForEntry n i s = s := by
  rw [State.absentForEntry, State.absentForProducer, State.producer_of_none he, State.absentForConsumer, State.consumer_of_none he]

/-! ### A producer entry and an absent peer (R108, R128) -/

theorem State.modProducer_consumer (s : State) (i j : EntryIx) (f : Producer → Producer) :
    (s.modProducer i f).consumer j = s.consumer j := by
  unfold State.modProducer
  split
  next p he =>
    by_cases h : i = j
    · subst h
      rw [State.consumer_of_producer he, State.consumer_of_producer (State.entry_setEntry ..)]
    · exact State.consumer_congr (State.entry_setEntry_other s h _)
  · rfl

theorem State.markerEffect_consumer (i j : EntryIx) (s : State) (d : Descriptor) :
    (State.markerEffect i s d).consumer j = s.consumer j := by
  rw [State.markerEffect, State.insertEvent_consumer, State.modProducer_consumer]
  rfl

/-- Pause markers that take effect turn no entry into a consumer entry and change none. -/
theorem State.applyMarkers_consumer (i j : EntryIx) (s : State) : (State.applyMarkers i s).consumer j = s.consumer j := by
  have all (l : List Descriptor) (t : State) : (l.foldl (State.markerEffect i) t).consumer j = t.consumer j := by
    induction l generalizing t with
    | nil => rfl
    | cons d l ih => rw [List.foldl_cons, ih, State.markerEffect_consumer]
  unfold State.applyMarkers
  split
  · split
    · exact all _ s
    · rfl
  · rfl

/-- A producer entry without station `n` in its ADMIT and CUT lists (R27). -/
def Producer.unlisted (p : Producer) (n : Station) : Producer :=
  { p with admits := dropTarget n p.admits, cuts := dropTarget n p.cuts }

theorem State.absentForConsumer_other {s : State} {i : EntryIx} (h : s.consumer i = none) (n : Station) :
    State.absentForConsumer n i s = s := by
  rw [State.absentForConsumer, h]

section
variable {s : State} {i : EntryIx} {p : Producer} (he : s.entry i = some (.producer p)) (hn : s.holdsNone i) (n : Station)
include he hn

/-- The peer leaves the lists, and as a member it leaves the entry as by a DROP. -/
theorem State.absentForProducer_of : State.absentForProducer n i s =
    if hasElem p.members n then
      ({ s with streams := vput s.streams i (some (.producer (p.withoutMember n))) } : State).testBarrier i false
    else { s with streams := vput s.streams i (some (.producer (p.unlisted n))) } := by
  rw [State.absentForProducer, State.producer_of he, State.removeAdmit_of he hn]
  dsimp only
  rw [State.removeCut_of (State.entry_of_streams rfl) (by exact hn), vput_vput, State.removeMember,
    State.modProducer_of (State.entry_of_streams rfl), vput_vput]
  rfl

theorem State.absentForEntry_outside (outside : hasElem p.members n = false) : State.absentForEntry n i s =
    { s with streams := vput s.streams i (some (.producer (p.unlisted n))) } := by
  rw [State.absentForEntry, State.absentForProducer_of he hn, if_neg (by rw [outside]; decide)]
  exact State.absentForConsumer_other (State.consumer_of_producer (State.entry_of_streams rfl)) n

theorem State.absentForEntry_waits (inside : hasElem p.members n = true) (waits : ¬ (p.withoutMember n).barrierDone) :
    State.absentForEntry n i s = { s with streams := vput s.streams i (some (.producer (p.withoutMember n))) } := by
  rw [State.absentForEntry, State.absentForProducer_of he hn, if_pos inside,
    State.testBarrier_open (State.entry_of_streams rfl) waits]
  exact State.absentForConsumer_other (State.consumer_of_producer (State.entry_of_streams rfl)) n

theorem State.absentForEntry_completes (inside : hasElem p.members n = true) (done : (p.withoutMember n).barrierDone) :
    State.absentForEntry n i s = State.applyMarkers i
      { s with streams := vput s.streams i (some (.producer ((p.withoutMember n).pastBarrier p.pace))) } := by
  rw [State.absentForEntry, State.absentForProducer_of he hn, if_pos inside,
    State.testBarrier_done (State.entry_of_streams rfl) (by exact hn) done, vput_vput]
  refine State.absentForConsumer_other ?_ n
  rw [State.applyMarkers_consumer]
  exact State.consumer_of_producer (State.entry_of_streams rfl)

end

/-! ### A peer goes down (R128) -/

/-- An ABSENT peer: its roll count and leaving flag stay (R128). -/
def Peer.down (p : Peer) : Peer := { p with isPresent := false, silence := none, claims := [] }

/-- The state in which peer `n` is ABSENT and PEER_DOWN inserted; the entries have not met the absence. -/
def State.peerDowned (s : State) (n : Station) (r : DownReason) : State :=
  ({ s with presence := { s.presence with peers := vput s.presence.peers n (s.peer n).down } } : State).insertEvent (.peerDown n r)

theorem State.peerAbsent_eq (s : State) (n : Station) (r : DownReason) :
    s.peerAbsent n r = (s.peerDowned n r).forEntries (State.absentForEntry n) := rfl

theorem State.peerDowned_entry (s : State) (n : Station) (r : DownReason) (i : EntryIx) :
    (s.peerDowned n r).entry i = s.entry i := State.insertEvent_entry ..

theorem State.peerDowned_peer (s : State) (n : Station) (r : DownReason) (m : Station) :
    (s.peerDowned n r).peer m = if n = m then (s.peer n).down else s.peer m := by
  rw [State.peer, State.peerDowned, State.insertEvent_presence]
  exact vput_get ..

/-- A peer that is down claims nothing. -/
theorem State.peerDowned_claimants {s : State} {n : Station} {id : StreamId} (h : s.claimants id = [n]) (r : DownReason) :
    (s.peerDowned n r).claimants id = [] := by
  refine List.eq_nil_iff_forall_not_mem.2 fun m hm => ?_
  rw [State.mem_claimants, State.peerDowned_peer] at hm
  split at hm
  · exact Bool.false_ne_true hm.1
  · next other =>
    have only : m ∈ s.claimants id := (State.mem_claimants ..).2 hm
    rw [h, List.mem_singleton] at only
    exact other only.symm

theorem State.peerAbsent_unused {s : State} (h : ∀ i, s.entry i = none) (n : Station) (r : DownReason) :
    s.peerAbsent n r = s.peerDowned n r :=
  State.forEntries_fixed fun i => State.absentForEntry_none ((s.peerDowned_entry n r i).trans (h i)) n

/-- With one entry in use, of which the peer was the only claimant and producer of record, that entry is WAITING. -/
theorem State.peerAbsent_only {s : State} {i : EntryIx} {c : Consumer} (he : s.entry i = some (.consumer c))
    (others : ∀ j, j ≠ i → s.entry j = none) {n : Station} (hp : c.producer = some n) (hd : c.state ≠ .departing)
    (hf : c.filling = none) (hc : s.claimants c.stream = [n]) (hn : s.holdsNone i) (r : DownReason) :
    s.peerAbsent n r = { s.peerDowned n r with streams := vput s.streams i (some (.consumer c.withoutProducer)) } := by
  have entry : (s.peerDowned n r).entry i = some (.consumer c) := (s.peerDowned_entry n r i).trans he
  have holds : (s.peerDowned n r).holdsNone i := by
    refine fun x hx => hn x ?_
    rw [State.peerDowned, State.insertEvent_holding] at hx
    exact hx
  have unclaimed : (s.peerDowned n r).claimants c.stream = [] := State.peerDowned_claimants hc r
  have turn : State.absentForEntry n i (s.peerDowned n r) =
      { s.peerDowned n r with streams := vput s.streams i (some (.consumer c.withoutProducer)) } := by
    rw [State.absentForEntry_consumer entry, if_pos hp, State.loseProducer_of entry hd, State.dropProducer_of entry holds hf,
      State.chooseProducer_unclaimed (c := c.withoutProducer) (State.entry_of_streams rfl) rfl (by exact unclaimed),
      State.peerDowned, State.insertEvent_streams]
  rw [State.peerAbsent_eq, State.forEntries_only i, turn]
  · exact fun j other => State.absentForEntry_none ((s.peerDowned_entry n r j).trans (others j other)) n
  · intro j other
    refine State.absentForEntry_none ?_ n
    rw [turn]
    exact (vput_get_other _ (Ne.symm other) _).trans (others j other)

/-! ### SILENCE_TIMER_EXPIRY -/

section
variable {s : State} (h : s.port.inReset = false) {n : Station}
include h

theorem exec_silenceTimerExpiry_runs {due : Micros} (ht : (s.peer n).silence = some due) (hp : (s.peer n).isPresent = true) :
    exec (.silenceTimerExpiry n) s = .next (s.joinAscending ((s.reach due).peerAbsent n .silent).settle) := by
  show execSilenceTimerExpiry n s = _
  unfold execSilenceTimerExpiry
  rw [State.awake_of h, ht]
  dsimp only
  rw [if_pos hp]

theorem exec_silenceTimerExpiry_idle (idle : (s.peer n).silence = none ∨ (s.peer n).isPresent = false) :
    exec (.silenceTimerExpiry n) s = .next s := by
  show execSilenceTimerExpiry n s = _
  unfold execSilenceTimerExpiry
  rw [State.awake_of h]
  rcases idle with none | absent
  · rw [none]
  · split
    · rw [absent, if_neg Bool.false_ne_true]
    · rfl

end

/-- Settles O57: the expiry by `exec_silenceTimerExpiry_runs`, then the absence entry by entry, the loss and the choice of a
producer of record, and the claimants. -/
theorem silentPeersGoAbsent : Obligations.SilentPeersGoAbsent := by
  refine ⟨fun n s h => ⟨fun due ht hp unused => ?_, fun due i c ht hp he others hm hs hpr hf hc hn => ?_,
    exec_silenceTimerExpiry_idle h⟩, fun n i s => ⟨fun due h ht hp => ?_, fun p he hn => ⟨fun outside => ?_,
    fun inside waits => ?_, fun inside done => ?_⟩, fun c he => ⟨fun other => ?_, fun own => ?_⟩,
    fun he => State.absentForEntry_none he n, fun c he hn => ⟨fun hd => ?_, fun hd hf => ?_,
    fun m o page len rcv g hd hf hs => ?_⟩, fun c he hp => ⟨fun hc => ?_, fun m rest hc => ⟨fun hm => ?_, fun hm hl => ?_,
    fun hm hl => ?_⟩⟩, fun id => ⟨s.claimants_rising id, fun m => s.mem_claimants id m⟩⟩⟩
  · rw [exec_silenceTimerExpiry_runs h ht hp, State.peerAbsent_unused (s := s.reach due) unused]
    rfl
  · rw [exec_silenceTimerExpiry_runs h ht hp, State.peerAbsent_only (s := s.reach due) he others hpr (by simp [hs]) hf hc hn]
    rfl
  · rw [exec_silenceTimerExpiry_runs h ht hp]
    rfl
  · exact State.absentForEntry_outside he hn n outside
  · exact State.absentForEntry_waits he hn n inside waits
  · exact State.absentForEntry_completes he hn n inside done
  · rw [State.absentForEntry_consumer he, if_neg other]
  · rw [State.absentForEntry_consumer he, if_pos own]
  · exact State.loseProducer_departing he hn hd
  · rw [State.loseProducer_of he hd, State.dropProducer_of he hn hf]
    rfl
  · rw [State.loseProducer_of he hd, State.dropProducer_filling he hn hf (by rw [hs]; rfl)]
    rfl
  · exact State.chooseProducer_unclaimed he hp hc
  · exact State.chooseProducer_freeRun he hp hc hm
  · exact State.chooseProducer_lockStep he hp hc hm (by simpa using hl)
  · exact State.chooseProducer_leaving he hp hm (by simpa using hl)

end Sys2Proof.Machine
end

section
/-! SUPPORT. Operations that keep the Presence Unit and the Time Base: those on entries, slots, descriptors, the Segmenter and the
holding frame. -/

namespace Sys2Proof.Machine

/-- The Presence Unit and the Time Base. -/
def State.clock (s : State) : Presence × Micros := (s.presence, s.time)

theorem State.presence_of_clock {s t : State} (h : t.clock = s.clock) : t.presence = s.presence := congrArg Prod.fst h

theorem State.time_of_clock {s t : State} (h : t.clock = s.clock) : t.time = s.time := congrArg Prod.snd h

theorem State.rollPeriod_of_clock {s t : State} (h : t.clock = s.clock) : t.rollPeriod = s.rollPeriod := by
  rw [State.rollPeriod, State.presence_of_clock h, State.rollPeriod]

theorem State.peer_of_clock {s t : State} (h : t.clock = s.clock) (n : Station) : t.peer n = s.peer n := by
  rw [State.peer, State.peer, State.presence_of_clock h]

theorem State.claimants_of_clock {s t : State} (h : t.clock = s.clock) (id : StreamId) : t.claimants id = s.claimants id := by
  rw [State.claimants, State.claimants, State.presence_of_clock h]

/-! ### Events, entries, slots and the Segmenter -/

@[simp] theorem State.insertEvent_clock (s : State) (e : Event) : (s.insertEvent e).clock = s.clock := by
  rw [State.insertEvent_eq]
  rfl

@[simp] theorem State.insertEvents_clock (s : State) (l : List Event) : (s.insertEvents l).clock = s.clock := by
  obtain ⟨q, c, h⟩ := s.insertEvents_eq l
  rw [h]
  rfl

@[simp] theorem State.setEntry_clock (s : State) (i : EntryIx) (e : Option Entry) : (s.setEntry i e).clock = s.clock := rfl

@[simp] theorem State.modProducer_clock (s : State) (i : EntryIx) (f : Producer → Producer) :
    (s.modProducer i f).clock = s.clock := by
  unfold State.modProducer
  split <;> rfl

@[simp] theorem State.modConsumer_clock (s : State) (i : EntryIx) (f : Consumer → Consumer) :
    (s.modConsumer i f).clock = s.clock := by
  unfold State.modConsumer
  split <;> rfl

@[simp] theorem State.changeSlot_clock (s : State) (n : SlotNum) (r : Slot) : (s.changeSlot n r).clock = s.clock := rfl

@[simp] theorem State.freeRef_clock (s : State) (r : Option SlotNum) : (s.freeRef r).clock = s.clock := by
  cases r <;> rfl

@[simp] theorem State.modSeg_clock (s : State) (f : Segmenter → Segmenter) : (s.modSeg f).clock = s.clock := rfl

@[simp] theorem State.setQueue_clock (s : State) (q : List Descriptor) : (s.setQueue q).clock = s.clock := rfl

/-! ### The holding frame and the pending control sets -/

@[simp] theorem State.sourceRemoved_clock (s : State) (p : FrameSource → Bool) : (s.sourceRemoved p).clock = s.clock := by
  obtain ⟨l, h⟩ := s.sourceRemoved_eq p
  rw [h]
  rfl

@[simp] theorem State.elementRemoved_clock (s : State) (src : FrameSource) : (s.elementRemoved src).clock = s.clock :=
  s.sourceRemoved_clock _

@[simp] theorem State.emptyPending_clock (s : State) (i : EntryIx) : (s.emptyPending i).clock = s.clock := by
  rw [State.emptyPending, State.sourceRemoved_clock, State.setEntry_clock]

@[simp] theorem State.removeEntry_clock (s : State) (i : EntryIx) : (s.removeEntry i).clock = s.clock := by
  rw [State.removeEntry, State.setEntry_clock, State.emptyPending_clock]

@[simp] theorem State.clearTake_clock (s : State) (i : EntryIx) : (s.clearTake i).clock = s.clock := by simp [State.clearTake]

@[simp] theorem State.clearGap_clock (s : State) (i : EntryIx) : (s.clearGap i).clock = s.clock := by simp [State.clearGap]

@[simp] theorem State.clearFree_clock (s : State) (i : EntryIx) : (s.clearFree i).clock = s.clock := by simp [State.clearFree]

@[simp] theorem State.clearPrompt_clock (s : State) (i : EntryIx) : (s.clearPrompt i).clock = s.clock := by
  simp [State.clearPrompt]

@[simp] theorem State.removeAdmit_clock (s : State) (i : EntryIx) (n : Station) : (s.removeAdmit i n).clock = s.clock := by
  simp [State.removeAdmit]

@[simp] theorem State.removeCut_clock (s : State) (i : EntryIx) (n : Station) : (s.removeCut i n).clock = s.clock := by
  simp [State.removeCut]

@[simp] theorem State.contentReplaced_clock (s : State) (src : FrameSource) (f : Frame) :
    (s.contentReplaced src f).clock = s.clock := by
  unfold State.contentReplaced
  split
  · split <;> rfl
  · rfl

@[simp] theorem State.setFree_clock (s : State) (i : EntryIx) (page : PageNum) (lost : Bool) :
    (s.setFree i page lost).clock = s.clock := by simp [State.setFree]

/-! ### Producer entries -/

@[simp] theorem State.markerEffect_clock (i : EntryIx) (s : State) (d : Descriptor) :
    (State.markerEffect i s d).clock = s.clock := by simp [State.markerEffect]

theorem State.foldl_clock {α : Type} {f : State → α → State} (h : ∀ t x, (f t x).clock = t.clock) (l : List α) (s : State) :
    (l.foldl f s).clock = s.clock := by
  induction l generalizing s with
  | nil => rfl
  | cons x l ih => exact (ih _).trans (h s x)

@[simp] theorem State.applyMarkers_clock (i : EntryIx) (s : State) : (State.applyMarkers i s).clock = s.clock := by
  unfold State.applyMarkers
  split
  · split
    · exact State.foldl_clock (State.markerEffect_clock i) _ s
    · rfl
  · rfl

@[simp] theorem State.completeBarrier_clock (s : State) (i : EntryIx) (byFree : Bool) :
    (s.completeBarrier i byFree).clock = s.clock := by simp [State.completeBarrier]

@[simp] theorem State.testBarrier_clock (s : State) (i : EntryIx) (byFree : Bool) : (s.testBarrier i byFree).clock = s.clock := by
  unfold State.testBarrier
  split
  · split
    · exact s.completeBarrier_clock i byFree
    · rfl
  · rfl

@[simp] theorem State.removeMember_clock (s : State) (i : EntryIx) (n : Station) : (s.removeMember i n).clock = s.clock := by
  simp [State.removeMember]

@[simp] theorem State.absentForProducer_clock (n : Station) (i : EntryIx) (s : State) :
    (State.absentForProducer n i s).clock = s.clock := by
  unfold State.absentForProducer
  split
  · dsimp only
    split <;> simp
  · rfl

@[simp] theorem State.withdrawFlight_clock (s : State) (f : Flight) (phase : Option PagePhase) :
    (s.withdrawFlight f phase).clock = s.clock := by simp [State.withdrawFlight]

/-! ### Consumer entries -/

@[simp] theorem State.pageLost_clock (s : State) (i : EntryIx) (page : PageNum) (slot : Option SlotNum) (r : LossReason) :
    (s.pageLost i page slot r).clock = s.clock := by
  unfold State.pageLost
  split
  · dsimp only
    split <;> split <;> try split
    all_goals simp
  · rfl

@[simp] theorem State.dropFilling_clock (s : State) (i : EntryIx) : (s.dropFilling i).clock = s.clock := by
  unfold State.dropFilling
  split <;> simp

@[simp] theorem State.loseFilling_clock (s : State) (i : EntryIx) (r : LossReason) : (s.loseFilling i r).clock = s.clock := by
  unfold State.loseFilling
  split
  · split <;> simp
  · rfl

@[simp] theorem State.chooseProducer_clock (s : State) (i : EntryIx) : (s.chooseProducer i).clock = s.clock := by
  unfold State.chooseProducer
  split
  · split
    · split
      · simp
      · split <;> simp
    · rfl
  · rfl

@[simp] theorem State.dropProducer_clock (s : State) (i : EntryIx) : (s.dropProducer i).clock = s.clock := by
  simp [State.dropProducer]

@[simp] theorem State.loseProducer_clock (s : State) (i : EntryIx) : (s.loseProducer i).clock = s.clock := by
  unfold State.loseProducer
  split
  · split <;> simp
  · rfl

@[simp] theorem State.absentForConsumer_clock (n : Station) (i : EntryIx) (s : State) :
    (State.absentForConsumer n i s).clock = s.clock := by
  unfold State.absentForConsumer
  split
  · split <;> simp
  · rfl

@[simp] theorem State.absentForEntry_clock (n : Station) (i : EntryIx) (s : State) :
    (State.absentForEntry n i s).clock = s.clock := by simp [State.absentForEntry]

@[simp] theorem State.chooseWaiting_clock (i : EntryIx) (s : State) : (State.chooseWaiting i s).clock = s.clock := by
  unfold State.chooseWaiting
  split
  · split <;> simp
  · rfl

end Sys2Proof.Machine
end

section
/-! SUPPORT. ROLL frames of other stations: the peer table entry, the change of claims, and which entries come into dispute
(chapter 7). -/

namespace Sys2Proof.Machine

/-! ### The change of a peer's claims (R129) -/

section
variable {n : Station} {old : List Claim} {i : EntryIx} {s : State}

theorem State.claimsChanged_other (h : s.consumer i = none) : State.claimsChanged n old i s = s := by
  rw [State.claimsChanged, h]

variable {c : Consumer} (he : s.entry i = some (.consumer c))
include he

theorem State.claimsChanged_loses (hp : c.producer = some n) (gone : ¬ ∃ x ∈ (s.peer n).claims, x.stream = c.stream) :
    State.claimsChanged n old i s = s.loseProducer i := by
  rw [State.claimsChanged, State.consumer_of he]
  exact if_pos ⟨hp, Bool.eq_false_iff.2 (mt (claimsName_iff _ _).1 gone)⟩

theorem State.claimsChanged_chooses (hp : c.producer = none) (named : ∃ x ∈ (s.peer n).claims, x.stream = c.stream)
    (added : ¬ ∃ x ∈ old, x.stream = c.stream) : State.claimsChanged n old i s = s.chooseProducer i := by
  rw [State.claimsChanged, State.consumer_of he]
  dsimp only
  rw [if_neg (by simp [hp]),
    if_pos ⟨hp, (claimsName_iff _ _).2 named, Bool.eq_false_iff.2 (mt (claimsName_iff _ _).1 added)⟩]

/-- The entry is left alone unless its producer of record dropped the claim, or it has none and the claim is added. -/
theorem State.claimsChanged_kept (keeps : c.producer = some n → ∃ x ∈ (s.peer n).claims, x.stream = c.stream)
    (nothing : c.producer = none →
      (∃ x ∈ (s.peer n).claims, x.stream = c.stream) → ∃ x ∈ old, x.stream = c.stream) : State.claimsChanged n old i s = s := by
  rw [State.claimsChanged, State.consumer_of he]
  dsimp only
  rw [if_neg, if_neg]
  · rintro ⟨hp, named, added⟩
    exact absurd ((claimsName_iff _ _).2 (nothing hp ((claimsName_iff _ _).1 named))) (by simp [added])
  · rintro ⟨hp, gone⟩
    exact absurd ((claimsName_iff _ _).2 (keeps hp)) (by simp [gone])

end

/-! ### Which entries a ROLL puts in dispute (R130) -/

/-- What is chosen entry by entry stands in ascending index. -/
theorem allEntries_filterMap_rising {α : Type} {f : EntryIx → Option (EntryIx × α)} (h : ∀ i e, f i = some e → e.1 = i) :
    ((allEntries.filterMap f).map Prod.fst).Pairwise (· < ·) := by
  rw [List.pairwise_map, List.pairwise_filterMap]
  refine (List.pairwise_lt_finRange 16).imp fun {i j} below a ha b hb => ?_
  rw [h i a ha, h j b hb]
  exact below

/-- Entry `i` with peer `n`, when it is OPEN and the peer claims its stream. -/
def State.claimedBy (s : State) (n : Station) (i : EntryIx) : Option (EntryIx × Station) :=
  match s.producer i with
  | some p => if p.state = .opened ∧ claimsName (s.peer n).claims p.stream then some (i, n) else none
  | none => none

theorem State.disputesAtRoll_eq (s : State) (n : Station) : s.disputesAtRoll n =
    if s.transmits ∧ n < s.own ∧ (s.peer n).isPresent then allEntries.filterMap (s.claimedBy n) else [] := rfl

theorem State.claimedBy_eq_some {s : State} {n : Station} {j : EntryIx} {e : EntryIx × Station} :
    s.claimedBy n j = some e ↔ e = (j, n) ∧ ∃ p, s.entry j = some (.producer p) ∧ p.state = .opened ∧
      ∃ c ∈ (s.peer n).claims, c.stream = p.stream := by
  unfold State.claimedBy
  constructor
  · intro h
    split at h
    next p hp =>
      split at h
      next open_ => exact ⟨(Option.some.inj h).symm, p, State.entry_of_producer hp, open_.1, (claimsName_iff _ _).1 open_.2⟩
      next => exact nomatch h
    next => exact nomatch h
  · rintro ⟨rfl, p, he, ho, hc⟩
    rw [State.producer_of he]
    exact if_pos ⟨ho, (claimsName_iff _ _).2 hc⟩

theorem State.disputesAtRoll_none {s : State} {n : Station} (h : s.transmits = false ∨ s.presence.station ≤ n) :
    s.disputesAtRoll n = [] := by
  rw [State.disputesAtRoll_eq, if_neg]
  rintro ⟨transmits, below, _⟩
  rcases h with h | h
  · exact Bool.false_ne_true (h.symm.trans transmits)
  · exact absurd below (not_lt.2 h)

theorem State.disputesAtRoll_unused {s : State} (h : ∀ i, s.entry i = none) (n : Station) : s.disputesAtRoll n = [] := by
  have none : allEntries.filterMap (s.claimedBy n) = [] := List.filterMap_eq_nil_iff.2 fun i _ => by
    rw [State.claimedBy, State.producer_of_none (h i)]
  rw [State.disputesAtRoll_eq, none, ite_self]

theorem State.mem_disputesAtRoll (s : State) (n : Station) (i : EntryIx) (m : Station) : (i, m) ∈ s.disputesAtRoll n ↔
    m = n ∧ s.transmits = true ∧ n < s.presence.station ∧ (s.peer n).isPresent = true ∧
      ∃ p, s.entry i = some (.producer p) ∧ p.state = .opened ∧ ∃ c ∈ (s.peer n).claims, c.stream = p.stream := by
  have chosen : (i, m) ∈ allEntries.filterMap (s.claimedBy n) ↔ m = n ∧
      ∃ p, s.entry i = some (.producer p) ∧ p.state = .opened ∧ ∃ c ∈ (s.peer n).claims, c.stream = p.stream := by
    rw [List.mem_filterMap]
    constructor
    · rintro ⟨j, -, hj⟩
      obtain ⟨pair, disputed⟩ := State.claimedBy_eq_some.1 hj
      obtain ⟨rfl, rfl⟩ := Prod.mk.inj pair
      exact ⟨rfl, disputed⟩
    · rintro ⟨rfl, disputed⟩
      exact ⟨i, List.mem_finRange i, State.claimedBy_eq_some.2 ⟨rfl, disputed⟩⟩
  rw [State.disputesAtRoll_eq]
  split
  next all => exact chosen.trans (and_congr_right fun _ => ⟨fun d => ⟨all.1, all.2.1, all.2.2, d⟩, fun ⟨_, _, _, d⟩ => d⟩)
  next some => exact iff_of_false List.not_mem_nil fun ⟨_, a, b, c, _⟩ => some ⟨a, b, c⟩

theorem State.disputesAtRoll_rising (s : State) (n : Station) : ((s.disputesAtRoll n).map Prod.fst).Pairwise (· < ·) := by
  rw [State.disputesAtRoll_eq]
  split
  · exact allEntries_filterMap_rising fun i e h => congrArg Prod.fst (State.claimedBy_eq_some.1 h).1
  · exact List.Pairwise.nil

/-- No entry in dispute, nothing done. -/
theorem State.disputeAll_nil (s : State) : s.disputeAll [] = s := by
  have kept : s.publish.queue.filter (fun d => !(([] : List EntryIx).contains d.entry)) = s.publish.queue :=
    List.filter_eq_self.2 fun _ _ => rfl
  have none : s.publish.queue.filter (fun d => ([] : List EntryIx).contains d.entry) = [] :=
    List.filter_eq_nil_iff.2 fun _ _ => Bool.false_ne_true
  have flight : s.flightDisputed [] = Option.none := by
    cases hf : s.seg.flight <;> simp [State.flightDisputed, hf]
  simp only [State.disputeAll, List.map_nil, List.foldl_nil, State.returnQueued, State.sentOf, kept, none, flight]
  rfl

/-! ### The peer table entry (R127) -/

/-- The peer table entry of a PRESENT peer by a ROLL with this count and these claims: its silence timer runs for 3R. -/
def State.presentPeer (s : State) (count : Byte) (claims : List Claim) : Peer :=
  ⟨true, some (s.afterRolls 3), some count, false, claims⟩

theorem State.peerPresent_eq (s : State) (n : Station) (count : Byte) (claims : List Claim) : s.peerPresent n count claims =
    ((s.setPeer n (s.presentPeer count claims)).insertEvent (.peerUp n)).forEntries (State.claimsChanged n []) := rfl

/-- The absence of a peer moves no instant counted from now. -/
theorem State.peerAbsent_presentPeer (s : State) (n : Station) (r : DownReason) (count : Byte) (claims : List Claim) :
    (s.peerAbsent n r).presentPeer count claims = s.presentPeer count claims := by
  have same : (s.peerAbsent n r).clock = (s.peerDowned n r).clock :=
    State.forEntries_keeps State.clock (State.absentForEntry_clock n) _
  have period : (s.peerAbsent n r).rollPeriod = s.rollPeriod :=
    (State.rollPeriod_of_clock same).trans (by rw [State.peerDowned, State.insertEvent_eq]; rfl)
  have time : (s.peerAbsent n r).time = s.time :=
    (State.time_of_clock same).trans (by rw [State.peerDowned, State.insertEvent_time])
  rw [State.presentPeer, State.afterRolls, period, time]
  rfl

section
variable {s : State} {n : Station} (leaving : Bool) (count : Byte) (claims : List Claim)

theorem State.rollOnPeer_up (h : (s.peer n).isPresent = false) : s.rollOnPeer n false count claims =
    ((s.setPeer n (s.presentPeer count claims)).insertEvent (.peerUp n)).forEntries (State.claimsChanged n []) := by
  rw [State.rollOnPeer, h]
  rfl

theorem State.rollOnPeer_absent (h : (s.peer n).isPresent = false) : s.rollOnPeer n true count claims =
    s.setPeer n { s.peer n with lastCount := some count, leaving := true } := by
  rw [State.rollOnPeer, h]
  rfl

theorem State.rollOnPeer_left (h : (s.peer n).isPresent = true) : s.rollOnPeer n true count claims =
    ((s.setPeer n (Peer.down { s.peer n with lastCount := some count, leaving := true })).insertEvent
      (.peerDown n .left)).forEntries (State.absentForEntry n) := by
  have recorded : (s.recordRoll n count true).peer n = { s.peer n with lastCount := some count, leaving := true } :=
    vput_get_same ..
  have again (q : Peer) : (s.recordRoll n count true).setPeer n q = s.setPeer n q := by
    simp only [State.recordRoll, State.setPeer, State.modPresence, vput_vput]
  rw [State.rollOnPeer, h]
  simp only [Bool.true_eq_false, if_false, if_true, State.peerAbsent, recorded, again]
  rfl

theorem State.rollOnPeer_present (h : (s.peer n).isPresent = true) : s.rollOnPeer n false count claims =
    if ((s.peer n).lastCount.any fun c => decide (count < c)) = true then (s.peerAbsent n .renewed).peerPresent n count claims
    else s.peerRolled n count claims := by
  rw [State.rollOnPeer, h]
  cases hc : (s.peer n).lastCount <;> simp

theorem State.rollOnPeer_renewed (h : (s.peer n).isPresent = true)
    (renewed : ((s.peer n).lastCount.any fun c => decide (count < c)) = true) : s.rollOnPeer n false count claims =
      (((s.peerAbsent n .renewed).setPeer n (s.presentPeer count claims)).insertEvent (.peerUp n)).forEntries
        (State.claimsChanged n []) := by
  rw [State.rollOnPeer_present count claims h, if_pos renewed, State.peerPresent_eq, State.peerAbsent_presentPeer]

theorem State.rollOnPeer_recorded (h : (s.peer n).isPresent = true)
    (same : ((s.peer n).lastCount.any fun c => decide (count < c)) = false) : s.rollOnPeer n false count claims =
      (s.setPeer n (s.presentPeer count claims)).forEntries (State.claimsChanged n (s.peer n).claims) := by
  rw [State.rollOnPeer_present count claims h, if_neg (by rw [same]; exact Bool.false_ne_true)]
  rfl

end

/-! ### The frame -/

theorem exec_rollFrame_of {s : State} (h : s.hearing) {claims : List RawClaim} (ok : rollOk 0 claims = true) (src : Station)
    (leaving : Bool) (count : Byte) : exec (.rollFrame src leaving 0 count claims) s =
      .next (s.heard.takeRoll src leaving count (claims.map claimOf)).settle := by
  show execRollFrame src leaving 0 count claims s = _
  rw [execRollFrame, ok, State.receive_ok h]

theorem StationState.takesRoll_iff (x : StationState) : x.takesRoll = true ↔ x ≠ .unconfigured ∧ x ≠ .configured := by
  cases x <;> decide

section
variable {s : State} {n : Station} (other : n ≠ s.presence.station) (leaving : Bool) (count : Byte) (claims : List Claim)
include other

theorem State.takeRoll_counted (h : s.presence.state = .configured) : s.takeRoll n leaving count claims = s := by
  rw [State.takeRoll, if_neg (by exact other), h]
  rfl

theorem State.takeRoll_taken (hu : s.presence.state ≠ .unconfigured) (hc : s.presence.state ≠ .configured) :
    s.takeRoll n leaving count claims =
      s.joinAscending ((s.rollOnPeer n leaving count claims).disputeAll ((s.rollOnPeer n leaving count claims).disputesAtRoll n)) := by
  rw [State.takeRoll, if_neg (by exact other), if_pos ((StationState.takesRoll_iff _).2 ⟨hu, hc⟩)]

end

/-- How a ROLL of peer `n` ends: the disputes it leads to, and the end of the event; `t` is the state behind the peer table. -/
def State.rollEnds (s t : State) (n : Station) : State := (s.joinAscending (t.disputeAll (t.disputesAtRoll n))).settle

/-- What a ROLL of another station does is given by the row of R127 that applies. -/
theorem exec_rollFrame_rows {s : State} (h : s.hearing) {claims : List RawClaim} (ok : rollOk 0 claims = true) {src : Station}
    (other : src ≠ s.presence.station) (taken : s.presence.state ≠ .configured) (leaving : Bool) (count : Byte) :
    exec (.rollFrame src leaving 0 count claims) s =
      .next (s.rollEnds (s.heard.rollOnPeer src leaving count (claims.map claimOf)) src) := by
  rw [exec_rollFrame_of h ok, State.takeRoll_taken (s := s.heard) other _ _ _ h.2.2 taken]
  rfl

/-- With an empty stream table neither an absence, nor a change of claims, nor a dispute finds an entry. -/
theorem State.disputes_unused {t : State} (unused : ∀ i, t.entry i = none) (s : State) (n : Station) :
    t.forEntries (State.absentForEntry n) = t ∧ (∀ old, t.forEntries (State.claimsChanged n old) = t) ∧
      s.rollEnds t n = (s.joinAscending t).settle := by
  refine ⟨State.forEntries_fixed fun i => State.absentForEntry_none (unused i) n,
    fun old => State.forEntries_fixed fun i => State.claimsChanged_other (State.consumer_of_none (unused i)), ?_⟩
  rw [State.rollEnds, State.disputesAtRoll_unused unused, State.disputeAll_nil]

/-- Settles O52: the rows of R127 with an empty and with any stream table, then the change of claims and the disputes. -/
theorem rollsKeepThePeerTable : Obligations.RollsKeepThePeerTable := by
  refine ⟨fun src leaving count claims s h ok other => ?_, fun src leaving count claims s h ok other taken => ?_,
    fun n old i s => ⟨fun c he => ⟨fun hp gone => ?_, fun hp named added => ?_, fun hp named => ?_, fun hp no => ?_,
      fun m hp differs => ?_⟩, fun none => State.claimsChanged_other none, s.disputeAll_nil, State.disputesAtRoll_none,
      fun m => s.mem_disputesAtRoll n i m⟩, fun f n s => ⟨rfl, s.disputesAtRoll_rising n⟩⟩
  · intro go hd p set up down ends renewed
    refine ⟨fun configured => ?_, fun taken unused => ?_⟩
    · show exec _ s = _
      rw [exec_rollFrame_of h ok, State.takeRoll_counted (s := s.heard) other _ _ _ configured]
    have told (t : State) (same : t.streams = s.streams) (e : Event) : ∀ i, (t.insertEvent e).entry i = none := fun i => by
      rw [State.insertEvent_entry, State.entry, same]
      exact unused i
    refine ⟨fun ha hl => ?_, fun ha hl => ?_, fun hp hl => ?_, fun hp hl hr => ?_, fun hp hl hr => ?_⟩ <;> subst hl <;>
      show exec _ s = _ <;> rw [exec_rollFrame_rows h ok other taken]
    · obtain ⟨-, changed, ended⟩ := State.disputes_unused (told (set s.heard up) rfl (.peerUp src)) s src
      rw [State.rollOnPeer_up (s := s.heard) _ _ ha]
      exact congrArg _ ((congrArg (s.rollEnds · src) (changed [])).trans ended)
    · obtain ⟨-, -, ended⟩ := State.disputes_unused (t := set s.heard { p with lastCount := some count, leaving := true }) unused s src
      rw [State.rollOnPeer_absent (s := s.heard) _ _ ha]
      exact congrArg _ ended
    · obtain ⟨absent, -, ended⟩ := State.disputes_unused
        (told (set s.heard (down { p with lastCount := some count, leaving := true })) rfl (.peerDown src .left)) s src
      rw [State.rollOnPeer_left (s := s.heard) _ _ hp]
      exact congrArg _ ((congrArg (s.rollEnds · src) absent).trans ended)
    · have gone : s.heard.peerAbsent src .renewed = (set s.heard (down p)).insertEvent (.peerDown src .renewed) :=
        State.peerAbsent_unused (s := s.heard) unused src .renewed
      obtain ⟨-, changed, ended⟩ := State.disputes_unused
        (told (set ((set s.heard (down p)).insertEvent (.peerDown src .renewed)) up) (State.insertEvent_streams ..) (.peerUp src)) s src
      rw [State.rollOnPeer_renewed (s := s.heard) _ _ hp hr, gone]
      exact congrArg _ ((congrArg (s.rollEnds · src) (changed [])).trans ended)
    · obtain ⟨-, changed, ended⟩ := State.disputes_unused (t := set s.heard up) unused s src
      rw [State.rollOnPeer_recorded (s := s.heard) _ _ hp hr]
      exact congrArg _ ((congrArg (s.rollEnds · src) (changed p.claims)).trans ended)
  · intro go hd p set up down ends absent renewed
    refine ⟨fun ha hl => ?_, fun ha hl => ?_, fun hp hl => ?_, fun hp hl hr => ?_, fun hp hl hr => ?_⟩ <;> subst hl <;>
      show exec _ s = _ <;> rw [exec_rollFrame_rows h ok other taken]
    · rw [State.rollOnPeer_up (s := s.heard) _ _ ha]
      rfl
    · rw [State.rollOnPeer_absent (s := s.heard) _ _ ha]
      rfl
    · rw [State.rollOnPeer_left (s := s.heard) _ _ hp]
      rfl
    · have gone : s.heard.peerAbsent src .renewed = absent ((set s.heard (down p)).insertEvent (.peerDown src .renewed)) := rfl
      rw [State.rollOnPeer_renewed (s := s.heard) _ _ hp hr, gone]
      generalize absent ((set s.heard (down p)).insertEvent (.peerDown src .renewed)) = u
      rfl
    · rw [State.rollOnPeer_recorded (s := s.heard) _ _ hp hr]
      rfl
  · exact State.claimsChanged_loses he hp gone
  · exact State.claimsChanged_chooses he hp named added
  · exact State.claimsChanged_kept he (fun _ => named) fun none => nomatch hp.symm.trans none
  · refine State.claimsChanged_kept he (fun own => nomatch hp.symm.trans own) fun _ named => ?_
    exact no.resolve_left (not_not.2 named)
  · exact State.claimsChanged_kept he (fun own => absurd (Option.some.inj (hp.symm.trans own)) differs)
      fun none => nomatch hp.symm.trans none

end Sys2Proof.Machine
end

section
/-! SUPPORT. Disputes: what becoming DISPUTED does to an entry, to its slots and to the page in flight, and what several entries
that become DISPUTED in one event leave (chapters 3 and 7). -/

namespace Sys2Proof.Machine

/-! ### The turn of one entry (R23, R54) -/

/-- A producer entry in DISPUTED with an empty pending control set and no RETAINED slot (R23, R27, R87). -/
def Producer.disputed (p : Producer) : Producer :=
  { p.toDisputed with retained := none, admits := [], cuts := [], gones := [], prompt := false }

/-- The same, when its page in flight has been withdrawn as well (R54). -/
def Producer.disputedFlight (p : Producer) : Producer := { p.disputed with sending := none, counters := p.counters.addLost }

/-- The Segmenter when the entry of the page in flight, of stream `id`, becomes DISPUTED: a page whose CLOSE NORMAL is offered is
marked for withdrawal, any other is withdrawn (R54, R56). -/
def Segmenter.disputed (g : Segmenter) (f : Flight) (id : StreamId) : Segmenter :=
  if f.closeOffered then { g with flight := some { f with withdrawAtClose := true } }
  else { g with flight := none, withdrawn := some ⟨id, f.page, f.len, f.check⟩ }

theorem State.disputeEntry_other {s : State} {i : EntryIx} (h : s.producer i = none) : s.disputeEntry i = s := by
  rw [State.disputeEntry, h]

section
variable {s : State} {i : EntryIx} {p : Producer} (he : s.entry i = some (.producer p))
include he

/-- The entry without its RETAINED slot and pending control set, before the page in flight is looked at. -/
theorem State.disputeEntry_emptied : ∃ l,
    (((s.freeRef p.retained).modProducer i fun q => { q.toDisputed with retained := none })).emptyPending i =
      { s with slots := (s.freeRef p.retained).slots, streams := vput s.streams i (some (.producer p.disputed)), link := l } := by
  have freed : (s.freeRef p.retained).entry i = some (.producer p) := by
    rw [State.freeRef_eq]
    exact he
  rw [State.modProducer_of freed, State.emptyPending]
  obtain ⟨l, hl⟩ := State.sourceRemoved_eq (({ s.freeRef p.retained with
    streams := vput (s.freeRef p.retained).streams i (some (.producer { p.toDisputed with retained := none })) } : State).setEntry i
      (some (.producer p.disputed))) fun src => src.entry? == some i
  rw [State.entry_of_streams rfl]
  refine ⟨l, hl.trans ?_⟩
  rw [State.setEntry, vput_vput, State.freeRef_eq]

theorem State.disputeEntry_plain (h : ∀ f, s.seg.flight = some f → f.entry ≠ i) : ∃ l, s.disputeEntry i =
    { s with slots := (s.freeRef p.retained).slots, streams := vput s.streams i (some (.producer p.disputed)), link := l } := by
  obtain ⟨l, hl⟩ := State.disputeEntry_emptied he
  refine ⟨l, ?_⟩
  rw [State.disputeEntry, State.producer_of he]
  dsimp only
  rw [hl]
  split
  next f hf => exact if_neg (h f hf)
  next => rfl

theorem State.disputeEntry_marked {f : Flight} (hf : s.seg.flight = some f) (own : f.entry = i) (offered : f.closeOffered = true) :
    ∃ l, s.disputeEntry i = { s with
      slots := (s.freeRef p.retained).slots
      streams := vput s.streams i (some (.producer p.disputed)), link := l, seg := s.seg.disputed f p.stream } := by
  obtain ⟨l, hl⟩ := State.disputeEntry_emptied he
  refine ⟨l, ?_⟩
  rw [State.disputeEntry, State.producer_of he, hf]
  dsimp only
  rw [hl, if_pos own, if_pos offered, Segmenter.disputed, if_pos offered]
  rfl

theorem State.disputeEntry_pulled {f : Flight} (hf : s.seg.flight = some f) (own : f.entry = i) (open_ : f.closeOffered = false) :
    ∃ l, s.disputeEntry i = { s with
      slots := ((s.freeRef p.retained).changeSlot f.slot .writing).slots
      streams := vput s.streams i (some (.producer p.disputedFlight)), link := l, seg := s.seg.disputed f p.stream } := by
  obtain ⟨l, hl⟩ := State.disputeEntry_emptied he
  refine ⟨l, ?_⟩
  have no : ¬ f.closeOffered = true := by rw [open_]; exact Bool.false_ne_true
  rw [State.disputeEntry, State.producer_of he, hf]
  dsimp only
  rw [hl, if_pos own, if_neg no, State.withdrawFlight_of (p := p.disputed) (by rw [own]; exact State.entry_of_streams rfl),
    Segmenter.disputed, if_neg no, own, vput_vput]
  rfl

end

/-- What a turn can do, case by case: nothing to an entry that is no producer's; else the entry is DISPUTED, and the page in
flight, when it is the entry's, is marked for withdrawal or withdrawn. -/
theorem State.disputeEntry_cases {s : State} {i : EntryIx} {P : State → Prop} (other : s.producer i = none → P s)
    (plain : ∀ p l, s.entry i = some (.producer p) → (∀ f, s.seg.flight = some f → f.entry ≠ i) → P { s with
      slots := (s.freeRef p.retained).slots
      streams := vput s.streams i (some (.producer p.disputed)), link := l })
    (marked : ∀ p f l, s.entry i = some (.producer p) → s.seg.flight = some f → f.entry = i → f.closeOffered = true → P { s with
      slots := (s.freeRef p.retained).slots
      streams := vput s.streams i (some (.producer p.disputed)), link := l, seg := s.seg.disputed f p.stream })
    (pulled : ∀ p f l, s.entry i = some (.producer p) → s.seg.flight = some f → f.entry = i → f.closeOffered = false → P { s with
      slots := ((s.freeRef p.retained).changeSlot f.slot .writing).slots
      streams := vput s.streams i (some (.producer p.disputedFlight)), link := l, seg := s.seg.disputed f p.stream }) :
    P (s.disputeEntry i) := by
  cases hp : s.producer i with
  | none => exact (State.disputeEntry_other hp).symm ▸ other hp
  | some p =>
    have he := State.entry_of_producer hp
    by_cases none : ∀ f, s.seg.flight = some f → f.entry ≠ i
    · obtain ⟨l, h⟩ := State.disputeEntry_plain he none
      exact h ▸ plain p l he none
    · push Not at none
      obtain ⟨f, hf, own⟩ := none
      cases offered : f.closeOffered with
      | true =>
        obtain ⟨l, h⟩ := State.disputeEntry_marked he hf own offered
        exact h ▸ marked p f l he hf own offered
      | false =>
        obtain ⟨l, h⟩ := State.disputeEntry_pulled he hf own offered
        exact h ▸ pulled p f l he hf own offered

/-! ### What a turn leaves alone -/

/-- Besides slots, the stream table, the Segmenter and the holding frame a turn leaves everything alone. -/
theorem State.disputeEntry_eq (s : State) (i : EntryIx) : ∃ r v g l, s.disputeEntry i =
    { s with slots := r, streams := v, seg := g, link := l } :=
  State.disputeEntry_cases (P := fun t => ∃ r v g l, t = { s with slots := r, streams := v, seg := g, link := l })
    (fun _ => ⟨_, _, _, _, rfl⟩) (fun _ _ _ _ => ⟨_, _, _, _, rfl⟩) (fun _ _ _ _ _ _ _ => ⟨_, _, _, _, rfl⟩)
    fun _ _ _ _ _ _ _ => ⟨_, _, _, _, rfl⟩

section
variable {s : State} {i j : EntryIx}

theorem State.disputeEntry_entry_other (h : i ≠ j) : (s.disputeEntry i).entry j = s.entry j :=
  State.disputeEntry_cases (P := fun t => t.entry j = s.entry j) (fun _ => rfl) (fun _ _ _ _ => vput_get_other _ h _)
    (fun _ _ _ _ _ _ _ => vput_get_other _ h _) fun _ _ _ _ _ _ _ => vput_get_other _ h _

theorem State.disputeEntry_seg_other (h : ∀ f, s.seg.flight = some f → f.entry ≠ i) : (s.disputeEntry i).seg = s.seg :=
  State.disputeEntry_cases (P := fun t => t.seg = s.seg) (fun _ => rfl) (fun _ _ _ _ => rfl)
    (fun _ _ _ _ hf own _ => absurd own (h _ hf)) fun _ _ _ _ hf own _ => absurd own (h _ hf)

/-- The page in flight that a dispute of entry `j` withdraws does not depend on the turn of another entry. -/
theorem State.disputeEntry_cancellable_other (h : i ≠ j) : (s.disputeEntry i).cancellable j = s.cancellable j := by
  have gone {f : Flight} (hf : s.seg.flight = some f) (own : f.entry = i) (id : StreamId) :
      ((s.seg.disputed f id).flight.filter fun f => f.entry == j && !f.closeOffered) = s.cancellable j := by
    have other : (f.entry == j) = false := beq_eq_false_iff_ne.2 fun e => h (own.symm.trans e)
    rw [State.cancellable, hf, Segmenter.disputed]
    split <;> simp [Option.filter_some, other]
  exact State.disputeEntry_cases (P := fun t => t.cancellable j = s.cancellable j) (fun _ => rfl) (fun _ _ _ _ => rfl)
    (fun _ _ _ _ hf own _ => gone hf own _) fun _ _ _ _ hf own _ => gone hf own _

/-! ### Slots at a turn -/

theorem State.disputeEntry_slot_free {m : SlotNum} (h : s.slot m = .free) : (s.disputeEntry i).slot m = .free := by
  have freed (r : Option SlotNum) : (s.freeRef r).slot m = .free := by rw [State.freeRef_slot, h, ite_self]
  refine State.disputeEntry_cases (P := fun t => t.slot m = .free) (fun _ => h) (fun p _ _ _ => freed p.retained)
    (fun p _ _ _ _ _ _ => freed p.retained) fun p f _ _ _ _ _ => ?_
  refine (State.changeSlot_slot _ f.slot m (by decide)).trans ?_
  rw [freed, if_neg fun ⟨_, used⟩ => used rfl]

/-- A slot that the entry does not retain, and that does not hold its page in flight, stays as it is. -/
theorem State.disputeEntry_slot_kept {m : SlotNum} (hr : ∀ p, s.entry i = some (.producer p) → p.retained ≠ some m)
    (hf : ∀ f, s.cancellable i = some f → f.slot ≠ m) : (s.disputeEntry i).slot m = s.slot m := by
  have freed {p : Producer} (he : s.entry i = some (.producer p)) : (s.freeRef p.retained).slot m = s.slot m := by
    rw [State.freeRef_slot, if_neg (hr p he)]
  refine State.disputeEntry_cases (P := fun t => t.slot m = s.slot m) (fun _ => rfl) (fun p _ he _ => freed he)
    (fun p _ _ he _ _ _ => freed he) fun p f _ he flight own open_ => ?_
  refine (State.changeSlot_slot _ f.slot m (by decide)).trans ?_
  rw [freed he, if_neg fun ⟨same, _⟩ => hf f (own ▸ State.cancellable_some flight open_) same]

/-- No producer entry of the list retains slot `m`. -/
def State.retainsNone (s : State) (l : List EntryIx) (m : SlotNum) : Prop :=
  ∀ j ∈ l, ∀ p, s.entry j = some (.producer p) → p.retained ≠ some m

theorem State.disputeEntry_retainsNone {l : List EntryIx} {m : SlotNum} (h : s.retainsNone l m) :
    (s.disputeEntry i).retainsNone l m := by
  intro j hj p
  by_cases e : i = j
  · subst e
    have none {q : Producer} (hq : q.retained = Option.none) (v : Vector (Option Entry) 16)
        (he : (vput v i (some (.producer q)))[i] = some (.producer p)) : p.retained ≠ some m := by
      rw [vput_get_same] at he
      cases he
      rw [hq]
      exact nofun
    refine State.disputeEntry_cases (P := fun t => t.entry i = some (.producer p) → p.retained ≠ some m) (fun _ he => h i hj p he)
      (fun q _ _ _ => none (q := q.disputed) rfl _) (fun q _ _ _ _ _ _ => none (q := q.disputed) rfl _)
      fun q _ _ _ _ _ _ => none (q := q.disputedFlight) rfl _
  · rw [State.disputeEntry_entry_other e]
    exact h j hj p

end

section
variable {s : State} {i : EntryIx} {p : Producer} (he : s.entry i = some (.producer p))
include he

theorem State.disputeEntry_slot_retained {m : SlotNum} (hr : p.retained = some m) : (s.disputeEntry i).slot m = .free := by
  have same {q : Producer} (hq : s.entry i = some (.producer q)) : (s.freeRef q.retained).slot m = .free := by
    cases he.symm.trans hq
    rw [State.freeRef_slot, if_pos hr]
  refine State.disputeEntry_cases (P := fun t => t.slot m = .free) (fun none => nomatch none.symm.trans (State.producer_of he))
    (fun q _ hq _ => same hq) (fun q _ _ hq _ _ _ => same hq) fun q f _ hq _ _ _ => ?_
  refine (State.changeSlot_slot _ f.slot m (by decide)).trans ?_
  rw [same hq, if_neg fun ⟨_, used⟩ => used rfl]

/-- The slot of the page in flight that is withdrawn returns to WRITING (R8). -/
theorem State.disputeEntry_slot_pulled {f : Flight} (hf : s.seg.flight = some f) (own : f.entry = i) (open_ : f.closeOffered = false)
    (hr : p.retained ≠ some f.slot) (used : s.slot f.slot ≠ .free) : (s.disputeEntry i).slot f.slot = .writing := by
  obtain ⟨l, h⟩ := State.disputeEntry_pulled he hf own open_
  rw [h]
  refine (State.changeSlot_slot _ f.slot f.slot (by decide)).trans (if_pos ⟨rfl, ?_⟩)
  rw [State.freeRef_slot, if_neg hr]
  exact used

/-- What a turn makes of the entry itself. -/
theorem State.disputeEntry_entry : (s.disputeEntry i).entry i =
    some (.producer (if (s.cancellable i).isSome then p.disputedFlight else p.disputed)) := by
  have idle (h : ∀ f, s.seg.flight = some f → f.entry = i → f.closeOffered = true) :
      p.disputed = if (s.cancellable i).isSome then p.disputedFlight else p.disputed := by
    rw [State.cancellable_none h]
    rfl
  have same {q : Producer} (hq : s.entry i = some (.producer q)) : q = p := by cases he.symm.trans hq; rfl
  refine State.disputeEntry_cases (P := fun t => t.entry i =
      some (.producer (if (s.cancellable i).isSome then p.disputedFlight else p.disputed)))
    (fun none => nomatch none.symm.trans (State.producer_of he)) (fun q _ hq plain => ?_) (fun q f _ hq hf _ offered => ?_)
    fun q f _ hq hf own open_ => ?_
  · rw [same hq, ← idle fun f hf own => absurd own (plain f hf)]
    exact vput_get_same ..
  · rw [same hq, ← idle fun g hg _ => by cases hf.symm.trans hg; exact offered]
    exact vput_get_same ..
  · have some : s.cancellable i = Option.some f := own ▸ State.cancellable_some hf open_
    rw [same hq, some]
    exact vput_get_same ..

theorem State.disputeEntry_seg {f : Flight} (hf : s.seg.flight = some f) (own : f.entry = i) :
    (s.disputeEntry i).seg = s.seg.disputed f p.stream := by
  have same {q : Producer} {g : Flight} (hq : s.entry i = some (.producer q)) (hg : s.seg.flight = some g) :
      s.seg.disputed g q.stream = s.seg.disputed f p.stream := by
    cases he.symm.trans hq
    cases hf.symm.trans hg
    rfl
  exact State.disputeEntry_cases (P := fun t => t.seg = s.seg.disputed f p.stream)
    (fun none => nomatch none.symm.trans (State.producer_of he)) (fun _ _ _ plain => absurd own (plain f hf))
    (fun _ _ _ hq hg _ _ => same hq hg) fun _ _ _ hq hg _ _ => same hq hg

end

end Sys2Proof.Machine
end

section
/-! SUPPORT. Several entries that become DISPUTED in one event: their entries, the slots, the Segmenter and the order of the
events (chapters 3 and 7). -/

namespace Sys2Proof.Machine

/-! ### Turns in a list -/

/-- What holds when the turn of `x` comes (`Q`), kept by every other turn before it, and what its turn makes of it (`R`), kept by
every other turn after it, holds behind the list. -/
theorem State.foldl_at {α : Type} {f : State → α → State} {l : List α} (nodup : l.Nodup) {x : α} (hx : x ∈ l)
    {Q R : State → Prop} {s : State} (start : Q s) (before : ∀ y ∈ l, ∀ t, y ≠ x → Q t → Q (f t y)) (turn : ∀ t, Q t → R (f t x))
    (after : ∀ y ∈ l, ∀ t, y ≠ x → R t → R (f t y)) : R (l.foldl f s) := by
  obtain ⟨a, b, rfl⟩ := List.append_of_mem hx
  obtain ⟨-, hb, apart⟩ := List.nodup_append.1 nodup
  rw [List.foldl_append, List.foldl_cons]
  refine List.foldlRecOn b f (turn _ (List.foldlRecOn a f start fun t ht y hy => ?_)) fun t ht y hy => ?_
  · exact before y (List.mem_append_left _ hy) t (apart y hy x List.mem_cons_self) ht
  · refine after y (List.mem_append_right _ (List.mem_cons_of_mem _ hy)) t ?_ ht
    exact fun e => (List.nodup_cons.1 hb).1 (e ▸ hy)

section
variable (s : State) (l : List EntryIx)

theorem State.disputeTurns_eq : ∃ r v g k, l.foldl State.disputeEntry s = { s with slots := r, streams := v, seg := g, link := k } := by
  refine List.foldlRecOn (motive := fun t => ∃ r v g k, t = { s with slots := r, streams := v, seg := g, link := k }) l
    State.disputeEntry ⟨s.slots, s.streams, s.seg, s.link, rfl⟩ fun t ht i _ => ?_
  obtain ⟨r, v, g, k, rfl⟩ := ht
  obtain ⟨r', v', g', k', h⟩ := State.disputeEntry_eq { s with slots := r, streams := v, seg := g, link := k } i
  exact ⟨r', v', g', k', h⟩

theorem State.disputeTurns_entry_other {i : EntryIx} (h : i ∉ l) : (l.foldl State.disputeEntry s).entry i = s.entry i :=
  List.foldlRecOn (motive := fun t => t.entry i = s.entry i) l State.disputeEntry rfl fun _ ht j hj =>
    (State.disputeEntry_entry_other fun e : j = i => h (e ▸ hj)).trans ht

theorem State.disputeTurns_seg_other (h : ∀ f, s.seg.flight = some f → f.entry ∉ l) : (l.foldl State.disputeEntry s).seg = s.seg :=
  List.foldlRecOn (motive := fun t => t.seg = s.seg) l State.disputeEntry rfl fun _ ht _ hj =>
    (State.disputeEntry_seg_other fun f hf e => h f (ht ▸ hf) (e ▸ hj)).trans ht

theorem State.disputeTurns_slot_free {m : SlotNum} (h : s.slot m = .free) : (l.foldl State.disputeEntry s).slot m = .free :=
  List.foldlRecOn (motive := fun t => t.slot m = .free) l State.disputeEntry h fun _ ht _ _ => State.disputeEntry_slot_free ht

/-- A slot that none of the entries retains, and that holds no page in flight to be withdrawn, stays as it is. -/
theorem State.disputeTurns_slot_kept {m : SlotNum} (hr : s.retainsNone l m)
    (hf : ∀ i ∈ l, ∀ f, s.cancellable i = some f → f.slot ≠ m) (nodup : l.Nodup) :
    (l.foldl State.disputeEntry s).slot m = s.slot m := by
  induction l generalizing s with
  | nil => rfl
  | cons i l ih =>
    obtain ⟨hi, hl⟩ := List.nodup_cons.1 nodup
    have kept : (s.disputeEntry i).slot m = s.slot m :=
      State.disputeEntry_slot_kept (hr i List.mem_cons_self) (hf i List.mem_cons_self)
    refine (ih (s.disputeEntry i) (fun j hj => State.disputeEntry_retainsNone hr j (List.mem_cons_of_mem _ hj))
      (fun j hj f => ?_) hl).trans kept
    rw [State.disputeEntry_cancellable_other fun e : i = j => hi (e ▸ hj)]
    exact hf j (List.mem_cons_of_mem _ hj) f

end

section
variable {s : State} {l : List EntryIx} (nodup : l.Nodup) {i : EntryIx} (hi : i ∈ l) {p : Producer}
  (he : s.entry i = some (.producer p))
include nodup hi he

theorem State.disputeTurns_entry : (l.foldl State.disputeEntry s).entry i =
    some (.producer (if (s.cancellable i).isSome then p.disputedFlight else p.disputed)) := by
  refine State.foldl_at nodup hi (Q := fun t => t.entry i = some (.producer p) ∧ t.cancellable i = s.cancellable i)
    (R := fun t => t.entry i = some (.producer (if (s.cancellable i).isSome then p.disputedFlight else p.disputed)))
    ⟨he, rfl⟩ (fun j _ t other ht => ?_) (fun t ht => ?_) fun j _ t other ht => ?_
  · rw [State.disputeEntry_entry_other other, State.disputeEntry_cancellable_other other]
    exact ht
  · rw [← ht.2]
    exact State.disputeEntry_entry ht.1
  · rw [State.disputeEntry_entry_other other]
    exact ht

theorem State.disputeTurns_slot_retained {m : SlotNum} (hr : p.retained = some m) : (l.foldl State.disputeEntry s).slot m = .free :=
  State.foldl_at nodup hi (Q := fun t => t.entry i = some (.producer p)) (R := fun t => t.slot m = .free) he
    (fun _ _ _ other ht => (State.disputeEntry_entry_other other).trans ht) (fun _ ht => State.disputeEntry_slot_retained ht hr)
    fun _ _ _ _ ht => State.disputeEntry_slot_free ht

variable {f : Flight} (hf : s.seg.flight = some f) (own : f.entry = i)
include hf own

theorem State.disputeTurns_seg : (l.foldl State.disputeEntry s).seg = s.seg.disputed f p.stream := by
  have elsewhere : ∀ g, (s.seg.disputed f p.stream).flight = some g → g.entry = i := by
    intro g hg
    unfold Segmenter.disputed at hg
    split at hg
    · cases hg
      exact own
    · exact nomatch hg
  refine State.foldl_at nodup hi (Q := fun t => t.entry i = some (.producer p) ∧ t.seg = s.seg)
    (R := fun t => t.seg = s.seg.disputed f p.stream) ⟨he, rfl⟩ (fun j _ t other ht => ?_) (fun t ht => ?_)
    fun j _ t other ht => ?_
  · refine ⟨(State.disputeEntry_entry_other other).trans ht.1, (State.disputeEntry_seg_other fun g hg e => ?_).trans ht.2⟩
    rw [ht.2, hf] at hg
    cases hg
    exact other (e.symm.trans own)
  · rw [State.disputeEntry_seg ht.1 (by rw [ht.2, hf]) own, ht.2]
  · refine (State.disputeEntry_seg_other fun g hg e => ?_).trans ht
    exact other (e.symm.trans (elsewhere g (ht ▸ hg)))

/-- The slot of a page in flight that is withdrawn, and that none of the entries retains, returns to WRITING (R8). -/
theorem State.disputeTurns_slot_pulled (open_ : f.closeOffered = false) (hr : s.retainsNone l f.slot)
    (used : s.slot f.slot ≠ .free) : (l.foldl State.disputeEntry s).slot f.slot = .writing := by
  induction l generalizing s with
  | nil => exact nomatch hi
  | cons j l ih =>
    obtain ⟨hj, hl⟩ := List.nodup_cons.1 nodup
    have retains : (s.disputeEntry j).retainsNone l f.slot := fun k hk =>
      State.disputeEntry_retainsNone hr k (List.mem_cons_of_mem _ hk)
    rw [List.foldl_cons]
    by_cases e : j = i
    · subst e
      have none (k : EntryIx) : (s.disputeEntry j).cancellable k = Option.none := by
        rw [State.cancellable, State.disputeEntry_seg he hf own, Segmenter.disputed,
          if_neg (by rw [open_]; exact Bool.false_ne_true)]
        rfl
      rw [State.disputeTurns_slot_kept _ l retains (fun k _ g hg => nomatch (none k).symm.trans hg) hl]
      exact State.disputeEntry_slot_pulled he hf own open_ (hr j List.mem_cons_self p he) used
    · have seg : (s.disputeEntry j).seg = s.seg := State.disputeEntry_seg_other fun g hg own' => by
        cases hf.symm.trans hg
        exact e (own'.symm.trans own)
      have kept : (s.disputeEntry j).slot f.slot = s.slot f.slot :=
        State.disputeEntry_slot_kept (hr j List.mem_cons_self) fun g hg => by
          rw [State.cancellable_none fun g hg own' => by cases hf.symm.trans hg; exact absurd (own'.symm.trans own) e] at hg
          exact nomatch hg
      exact ih hl ((List.mem_cons.1 hi).resolve_left (Ne.symm e)) ((State.disputeEntry_entry_other e).trans he)
        (seg ▸ hf) retains (kept ▸ used)

end

/-! ### All of one event (R56) -/

theorem State.insertEvents_seg (s : State) (l : List Event) : (s.insertEvents l).seg = s.seg := by
  obtain ⟨q, c, h⟩ := s.insertEvents_eq l
  rw [h]

theorem State.insertEvents_slot (s : State) (l : List Event) (m : SlotNum) : (s.insertEvents l).slot m = s.slot m := by
  obtain ⟨q, c, h⟩ := s.insertEvents_eq l
  rw [h]
  rfl

theorem State.insertEvents_time (s : State) (l : List Event) : (s.insertEvents l).time = s.time :=
  State.time_of_clock (s.insertEvents_clock l)

theorem State.insertEvents_publish (s : State) (l : List Event) : (s.insertEvents l).publish = s.publish := by
  obtain ⟨q, c, h⟩ := s.insertEvents_eq l
  rw [h]

/-- The STREAM_DISPUTED events of entries with their claimants (R23). -/
def State.disputedEvents (s : State) (l : List (EntryIx × Station)) : List Event :=
  l.map fun e => .streamDisputed (s.streamOf e.1) e.2

/-- Whether a descriptor is of an entry of the list. -/
def Descriptor.isOf (l : List EntryIx) (d : Descriptor) : Bool := l.contains d.entry

theorem Descriptor.isOf_iff (l : List EntryIx) (d : Descriptor) : d.isOf l = true ↔ d.entry ∈ l := List.contains_iff_mem

/-- The state in which the entries have had their turns and their descriptors have left the queue; the SENT events are missing. -/
def State.disputedAll (s : State) (l : List (EntryIx × Station)) : State :=
  ((l.map Prod.fst).foldl State.disputeEntry (s.insertEvents (s.disputedEvents l))).returnQueued (Descriptor.isOf (l.map Prod.fst))

section
variable (s : State) (l : List (EntryIx × Station))

theorem State.disputeAll_eq : s.disputeAll l = (s.disputedAll l).insertSents
    (s.sentOf (Descriptor.isOf (l.map Prod.fst)) .disputed) ((s.flightDisputed (l.map Prod.fst)).map fun f => s.flightSent f .disputed) := by
  have told : s.insertEvents (s.disputedEvents l) = l.foldl (fun u e => u.insertEvent (.streamDisputed (s.streamOf e.1) e.2)) s := by
    rw [State.insertEvents, State.disputedEvents, List.foldl_map]
  rw [State.disputedAll, told]
  rfl

theorem State.disputeTurns_publish :
    ((l.map Prod.fst).foldl State.disputeEntry (s.insertEvents (s.disputedEvents l))).publish = s.publish := by
  obtain ⟨r, v, g, k, turns⟩ := State.disputeTurns_eq (s.insertEvents (s.disputedEvents l)) (l.map Prod.fst)
  rw [turns]
  exact State.insertEvents_publish ..

theorem State.disputedAll_publish : (s.disputedAll l).publish =
    { s.publish with queue := s.publish.queue.filter fun d => !d.isOf (l.map Prod.fst) } := by
  obtain ⟨r, queue⟩ := State.returnQueued_eq ((l.map Prod.fst).foldl State.disputeEntry (s.insertEvents (s.disputedEvents l)))
    (Descriptor.isOf (l.map Prod.fst))
  rw [State.disputedAll, queue]
  dsimp only
  rw [State.disputeTurns_publish]

theorem State.disputedAll_entry (i : EntryIx) : (s.disputedAll l).entry i =
    ((l.map Prod.fst).foldl State.disputeEntry (s.insertEvents (s.disputedEvents l))).entry i := by
  obtain ⟨r, queue⟩ := State.returnQueued_eq ((l.map Prod.fst).foldl State.disputeEntry (s.insertEvents (s.disputedEvents l)))
    (Descriptor.isOf (l.map Prod.fst))
  rw [State.disputedAll, queue]
  rfl

theorem State.disputedAll_seg : (s.disputedAll l).seg =
    ((l.map Prod.fst).foldl State.disputeEntry (s.insertEvents (s.disputedEvents l))).seg := by
  obtain ⟨r, queue⟩ := State.returnQueued_eq ((l.map Prod.fst).foldl State.disputeEntry (s.insertEvents (s.disputedEvents l)))
    (Descriptor.isOf (l.map Prod.fst))
  rw [State.disputedAll, queue]

theorem State.disputedAll_events : (s.disputedAll l).events = (s.insertEvents (s.disputedEvents l)).events ∧
    (s.disputedAll l).time = (s.insertEvents (s.disputedEvents l)).time := by
  obtain ⟨r, v, g, k, turns⟩ := State.disputeTurns_eq (s.insertEvents (s.disputedEvents l)) (l.map Prod.fst)
  obtain ⟨r', queue⟩ := State.returnQueued_eq ((l.map Prod.fst).foldl State.disputeEntry (s.insertEvents (s.disputedEvents l)))
    (Descriptor.isOf (l.map Prod.fst))
  rw [State.disputedAll, queue, turns]
  exact ⟨rfl, rfl⟩

theorem State.disputeAll_frame : (s.disputeAll l).publish = (s.disputedAll l).publish ∧ (s.disputeAll l).seg = (s.disputedAll l).seg ∧
    (∀ i, (s.disputeAll l).entry i = (s.disputedAll l).entry i) ∧ ∀ m, (s.disputeAll l).slot m = (s.disputedAll l).slot m := by
  rw [State.disputeAll_eq]
  exact ⟨State.insertEvents_publish .., State.insertEvents_seg .., State.insertEvents_entry _ _, State.insertEvents_slot _ _⟩

theorem State.sentOf_disputed : s.sentOf (Descriptor.isOf (l.map Prod.fst)) .disputed =
    (s.publish.queue.filter fun d => decide (d.entry ∈ l.map Prod.fst)).filterMap (s.queuedSent .disputed) := by
  refine congrArg (List.filterMap _) (List.filter_congr fun d _ => ?_)
  rw [Bool.eq_iff_iff, Descriptor.isOf_iff, decide_eq_true_iff]

theorem State.flightDisputed_none (h : ∀ f, s.seg.flight = some f → f.entry ∈ l.map Prod.fst → f.closeOffered = true) :
    s.flightDisputed (l.map Prod.fst) = none := by
  refine Option.filter_eq_none_iff.2 fun f hf => ?_
  by_cases own : f.entry ∈ l.map Prod.fst
  · simp [h f hf own]
  · simp [own]

theorem State.flightDisputed_some {f : Flight} (hf : s.seg.flight = some f) (own : f.entry ∈ l.map Prod.fst)
    (open_ : f.closeOffered = false) : s.flightDisputed (l.map Prod.fst) = some f := by
  rw [State.flightDisputed, hf, Option.filter_some, if_pos]
  rw [List.contains_iff_mem.2 own, open_]
  rfl

/-- The events of a dispute without a page in flight to be withdrawn: STREAM_DISPUTED, then the queued pages' SENT. -/
theorem State.disputeAll_events_queued (h : ∀ f, s.seg.flight = some f → f.entry ∈ l.map Prod.fst → f.closeOffered = true) :
    (s.disputeAll l).events = (s.insertEvents (s.disputedEvents l ++
      (s.publish.queue.filter fun d => decide (d.entry ∈ l.map Prod.fst)).filterMap fun d =>
        (s.queuedSent .disputed d).map Prod.snd)).events := by
  obtain ⟨events, time⟩ := s.disputedAll_events l
  rw [State.disputeAll_eq, s.flightDisputed_none l h, Option.map_none, State.sentOf_disputed, State.insertSents_queued,
    State.insertEvents_append]
  exact State.insertEvents_events _ events time

/-- With a page in flight that is withdrawn, its SENT stands at its place in posting order (R51). -/
theorem State.disputeAll_events_flight {f : Flight} (hf : s.seg.flight = some f) (own : f.entry ∈ l.map Prod.fst)
    (open_ : f.closeOffered = false) {before after : List Descriptor}
    (split : (s.publish.queue.filter fun d => decide (d.entry ∈ l.map Prod.fst)) = before ++ after)
    (hb : ∀ d ∈ before, d.seq < f.seq) (ha : ∀ d ∈ after, f.seq ≤ d.seq) :
    (s.disputeAll l).events = (s.insertEvents (s.disputedEvents l ++
      (before.filterMap (fun d => (s.queuedSent .disputed d).map Prod.snd) ++
        (s.flightSent f .disputed).2 :: after.filterMap fun d => (s.queuedSent .disputed d).map Prod.snd))).events := by
  obtain ⟨events, time⟩ := s.disputedAll_events l
  rw [State.disputeAll_eq, s.flightDisputed_some l hf own open_, Option.map_some, State.sentOf_disputed, split,
    State.insertSents_flight _ _ _ _ _ _ hb ha, s.insertEvents_append (s.disputedEvents l)]
  exact State.insertEvents_events _ events time

end

section
variable {s : State} {l : List (EntryIx × Station)} (nodup : (l.map Prod.fst).Nodup)
include nodup

theorem State.disputeAll_entry {i : EntryIx} (mine : i ∈ l.map Prod.fst) {p : Producer} (he : s.entry i = some (.producer p)) :
    (s.disputeAll l).entry i = some (.producer (if (s.cancellable i).isSome then p.disputedFlight else p.disputed)) := by
  rw [(s.disputeAll_frame l).2.2.1, State.disputedAll_entry, State.disputeTurns_entry nodup mine ((State.insertEvents_entry ..).trans he),
    State.cancellable, State.insertEvents_seg]
  rfl

omit nodup in
theorem State.disputeAll_entry_other {i : EntryIx} (other : i ∉ l.map Prod.fst) : (s.disputeAll l).entry i = s.entry i := by
  rw [(s.disputeAll_frame l).2.2.1, State.disputedAll_entry, State.disputeTurns_entry_other _ _ other, State.insertEvents_entry]

omit nodup in
theorem State.disputeAll_seg_other (other : ∀ f, s.seg.flight = some f → f.entry ∉ l.map Prod.fst) : (s.disputeAll l).seg = s.seg := by
  rw [(s.disputeAll_frame l).2.1, State.disputedAll_seg, State.disputeTurns_seg_other _ _ (by rw [State.insertEvents_seg]; exact other),
    State.insertEvents_seg]

theorem State.disputeAll_seg {f : Flight} (hf : s.seg.flight = some f) (mine : f.entry ∈ l.map Prod.fst) {p : Producer}
    (he : s.entry f.entry = some (.producer p)) : (s.disputeAll l).seg = s.seg.disputed f p.stream := by
  rw [(s.disputeAll_frame l).2.1, State.disputedAll_seg, State.disputeTurns_seg nodup mine ((State.insertEvents_entry ..).trans he)
    (by rw [State.insertEvents_seg]; exact hf) rfl, State.insertEvents_seg]

/-- A slot that a disputed entry retained is FREE (R9). -/
theorem State.disputeAll_slot_freed {i : EntryIx} (mine : i ∈ l.map Prod.fst) {p : Producer} (he : s.entry i = some (.producer p))
    {m : SlotNum} (hr : p.retained = some m) : (s.disputeAll l).slot m = .free := by
  rw [(s.disputeAll_frame l).2.2.2]
  exact (State.returnQueued_slot _ _ m).2.2
    (State.disputeTurns_slot_retained nodup mine ((State.insertEvents_entry ..).trans he) hr)

/-- Slot `m` holds a queued page of an entry of the list. -/
def State.queuedBy (s : State) (l : List EntryIx) (m : SlotNum) : Prop :=
  ∃ d ∈ s.publish.queue, d.entry ∈ l ∧ ∃ len report tail, d.body = .page m len report tail

/-- The turns of the entries put WRITING the slot of the page in flight that is withdrawn, and leave any other that none of them
retains. -/
theorem State.disputeTurns_slot {m : SlotNum} (retains : s.retainsNone (l.map Prod.fst) m) :
    ((∃ f p, s.seg.flight = some f ∧ f.entry ∈ l.map Prod.fst ∧ s.entry f.entry = some (.producer p) ∧ f.closeOffered = false ∧
        f.slot = m) → s.slot m ≠ .free →
      ((l.map Prod.fst).foldl State.disputeEntry (s.insertEvents (s.disputedEvents l))).slot m = .writing) ∧
    ((∀ f, s.seg.flight = some f → f.entry ∈ l.map Prod.fst → f.closeOffered = false → f.slot ≠ m) →
      ((l.map Prod.fst).foldl State.disputeEntry (s.insertEvents (s.disputedEvents l))).slot m = s.slot m) := by
  have retains' : (s.insertEvents (s.disputedEvents l)).retainsNone (l.map Prod.fst) m := fun j hj p he =>
    retains j hj p ((State.insertEvents_entry ..).symm.trans he)
  constructor
  · rintro ⟨f, p, hf, mine, he, open_, rfl⟩ used
    exact State.disputeTurns_slot_pulled nodup mine ((State.insertEvents_entry ..).trans he)
      (by rw [State.insertEvents_seg]; exact hf) rfl open_ retains' (by rw [State.insertEvents_slot]; exact used)
  · intro other
    refine (State.disputeTurns_slot_kept _ _ retains' (fun i hi f hf => ?_) nodup).trans (State.insertEvents_slot ..)
    rw [State.cancellable, State.insertEvents_seg, Option.filter_eq_some_iff] at hf
    obtain ⟨hf, both⟩ := hf
    simp only [Bool.and_eq_true, beq_iff_eq, Bool.not_eq_true'] at both
    exact other f hf (both.1 ▸ hi) both.2

omit nodup in
theorem State.returnQueued_isOf (t : State) (h : t.publish = s.publish) (m : SlotNum) :
    (s.queuedBy (l.map Prod.fst) m → t.slot m ≠ .free → (t.returnQueued (Descriptor.isOf (l.map Prod.fst))).slot m = .writing) ∧
    (¬ s.queuedBy (l.map Prod.fst) m → (t.returnQueued (Descriptor.isOf (l.map Prod.fst))).slot m = t.slot m) := by
  have named : (∃ d ∈ t.publish.queue, d.isOf (l.map Prod.fst) = true ∧ ∃ len report tail, d.body = .page m len report tail) ↔
      s.queuedBy (l.map Prod.fst) m := by
    simp only [h, Descriptor.isOf_iff, State.queuedBy]
  obtain ⟨returned, kept, -⟩ := t.returnQueued_slot (Descriptor.isOf (l.map Prod.fst)) m
  exact ⟨fun q => returned (named.2 q), fun q => kept (mt named.1 q)⟩

/-- The slot of a queued page, or of the page in flight that is withdrawn, is WRITING (R8). -/
theorem State.disputeAll_slot_returned {m : SlotNum} (retains : s.retainsNone (l.map Prod.fst) m) (used : s.slot m ≠ .free)
    (producers : ∀ i ∈ l.map Prod.fst, ∃ p, s.entry i = some (.producer p)) (h : s.queuedBy (l.map Prod.fst) m ∨ ∃ f p, s.seg.flight = some f ∧ f.entry ∈ l.map Prod.fst ∧
      s.entry f.entry = some (.producer p) ∧ f.closeOffered = false ∧ f.slot = m) : (s.disputeAll l).slot m = .writing := by
  obtain ⟨pulled, kept⟩ := State.disputeTurns_slot nodup retains
  obtain ⟨returned, left⟩ := State.returnQueued_isOf (l := l) _ (s.disputeTurns_publish l) m
  rw [(s.disputeAll_frame l).2.2.2]
  by_cases hf : ∃ f p, s.seg.flight = some f ∧ f.entry ∈ l.map Prod.fst ∧ s.entry f.entry = some (.producer p) ∧
      f.closeOffered = false ∧ f.slot = m
  · have writing := pulled hf used
    by_cases hq : s.queuedBy (l.map Prod.fst) m
    · exact returned hq (by rw [writing]; decide)
    · exact (left hq).trans writing
  · have hq := h.resolve_right hf
    refine returned hq ?_
    rw [kept]
    · exact used
    · intro f flight mine open_ same
      obtain ⟨p, he⟩ := producers f.entry mine
      exact hf ⟨f, p, flight, mine, he, open_, same⟩

/-- Every other slot stays as it is. -/
theorem State.disputeAll_slot_kept {m : SlotNum} (retains : s.retainsNone (l.map Prod.fst) m)
    (other : ∀ f, s.seg.flight = some f → f.entry ∈ l.map Prod.fst → f.closeOffered = false → f.slot ≠ m)
    (unqueued : ¬ s.queuedBy (l.map Prod.fst) m) : (s.disputeAll l).slot m = s.slot m := by
  rw [(s.disputeAll_frame l).2.2.2, ← (State.disputeTurns_slot nodup retains).2 other]
  exact (State.returnQueued_isOf (l := l) _ (s.disputeTurns_publish l) m).2 unqueued

end

/-! ### A single entry in dispute -/

/-- The turn of an entry with no page in flight and no frame of it in the holding frame. -/
theorem State.disputeEntry_quiet {s : State} {i : EntryIx} {p : Producer} (he : s.entry i = some (.producer p)) (hn : s.holdsNone i)
    (hf : s.seg.flight = none) : s.disputeEntry i =
      { s.freeRef p.retained with streams := vput s.streams i (some (.producer p.disputed)) } := by
  have freed : (s.freeRef p.retained).entry i = some (.producer p) := by
    rw [State.freeRef_eq]
    exact he
  have holds : (s.freeRef p.retained).holdsNone i := by
    rw [State.freeRef_eq]
    exact hn
  rw [State.disputeEntry, State.producer_of he, hf]
  dsimp only
  rw [State.modProducer_of freed, State.emptyPending_other (by exact holds), State.entry_of_streams rfl]
  simp only [State.setEntry, vput_vput]
  rw [State.freeRef_eq]
  rfl

theorem State.returnQueued_empty {s : State} (h : s.publish.queue = []) (p : Descriptor → Bool) : s.returnQueued p = s := by
  rw [State.returnQueued, h, List.filter_nil, List.filter_nil, List.foldl_nil, State.setQueue, ← h]

/-- One entry that becomes DISPUTED, with no page in flight, no descriptor queued and no frame of it in the holding frame. -/
theorem State.disputeAll_single {s : State} {i : EntryIx} {p : Producer} (he : s.entry i = some (.producer p)) (hn : s.holdsNone i)
    (hq : s.publish.queue = []) (hf : s.seg.flight = none) (n : Station) : s.disputeAll [(i, n)] =
      { (s.insertEvent (.streamDisputed p.stream n)).freeRef p.retained with
        streams := vput s.streams i (some (.producer p.disputed)) } := by
  have holds : (s.insertEvent (.streamDisputed p.stream n)).holdsNone i := fun x hx =>
    hn x ((State.insertEvent_holding ..).symm.trans hx)
  have queue : (s.disputedAll [(i, n)]) = { (s.insertEvent (.streamDisputed p.stream n)).freeRef p.retained with
      streams := vput s.streams i (some (.producer p.disputed)) } := by
    have turn := State.disputeEntry_quiet ((State.insertEvent_entry s (.streamDisputed p.stream n) i).trans he) holds
      (by rw [State.insertEvent_seg]; exact hf)
    have told : s.disputedEvents [(i, n)] = [.streamDisputed p.stream n] := by
      rw [State.disputedEvents, List.map_singleton, State.streamOf_of he]
      rfl
    rw [State.disputedAll, State.returnQueued_empty (by rw [State.disputeTurns_publish]; exact hq), told]
    refine turn.trans ?_
    rw [State.insertEvent_streams]
  have sent : s.sentOf (Descriptor.isOf [i]) .disputed = [] := by rw [State.sentOf, hq, List.filter_nil, List.filterMap_nil]
  have flight : s.flightDisputed [i] = none := by rw [State.flightDisputed, hf]; rfl
  rw [State.disputeAll_eq, queue]
  simp only [List.map_cons, List.map_nil, sent, flight]
  rfl

/-! ### A ROLL that puts one entry in dispute (R130) -/

/-- What only one entry can give. -/
theorem allEntries_filterMap_only {α : Type} {f : EntryIx → Option α} {i : EntryIx} {x : α} (hi : f i = some x)
    (other : ∀ j, j ≠ i → f j = none) : allEntries.filterMap f = [x] := by
  obtain ⟨a, b, hab⟩ := List.append_of_mem (List.mem_finRange i)
  have nodup : (a ++ i :: b).Nodup := hab ▸ List.nodup_finRange 16
  obtain ⟨-, hb, apart⟩ := List.nodup_append.1 nodup
  have ha : a.filterMap f = [] := List.filterMap_eq_nil_iff.2 fun j hj => other j (apart j hj i List.mem_cons_self)
  have hb' : b.filterMap f = [] := List.filterMap_eq_nil_iff.2 fun j hj =>
    other j fun e => (List.nodup_cons.1 hb).1 (e ▸ hj)
  rw [allEntries, hab, List.filterMap_append, ha, List.filterMap_cons, hi, hb']
  rfl

/-- A ROLL of a lower, PRESENT peer that claims the stream of the one entry in use, which is OPEN. -/
theorem State.disputesAtRoll_only {s : State} {n : Station} {i : EntryIx} {p : Producer} (transmits : s.transmits = true)
    (below : n < s.presence.station) (present : (s.peer n).isPresent = true) (he : s.entry i = some (.producer p))
    (others : ∀ j, j ≠ i → s.entry j = none) (ho : p.state = .opened) (claimed : ∃ c ∈ (s.peer n).claims, c.stream = p.stream) :
    s.disputesAtRoll n = [(i, n)] := by
  rw [State.disputesAtRoll_eq, if_pos ⟨transmits, below, present⟩]
  refine allEntries_filterMap_only (State.claimedBy_eq_some.2 ⟨rfl, p, he, ho, claimed⟩) fun j hj => ?_
  rw [State.claimedBy, State.producer_of_none (others j hj)]

/-- Settles O54: a ROLL that disputes the one entry in use; then the queue, the slots, the entries, the Segmenter and the events
that several disputed entries leave. -/
theorem disputesDisputeTheEntry : Obligations.DisputesDisputeTheEntry := by
  refine ⟨fun src count claims i p s h ok active below present notRenewed he others ho claimed hq hf hn => ?_,
    fun l s nodup producers => ?_⟩
  · intro peer rolled told
    have same : ((s.peer src).lastCount.any fun c => decide (count < c)) = false := by
      cases hc : (s.peer src).lastCount with
      | none => rfl
      | some c => exact decide_eq_false (notRenewed c hc)
    have entry : rolled.entry i = some (.producer p) := he
    have unclaimed : rolled.forEntries (State.claimsChanged src (s.peer src).claims) = rolled := by
      refine State.forEntries_fixed fun j => State.claimsChanged_other ?_
      by_cases e : j = i
      · exact e ▸ State.consumer_of_producer entry
      · exact State.consumer_of_none (others j e)
    have listed : rolled.peer src = peer := vput_get_same ..
    have disputed : rolled.disputesAtRoll src = [(i, src)] := by
      obtain ⟨c, hc, stream⟩ := claimed
      refine State.disputesAtRoll_only ((State.transmits_iff _).2 ?_) below (by rw [listed]) entry others ho ?_
      · exact active ▸ List.mem_cons_self
      · exact ⟨claimOf c, listed ▸ List.mem_map_of_mem hc, stream⟩
    have rows : s.heard.rollOnPeer src false count (claims.map claimOf) = rolled :=
      (State.rollOnPeer_recorded (s := s.heard) count _ present same).trans unclaimed
    rw [exec_rollFrame_rows h ok below.ne (by rw [active]; decide), rows, State.rollEnds, disputed,
      State.disputeAll_single entry hn hq hf src]
    rfl
  · intro t mine pulled freed returned told ours sent
    have isProducer : ∀ i ∈ l.map Prod.fst, ∃ p, s.entry i = some (.producer p) := by
      intro i hi
      obtain ⟨e, he, rfl⟩ := List.mem_map.1 hi
      exact producers e he
    have retains (m : SlotNum) (no : ¬ freed m) : s.retainsNone (l.map Prod.fst) m := fun j hj p he hr => no ⟨j, p, hj, he, hr⟩
    have toSent (d : Descriptor) : (s.queuedSent .disputed d).map Prod.snd = sent d := by
      unfold State.queuedSent sent
      cases d.body <;> rfl
    refine ⟨?_, fun m => ⟨?_, fun no back used => ?_, fun no unmoved => ?_⟩, fun i p hi he => ⟨fun other => ?_, fun f hp own => ?_⟩,
      fun i hi => State.disputeAll_entry_other hi, fun f hp => ?_, fun f hf hi offered => ?_,
      fun other => State.disputeAll_seg_other other, fun none => ?_, fun f before after hp split hb ha => ?_⟩
    · rw [(s.disputeAll_frame l).1, State.disputedAll_publish]
      refine congrArg (fun q => { s.publish with queue := q }) (List.filter_congr fun d _ => ?_)
      rw [Bool.eq_iff_iff, Bool.not_eq_true', decide_eq_true_iff, ← Bool.not_eq_true, Descriptor.isOf_iff]
    · rintro ⟨i, p, hi, he, hr⟩
      exact State.disputeAll_slot_freed nodup hi he hr
    · refine State.disputeAll_slot_returned nodup (retains m no) used isProducer (back.imp id ?_)
      rintro ⟨f, ⟨hf, hi, open_⟩, same⟩
      obtain ⟨p, he⟩ := isProducer _ hi
      exact ⟨f, p, hf, hi, he, open_, same⟩
    · exact State.disputeAll_slot_kept nodup (retains m no)
        (fun f hf hi open_ same => unmoved (.inr ⟨f, ⟨hf, hi, open_⟩, same⟩)) fun q => unmoved (.inl q)
    · rw [State.disputeAll_entry nodup hi he, State.cancellable_none fun f hf own => ?_]
      · rfl
      · cases open_ : f.closeOffered with
        | true => rfl
        | false => exact absurd own (other f ⟨hf, own ▸ hi, open_⟩)
    · rw [State.disputeAll_entry nodup hi he, ← own, State.cancellable_some hp.1 hp.2.2]
      rfl
    · obtain ⟨hf, hi, open_⟩ := hp
      obtain ⟨p, he⟩ := isProducer _ hi
      rw [State.disputeAll_seg nodup hf hi he, Segmenter.disputed, if_neg (by rw [open_]; exact Bool.false_ne_true),
        State.streamOf_of he]
      rfl
    · obtain ⟨p, he⟩ := isProducer _ hi
      rw [State.disputeAll_seg nodup hf hi he, Segmenter.disputed, if_pos offered]
    · rw [State.disputeAll_events_queued _ _ fun f hf hi => ?_]
      · simp only [toSent]
        rfl
      · cases open_ : f.closeOffered with
        | true => rfl
        | false => exact absurd ⟨hf, hi, open_⟩ (none f)
    · obtain ⟨hf, hi, open_⟩ := hp
      rw [State.disputeAll_events_flight _ _ hf hi open_ split hb ha]
      simp only [toSent]
      rfl

end Sys2Proof.Machine
end

section
/-! SUPPORT. Entry to ACTIVE: which entries are in dispute, which open and which choose; the boundary keeps the Presence Unit; and
the roll and listen timers (chapter 7). -/

namespace Sys2Proof.Machine

/-! ### The boundary keeps the Presence Unit -/

@[simp] theorem State.offer_clock (s : State) (k : OfferedKind) (f : Frame) : (s.offer k f).clock = s.clock := rfl

@[simp] theorem State.offerFlight_clock (s : State) (f : Flight) : (s.offerFlight f).clock = s.clock := by
  unfold State.offerFlight
  split <;> simp

@[simp] theorem State.selectDescriptor_clock (s : State) (d : Descriptor) : (s.selectDescriptor d).clock = s.clock := by
  unfold State.selectDescriptor
  split <;> simp

@[simp] theorem State.select_clock (s : State) : s.select.clock = s.clock := by
  unfold State.select
  split <;> simp

@[simp] theorem State.offerPass_clock (s : State) (ps : Pass) (p : Producer) (n : SlotNum) :
    (s.offerPass ps p n).clock = s.clock := by
  unfold State.offerPass
  dsimp only
  split <;> simp

@[simp] theorem State.beginPass_clock (s : State) (i : EntryIx) : (s.beginPass i).clock = s.clock := by
  unfold State.beginPass
  split
  · split <;> simp
  · rfl

@[simp] theorem State.continuePass_clock (s : State) (ps : Pass) : (s.continuePass ps).clock = s.clock := by
  unfold State.continuePass
  split
  · split <;> simp
  · rfl

@[simp] theorem State.boundaryNew_clock (s : State) : s.boundaryNew.clock = s.clock := by
  unfold State.boundaryNew State.boundaryRest
  split
  · simp
  · split <;> simp

@[simp] theorem State.boundary_clock (s : State) : s.boundary.clock = s.clock := by
  unfold State.boundary
  split
  · split
    · split <;> simp
    · simp
  · rfl

/-- Outside LEAVING the end of an event keeps the Presence Unit and the Time Base. -/
theorem State.settle_clock {s : State} (h : s.presence.state ≠ .leaving) : s.settle.clock = s.clock := by
  have kept : (s.forEntries State.applyMarkers).boundary.clock = s.clock :=
    (State.boundary_clock _).trans (State.forEntries_keeps State.clock State.applyMarkers_clock s)
  rw [State.settle, State.testLeaving_other (by rw [State.presence_of_clock kept]; exact h), kept]

/-- On an ACTIVE station with no page, no pass asked for and an empty Publish Queue the end of an event does nothing. -/
theorem State.settle_idle {s : State} (ha : s.presence.state = .active) (hs : s.seg = ⟨none, none, none, none⟩)
    (hq : s.publish.queue = []) (hw : ∀ i p, s.entry i = some (.producer p) → p.state ≠ .opened ∨ p.repairTag = none) :
    s.settle = s := by
  have unwanted (i : EntryIx) : s.passWanted i = none := by
    unfold State.passWanted
    split
    next p hp =>
      refine if_neg fun ⟨ho, tagged, _⟩ => ?_
      rcases hw i p (State.entry_of_producer hp) with h | h
      · exact h ho
      · rw [h] at tagged
        exact Bool.false_ne_true tagged
    next => rfl
  have nothing : s.select = s := by rw [State.select, State.selectable, hq]; rfl
  rw [State.settle_select ha hs (by rw [hq]; exact fun _ hd => nomatch hd) unwanted, nothing,
    State.testLeaving_other (by rw [ha]; decide)]

/-! ### Disputes at entry to ACTIVE (R121) -/

@[simp] theorem State.disputeAll_clock (s : State) (l : List (EntryIx × Station)) : (s.disputeAll l).clock = s.clock := by
  obtain ⟨r, v, g, k, turns⟩ := State.disputeTurns_eq (s.insertEvents (s.disputedEvents l)) (l.map Prod.fst)
  obtain ⟨r', queue⟩ := State.returnQueued_eq ((l.map Prod.fst).foldl State.disputeEntry (s.insertEvents (s.disputedEvents l)))
    (Descriptor.isOf (l.map Prod.fst))
  rw [State.disputeAll_eq]
  refine (State.insertEvents_clock _ _).trans ?_
  rw [State.disputedAll, queue, turns]
  exact State.insertEvents_clock ..

/-- Entry `i` with the lowest station below the own one that claims its stream, unless the entry is DISPUTED already. -/
def State.disputedAtActive (s : State) (i : EntryIx) : Option (EntryIx × Station) :=
  match s.producer i with
  | some p => if p.state = .disputed then none else (s.lowerClaimant p.stream).map fun n => (i, n)
  | none => none

theorem State.disputesAtActive_eq (s : State) : s.disputesAtActive = allEntries.filterMap s.disputedAtActive := rfl

theorem State.disputedAtActive_unused {s : State} {i : EntryIx} (h : s.producer i = none) : s.disputedAtActive i = none := by
  rw [State.disputedAtActive, h]

theorem State.disputedAtActive_of {s : State} {i : EntryIx} {p : Producer} (he : s.entry i = some (.producer p))
    (hd : p.state ≠ .disputed) : s.disputedAtActive i = (s.lowerClaimant p.stream).map fun n => (i, n) := by
  rw [State.disputedAtActive, State.producer_of he]
  exact if_neg hd

theorem State.disputedAtActive_entry {s : State} {i : EntryIx} {e : EntryIx × Station} (h : s.disputedAtActive i = some e) :
    e.1 = i ∧ s.entry i ≠ none := by
  unfold State.disputedAtActive at h
  split at h
  next p hp =>
    refine ⟨?_, fun none => nomatch none.symm.trans (State.entry_of_producer hp)⟩
    split at h
    · exact nomatch h
    · obtain ⟨n, -, rfl⟩ := Option.map_eq_some_iff.1 h
      rfl
  next => exact nomatch h

theorem State.disputesAtActive_none {s : State} (h : ∀ i, s.disputedAtActive i = none) : s.disputesAtActive = [] :=
  List.filterMap_eq_nil_iff.2 fun i _ => h i

theorem State.lowerClaimant_none {s : State} {id : StreamId} (h : ∀ n ∈ s.claimants id, s.presence.station ≤ n) :
    s.lowerClaimant id = none :=
  List.find?_eq_none.2 fun n hn below => absurd (of_decide_eq_true below) (not_lt.2 (h n hn))

/-! ### Entries that open and entries that choose -/

theorem State.openEntry_other {s : State} {i : EntryIx} (h : s.producer i = none) : State.openEntry i s = s := by
  unfold State.openEntry State.modProducer
  split
  next p he => exact nomatch h.symm.trans (State.producer_of he)
  next => rfl

theorem State.openEntry_of {s : State} {i : EntryIx} {p : Producer} (he : s.entry i = some (.producer p)) :
    State.openEntry i s = { s with
      streams := vput s.streams i (some (.producer (if p.state = .declared then p.toOpen s.floor else p))) } :=
  State.modProducer_of he _

theorem State.openEntry_kept {s : State} {i : EntryIx} {p : Producer} (he : s.entry i = some (.producer p))
    (hd : p.state ≠ .declared) : State.openEntry i s = s := by
  rw [State.openEntry_of he, if_neg hd, vput_self _ _ _ he]

@[simp] theorem State.openEntry_clock (i : EntryIx) (s : State) : (State.openEntry i s).clock = s.clock :=
  s.modProducer_clock i _

theorem State.chooseProducer_entry_other {s : State} {i j : EntryIx} (h : i ≠ j) : (s.chooseProducer i).entry j = s.entry j := by
  unfold State.chooseProducer
  split
  · split
    · split
      · exact s.modConsumer_entry_other h _
      · split
        · rfl
        · exact s.modConsumer_entry_other h _
    · rfl
  · rfl

theorem State.chooseWaiting_entry_other {s : State} {i j : EntryIx} (h : i ≠ j) :
    (State.chooseWaiting i s).entry j = s.entry j := by
  unfold State.chooseWaiting
  split
  · split
    · exact State.chooseProducer_entry_other h
    · rfl
  · rfl

theorem State.chooseWaiting_other {s : State} {i : EntryIx} (h : s.consumer i = none) : State.chooseWaiting i s = s := by
  rw [State.chooseWaiting, h]

section
variable {s : State} {i : EntryIx} {c : Consumer} (he : s.entry i = some (.consumer c))
include he

theorem State.chooseWaiting_of (hm : c.mode = .lockStep) (hw : c.state = .waiting) : State.chooseWaiting i s = s.chooseProducer i := by
  rw [State.chooseWaiting, State.consumer_of he]
  exact if_pos ⟨hm, hw⟩

theorem State.chooseWaiting_kept (h : c.mode = .freeRun ∨ c.state ≠ .waiting) : State.chooseWaiting i s = s := by
  rw [State.chooseWaiting, State.consumer_of he]
  refine if_neg fun ⟨hm, hw⟩ => ?_
  rcases h with h | h
  · exact nomatch hm.symm.trans h
  · exact h hw

end

/-! ### Entry to ACTIVE (R121) -/

/-- The station in ACTIVE with STATION_STATE inserted: the roll timer due R later, a ROLL pending, the listen timer stopped; the
entries have not been looked at. -/
def State.activated (s : State) : State :=
  ({ s with presence := { s.presence with
      state := .active, listenTimer := none, rollTimer := some (s.time + millis s.rollPeriod), rollPending := true
      leavingPlaced := false } } : State).insertEvent (.stationState s.presence.state .active)

theorem State.enterActive_eq (s : State) : s.enterActive =
    ((s.activated.disputeAll s.disputesAtActive).forEntries State.openEntry).forEntries State.chooseWaiting := by
  have entered : ((s.enterState .active).modPresence fun p => { p with
      listenTimer := none, rollTimer := some (s.afterRolls 1), rollPending := true, leavingPlaced := false }) = s.activated := by
    rw [State.activated, State.enterState, State.afterRolls, Nat.one_mul, State.insertEvent_eq, State.insertEvent_eq]
    rfl
  rw [State.enterActive, entered]

theorem State.activated_entry (s : State) (i : EntryIx) : s.activated.entry i = s.entry i := State.insertEvent_entry ..

theorem State.activated_slots (s : State) : s.activated.slots = s.slots := State.insertEvent_slots ..

theorem State.activated_presence (s : State) : s.activated.presence = { s.presence with
    state := .active, listenTimer := none, rollTimer := some (s.time + millis s.rollPeriod), rollPending := true
    leavingPlaced := false } := State.insertEvent_presence ..

theorem State.activated_events (s : State) : s.activated.events = (s.insertEvent (.stationState s.presence.state .active)).events := by
  rw [State.activated, State.insertEvent_eq, State.insertEvent_eq]

/-- A station that enters ACTIVE is ACTIVE at the end of the event. -/
theorem State.enterActive_settle_state (s : State) : s.enterActive.settle.presence.state = .active := by
  have entered : s.enterActive.clock = s.activated.clock := by
    rw [State.enterActive_eq, State.forEntries_keeps State.clock State.chooseWaiting_clock,
      State.forEntries_keeps State.clock State.openEntry_clock, State.disputeAll_clock]
  have active : s.enterActive.presence.state = .active := by rw [State.presence_of_clock entered, State.activated_presence]
  rw [State.presence_of_clock (State.settle_clock (by rw [active]; decide)), active]

section
variable {s : State} {i : EntryIx} (others : ∀ j, j ≠ i → s.entry j = none)
include others

/-- With one entry in use only that entry is looked at. -/
theorem State.enterActive_only : s.enterActive =
    State.chooseWaiting i (State.openEntry i (s.activated.disputeAll s.disputesAtActive)) := by
  have unused (j : EntryIx) (hj : j ≠ i) : (s.activated.disputeAll s.disputesAtActive).entry j = none := by
    rw [State.disputeAll_entry_other, State.activated_entry, others j hj]
    intro listed
    obtain ⟨e, he, rfl⟩ := List.mem_map.1 listed
    obtain ⟨k, -, hk⟩ := List.mem_filterMap.1 he
    obtain ⟨rfl, used⟩ := State.disputedAtActive_entry hk
    exact used (others _ hj)
  have opened : (s.activated.disputeAll s.disputesAtActive).forEntries State.openEntry =
      State.openEntry i (s.activated.disputeAll s.disputesAtActive) :=
    State.forEntries_only i (fun j hj => State.openEntry_other (State.producer_of_none (unused j hj))) fun j hj =>
      State.openEntry_other (State.producer_of_none ((State.modProducer_entry_other _ (Ne.symm hj) _).trans (unused j hj)))
  rw [State.enterActive_eq, opened]
  refine State.forEntries_only i (fun j hj => State.chooseWaiting_other (State.consumer_of_none ?_)) fun j hj =>
    State.chooseWaiting_other (State.consumer_of_none ((State.chooseWaiting_entry_other (Ne.symm hj)).trans ?_))
  all_goals exact (State.modProducer_entry_other _ (Ne.symm hj) _).trans (unused j hj)

/-- An entry that no lower station disputes: it opens if it is DECLARED, and chooses if it is a consumer entry. -/
theorem State.enterActive_undisputed (h : s.disputedAtActive i = none) :
    s.enterActive = State.chooseWaiting i (State.openEntry i s.activated) := by
  have none : s.disputesAtActive = [] := State.disputesAtActive_none fun j => by
    by_cases e : j = i
    · exact e ▸ h
    · exact State.disputedAtActive_unused (State.producer_of_none (others j e))
  rw [State.enterActive_only others, none, State.disputeAll_nil]

end

/-! ### A station with one entry in use, an empty Publish Queue and an idle Segmenter -/

section
variable {s : State} {i : EntryIx} (others : ∀ j, j ≠ i → s.entry j = none)
variable (hq : s.publish.queue = []) (hs : s.seg = ⟨none, none, none, none⟩)
include others hq hs

/-- The end of an event does nothing on the ACTIVE station when its one entry is no OPEN producer entry with a repair set tagged. -/
theorem State.settle_single {t : State} {e : Entry} (active : t.presence.state = .active) (seg : t.seg = s.seg)
    (queue : t.publish = s.publish) (entries : t.streams = vput s.streams i (some e))
    (hw : ∀ p, e = .producer p → p.state ≠ .opened ∨ p.repairTag = none) : t.settle = t := by
  refine State.settle_idle active (seg.trans hs) ((congrArg PublishQueue.queue queue).trans hq) fun j p hj => ?_
  by_cases own : j = i
  · rw [own, State.entry_of_streams entries] at hj
    exact hw p (Option.some.inj hj)
  · rw [State.entry, entries, vput_get_other _ (Ne.symm own)] at hj
    exact nomatch (others j own).symm.trans hj

/-- A producer entry that no lower station disputes opens if it is DECLARED (R22, R121). -/
theorem State.enterActive_opens {p : Producer} (he : s.entry i = some (.producer p)) (hd : p.state ≠ .disputed)
    (tag : p.repairTag = none) (low : s.lowerClaimant p.stream = none) : s.enterActive.settle = { s.activated with
      streams := vput s.streams i (some (.producer (if p.state = .declared then p.toOpen s.floor else p))) } := by
  have entry : s.activated.entry i = some (.producer p) := (s.activated_entry i).trans he
  have floor : s.activated.floor = s.floor := by rw [State.floor, s.activated_presence, State.floor]
  have streams : s.activated.streams = s.streams := State.insertEvent_streams ..
  rw [State.enterActive_undisputed others (by rw [State.disputedAtActive_of he hd, low]; rfl), State.openEntry_of entry, floor, streams,
    State.chooseWaiting_other (State.consumer_of_producer (State.entry_of_streams rfl))]
  refine State.settle_single others hq hs (by exact congrArg Presence.state s.activated_presence) (State.insertEvent_seg ..)
    (State.insertEvent_publish ..) rfl fun q hp => .inr ?_
  obtain rfl := Entry.producer.inj hp
  split <;> exact tag

/-- A producer entry that a lower station disputes becomes DISPUTED (R23, R121). -/
theorem State.enterActive_disputes {p : Producer} {n : Station} (he : s.entry i = some (.producer p)) (hn : s.holdsNone i)
    (hd : p.state ≠ .disputed) (low : s.lowerClaimant p.stream = some n) : s.enterActive.settle =
      { (s.activated.insertEvent (.streamDisputed p.stream n)).freeRef p.retained with
        streams := vput s.streams i (some (.producer p.disputed)) } := by
  have entry : s.activated.entry i = some (.producer p) := (s.activated_entry i).trans he
  have mine : s.disputedAtActive i = some (i, n) := by rw [State.disputedAtActive_of he hd, low]; rfl
  have listed : s.disputesAtActive = [(i, n)] := allEntries_filterMap_only mine fun j hj =>
    State.disputedAtActive_unused (State.producer_of_none (others j hj))
  have holds : s.activated.holdsNone i := fun x hx => hn x (by rwa [State.activated, State.insertEvent_holding] at hx)
  have queue : s.activated.publish = s.publish := State.insertEvent_publish ..
  have seg : s.activated.seg = s.seg := State.insertEvent_seg ..
  have streams : s.activated.streams = s.streams := State.insertEvent_streams ..
  rw [State.enterActive_only others, listed, State.disputeAll_single entry holds (queue ▸ hq) (by rw [seg, hs]), streams,
    State.openEntry_kept (State.entry_of_streams rfl) (by exact nofun),
    State.chooseWaiting_other (State.consumer_of_producer (State.entry_of_streams rfl))]
  refine State.settle_single others hq hs ?_ ?_ ?_ rfl fun q hp => .inl ?_
  · rw [State.freeRef_eq]
    exact congrArg Presence.state ((State.insertEvent_presence ..).trans s.activated_presence)
  · rw [State.freeRef_eq]
    exact (State.insertEvent_seg ..).trans seg
  · rw [State.freeRef_eq]
    exact (State.insertEvent_publish ..).trans queue
  · obtain rfl := Entry.producer.inj hp
    exact nofun

/-- A consumer entry chooses (R121). -/
theorem State.enterActive_chooses {c d : Consumer} (he : s.entry i = some (.consumer c))
    (chosen : State.chooseWaiting i s.activated = { s.activated with streams := vput s.streams i (some (.consumer d)) }) :
    s.enterActive.settle = { s.activated with streams := vput s.streams i (some (.consumer d)) } := by
  have none : s.producer i = none := State.producer_of_consumer he
  rw [State.enterActive_undisputed others (State.disputedAtActive_unused none),
    State.openEntry_other ((congrArg _ rfl).trans (State.producer_of_consumer ((s.activated_entry i).trans he))), chosen]
  exact State.settle_single others hq hs (by exact congrArg Presence.state s.activated_presence) (State.insertEvent_seg ..)
    (State.insertEvent_publish ..) rfl fun p hp => nomatch hp

end

/-! ### The timers (R121, R125) -/

theorem exec_rollTimerDue {s : State} (h : s.port.inReset = false) {due : Micros} (hd : s.presence.rollTimer = some due) :
    exec .rollTimerDue s = .next (s.rollDue due) := by
  refine congrArg Host.Outcome.next ((State.awake_of h _).trans ?_)
  rw [hd]

theorem exec_rollTimerDue_stopped {s : State} (h : s.port.inReset = false) (hd : s.presence.rollTimer = none) :
    exec .rollTimerDue s = .next s := by
  refine congrArg Host.Outcome.next ((State.awake_of h _).trans ?_)
  rw [hd]

theorem exec_listenTimerExpiry {s : State} (h : s.port.inReset = false) {due : Micros} (hd : s.presence.listenTimer = some due)
    (hl : s.presence.state = .listening) :
    exec .listenTimerExpiry s = .next (s.joinAscending (s.reach due).enterActive.settle) := by
  refine congrArg Host.Outcome.next ((State.awake_of h _).trans ?_)
  rw [hd]
  exact if_pos hl

theorem exec_listenTimerExpiry_stopped {s : State} (h : s.port.inReset = false)
    (hd : s.presence.listenTimer = none ∨ s.presence.state ≠ .listening) : exec .listenTimerExpiry s = .next s := by
  refine congrArg Host.Outcome.next ((State.awake_of h _).trans ?_)
  split
  next due runs => exact if_neg (hd.resolve_left fun none => nomatch none.symm.trans runs)
  next => rfl

theorem State.joinAscending_presence (s t : State) : (s.joinAscending t).presence = t.presence := rfl

theorem State.listened_active (s t : State) : (s.joinAscending t.enterActive.settle).presence.state = .active := by
  rw [State.joinAscending_presence, State.enterActive_settle_state]

/-- STATION_STATE of the entry to ACTIVE, in the events of a LISTENING station. -/
theorem State.activated_told {s : State} (h : s.presence.state = .listening) :
    s.activated.events = (s.insertEvent (.stationState .listening .active)).events := by
  rw [State.activated_events, h]

/-- … and of STREAM_DISPUTED behind it. -/
theorem State.activated_disputed {s : State} (h : s.presence.state = .listening) (e : Event) :
    (s.activated.insertEvent e).events = ((s.insertEvent (.stationState .listening .active)).insertEvent e).events :=
  State.insertEvent_events_congr (State.activated_told h)
    ((State.insertEvent_time ..).trans (State.insertEvent_time s (.stationState .listening .active)).symm) e

/-- Settles O56: an entry that opens, becomes DISPUTED or chooses by `State.enterActive_opens`, `_disputes` and `_chooses`. -/
theorem rollAndListenTimers : Obligations.RollAndListenTimers := by
  refine ⟨fun s h => ⟨fun due hd => ?_, exec_rollTimerDue_stopped h, fun due hd hl unused _ => ?_,
    exec_listenTimerExpiry_stopped h⟩, fun i p due s h hl hd he others hp hq hs hh => ?_,
    fun i due s h hl hd others hq hs hh => ?_⟩
  · rw [exec_rollTimerDue h hd]
    rfl
  · have unlisted : (s.reach due).disputesAtActive = [] := State.disputesAtActive_none fun j =>
      State.disputedAtActive_unused (State.producer_of_none (unused j))
    have entry (j : EntryIx) : (s.reach due).activated.entry j = none := (State.activated_entry _ j).trans (unused j)
    rw [exec_listenTimerExpiry h hd hl, State.enterActive_eq, unlisted, State.disputeAll_nil,
      State.forEntries_fixed fun j => State.openEntry_other (State.producer_of_none (entry j)),
      State.forEntries_fixed fun j => State.chooseWaiting_other (State.consumer_of_none (entry j)), State.activated,
      State.reach_presence, hl]
    rfl
  · have declared : p.state = .declared := congrArg Producer.state hp
    have disputed : { p with state := .disputed } = p.disputed := by
      obtain ⟨id, mode, len, floor, counters, rfl⟩ : ∃ id mode len floor counters, p = .declared id mode len floor counters :=
        ⟨_, _, _, _, _, hp⟩
      rfl
    refine ⟨_, exec_listenTimerExpiry h hd hl, s.listened_active _, fun low => ?_, fun n low => ?_⟩
    · rw [State.enterActive_opens (s := s.reach due) others hq hs he (by rw [declared]; exact nofun) (congrArg Producer.repairTag hp)
        (State.lowerClaimant_none low), if_pos declared]
      exact ⟨State.entry_of_streams rfl, State.activated_told hl⟩
    · rw [State.enterActive_disputes (s := s.reach due) others hq hs he (fun x hx => nomatch hh.symm.trans hx)
        (by rw [declared]; exact nofun) low, disputed, State.freeRef_eq]
      exact ⟨State.entry_of_streams rfl, State.activated_disputed (s := s.reach due) hl _⟩
  · refine ⟨_, exec_listenTimerExpiry h hd hl, s.listened_active _, fun p he ho tag => ?_, fun c he => ?_⟩
    · refine ⟨fun low => ?_, fun n low => ?_⟩
      · rw [State.enterActive_opens (s := s.reach due) others hq hs he (by rw [ho]; exact nofun) tag
          (State.lowerClaimant_none low), if_neg (by rw [ho]; exact nofun)]
        exact ⟨State.entry_of_streams rfl, State.activated_told hl, (congrArg SlotManager.records (s.reach due).activated_slots :)⟩
      · rw [State.enterActive_disputes (s := s.reach due) others hq hs he (fun x hx => nomatch hh.symm.trans hx)
          (by rw [ho]; exact nofun) low]
        refine ⟨State.entry_of_streams rfl, ?_, fun m hm => ?_⟩
        · rw [State.freeRef_eq]
          exact State.activated_disputed (s := s.reach due) hl _
        · refine (State.freeRef_slot _ _ m).trans (if_pos hm)
    · have entry : (s.reach due).activated.entry i = some (.consumer c) := (State.activated_entry _ i).trans he
      have same : vput s.streams i (some (.consumer c)) = s.streams := vput_self _ _ _ he
      have streams : (s.reach due).activated.streams = s.streams := State.insertEvent_streams ..
      have claimants : (s.reach due).activated.claimants c.stream = s.claimants c.stream := by
        rw [State.claimants, State.activated_presence, State.claimants]
        rfl
      have kept (fixed : State.chooseWaiting i (s.reach due).activated = (s.reach due).activated) :
          (s.joinAscending (s.reach due).enterActive.settle).entry i = some (.consumer c) := by
        rw [State.enterActive_chooses (s := s.reach due) (d := c) others hq hs he
          (fixed.trans (by rw [State.reach_streams, same, ← streams]))]
        exact State.entry_of_streams rfl
      refine ⟨fun hm hw hp => ⟨fun n rest hn => ?_, fun hn => ?_⟩, fun other => kept (State.chooseWaiting_kept entry other)⟩
      · rw [State.enterActive_chooses (s := s.reach due) others hq hs he
          (d := { c with producer := some n, state := .joining, joinTries := 0, take := true, timer := none }) ?_]
        · exact State.entry_of_streams rfl
        · rw [State.chooseWaiting_of entry hm hw, State.chooseProducer_lockStep entry hp (claimants.trans hn) hm
            (by rw [State.activated_presence]; exact nofun), State.setEntry, streams]
          rfl
      · exact kept ((State.chooseWaiting_of entry hm hw).trans (State.chooseProducer_unclaimed entry hp (claimants.trans hn)))

end Sys2Proof.Machine
end

section
/-! SUPPORT. A ROLL with the own number (R131): every descriptor completes FAILED, the page in flight is abandoned, the entries are
taken one by one, and CONFLICT (chapter 7). -/

namespace Sys2Proof.Machine

/-! ### The turn of one entry (R131) -/

/-- A producer entry as CONFLICT leaves it. -/
def Producer.conflicted (p : Producer) : Producer :=
  { p with
    timer := if p.state = .opened then none else p.timer
    phase := if p.state = .opened then some .idle else p.phase
    admits := [], cuts := [], gones := [], prompt := false }

/-- What CONFLICT leaves of an entry: nothing of a DEPARTING one. -/
def Entry.conflicted : Entry → Option Entry
  | .producer p => some (.producer p.conflicted)
  | .consumer c =>
    if c.state = .departing then none
    else some (.consumer { c with filling := none, timer := none, take := false, drop := false, free := none, gap := none })

/-- The slot that CONFLICT frees of an entry. -/
def Entry.conflictFrees : Entry → Option SlotNum
  | .producer _ => none
  | .consumer c => if c.state = .departing then none else c.filling

/-- A second turn would free nothing. -/
theorem Entry.conflictFrees_conflicted (e : Option Entry) : (e.bind Entry.conflicted).bind Entry.conflictFrees = none := by
  rcases e with _ | ⟨p | c⟩
  · rfl
  · rfl
  · by_cases hd : c.state = .departing
    · simp [Entry.conflicted, hd]
    · simp [Entry.conflicted, Entry.conflictFrees, hd]

/-- The turn of an entry while the holding frame is empty. -/
theorem State.conflictEntry_eq {s : State} (h : s.link.holding = none) (i : EntryIx) : State.conflictEntry i s =
    { s.freeRef ((s.entry i).bind Entry.conflictFrees) with streams := vput s.streams i ((s.entry i).bind Entry.conflicted) } := by
  unfold State.conflictEntry
  split
  next p he =>
    rw [State.modProducer_of he, State.emptyPending_other (State.holdsNone_empty (by exact h) i), State.entry_of_streams rfl, he]
    simp only [State.setEntry, vput_vput]
    by_cases ho : p.state = .opened
    · simp only [if_pos ho, Option.bind_some, Entry.conflicted, Producer.conflicted]
      rfl
    · simp only [if_neg ho, Option.bind_some, Entry.conflicted, Producer.conflicted]
      rfl
  next c he =>
    rw [he]
    by_cases hd : c.state = .departing
    · rw [if_pos hd, State.removeEntry, State.emptyPending_other (State.holdsNone_empty h i)]
      simp only [State.setEntry, vput_vput, Option.bind_some, Entry.conflicted, Entry.conflictFrees, if_pos hd]
      rfl
    · have freed : (s.freeRef c.filling).entry i = some (.consumer c) := by rwa [State.freeRef_eq]
      rw [if_neg hd, State.dropFilling, State.consumer_of he]
      dsimp only
      rw [State.modConsumer_of freed, State.emptyPending_other (State.holdsNone_empty (by rw [State.freeRef_eq]; exact h) i),
        State.entry_of_streams rfl]
      simp only [State.setEntry, vput_vput, Option.bind_some, Entry.conflicted, Entry.conflictFrees, if_neg hd]
      rw [State.freeRef_eq]
      rfl
  next he => rw [he, Option.bind_none, Option.bind_none, vput_self _ _ _ he]; rfl

section
variable {s : State} (h : s.link.holding = none)
include h

theorem State.conflictEntry_frame (i : EntryIx) : ∃ r v, r.mem = s.slots.mem ∧
    State.conflictEntry i s = { s with slots := r, streams := v } := by
  refine ⟨_, _, ?_, (State.conflictEntry_eq h i).trans (by rw [State.freeRef_eq])⟩
  cases (s.entry i).bind Entry.conflictFrees with
  | none => rfl
  | some n => exact SlotManager.giveBack_mem ..

theorem State.conflictEntry_holding (i : EntryIx) : (State.conflictEntry i s).link.holding = none := by
  obtain ⟨r, v, -, frame⟩ := State.conflictEntry_frame h i
  rw [frame]
  exact h

theorem State.conflictEntry_entry (i : EntryIx) : (State.conflictEntry i s).entry i = (s.entry i).bind Entry.conflicted := by
  rw [State.conflictEntry_eq h]
  exact State.entry_of_streams rfl

theorem State.conflictEntry_entry_other {i j : EntryIx} (hj : j ≠ i) : (State.conflictEntry j s).entry i = s.entry i := by
  rw [State.conflictEntry_eq h]
  exact vput_get_other _ hj _

theorem State.conflictEntry_slot (i : EntryIx) (m : SlotNum) : (State.conflictEntry i s).slot m =
    if (s.entry i).bind Entry.conflictFrees = some m then .free else s.slot m := by
  rw [State.conflictEntry_eq h]
  exact State.freeRef_slot ..

/-! ### All entries -/

theorem State.conflictEntries_frame : ∃ r v, r.mem = s.slots.mem ∧
    s.forEntries State.conflictEntry = { s with slots := r, streams := v } := by
  refine State.forEntries_inv (P := fun t => ∃ r v, r.mem = s.slots.mem ∧ t = { s with slots := r, streams := v }) ?_
    ⟨s.slots, s.streams, rfl, rfl⟩
  rintro i _ ⟨r, v, mem, rfl⟩
  obtain ⟨r', v', mem', frame⟩ := State.conflictEntry_frame (s := { s with slots := r, streams := v }) h i
  exact ⟨r', v', mem'.trans mem, frame⟩

theorem State.conflictEntries_entry (i : EntryIx) :
    (s.forEntries State.conflictEntry).entry i = (s.entry i).bind Entry.conflicted :=
  (State.forEntries_at i (Q := fun t => t.link.holding = none ∧ t.entry i = s.entry i)
    (R := fun t => t.link.holding = none ∧ t.entry i = (s.entry i).bind Entry.conflicted) ⟨h, rfl⟩
    (fun _ _ hj ⟨empty, same⟩ => ⟨State.conflictEntry_holding empty _, (State.conflictEntry_entry_other empty hj).trans same⟩)
    (fun _ ⟨empty, same⟩ => ⟨State.conflictEntry_holding empty _, (State.conflictEntry_entry empty i).trans (by rw [same])⟩)
    fun _ _ hj ⟨empty, same⟩ =>
      ⟨State.conflictEntry_holding empty _, (State.conflictEntry_entry_other empty hj).trans same⟩).2

/-- The slot of an entry that is FILLING is freed, and stays so. -/
theorem State.conflictEntries_slot_freed {i : EntryIx} {m : SlotNum} (freed : (s.entry i).bind Entry.conflictFrees = some m) :
    (s.forEntries State.conflictEntry).slot m = .free :=
  (State.forEntries_at i (Q := fun t => t.link.holding = none ∧ t.entry i = s.entry i)
    (R := fun t => t.link.holding = none ∧ t.slot m = .free) ⟨h, rfl⟩
    (fun _ _ hj ⟨empty, same⟩ => ⟨State.conflictEntry_holding empty _, (State.conflictEntry_entry_other empty hj).trans same⟩)
    (fun _ ⟨empty, same⟩ => ⟨State.conflictEntry_holding empty _,
      (State.conflictEntry_slot empty i m).trans (if_pos (by rw [same, freed]))⟩)
    fun _ _ _ ⟨empty, free⟩ => ⟨State.conflictEntry_holding empty _,
      (State.conflictEntry_slot empty _ m).trans (by rw [free, ite_self])⟩).2

/-- A slot that no entry frees keeps its record. -/
theorem State.conflictEntries_slot_kept {m : SlotNum} (kept : ∀ j, (s.entry j).bind Entry.conflictFrees ≠ some m) :
    (s.forEntries State.conflictEntry).slot m = s.slot m := by
  refine (State.forEntries_inv (P := fun t => t.link.holding = none ∧ t.slot m = s.slot m ∧
    ∀ j, (t.entry j).bind Entry.conflictFrees ≠ some m) ?_ ⟨h, rfl, kept⟩).2.1
  rintro i t ⟨empty, same, kept⟩
  refine ⟨State.conflictEntry_holding empty i, ?_, fun j => ?_⟩
  · rw [State.conflictEntry_slot empty, if_neg (kept i), same]
  · by_cases hj : i = j
    · rw [← hj, State.conflictEntry_entry empty, Entry.conflictFrees_conflicted]
      exact nofun
    · rw [State.conflictEntry_entry_other empty hj]
      exact kept j

end

/-! ### Every descriptor completes and the page in flight is abandoned (R58) -/

theorem State.modProducer_frame (s : State) (i : EntryIx) (f : Producer → Producer) : ∃ v, s.modProducer i f = { s with streams := v } := by
  unfold State.modProducer
  split
  · exact ⟨_, rfl⟩
  · exact ⟨s.streams, rfl⟩

theorem State.modProducer_entry {s : State} {i : EntryIx} {p : Producer} (he : s.entry i = some (.producer p))
    (f : Producer → Producer) : (s.modProducer i f).entry i = some (.producer (f p)) := by
  rw [State.modProducer_of he]
  exact State.entry_of_streams rfl

/-- A change of a producer entry does not concern another entry or one that is none. -/
theorem State.modProducer_entry_kept {s : State} {i j : EntryIx} (h : j ≠ i ∨ s.producer i = none) (f : Producer → Producer) :
    (s.modProducer j f).entry i = s.entry i := by
  by_cases e : j = i
  · subst e
    unfold State.modProducer
    split
    next p he => exact nomatch (h.resolve_left (not_not_intro rfl)).symm.trans (State.producer_of he)
    next => rfl
  · exact State.modProducer_entry_other _ e f

theorem State.returnQueued_mem (s : State) (q : Descriptor → Bool) : (s.returnQueued q).slots.mem = s.slots.mem := by
  unfold State.returnQueued
  generalize s.publish.queue.filter q = l
  show (l.foldl State.returnSlot s).slots.mem = s.slots.mem
  induction l generalizing s with
  | nil => rfl
  | cons d l ih =>
    refine (ih (s.returnSlot d)).trans ?_
    unfold State.returnSlot
    split
    · exact SlotManager.change_mem ..
    · rfl

/-- The part with its queue emptied and the page in flight abandoned. -/
def State.flightAbandoned (s : State) : State :=
  match s.seg.flight with
  | some f => (s.returnQueued fun _ => true).abandonFlight f
  | none => s.returnQueued fun _ => true

section
variable (s : State)

theorem State.returnQueued_all_frame : ∃ r, r.mem = s.slots.mem ∧
    (s.returnQueued fun _ => true) = { s with slots := r, publish := { s.publish with queue := [] } } := by
  have mem := s.returnQueued_mem fun _ => true
  have left : (s.publish.queue.filter fun d => !(fun _ => true) d) = [] := List.filter_false _
  obtain ⟨r, frame⟩ := s.returnQueued_eq fun _ => true
  rw [frame] at mem
  exact ⟨r, mem, frame.trans (by rw [left])⟩

theorem State.flightAbandoned_frame : ∃ r v, r.mem = s.slots.mem ∧ s.flightAbandoned = { s with
    slots := r, streams := v, publish := { s.publish with queue := [] }, seg := { s.seg with flight := none } } := by
  obtain ⟨r, mem, frame⟩ := s.returnQueued_all_frame
  unfold State.flightAbandoned
  split
  next f hf =>
    obtain ⟨v, changed⟩ := ((s.returnQueued fun _ => true).changeSlot f.slot .writing).modProducer_frame f.entry
      fun p => p.withoutFlight f.page (some .idle)
    refine ⟨r.change f.slot .writing, v, (SlotManager.change_mem ..).trans mem, ?_⟩
    rw [State.abandonFlight, changed, frame]
    rfl
  next hf =>
    refine ⟨r, s.streams, mem, ?_⟩
    rw [frame, ← hf]

theorem State.returnQueued_entry (q : Descriptor → Bool) (i : EntryIx) : (s.returnQueued q).entry i = s.entry i := by
  obtain ⟨r, frame⟩ := s.returnQueued_eq q
  rw [frame]
  rfl

end

section
variable {s : State}

theorem State.flightAbandoned_none (hf : s.seg.flight = none) : s.flightAbandoned = s.returnQueued fun _ => true := by
  rw [State.flightAbandoned, hf]

theorem State.flightAbandoned_some {f : Flight} (hf : s.seg.flight = some f) :
    s.flightAbandoned = (s.returnQueued fun _ => true).abandonFlight f := by
  rw [State.flightAbandoned, hf]

theorem State.flightAbandoned_entry {f : Flight} (hf : s.seg.flight = some f) {p : Producer}
    (he : s.entry f.entry = some (.producer p)) :
    s.flightAbandoned.entry f.entry = some (.producer (p.withoutFlight f.page (some .idle))) := by
  rw [State.flightAbandoned_some hf]
  exact State.modProducer_entry (s := (s.returnQueued fun _ => true).changeSlot f.slot .writing)
    ((s.returnQueued_entry _ f.entry).trans he) _

theorem State.flightAbandoned_entry_kept {i : EntryIx} (h : (∀ f, s.seg.flight = some f → f.entry ≠ i) ∨ s.producer i = none) :
    s.flightAbandoned.entry i = s.entry i := by
  cases hf : s.seg.flight with
  | none => rw [State.flightAbandoned_none hf, s.returnQueued_entry]
  | some f =>
    have same : ((s.returnQueued fun _ => true).changeSlot f.slot .writing).entry i = s.entry i := s.returnQueued_entry _ i
    rw [State.flightAbandoned_some hf]
    refine (State.modProducer_entry_kept (h.imp (fun other => other f hf) fun none => ?_) _).trans same
    rw [State.producer, same]
    exact none

/-- A slot of the page in flight or of a page queued is WRITING, unless it is FREE. -/
theorem State.flightAbandoned_slot {m : SlotNum} (h : (∃ f, s.seg.flight = some f ∧ f.slot = m) ∨
    (∃ d ∈ s.publish.queue, ∃ len report tail, d.body = .page m len report tail)) (used : s.slot m ≠ .free) :
    s.flightAbandoned.slot m = .writing := by
  obtain ⟨returned, kept, -⟩ := s.returnQueued_slot (fun _ => true) m
  have emptied : (s.returnQueued fun _ => true).slot m = .writing ∨
      (∃ f, s.seg.flight = some f ∧ f.slot = m) ∧ (s.returnQueued fun _ => true).slot m ≠ .free := by
    by_cases queued : ∃ d ∈ s.publish.queue, ∃ len report tail, d.body = .page m len report tail
    · obtain ⟨d, hd, page⟩ := queued
      exact .inl (returned ⟨d, hd, rfl, page⟩ used)
    · refine .inr ⟨h.resolve_right queued, ?_⟩
      rw [kept fun ⟨d, hd, _, page⟩ => queued ⟨d, hd, page⟩]
      exact used
  cases hf : s.seg.flight with
  | none =>
    rw [State.flightAbandoned_none hf]
    exact emptied.resolve_right fun ⟨⟨f, flight, _⟩, _⟩ => nomatch hf.symm.trans flight
  | some f =>
    rw [State.flightAbandoned_some hf]
    refine (State.modProducer_slot ..).trans ?_
    rw [State.changeSlot_slot _ _ _ (by decide)]
    rcases emptied with writing | ⟨⟨g, flight, own⟩, used⟩
    · rw [writing, ite_self]
    · exact if_pos ⟨Option.some.inj (hf.symm.trans flight) ▸ own, used⟩

end

/-! ### The pass in progress is discarded (R58, R94) -/

/-- The repair tag that a discarded pass leaves entry `i`. -/
def Segmenter.tagKept (g : Segmenter) (i : EntryIx) (p : Producer) : Option PageNum :=
  match g.pass with
  | some ps => if ps.entry = i ∧ p.repairTag = some ps.page ∧ p.repairSet = 0 then none else p.repairTag
  | none => p.repairTag

section
variable {s : State}

theorem State.discardPass_frame (s : State) : ∃ v, s.discardPass = { s with streams := v, seg := { s.seg with pass := none } } := by
  unfold State.discardPass
  split
  next ps hps =>
    obtain ⟨v, frame⟩ := s.modProducer_frame ps.entry fun p => p.withoutPass ps.page
    exact ⟨v, by rw [frame]; rfl⟩
  next hps =>
    refine ⟨s.streams, ?_⟩
    rw [← hps]

theorem State.discardPass_entry_producer {i : EntryIx} {p : Producer} (he : s.entry i = some (.producer p)) :
    s.discardPass.entry i = some (.producer { p with repairTag := s.seg.tagKept i p }) := by
  cases hps : s.seg.pass with
  | none =>
    rw [State.discardPass_entry_other (by rw [hps]; exact nofun), he, Segmenter.tagKept, hps]
  | some ps =>
    by_cases own : ps.entry = i
    · subst own
      rw [State.discardPass_entry hps he, Segmenter.tagKept, hps]
      simp only [true_and]
      rfl
    · rw [State.discardPass_entry_other fun x hx e => own (Option.some.inj (hps.symm.trans hx) ▸ e), he, Segmenter.tagKept, hps]
      simp only [own, false_and, if_false]

theorem State.discardPass_entry_kept {i : EntryIx} (h : s.producer i = none) : s.discardPass.entry i = s.entry i := by
  unfold State.discardPass
  split
  · exact State.modProducer_entry_kept (.inr h) _
  · rfl

end

/-! ### Both, and the SENT events -/

/-- The part with its queue emptied, the page in flight abandoned and the pass discarded; the SENT events are not inserted. -/
def State.abandoned (s : State) : State := s.flightAbandoned.discardPass.modSeg fun _ => .reset

theorem State.abandonAll_eq (s : State) : s.abandonAll = s.abandoned.insertSents (s.publish.queue.filterMap (s.queuedSent .failed))
    (s.seg.flight.map fun f => s.flightSent f .failed) := by
  rw [State.abandonAll, State.sentOf_all]
  rfl

theorem State.abandoned_frame (s : State) : ∃ r v, r.mem = s.slots.mem ∧ s.abandoned = { s with
    slots := r, streams := v, publish := { s.publish with queue := [] }, seg := .reset } := by
  obtain ⟨r, v, mem, flight⟩ := s.flightAbandoned_frame
  obtain ⟨v', pass⟩ := s.flightAbandoned.discardPass_frame
  refine ⟨r, v', mem, ?_⟩
  rw [State.abandoned, pass, flight]
  rfl

theorem State.abandonAll_frame (s : State) : ∃ r v q c, r.mem = s.slots.mem ∧ s.abandonAll = { s with
    slots := r, streams := v, publish := { s.publish with queue := [] }, seg := .reset
    events := q, link := { s.link with counters := c } } := by
  obtain ⟨r, v, mem, frame⟩ := s.abandoned_frame
  obtain ⟨q, c, told⟩ := s.abandoned.insertEvents_eq
    ((match s.seg.flight.map fun f => s.flightSent f .failed with
      | some e => insertBySeq e (s.publish.queue.filterMap (s.queuedSent .failed))
      | none => s.publish.queue.filterMap (s.queuedSent .failed)).map Prod.snd)
  refine ⟨r, v, q, c, mem, ?_⟩
  rw [s.abandonAll_eq]
  exact told.trans (by rw [frame])

section
variable {s : State} {i : EntryIx}

theorem State.abandonAll_entry_eq (s : State) (i : EntryIx) : s.abandonAll.entry i = s.flightAbandoned.discardPass.entry i := by
  rw [s.abandonAll_eq]
  exact State.insertEvents_entry ..

theorem State.flightAbandoned_tagKept (s : State) : s.flightAbandoned.seg.tagKept = s.seg.tagKept := by
  obtain ⟨r, v, -, frame⟩ := s.flightAbandoned_frame
  rw [frame]
  rfl

theorem State.abandonAll_entry_producer {p : Producer} (he : s.entry i = some (.producer p))
    (other : ∀ f, s.seg.flight = some f → f.entry ≠ i) :
    s.abandonAll.entry i = some (.producer { p with repairTag := s.seg.tagKept i p }) := by
  rw [s.abandonAll_entry_eq, State.discardPass_entry_producer ((State.flightAbandoned_entry_kept (.inl other)).trans he),
    s.flightAbandoned_tagKept]

theorem State.abandonAll_entry_flight {f : Flight} (hf : s.seg.flight = some f) {p : Producer}
    (he : s.entry f.entry = some (.producer p)) : s.abandonAll.entry f.entry = some (.producer
      { p.withoutFlight f.page (some .idle) with
        repairTag := s.seg.tagKept f.entry (p.withoutFlight f.page (some .idle)) }) := by
  rw [s.abandonAll_entry_eq, State.discardPass_entry_producer (State.flightAbandoned_entry hf he), s.flightAbandoned_tagKept]

theorem State.abandonAll_entry_kept (h : s.producer i = none) : s.abandonAll.entry i = s.entry i := by
  have same : s.flightAbandoned.entry i = s.entry i := State.flightAbandoned_entry_kept (.inr h)
  rw [s.abandonAll_entry_eq, State.discardPass_entry_kept, same]
  rw [State.producer, same]
  exact h

theorem State.abandonAll_slot (s : State) (m : SlotNum) : s.abandonAll.slot m = s.flightAbandoned.slot m := by
  rw [s.abandonAll_eq]
  exact (State.insertEvents_slot ..).trans (State.discardPass_slot ..)

/-- With nothing queued and no page in flight no slot changes. -/
theorem State.abandonAll_slots (hq : s.publish.queue = []) (hf : s.seg.flight = none) : s.abandonAll.slots = s.slots := by
  obtain ⟨v, pass⟩ := s.flightAbandoned.discardPass_frame
  have emptied : s.flightAbandoned = s := by rw [State.flightAbandoned_none hf, State.returnQueued_empty hq]
  rw [s.abandonAll_eq, State.abandoned, pass, emptied, hq, hf]
  rfl

/-- The SENT events when no page is in flight. -/
theorem State.abandonAll_events_queued (hf : s.seg.flight = none) : s.abandonAll.events =
    (s.insertEvents (s.publish.queue.filterMap fun d => (s.queuedSent .failed d).map Prod.snd)).events := by
  obtain ⟨r, v, -, frame⟩ := s.abandoned_frame
  rw [s.abandonAll_eq, hf, Option.map_none, State.insertSents_queued]
  exact State.insertEvents_events _ (by rw [frame]) (by rw [frame])

/-- The SENT event of the page in flight stands at its place in posting order. -/
theorem State.abandonAll_events_flight {f : Flight} (hf : s.seg.flight = some f) {before after : List Descriptor}
    (split : s.publish.queue = before ++ after) (hb : ∀ d ∈ before, d.seq < f.seq) (ha : ∀ d ∈ after, f.seq ≤ d.seq) :
    s.abandonAll.events = (s.insertEvents (before.filterMap (fun d => (s.queuedSent .failed d).map Prod.snd) ++
      .sent (s.streamOf f.entry) f.slot (some f.page) .failed f.tag ::
        after.filterMap fun d => (s.queuedSent .failed d).map Prod.snd)).events := by
  obtain ⟨r, v, -, frame⟩ := s.abandoned_frame
  rw [s.abandonAll_eq, hf, Option.map_some, split, State.insertSents_flight _ _ _ _ _ _ hb ha]
  exact State.insertEvents_events _ (by rw [frame]) (by rw [frame])

end

end Sys2Proof.Machine
end

section
/-! SUPPORT. Entry to CONFLICT (R131) and the ROLL with the own number that leads there (chapter 7). -/

namespace Sys2Proof.Machine

/-! ### Entry to CONFLICT (R131, R143) -/

/-- The station in CONFLICT with STATION_STATE inserted; queue, Segmenter, holding frame and entries are as they were. -/
def State.inConflict (s : State) (count : Byte) : State :=
  { s.insertEvent (.stationState s.presence.state .conflict) with
    presence := { s.presence with
      state := .conflict, conflictCount := some count, rollTimer := none, listenTimer := none, rollPending := false
      leavingPlaced := false } }

/-- The same with every descriptor completed, the page in flight abandoned and the pass discarded. -/
def State.conflictAbandoned (s : State) (count : Byte) : State := (s.inConflict count).abandonAll

theorem State.enterConflict_eq (s : State) (count : Byte) : s.enterConflict count =
    ((s.conflictAbandoned count).releaseHolding.forEntries State.conflictEntry).setNotes [] := by
  rw [State.enterConflict, State.enterState_eq]
  rfl

section
variable (s : State) (count : Byte)

theorem State.inConflict_frame : ∃ q c, s.inConflict count = { s with
    events := q, link := { s.link with counters := c }, presence := (s.inConflict count).presence } :=
  ⟨_, _, by rw [State.inConflict, State.insertEvent_eq]⟩

theorem State.inConflict_entry (i : EntryIx) : (s.inConflict count).entry i = s.entry i := State.insertEvent_entry ..

theorem State.inConflict_slot (m : SlotNum) : (s.inConflict count).slot m = s.slot m := State.insertEvent_slot ..

theorem State.inConflict_seg : (s.inConflict count).seg = s.seg := State.insertEvent_seg ..

theorem State.inConflict_publish : (s.inConflict count).publish = s.publish := State.insertEvent_publish ..

theorem State.inConflict_streamOf (i : EntryIx) : (s.inConflict count).streamOf i = s.streamOf i := by
  rw [State.streamOf, State.inConflict_entry, State.streamOf]

theorem State.inConflict_queuedSent (r : SentResult) (d : Descriptor) :
    (s.inConflict count).queuedSent r d = s.queuedSent r d := by
  rw [State.queuedSent, State.inConflict_streamOf, State.queuedSent]

/-- The events behind STATION_STATE. -/
theorem State.inConflict_events (l : List Event) : ((s.inConflict count).insertEvents l).events =
    (s.insertEvents (.stationState s.presence.state .conflict :: l)).events :=
  State.insertEvents_events (s := s.inConflict count) (t := s.insertEvent (.stationState s.presence.state .conflict)) l rfl rfl

theorem State.conflictAbandoned_frame : ∃ r v q c, r.mem = s.slots.mem ∧ s.conflictAbandoned count = { s with
    slots := r, streams := v, publish := { s.publish with queue := [] }, seg := .reset, events := q
    link := { s.link with counters := c }, presence := (s.inConflict count).presence } := by
  obtain ⟨q, c, entered⟩ := s.inConflict_frame count
  obtain ⟨r, v, q', c', mem, frame⟩ := (s.inConflict count).abandonAll_frame
  refine ⟨r, v, q', c', ?_, ?_⟩
  · rw [entered] at mem
    exact mem
  · rw [State.conflictAbandoned, frame, entered]

end

/-- A holding frame that drives no frame is empty when its HELD frame is released. -/
theorem State.releaseHolding_frame {s : State} (h : s.driving = false) : ∃ l, l.holding = none ∧
    s.releaseHolding = { s with link := l } := by
  unfold State.releaseHolding
  split
  next x hx =>
    have held : x.phase = .held := by simpa [State.driving, hx] using h
    rw [if_pos held]
    exact ⟨_, rfl, rfl⟩
  next none => exact ⟨s.link, none, rfl⟩

theorem State.releaseHolding_entry (s : State) (i : EntryIx) : s.releaseHolding.entry i = s.entry i := by
  unfold State.releaseHolding
  split
  · split <;> rfl
  · rfl

theorem State.releaseHolding_slots (s : State) : s.releaseHolding.slots = s.slots := by
  unfold State.releaseHolding
  split
  · split <;> rfl
  · rfl

theorem State.releaseHolding_slot (s : State) (m : SlotNum) : s.releaseHolding.slot m = s.slot m :=
  congrArg (·.records[m]) s.releaseHolding_slots

theorem State.setNotes_entry (s : State) (l : List Note) (i : EntryIx) : (s.setNotes l).entry i = s.entry i := rfl

theorem State.setNotes_slot (s : State) (l : List Note) (m : SlotNum) : (s.setNotes l).slot m = s.slot m := rfl

/-- What is left for the entries' turns: the part with an empty holding frame. -/
theorem State.conflictReleased_frame {s : State} (h : s.driving = false) (count : Byte) : ∃ l, l.holding = none ∧
    (s.conflictAbandoned count).releaseHolding = { s.conflictAbandoned count with link := l } := by
  refine State.releaseHolding_frame ?_
  obtain ⟨r, v, q, c, -, frame⟩ := s.conflictAbandoned_frame count
  rw [frame]
  exact h

/-- A producer entry stays one. -/
theorem State.abandonAll_producer {s : State} {i : EntryIx} {p : Producer} (he : s.entry i = some (.producer p)) :
    ∃ q, s.abandonAll.entry i = some (.producer q) := by
  by_cases own : ∃ f, s.seg.flight = some f ∧ f.entry = i
  · obtain ⟨f, hf, rfl⟩ := own
    exact ⟨_, State.abandonAll_entry_flight hf he⟩
  · exact ⟨_, State.abandonAll_entry_producer he fun f hf e => own ⟨f, hf, e⟩⟩

/-- What CONFLICT frees is the same behind the abandoning: no consumer entry has changed. -/
theorem State.conflictAbandoned_frees (s : State) (count : Byte) (i : EntryIx) :
    ((s.conflictAbandoned count).entry i).bind Entry.conflictFrees = (s.entry i).bind Entry.conflictFrees := by
  have same : (s.inConflict count).entry i = s.entry i := s.inConflict_entry count i
  cases he : s.producer i with
  | none => rw [State.conflictAbandoned, State.abandonAll_entry_kept (by rwa [State.producer, same]), same]
  | some p =>
    have entered : (s.inConflict count).entry i = some (.producer p) := same.trans (State.entry_of_producer he)
    obtain ⟨q, hq⟩ := State.abandonAll_producer entered
    rw [State.conflictAbandoned, hq, State.entry_of_producer he]
    rfl

section
variable {s : State} (h : s.driving = false) (count : Byte)
include h

theorem State.conflictReleased_holding : (s.conflictAbandoned count).releaseHolding.link.holding = none := by
  obtain ⟨l, empty, released⟩ := State.conflictReleased_frame h count
  rw [released]
  exact empty

theorem State.enterConflict_frame : ∃ r v l, r.mem = s.slots.mem ∧ l.holding = none ∧ l.notes = [] ∧
    s.enterConflict count = { s with
      slots := r, streams := v, publish := { s.publish with queue := [] }, seg := .reset
      events := (s.conflictAbandoned count).events, link := l, presence := (s.inConflict count).presence } := by
  obtain ⟨r, v, q, c, mem, frame⟩ := s.conflictAbandoned_frame count
  obtain ⟨l, empty, released⟩ := State.conflictReleased_frame h count
  obtain ⟨r', v', mem', turns⟩ := State.conflictEntries_frame (s := { s.conflictAbandoned count with link := l }) empty
  refine ⟨r', v', { l with notes := [] }, ?_, empty, rfl, ?_⟩
  · rw [frame] at mem'
    exact mem'.trans mem
  · rw [s.enterConflict_eq, released, turns, frame]
    rfl

theorem State.enterConflict_entry (i : EntryIx) :
    (s.enterConflict count).entry i = ((s.conflictAbandoned count).entry i).bind Entry.conflicted := by
  rw [s.enterConflict_eq, State.setNotes_entry, State.conflictEntries_entry (State.conflictReleased_holding h count),
    State.releaseHolding_entry]

theorem State.enterConflict_entry_producer {i : EntryIx} {p : Producer} (he : s.entry i = some (.producer p))
    (other : ∀ f, s.seg.flight = some f → f.entry ≠ i) : (s.enterConflict count).entry i =
      some (.producer { p with repairTag := s.seg.tagKept i p }.conflicted) := by
  have same : (s.inConflict count).seg = s.seg := s.inConflict_seg count
  rw [State.enterConflict_entry h, State.conflictAbandoned, State.abandonAll_entry_producer
    ((s.inConflict_entry count i).trans he) (same ▸ other), same, Option.bind_some, Entry.conflicted]

theorem State.enterConflict_entry_flight {f : Flight} (hf : s.seg.flight = some f) {p : Producer}
    (he : s.entry f.entry = some (.producer p)) : (s.enterConflict count).entry f.entry = some (.producer
      { p.withoutFlight f.page (some .idle) with
        repairTag := s.seg.tagKept f.entry (p.withoutFlight f.page (some .idle)) }.conflicted) := by
  have same : (s.inConflict count).seg = s.seg := s.inConflict_seg count
  rw [State.enterConflict_entry h, State.conflictAbandoned, State.abandonAll_entry_flight (same ▸ hf)
    ((s.inConflict_entry count f.entry).trans he), same, Option.bind_some, Entry.conflicted]

theorem State.enterConflict_entry_other {i : EntryIx} (he : s.producer i = none) :
    (s.enterConflict count).entry i = (s.entry i).bind Entry.conflicted := by
  have same : (s.inConflict count).entry i = s.entry i := s.inConflict_entry count i
  rw [State.enterConflict_entry h, State.conflictAbandoned, State.abandonAll_entry_kept (by rwa [State.producer, same]), same]

theorem State.enterConflict_slot_freed {i : EntryIx} {m : SlotNum} (freed : (s.entry i).bind Entry.conflictFrees = some m) :
    (s.enterConflict count).slot m = .free := by
  rw [s.enterConflict_eq, State.setNotes_slot]
  refine State.conflictEntries_slot_freed (i := i) (State.conflictReleased_holding h count) ?_
  rw [State.releaseHolding_entry, State.conflictAbandoned_frees, freed]

theorem State.enterConflict_slot_kept {m : SlotNum} (kept : ∀ i, (s.entry i).bind Entry.conflictFrees ≠ some m) :
    (s.enterConflict count).slot m = (s.conflictAbandoned count).slot m := by
  rw [s.enterConflict_eq, State.setNotes_slot, State.conflictEntries_slot_kept (State.conflictReleased_holding h count) fun i => ?_,
    State.releaseHolding_slot]
  rw [State.releaseHolding_entry, State.conflictAbandoned_frees]
  exact kept i

end

/-- With nothing queued, no page in flight and no entry in use no slot changes. -/
theorem State.enterConflict_slots {s : State} (count : Byte) (hq : s.publish.queue = []) (hf : s.seg.flight = none) (unused : ∀ i, s.entry i = none) :
    (s.enterConflict count).slots = s.slots := by
  have slots : (s.conflictAbandoned count).slots = s.slots :=
    (State.abandonAll_slots (by rwa [State.inConflict_publish]) (by rwa [State.inConflict_seg])).trans (State.insertEvent_slots ..)
  have entry (i : EntryIx) : (s.conflictAbandoned count).entry i = none := by
    have same : (s.inConflict count).entry i = none := (s.inConflict_entry count i).trans (unused i)
    rw [State.conflictAbandoned, State.abandonAll_entry_kept (State.producer_of_none same), same]
  rw [s.enterConflict_eq, State.setNotes_slots, State.forEntries_fixed fun i => ?_, State.releaseHolding_slots, slots]
  unfold State.conflictEntry
  rw [State.releaseHolding_entry, entry]

section
variable {s : State} (h : s.driving = false) (count : Byte)
include h

/-- The events when no page is in flight. -/
theorem State.enterConflict_events_queued (hf : s.seg.flight = none) : (s.enterConflict count).events =
    (s.insertEvents (.stationState s.presence.state .conflict ::
      s.publish.queue.filterMap fun d => (s.queuedSent .failed d).map Prod.snd)).events := by
  obtain ⟨r, v, l, -, -, -, frame⟩ := State.enterConflict_frame h count
  rw [frame, State.conflictAbandoned, State.abandonAll_events_queued (by rwa [State.inConflict_seg]), State.inConflict_events,
    State.inConflict_publish]
  simp only [State.inConflict_queuedSent]

/-- The SENT event of the page in flight stands at its place in posting order. -/
theorem State.enterConflict_events_flight {f : Flight} (hf : s.seg.flight = some f) {before after : List Descriptor}
    (split : s.publish.queue = before ++ after) (hb : ∀ d ∈ before, d.seq < f.seq) (ha : ∀ d ∈ after, f.seq ≤ d.seq) :
    (s.enterConflict count).events = (s.insertEvents (.stationState s.presence.state .conflict ::
      (before.filterMap (fun d => (s.queuedSent .failed d).map Prod.snd) ++
        .sent (s.streamOf f.entry) f.slot (some f.page) .failed f.tag ::
          after.filterMap fun d => (s.queuedSent .failed d).map Prod.snd))).events := by
  obtain ⟨r, v, l, -, -, -, frame⟩ := State.enterConflict_frame h count
  rw [frame, State.conflictAbandoned, State.abandonAll_events_flight (by rwa [State.inConflict_seg])
    (by rwa [State.inConflict_publish]) hb ha, State.inConflict_events, State.inConflict_streamOf]
  simp only [State.inConflict_queuedSent]

/-- A slot of the page in flight or of a page queued that no entry frees is WRITING, unless it is FREE. -/
theorem State.enterConflict_slot_returned {m : SlotNum} (back : (∃ f, s.seg.flight = some f ∧ f.slot = m) ∨
      (∃ d ∈ s.publish.queue, ∃ len report tail, d.body = .page m len report tail)) (used : s.slot m ≠ .free)
    (kept : ∀ i, (s.entry i).bind Entry.conflictFrees ≠ some m) : (s.enterConflict count).slot m = .writing := by
  rw [State.enterConflict_slot_kept h count kept, State.conflictAbandoned, State.abandonAll_slot]
  refine State.flightAbandoned_slot ?_ (by rwa [State.inConflict_slot])
  rwa [State.inConflict_seg, State.inConflict_publish]

end

/-! ### The frame with the own number (R131) -/

/-- The end of an event in CONFLICT with an empty queue does nothing. -/
theorem State.settle_conflict {s : State} (hc : s.presence.state = .conflict) (hq : s.publish.queue = []) : s.settle = s := by
  refine State.settle_quiet (by rw [hq]; exact nofun) (.inl ?_) (by rw [hc]; exact nofun)
  rw [← Bool.not_eq_true, State.transmits_iff, hc]
  decide

theorem StationState.conflicts_iff (x : StationState) : x.conflicts = true ↔ x ∈ [.listening, .active, .leaving, .muted] := by
  cases x <;> decide

theorem State.joinAscending_entry (s t : State) (i : EntryIx) : (s.joinAscending t).entry i = t.entry i := rfl

theorem State.joinAscending_slot (s t : State) (m : SlotNum) : (s.joinAscending t).slot m = t.slot m := rfl

theorem State.joinAscending_events (s t : State) : (s.joinAscending t).events = t.events := rfl

theorem State.joinAscending_records (s t : State) : (s.joinAscending t).slots.records = t.slots.records := rfl

/-- The part after a ROLL with the own number that leads to CONFLICT. -/
def State.ownRoll (s : State) (count : Byte) : State := s.joinAscending (s.heard.enterConflict count)

theorem State.ownRoll_frame {s : State} (h : s.driving = false) (count : Byte) : ∃ r v q l, r.mem = s.slots.mem ∧
    l.holding = none ∧ l.notes = [] ∧ s.ownRoll count = { s with
      slots := r, streams := v, publish := { s.publish with queue := [] }, seg := .reset, events := q, link := l
      presence := { s.presence with
        state := .conflict, conflictCount := some count, rollTimer := none, listenTimer := none, rollPending := false
        leavingPlaced := false } } := by
  obtain ⟨r, v, l, mem, empty, notes, frame⟩ := State.enterConflict_frame (s := s.heard) h count
  refine ⟨r.sortBehind s.slots.free.length, v, (s.heard.conflictAbandoned count).events, l, mem, empty, notes, ?_⟩
  rw [State.ownRoll, frame]
  rfl

/-- The events of a part that has counted a frame are those of the part. -/
theorem State.heard_insertEvents (s : State) (l : List Event) : (s.heard.insertEvents l).events = (s.insertEvents l).events :=
  State.insertEvents_events l rfl rfl

section
variable {s : State} (h : s.hearing) {claims : List RawClaim} (ok : rollOk 0 claims = true) (leaving : Bool) (count : Byte)
include h ok

theorem exec_ownRoll_conflict (hc : s.presence.state ∈ [.listening, .active, .leaving, .muted]) :
    exec (.rollFrame s.presence.station leaving 0 count claims) s = .next (s.ownRoll count) := by
  have ⟨_, driving, _⟩ := h
  obtain ⟨r, v, q, l, -, -, -, frame⟩ := State.ownRoll_frame driving count
  have taken : s.heard.takeRoll s.presence.station leaving count (claims.map claimOf) = s.ownRoll count :=
    (if_pos rfl).trans (if_pos ((StationState.conflicts_iff _).2 hc))
  rw [exec_rollFrame_of h ok, taken, State.settle_conflict (by rw [frame]) (by rw [frame])]

theorem exec_ownRoll_ignored (hc : s.presence.state ∈ [.configured, .quiet, .conflict]) :
    exec (.rollFrame s.presence.station leaving 0 count claims) s = .next s.heard.settle := by
  have kept : ¬ s.presence.state.conflicts = true := by
    rw [StationState.conflicts_iff]
    generalize s.presence.state = x at hc
    revert hc
    cases x <;> decide
  have taken : s.heard.takeRoll s.presence.station leaving count (claims.map claimOf) = s.heard :=
    (if_pos rfl).trans (if_neg kept)
  rw [exec_rollFrame_of h ok, taken]

end

theorem Entry.conflictFrees_consumer {c : Consumer} {m : SlotNum} (h : Entry.conflictFrees (.consumer c) = some m) :
    c.filling = some m := by
  rw [Entry.conflictFrees] at h
  split at h
  · exact nomatch h
  · exact h

/-- The entry of the page in flight: its tag goes with the page, or with the pass. -/
theorem Producer.conflicted_withoutFlight (g : Segmenter) (i : EntryIx) (p : Producer) (page : PageNum) :
    { p.withoutFlight page (some .idle) with repairTag := g.tagKept i (p.withoutFlight page (some .idle)) }.conflicted =
      { p with
        sending := none
        timer := if p.state = .opened then none else p.timer
        phase := if p.state = .opened then some .idle else p.phase
        repairSet := if p.repairTag = some page then 0 else p.repairSet
        repairTag := if p.repairTag = some page then none else g.tagKept i p
        counters := { p.counters with lost := satInc p.counters.lost }
        admits := [], cuts := [], gones := [], prompt := false } := by
  have tag : g.tagKept i (p.withoutFlight page (some .idle)) = if p.repairTag = some page then none else g.tagKept i p := by
    by_cases tagged : p.repairTag = some page
    · have gone : (p.withoutFlight page (some .idle)).repairTag = none := if_pos tagged
      rw [if_pos tagged, Segmenter.tagKept, gone]
      split
      · exact ite_self _
      · rfl
    · have tags : (p.withoutFlight page (some .idle)).repairTag = p.repairTag := if_neg tagged
      have sets : (p.withoutFlight page (some .idle)).repairSet = p.repairSet := if_neg tagged
      rw [if_neg tagged, Segmenter.tagKept, tags, sets, Segmenter.tagKept]
  rw [tag]
  by_cases ho : p.state = .opened
  · simp only [Producer.conflicted, Producer.withoutFlight, ho, if_true]
    rfl
  · simp only [Producer.conflicted, Producer.withoutFlight, ho, if_false]
    rfl

/-- Settles O53: what the part keeps by `State.ownRoll_frame`, the entries, slots and events by the `State.enterConflict_…` lemmas. -/
theorem ownRollsLeadToConflict : Obligations.OwnRollsLeadToConflict := by
  refine ⟨fun leaving count claims s h ok => ⟨fun hc => ?_, exec_ownRoll_ignored h ok leaving count⟩,
    fun leaving count claims s h ok hc => ?_⟩
  · refine ⟨_, exec_ownRoll_conflict h ok leaving count hc, ?_⟩
    obtain ⟨-, driving, -⟩ := h
    obtain ⟨r, v, q, l, mem, empty, notes, frame⟩ := State.ownRoll_frame driving count
    have rest : s.publish.queue = [] → s.seg.flight = none → (∀ i : EntryIx, s.entry i = none) →
        (s.ownRoll count).events = (s.insertEvent (.stationState s.presence.state .conflict)).events ∧
          (s.ownRoll count).slots.records = s.slots.records := by
      refine fun hq hf unused => ⟨?_, ?_⟩
      · rw [State.ownRoll, State.joinAscending_events, State.enterConflict_events_queued (s := s.heard) driving count hf, State.heard_insertEvents]
        show (s.insertEvents (_ :: s.publish.queue.filterMap _)).events = _
        rw [hq]
        rfl
      · rw [State.ownRoll, State.joinAscending_records, State.enterConflict_slots (s := s.heard) count hq hf unused]
        rfl
    refine ⟨?_, ?_, ?_, ?_, ?_, ?_, ?_, rest⟩
    all_goals rw [frame]
    · rfl
    · exact notes
    · exact empty
    · exact mem
  · intro tag
    refine ⟨_, exec_ownRoll_conflict h ok leaving count hc, ?_⟩
    obtain ⟨-, driving, -⟩ := h
    have toSent (d : Descriptor) : (s.heard.queuedSent .failed d).map Prod.snd = (match d.body with
        | .page slot _ _ _ => some (Event.sent (s.streamOf d.entry) slot none .failed d.tag)
        | .pause => none) := by
      unfold State.queuedSent
      cases d.body <;> rfl
    have entry_heard (i : EntryIx) : s.heard.entry i = s.entry i := rfl
    have heard : s.heard.driving = false := driving
    refine ⟨fun i p he other => ?_, fun f p hf he => ?_, fun m back used unfilled => ?_, ⟨fun hf => ?_,
      fun f before after hf split hb ha => ?_⟩, fun i c he hd => ?_, fun i c he hd => ⟨?_, fun m hm => ?_⟩, fun i he => ?_⟩
    · rw [State.ownRoll, State.joinAscending_entry, State.enterConflict_entry_producer heard count he other]
      rfl
    · rw [State.ownRoll, State.joinAscending_entry, State.enterConflict_entry_flight heard count hf he, Producer.conflicted_withoutFlight]
      rfl
    · rw [State.ownRoll, State.joinAscending_slot]
      refine State.enterConflict_slot_returned heard count back used fun i freed => ?_
      obtain ⟨e, he, frees⟩ := Option.bind_eq_some_iff.1 freed
      rcases e with p | c
      · exact nomatch frees
      · exact unfilled i c he (Entry.conflictFrees_consumer frees)
    · rw [State.ownRoll, State.joinAscending_events, State.enterConflict_events_queued heard count hf, State.heard_insertEvents]
      simp only [toSent]
      rfl
    · rw [State.ownRoll, State.joinAscending_events, State.enterConflict_events_flight heard count hf split hb ha, State.heard_insertEvents]
      simp only [toSent]
      rfl
    · rw [State.ownRoll, State.joinAscending_entry, State.enterConflict_entry_other heard count (State.producer_of_consumer he), entry_heard, he,
        Option.bind_some, Entry.conflicted, if_pos hd]
    · rw [State.ownRoll, State.joinAscending_entry, State.enterConflict_entry_other heard count (State.producer_of_consumer he),
        entry_heard, he, Option.bind_some, Entry.conflicted, if_neg hd]
    · rw [State.ownRoll, State.joinAscending_slot]
      refine State.enterConflict_slot_freed heard count (i := i) ?_
      rw [entry_heard, he, Option.bind_some, Entry.conflictFrees, if_neg hd, hm]
    · rw [State.ownRoll, State.joinAscending_entry, State.enterConflict_entry_other heard count (State.producer_of_none he), entry_heard, he]
      rfl

end Sys2Proof.Machine
end

section
/-! SUPPORT. The transmit selector (chapter 8): which source an entry offers first, and which entry and block come first. -/

namespace Sys2Proof.Machine

/-! ### The order of the sources (R137) -/

/-- The first element of entry `i` as a producer entry. -/
def State.producerElement (s : State) (i : EntryIx) : Option FrameSource := (s.producer i).bind (Producer.firstElement i)

/-- The first element of entry `i` as a consumer entry. -/
def State.consumerElement (s : State) (i : EntryIx) : Option FrameSource := (s.consumer i).bind (Consumer.firstElement i)

/-- Entry `i` has the element `src`, and its stream is the lowest of those that have one. -/
def State.offersFirst (s : State) (f : EntryIx → Option FrameSource) (i : EntryIx) (src : FrameSource) : Prop :=
  f i = some src ∧ ∀ j, j ≠ i → f j ≠ none → s.streamOf i < s.streamOf j

/-- What the selector takes when no entry has an element: the ROLL, the NOTE, the Segmenter's offered frame. -/
def State.stationSource (s : State) : Option FrameSource :=
  if s.presence.rollPending then some .roll
  else if s.link.notes ≠ [] then some .note
  else if s.seg.offered.isSome then some .segmenter
  else none

/-- Producer entries come first, then consumer entries, then the station's own frames. -/
theorem State.selectSource_eq (s : State) : s.selectSource =
    (s.lowestStream s.producerElement).or ((s.lowestStream s.consumerElement).or s.stationSource) := by
  change (match s.lowestStream s.producerElement with | some src => some src | none => _) = _
  cases s.lowestStream s.producerElement with
  | some src => rfl
  | none =>
    change (match s.lowestStream s.consumerElement with | some src => some src | none => _) = _
    cases s.lowestStream s.consumerElement <;> rfl

section
variable {s : State} {i : EntryIx} {src : FrameSource}

theorem State.lowestStream_first {f : EntryIx → Option FrameSource} (h : s.offersFirst f i src) : s.lowestStream f = some src :=
  State.lowestStream_of h.1 fun j other has => h.2 j other (Option.isSome_iff_ne_none.1 has)

theorem State.selectSource_producer (h : s.offersFirst s.producerElement i src) : s.selectSource = some src := by
  rw [State.selectSource_eq, State.lowestStream_first h, Option.some_or]

variable (noProducer : ∀ i, s.producerElement i = none)
include noProducer

theorem State.selectSource_consumer (h : s.offersFirst s.consumerElement i src) : s.selectSource = some src := by
  rw [State.selectSource_eq, State.lowestStream_none noProducer, Option.none_or, State.lowestStream_first h, Option.some_or]

theorem State.selectSource_station (noConsumer : ∀ i, s.consumerElement i = none) : s.selectSource = s.stationSource := by
  rw [State.selectSource_eq, State.lowestStream_none noProducer, Option.none_or, State.lowestStream_none noConsumer, Option.none_or]

end

theorem State.stationSource_roll {s : State} (h : s.presence.rollPending = true) : s.stationSource = some .roll := if_pos h

theorem State.stationSource_note {s : State} (h : s.presence.rollPending = false) (notes : s.link.notes ≠ []) :
    s.stationSource = some .note := by
  rw [State.stationSource, h, if_neg Bool.false_ne_true, if_pos notes]

theorem State.stationSource_rest {s : State} (h : s.presence.rollPending = false) (notes : s.link.notes = []) :
    s.stationSource = if s.seg.offered.isSome then some .segmenter else none := by
  rw [State.stationSource, h, if_neg Bool.false_ne_true, if_neg (not_not.2 notes)]

/-- Settles O36: the selector by the first block that has an element, an entry by the first of its sets that has one. -/
theorem framesAreChosenInOrder : Obligations.FramesAreChosenInOrder := by
  refine ⟨fun s => ⟨fun i src => State.selectSource_producer, fun producers => ⟨fun i src => State.selectSource_consumer producers,
    fun consumers => ?_⟩⟩, fun i p => ?_, fun i c => ?_⟩
  · rw [State.selectSource_station producers consumers]
    refine ⟨State.stationSource_roll, State.stationSource_note, fun roll notes offered => ?_, fun roll notes offered => ?_⟩
    · rw [State.stationSource_rest roll notes, if_pos (Option.isSome_iff_ne_none.2 offered)]
    · rw [State.stationSource_rest roll notes, offered]
      rfl
  · unfold Producer.firstElement
    exact ⟨fun t r l cuts => by rw [cuts], fun t r l cuts admits => by rw [cuts, admits],
      fun cuts admits prompt => by rw [cuts, admits, prompt], fun page l cuts admits prompt gones => by rw [cuts, admits, prompt, gones],
      fun cuts admits prompt gones => by rw [cuts, admits, prompt, gones]⟩
  · unfold Consumer.firstElement
    refine ⟨fun drop => ?_, fun drop take => ?_, fun drop take free => ?_, fun drop take free gap => ?_,
      fun drop take free gap => ?_⟩
    · rw [drop]; rfl
    · rw [drop, take]; rfl
    · obtain ⟨e, free⟩ := Option.ne_none_iff_exists'.1 free
      rw [drop, take, free]; rfl
    · obtain ⟨e, gap⟩ := Option.ne_none_iff_exists'.1 gap
      rw [drop, take, free, gap]; rfl
    · rw [drop, take, free, gap]; rfl

end Sys2Proof.Machine
end

section
/-! SUPPORT. Received frames that no block takes: discarded frames, frames in UNCONFIGURED or during an attempt of the station,
and frames that no entry in use is for (chapter 8). -/

namespace Sys2Proof.Machine

/-! ### From the line to the block (R144) -/

theorem exec_frameDiscarded {s : State} (h : s.port.inReset = false) (cause : DiscardCause) : exec (.frameDiscarded cause) s =
    .next (if s.driving then s else (s.modLink fun l => { l with lineIdle := false }).countCheckFailure) := by
  change execFrameDiscarded cause s = _
  rw [execFrameDiscarded, State.awake_of h]

theorem State.receive_driving {s : State} (h : s.port.inReset = false) (hd : s.driving = true) (ok : Bool) (take : State → State) :
    s.receive ok take = s := by
  rw [State.receive, State.awake_of h, if_pos hd]

theorem State.receive_unconfigured {s : State} (h : s.port.inReset = false) (hd : s.driving = false)
    (hu : s.presence.state = .unconfigured) (ok : Bool) (take : State → State) : s.receive ok take = s.heard := by
  rw [State.receive, State.awake_of h, hd, if_neg Bool.false_ne_true]
  exact if_pos hu

/-- Every frame event goes the way of R144, whatever its checks and its block are. -/
theorem exec_frame_receive {i : Instr} {r : RawFrame} (h : rawOf i = some r) :
    ∃ (ok : Bool) (take : State → State), ∀ s, exec i s = .next (s.receive ok take) := by
  cases i with
  | segFrame | closeFrame | admitFrame | cutFrame | promptFrame | goneFrame | takeFrame | dropFrame | freeFrame | gapFrame
  | rollFrame | noteFrame => exact ⟨_, _, fun _ => rfl⟩
  | _ => cases h

/-! ### Frames that no entry takes (R20, R62, R88, R95, R103, R108) -/

section
variable {s : State} {id : StreamId}

/-- The stream has no entry in use, or a producer entry. -/
def State.noConsumer (s : State) (id : StreamId) : Prop :=
  s.findStream id = none ∨ ∃ j p, s.findStream id = some j ∧ s.entry j = some (.producer p)

/-- The stream has no entry in use, a consumer entry, or a producer entry that is not OPEN; or the station is in CONFLICT. -/
def State.noOpenProducer (s : State) (id : StreamId) : Prop :=
  s.findStream id = none ∨ (∃ j c, s.findStream id = some j ∧ s.entry j = some (.consumer c)) ∨
    (∃ j p, s.findStream id = some j ∧ s.entry j = some (.producer p) ∧ p.state ≠ .opened) ∨ s.presence.state = .conflict

theorem State.forConsumer_ignored (h : s.noConsumer id) (f : EntryIx → Consumer → State) : s.forConsumer id f = s := by
  unfold State.forConsumer
  rcases h with unused | ⟨j, p, found, he⟩
  · rw [unused]
  · rw [found]
    dsimp only
    rw [State.consumer_of_producer he]

theorem State.forProducer_ignored (h : s.noOpenProducer id) (f : EntryIx → Producer → State) : s.forProducer id f = s := by
  unfold State.forProducer
  rcases h with unused | ⟨j, c, found, he⟩ | ⟨j, p, found, he, closed⟩ | conflict
  · rw [unused]
  · rw [found]
    dsimp only
    rw [State.producer_of_consumer he]
  · rw [found]
    dsimp only
    rw [State.producer_of he]
    exact if_neg fun both => closed both.1
  · split
    · split
      · exact if_neg fun both => both.2 conflict
      · rfl
    · rfl

end

/-! ### What the blocks make of them -/

section
variable {s : State} {id : StreamId} (src : Station)

theorem State.takeSeg_ignored (no : s.noConsumer id ∨ s.presence.state = .conflict) (page : PageNum) (k n len : Nat)
    (payload : List Byte) : s.takeSeg src id page k n len payload = s := by
  rw [State.takeSeg]
  rcases no with no | conflict
  · rw [State.forConsumer_ignored no, ite_self]
  · rw [if_pos conflict]

theorem State.takeClose_ignored (no : s.noConsumer id ∨ s.presence.state = .conflict) (page : PageNum) (len : Nat)
    (kind : CloseKind) (check : Word) : s.takeClose src id page len kind check = s := by
  rw [State.takeClose]
  rcases no with no | conflict
  · rw [State.forConsumer_ignored no, ite_self]
  · rw [if_pos conflict]

end

/-! ### The frames that pass their checks -/

theorem stationOf?_isSome {b : Byte} (h : (stationOf? b).isSome = true) : b.toNat < 32 := by
  refine Nat.not_le.1 fun above => ?_
  rw [stationOf?_above above] at h
  exact Bool.false_ne_true h

section
variable {s : State} (h : s.hearing) {id : StreamId} (src : Station)
include h

section
variable (no : s.heard.noConsumer id ∨ s.heard.presence.state = .conflict)
include no

theorem exec_segFrame_ignored {page : PageNum} {k n : Byte} {len : Half} {payload : List Byte}
    (ok : segOk 0 id k.toNat n.toNat len.toNat payload.length = true) :
    exec (.segFrame src 0 id page k n len payload) s = .next s.heard := by
  change execSegFrame src 0 id page k n len payload s = _
  rw [execSegFrame, ok, State.receive_ok h, State.takeSeg_ignored src no]

theorem exec_closeFrame_ignored {page : PageNum} {len : Half} {kind : Byte} {check : Word}
    (ok : closeOk 0 id len.toNat kind = true) : exec (.closeFrame src 0 id page len kind check) s = .next s.heard := by
  obtain ⟨k, hk⟩ := Option.isSome_iff_exists.1 (closeOk_iff.1 ok).2.2.2
  change execCloseFrame src 0 id page len kind check s = _
  rw [execCloseFrame, ok, State.receive_ok h, hk]
  exact congrArg _ (State.takeClose_ignored src no ..)

end

section
variable (no : s.heard.noConsumer id)
include no

theorem exec_admitFrame_ignored {target code : Byte} {first : PageNum} (ok : admitOk 0 id target code = true) :
    exec (.admitFrame src 0 id target code first) s = .next s.heard := by
  obtain ⟨-, hid, station, result⟩ := admitOk_iff.1 ok
  obtain ⟨r, hr⟩ := Option.isSome_iff_exists.1 ((admitResult?_isSome code first 0).trans result)
  rw [exec_admitFrame_of h hid (stationOf?_isSome station) src hr, State.takeAdmit, State.forConsumer_ignored no]

theorem exec_cutFrame_ignored {target code : Byte} (ok : cutOk 0 id target code = true) :
    exec (.cutFrame src 0 id target code) s = .next s.heard := by
  obtain ⟨-, hid, station, reason⟩ := cutOk_iff.1 ok
  obtain ⟨r, hr⟩ := Option.isSome_iff_exists.1 reason
  rw [exec_cutFrame_of h hid (stationOf?_isSome station) src hr, State.takeCut, State.forConsumer_ignored no]

theorem exec_promptFrame_ignored {stations : List Byte} (ok : promptOk 0 id stations = true) (page : PageNum) :
    exec (.promptFrame src 0 id page stations) s = .next s.heard := by
  rw [exec_promptFrame_of h ok, State.takePrompt, State.forConsumer_ignored no]

theorem exec_goneFrame_ignored (hid : id ≠ 0) (page : PageNum) : exec (.goneFrame src 0 id page) s = .next s.heard := by
  rw [exec_goneFrame_of h hid, State.takeGone, State.forConsumer_ignored no]

end

section
variable (no : s.heard.noOpenProducer id) {station : Byte}
include no

theorem exec_takeFrame_ignored (ok : stationFrameOk 0 id station = true) :
    exec (.takeFrame src 0 id station) s = .next s.heard := by
  obtain ⟨-, hid, known⟩ := stationFrameOk_iff.1 ok
  rw [exec_takeFrame_of h hid (stationOf?_isSome known), State.takeTake, State.forProducer_ignored no]

theorem exec_dropFrame_ignored (ok : stationFrameOk 0 id station = true) :
    exec (.dropFrame src 0 id station) s = .next s.heard.settle := by
  obtain ⟨-, hid, known⟩ := stationFrameOk_iff.1 ok
  rw [exec_dropFrame_of h hid (stationOf?_isSome known), State.takeDrop, State.forProducer_ignored no]

theorem exec_freeFrame_ignored (ok : stationFrameOk 0 id station = true) (lost : Bool) (page : PageNum) :
    exec (.freeFrame src lost id station page) s = .next s.heard.settle := by
  obtain ⟨-, hid, known⟩ := stationFrameOk_iff.1 ok
  rw [exec_freeFrame_of h hid (stationOf?_isSome known), State.takeFree, State.forProducer_ignored no]

theorem exec_gapFrame_ignored {segments : List Byte} (ok : gapOk 0 id station segments = true) (page : PageNum) :
    exec (.gapFrame src 0 id station page segments) s = .next s.heard.settle := by
  rw [exec_gapFrame_of h ok, State.takeGap, State.forProducer_ignored no]

end

end

/-- Settles O40: the way of R144 for discarded and for good frames; then each kind that finds no entry to take it. -/
theorem framesReachTheBlocks : Obligations.FramesReachTheBlocks := by
  refine ⟨fun cause s h => ⟨fun quiet => ?_, fun driving => ?_⟩, fun i r s raw h => ?_, fun src id s h => ?_⟩
  · rw [exec_frameDiscarded h, quiet]
    rfl
  · rw [exec_frameDiscarded h, driving]
    rfl
  · obtain ⟨ok, take, exec_eq⟩ := exec_frame_receive raw
    exact ⟨fun quiet unconfigured => by rw [exec_eq, State.receive_unconfigured h quiet unconfigured],
      fun driving => by rw [exec_eq, State.receive_driving h driving]⟩
  · exact ⟨fun _ _ _ _ _ ok no => exec_segFrame_ignored h src (or_assoc.2 no) ok,
      fun _ _ _ _ ok no => exec_closeFrame_ignored h src (or_assoc.2 no) ok,
      fun no => ⟨fun _ _ _ => exec_admitFrame_ignored h src no, fun _ _ => exec_cutFrame_ignored h src no,
        fun page _ ok => exec_promptFrame_ignored h src no ok page, fun page hid => exec_goneFrame_ignored h src no hid page⟩,
      fun no _ => ⟨fun ok => ⟨exec_takeFrame_ignored h src no ok, exec_dropFrame_ignored h src no ok, exec_freeFrame_ignored h src no ok⟩,
        fun page _ ok => exec_gapFrame_ignored h src no ok page⟩⟩

end Sys2Proof.Machine
end

section
/-! SUPPORT. The outcomes of an attempt on the line, and what an element that its source removes or replaces meanwhile does to
the holding frame (chapter 8). -/

namespace Sys2Proof.Machine

/-! ### The outcomes of an attempt (R136, R138, R139) -/

section
variable {s : State} {h : HeldFrame}

theorem State.attempt_of (held : s.link.holding = some h) {p : HoldPhase → Bool} (phase : p h.phase = true)
    (f : State → HeldFrame → State) : s.attempt p f = f s h := by
  unfold State.attempt
  rw [held]
  exact if_pos phase

/-- Outside the phases of an outcome, and with an empty holding frame, the outcome cannot happen (log 8). -/
theorem State.attempt_other {p : HoldPhase → Bool} (other : ∀ h, s.link.holding = some h → p h.phase = false)
    (f : State → HeldFrame → State) : s.attempt p f = s := by
  unfold State.attempt
  split
  · next h held => rw [other h held, if_neg Bool.false_ne_true]
  · rfl

variable (awake : s.port.inReset = false)
include awake

theorem exec_arbitrationLost : exec .arbitrationLost s = .next (s.attempt (· == .contending) State.loseArbitration) := by
  change execArbitrationLost s = _
  rw [execArbitrationLost, State.awake_of awake]

theorem exec_arbitrationWon :
    exec .arbitrationWon s = .next (s.attempt (· == .contending) fun s h => s.holdPhase h .transmitting) := by
  change execArbitrationWon s = _
  rw [execArbitrationWon, State.awake_of awake]

theorem exec_echoMismatch : exec .echoMismatch s =
    .next (s.attempt (fun p => p == .contending || p == .transmitting) fun s h => s.holdPhase h .aborting) := by
  change execEchoMismatch s = _
  rw [execEchoMismatch, State.awake_of awake]

theorem exec_attemptSent : exec .attemptSent s =
    .next (s.attempt (· == .transmitting) fun s h => s.joinAscending (s.sentAttempt h).settle) := by
  change execAttemptSent s = _
  rw [execAttemptSent, State.awake_of awake]

end

/-- The holding frame EMPTY, the consecutive-drop count 0, the line busy: an attempt that is sent, before its report. -/
def State.released (s : State) : State :=
  { s with link := { s.link with holding := none, attempts := 0, drops := 0, lineIdle := false } }

theorem State.loseArbitration_kept (s : State) {h : HeldFrame} (kept : h.orphan = false) : s.loseArbitration h =
    { s with link := { s.link with
      holding := some { h with phase := .held }
      counters := { s.link.counters with arbitrationLosses := satInc s.link.counters.arbitrationLosses } } } :=
  if_neg (by rw [kept]; exact Bool.false_ne_true)

theorem State.loseArbitration_orphan (s : State) {h : HeldFrame} (removed : h.orphan = true) : s.loseArbitration h =
    { s with link := { s.link with
      holding := none
      attempts := 0
      counters := { s.link.counters with arbitrationLosses := satInc s.link.counters.arbitrationLosses } } } :=
  if_pos removed

theorem State.sentAttempt_kept (s : State) {h : HeldFrame} (kept : h.orphan = false) :
    s.sentAttempt h = s.released.report h.source h.frame h.replaced true :=
  if_neg (by rw [kept]; exact Bool.false_ne_true)

theorem State.sentAttempt_orphan (s : State) {h : HeldFrame} (removed : h.orphan = true) : s.sentAttempt h = s.released :=
  if_pos removed

/-! ### An element removed or replaced (R138) -/

section
variable {s : State} {h : HeldFrame} (held : s.link.holding = some h)
include held

/-- A removal by another source, or one after the first, leaves the holding frame as it is. -/
theorem State.sourceRemoved_ignored {p : FrameSource → Bool} (no : p h.source = false ∨ h.orphan = true) : s.sourceRemoved p = s := by
  unfold State.sourceRemoved
  rw [held]
  refine if_neg ?_
  rw [Bool.and_eq_true, Bool.not_eq_true']
  rintro ⟨named, kept⟩
  exact no.elim (fun other => Bool.false_ne_true (other.symm.trans named)) fun removed => Bool.false_ne_true (kept.symm.trans removed)

section
variable {p : FrameSource → Bool} (named : p h.source = true) (kept : h.orphan = false)
include named kept

theorem State.sourceRemoved_held (still : h.phase = .held) : s.sourceRemoved p = s.emptyHolding := by
  unfold State.sourceRemoved
  rw [held]
  dsimp only
  rw [named, kept, if_pos (by decide), if_pos still]

theorem State.sourceRemoved_driven (driven : h.phase ≠ .held) : s.sourceRemoved p =
    { s with link := { s.link with holding := some { h with orphan := true } } } := by
  unfold State.sourceRemoved
  rw [held]
  dsimp only
  rw [named, kept, if_pos (by decide), if_neg driven]

end

variable {src : FrameSource} (f : Frame)

/-- A replacement by another source, of a removed element, or of a HELD one marks nothing. -/
theorem State.contentReplaced_ignored (no : h.source ≠ src ∨ h.orphan = true ∨ h.phase = .held) : s.contentReplaced src f = s := by
  unfold State.contentReplaced
  rw [held]
  refine if_neg ?_
  rintro ⟨own, kept, driven⟩
  rcases no with other | removed | still
  · exact other own
  · exact Bool.false_ne_true (kept.symm.trans removed)
  · exact driven still

theorem State.contentReplaced_marks (own : h.source = src) (kept : h.orphan = false) (driven : h.phase ≠ .held) :
    s.contentReplaced src f = { s with link := { s.link with holding := some { h with replaced := decide (f ≠ h.frame) } } } := by
  unfold State.contentReplaced
  rw [held]
  exact if_pos ⟨own, kept, driven⟩

end

/-! ### The operations that remove or replace elements (R27) -/

section
variable {s : State} {i : EntryIx} {p : Producer} (he : s.entry i = some (.producer p)) (n : Station)
include he

theorem State.removeCut_eq : s.removeCut i n =
    ({ s with streams := vput s.streams i (some (.producer { p with cuts := p.cuts.filter fun e => e.1 != n })) } : State).sourceRemoved
      (· == .cut i n) := by
  rw [State.removeCut, State.modProducer_of he]
  rfl

theorem State.removeAdmit_eq : s.removeAdmit i n =
    ({ s with streams := vput s.streams i (some (.producer { p with admits := p.admits.filter fun e => e.1 != n })) } : State).sourceRemoved
      (· == .admission i n) := by
  rw [State.removeAdmit, State.modProducer_of he]
  rfl

theorem State.clearPrompt_eq : s.clearPrompt i =
    ({ s with streams := vput s.streams i (some (.producer { p with prompt := false })) } : State).sourceRemoved (· == .prompt i) := by
  rw [State.clearPrompt, State.modProducer_of he]
  rfl

theorem State.removeGone_eq (page : PageNum) : s.removeGone i page =
    ({ s with streams := vput s.streams i (some (.producer { p with gones := p.gones.filter fun q => q != page })) } : State).sourceRemoved
      (· == .gone i page) := by
  rw [State.removeGone, State.modProducer_of he]
  rfl

theorem State.placeAdmit_eq (r : AdmitResult) : s.placeAdmit i n r =
    ({ s with streams := vput s.streams i (some (.producer { p with admits := putTarget n r p.admits })) } : State).contentReplaced
      (.admission i n) (.admission p.stream n r) := by
  rw [State.placeAdmit, State.modProducer_of he, State.streamOf_of he]
  rfl

theorem State.placeCut_eq (r : CutReason) (place : (∃ e ∈ p.cuts, e.1 = n) ∨ p.cuts.length < 8) : s.placeCut i n r =
    ({ s with streams := vput s.streams i (some (.producer { p with cuts := putTarget n r p.cuts })) } : State).contentReplaced
      (.cut i n) (.cut p.stream n r) := by
  have has : hasPlace n p.cuts = true := (hasPlace_iff n p.cuts).2 (place.imp_left fun ⟨e, mem, target⟩ => ⟨e.2, target ▸ mem⟩)
  rw [State.placeCut, State.producer_of he]
  dsimp only
  rw [if_pos has, State.modProducer_of he, State.streamOf_of he]
  rfl

end

section
variable {s : State} {i : EntryIx} {c : Consumer} (he : s.entry i = some (.consumer c))
include he

theorem State.clearTake_eq : s.clearTake i =
    ({ s with streams := vput s.streams i (some (.consumer { c with take := false })) } : State).sourceRemoved (· == .take i) := by
  rw [State.clearTake, State.modConsumer_of he]
  rfl

theorem State.clearDrop_eq : s.clearDrop i =
    ({ s with streams := vput s.streams i (some (.consumer { c with drop := false })) } : State).sourceRemoved (· == .drop i) := by
  rw [State.clearDrop, State.modConsumer_of he]
  rfl

theorem State.clearFree_eq : s.clearFree i =
    ({ s with streams := vput s.streams i (some (.consumer { c with free := none })) } : State).sourceRemoved (· == .free i) := by
  rw [State.clearFree, State.modConsumer_of he]
  rfl

theorem State.clearGap_eq : s.clearGap i =
    ({ s with streams := vput s.streams i (some (.consumer { c with gap := none })) } : State).sourceRemoved (· == .gap i) := by
  rw [State.clearGap, State.modConsumer_of he]
  rfl

theorem State.setFree_eq (page : PageNum) (lost : Bool) : s.setFree i page lost =
    ({ s with streams := vput s.streams i (some (.consumer { c with free := some (page, lost) })) } : State).contentReplaced
      (.free i) (.free c.stream s.own page lost) := by
  rw [State.setFree, State.modConsumer_of he, State.streamOf_of he]
  rfl

theorem State.setGap_eq (page : PageNum) (missing : SegSet) : s.setGap i page missing =
    ({ s with streams := vput s.streams i (some (.consumer { c with gap := some (page, missing) })) } : State).contentReplaced
      (.gap i) (.gap c.stream s.own page missing) := by
  rw [State.setGap, State.modConsumer_of he, State.streamOf_of he]
  rfl

end

/-- Settles O37: each outcome on the holding frame it finds; then what removing and replacing an element does to that frame, and
the operations that do so. -/
theorem attemptsEndAsTheLineSays : Obligations.AttemptsEndAsTheLineSays := by
  refine ⟨fun s awake => ⟨fun h held phase => ⟨fun kept => ?_, fun removed => ?_, ?_⟩, fun h held phase => ?_,
      fun other => ⟨?_, ?_⟩, fun other => ?_⟩,
    fun s awake => ⟨fun h held phase => ⟨fun kept => ?_, fun removed => ?_⟩, fun other => ?_⟩,
    fun s => ⟨fun p src f => ⟨fun empty => ⟨?_, ?_⟩, fun h held => ⟨State.sourceRemoved_ignored held, fun named kept =>
        ⟨State.sourceRemoved_held held named kept, State.sourceRemoved_driven held named kept⟩,
        State.contentReplaced_ignored held f, State.contentReplaced_marks held f⟩⟩,
      fun i p he => ⟨fun n => ⟨State.removeCut_eq he n, State.removeAdmit_eq he n, State.placeAdmit_eq he n, State.placeCut_eq he n⟩,
        State.clearPrompt_eq he, State.removeGone_eq he⟩,
      fun i c he => ⟨State.clearTake_eq he, State.clearDrop_eq he, State.clearFree_eq he, State.clearGap_eq he,
        State.setFree_eq he, State.setGap_eq he⟩,
      fun i e he => ?_⟩⟩
  · rw [exec_arbitrationLost awake, State.attempt_of held (by rw [phase]; rfl), State.loseArbitration_kept s kept]
  · rw [exec_arbitrationLost awake, State.attempt_of held (by rw [phase]; rfl), State.loseArbitration_orphan s removed]
  · rw [exec_arbitrationWon awake, State.attempt_of held (by rw [phase]; rfl)]
    rfl
  · rw [exec_echoMismatch awake, State.attempt_of held (by rcases phase with phase | phase <;> rw [phase] <;> rfl)]
    rfl
  · rw [exec_arbitrationLost awake, State.attempt_other (by exact fun h held => beq_false_of_ne (other h held))]
  · rw [exec_arbitrationWon awake, State.attempt_other (by exact fun h held => beq_false_of_ne (other h held))]
  · rw [exec_echoMismatch awake, State.attempt_other fun h held => by
      rw [beq_false_of_ne (other h held).1, beq_false_of_ne (other h held).2, Bool.or_false]]
  · rw [exec_attemptSent awake, State.attempt_of held (by rw [phase]; rfl), State.sentAttempt_kept s kept]
    rfl
  · rw [exec_attemptSent awake, State.attempt_of held (by rw [phase]; rfl), State.sentAttempt_orphan s removed]
    rfl
  · rw [exec_attemptSent awake, State.attempt_other (by exact fun h held => beq_false_of_ne (other h held))]
  · exact State.sourceRemoved_other fun x held => nomatch empty.symm.trans held
  · exact State.contentReplaced_idle (fun x held => nomatch empty.symm.trans held) f
  · rw [State.emptyPending, he]
    rfl

end Sys2Proof.Machine
end

section
/-! SUPPORT. OPPORTUNITY: how an attempt starts (chapter 8). -/

namespace Sys2Proof.Machine

/-! ### An attempt starts (R135, R137, R138) -/

/-- The station finds the line idle. -/
def State.findsIdle (s : State) : State := { s with link := { s.link with lineIdle := true } }

/-- An attempt of the element `src` has started with the frame `f`. -/
def State.contending (s : State) (src : FrameSource) (f : Frame) (attempts : Nat) : State :=
  { s with link := { s.link with
    holding := some ⟨.contending, src, f, false, false⟩, attempts := attempts, lineIdle := false } }

section
variable {s : State}

theorem exec_opportunity (h : s.port.inReset = false) :
    exec .opportunity s = .next (if s.driving then s else s.takeOpportunity) := by
  change execOpportunity s = _
  rw [execOpportunity, State.awake_of h]

/-- A frame is built from the entries, the Presence Unit, the NOTE out-queue and the offered frame; not from the holding frame. -/
theorem State.buildFrame_link (s : State) (l : LinkController) (h : l.notes = s.link.notes) (src : FrameSource) :
    ({ s with link := l } : State).buildFrame src = s.buildFrame src := by
  cases src with
  | note => exact congrArg (fun n => n.head?.map fun e => Frame.note s.own e.target e.code) h
  | _ => rfl

theorem State.startAttempt_of {src : FrameSource} {f : Frame} (built : s.buildFrame src = some f) :
    s.startAttempt src = s.contending src f s.link.attempts := by
  rw [State.startAttempt, built]
  rfl

theorem State.takeOpportunity_silent (h : s.presence.state ∉ [.active, .leaving]) : s.takeOpportunity = s.findsIdle := by
  rw [State.takeOpportunity, if_neg (by rwa [State.transmits_iff])]
  rfl

variable (h : s.presence.state ∈ [.active, .leaving])
include h

theorem State.takeOpportunity_held {x : HeldFrame} {f : Frame} (held : s.link.holding = some x)
    (built : s.buildFrame x.source = some f) : s.takeOpportunity = s.contending x.source f s.link.attempts := by
  have again : s.findsIdle.buildFrame x.source = some f := (State.buildFrame_link s _ rfl _).trans built
  rw [State.takeOpportunity, if_pos (by rwa [State.transmits_iff]), held]
  exact State.startAttempt_of again

theorem State.takeOpportunity_chosen {src : FrameSource} {f : Frame} (empty : s.link.holding = none)
    (chosen : s.selectSource = some src) (built : s.buildFrame src = some f) : s.takeOpportunity = s.contending src f 0 := by
  have again : (s.findsIdle.modLink fun l => { l with attempts := 0 }).buildFrame src = some f :=
    (State.buildFrame_link s _ rfl _).trans built
  rw [State.takeOpportunity, if_pos (by rwa [State.transmits_iff]), empty]
  dsimp only
  rw [chosen]
  exact State.startAttempt_of again

theorem State.takeOpportunity_nothing (empty : s.link.holding = none) (nothing : s.selectSource = none) :
    s.takeOpportunity = s.findsIdle := by
  rw [State.takeOpportunity, if_pos (by rwa [State.transmits_iff]), empty]
  dsimp only
  rw [nothing]
  rfl

end

end Sys2Proof.Machine
end

section
/-! SUPPORT. The frame of each element, as the event it is at a receiver, and the transceiver outputs during an attempt
(chapters 8 and 11). -/

namespace Sys2Proof.Machine

/-! ### The claims of the ROLL (R125) -/

theorem insertClaim_perm (c : RawClaim) (l : List RawClaim) : (insertClaim c l).Perm (c :: l) := by
  induction l with
  | nil => exact .refl _
  | cons d l ih =>
    unfold insertClaim
    split
    · exact .refl _
    · exact (ih.cons d).trans (.swap c d l)

/-- Claims stand in ascending stream identifier. -/
abbrev claimsRise (l : List RawClaim) : Prop := l.Pairwise fun a b => a.stream ≤ b.stream

theorem insertClaim_rises (c : RawClaim) (l : List RawClaim) (h : claimsRise l) : claimsRise (insertClaim c l) := by
  induction l with
  | nil => exact List.pairwise_singleton ..
  | cons d l ih =>
    obtain ⟨first, rest⟩ := List.pairwise_cons.1 h
    unfold insertClaim
    split
    · next below =>
      refine List.pairwise_cons.2 ⟨fun e he => ?_, h⟩
      rcases List.mem_cons.1 he with rfl | he
      · exact BitVec.le_of_lt below
      · exact BitVec.le_trans (BitVec.le_of_lt below) (first e he)
    · next above =>
      refine List.pairwise_cons.2 ⟨fun e he => ?_, ih rest⟩
      rcases List.mem_cons.1 ((insertClaim_perm c l).mem_iff.1 he) with rfl | he
      · exact BitVec.not_lt.1 above
      · exact first e he

/-- The claim that entry `i` gives to the ROLL: an OPEN producer entry gives one. -/
def State.claimOfEntry (s : State) (i : EntryIx) : Option RawClaim :=
  (s.producer i).bind fun p => if p.state = .opened then some p.claim else none

theorem Producer.claim_eq (p : Producer) :
    p.claim = ⟨p.mode == .lockStep, p.lastClosed.isSome, p.stream, p.lastClosed.getD 0⟩ := by
  unfold Producer.claim
  cases p.mode <;> rfl

/-- The claims list takes the claims of the entries one after another, each to its place. -/
theorem State.ownClaims_eq (s : State) : s.ownClaims =
    (allEntries.filterMap s.claimOfEntry).foldl (fun l c => insertClaim c l) [] := by
  rw [List.foldl_filterMap, State.ownClaims]
  congr 1
  funext l i
  unfold State.claimOfEntry
  cases s.producer i with
  | none => rfl
  | some p =>
    dsimp only [Option.bind_some]
    split <;> rfl

theorem foldl_insertClaim (l acc : List RawClaim) (h : claimsRise acc) :
    claimsRise (l.foldl (fun l c => insertClaim c l) acc) ∧ (l.foldl (fun l c => insertClaim c l) acc).Perm (l ++ acc) := by
  induction l generalizing acc with
  | nil => exact ⟨h, .refl _⟩
  | cons c l ih =>
    obtain ⟨rises, perm⟩ := ih _ (insertClaim_rises c acc h)
    exact ⟨rises, perm.trans (((insertClaim_perm c acc).append_left l).trans List.perm_middle)⟩

theorem State.ownClaims_rise (s : State) : claimsRise s.ownClaims := by
  rw [State.ownClaims_eq]
  exact (foldl_insertClaim _ [] .nil).1

theorem State.ownClaims_perm (s : State) : s.ownClaims.Perm (allEntries.filterMap s.claimOfEntry) := by
  rw [State.ownClaims_eq]
  simpa using (foldl_insertClaim (allEntries.filterMap s.claimOfEntry) [] .nil).2

/-! ### Sets as bytes (11.1) -/

/-- The elements of a set in ascending order, as bytes. -/
theorem stationsOf_bytes (x : BitVec 32) : (stationsOf x).map (fun n => byteOf n.val) =
    ((List.range 32).filter fun k => x.getLsbD k).map byteOf := by
  rw [← List.map_coe_finRange_eq_range, List.filter_map, List.map_map]
  rfl

/-! ### The frame of each element (R138) -/

/-- The frame of an element as the event it is at a receiver, under the station's own number. -/
def State.builtRow (s : State) (src : FrameSource) : Option Instr := (s.buildFrame src).map (Frame.row s.presence.station)

theorem find?_target {α : Type} {l before after : List (Station × α)} {n : Station} {r : α}
    (split : l = before ++ (n, r) :: after) (first : ∀ e ∈ before, e.1 ≠ n) : l.find? (fun e => e.1 == n) = some (n, r) := by
  rw [split, List.find?_append, List.find?_eq_none.2 fun e he => by simpa using first e he, Option.none_or]
  exact List.find?_cons_of_pos (by simp)

theorem find?_noTarget {α : Type} {l : List (Station × α)} {n : Station} (no : ∀ e ∈ l, e.1 ≠ n) :
    l.find? (fun e => e.1 == n) = none := List.find?_eq_none.2 fun e he => by simpa using no e he

section
variable {s : State} {i : EntryIx} {p : Producer} (he : s.entry i = some (.producer p))
include he

theorem State.builtRow_cut (n : Station) : s.builtRow (.cut i n) =
    (p.cuts.find? fun e => e.1 == n).map fun e => .cutFrame s.presence.station 0 p.stream (byteOf n.val) (byteOf e.2.code) := by
  rw [State.builtRow, State.buildFrame, State.producer_of he, Option.bind_some, Option.map_map]
  rfl

theorem State.builtRow_admission (n : Station) : s.builtRow (.admission i n) =
    (p.admits.find? fun e => e.1 == n).map fun e =>
      .admitFrame s.presence.station 0 p.stream (byteOf n.val) (byteOf e.2.code) e.2.first := by
  rw [State.builtRow, State.buildFrame, State.producer_of he, Option.bind_some, Option.map_map]
  rfl

theorem State.builtRow_prompt : s.builtRow (.prompt i) = if p.prompt then some (.promptFrame s.presence.station 0 p.stream
    (p.lastClosed.getD 0) (((List.range 32).filter fun k => (p.awaited &&& ~~~p.released).getLsbD k).map byteOf)) else none := by
  rw [State.builtRow, State.buildFrame, State.producer_of he, Option.bind_some, ← stationsOf_bytes]
  split <;> rfl

theorem State.builtRow_gone (page : PageNum) : s.builtRow (.gone i page) =
    if page ∈ p.gones then some (.goneFrame s.presence.station 0 p.stream page) else none := by
  rw [State.builtRow, State.buildFrame, State.producer_of he, Option.bind_some]
  simp only [List.contains_iff_mem]
  split <;> rfl

end

section
variable {s : State} {i : EntryIx} {c : Consumer} (he : s.entry i = some (.consumer c))
include he

theorem State.builtRow_drop : s.builtRow (.drop i) =
    if c.drop then some (.dropFrame s.presence.station 0 c.stream (byteOf s.presence.station.val)) else none := by
  rw [State.builtRow, State.buildFrame, State.consumer_of he, Option.bind_some]
  split <;> rfl

theorem State.builtRow_take : s.builtRow (.take i) =
    if c.take then some (.takeFrame s.presence.station 0 c.stream (byteOf s.presence.station.val)) else none := by
  rw [State.builtRow, State.buildFrame, State.consumer_of he, Option.bind_some]
  split <;> rfl

theorem State.builtRow_free : s.builtRow (.free i) =
    c.free.map fun e => .freeFrame s.presence.station e.2 c.stream (byteOf s.presence.station.val) e.1 := by
  rw [State.builtRow, State.buildFrame, State.consumer_of he, Option.bind_some, Option.map_map]
  rfl

theorem State.builtRow_gap : s.builtRow (.gap i) = c.gap.map fun e => .gapFrame s.presence.station 0 c.stream
    (byteOf s.presence.station.val) e.1 (((List.range 32).filter fun k => e.2.getLsbD k).map byteOf) := by
  simp only [State.builtRow, State.buildFrame, State.consumer_of he, Option.bind_some, Option.map_map, ← stationsOf_bytes]
  congr 1
  funext e
  exact congrArg (Instr.gapFrame _ _ _ _ _) (List.map_map ..)

end

theorem State.builtRow_roll (s : State) : s.builtRow .roll = if s.presence.rollPending then
    some (.rollFrame s.presence.station s.presence.leavingPlaced 0 s.presence.rollCount s.ownClaims) else none := by
  rw [State.builtRow, State.buildFrame]
  split <;> rfl

theorem stationBits_eq (n : Station) : stationBits n = BitVec.ofNat 5 n.val :=
  BitVec.eq_of_toNat_eq (Nat.mod_eq_of_lt n.isLt).symm

theorem State.builtRow_note (s : State) : s.builtRow .note = s.link.notes.head?.map fun n =>
    Frame.row s.presence.station (.note s.presence.station n.target n.code) := by
  rw [State.builtRow, State.buildFrame, Option.map_map]
  rfl

theorem Frame.row_note (own : Station) (target : NoteTarget) (code : Byte) : Frame.row own (.note own target code) =
    match target with
    | .all => .noteFrame own true 0 0 (byteOf own.val) code
    | .one t => .noteFrame own false 0 (BitVec.ofNat 5 t.val) (byteOf own.val) code := by
  cases target with
  | all => rfl
  | one t => exact congrArg (fun b => Instr.noteFrame own false 0 b (byteOf own.val) code) (stationBits_eq t)

/-! ### The transceiver outputs (R147) -/

theorem State.linkDE_iff (s : State) : s.linkDE = true ↔
    s.port.inReset = false ∧ s.port.clearing = false ∧ ∃ h, s.link.holding = some h ∧ h.phase ≠ .held := by
  unfold State.linkDE
  cases s.link.holding <;> simp [and_assoc]

section
variable {s : State}

theorem State.linkDrive_high (off : s.linkDE = false) : s.linkDrive = .high := by
  rw [State.linkDrive, off]
  rfl

theorem State.linkTX_high (off : s.linkDE = false) : s.linkTX = [] := by
  rw [State.linkTX, State.linkDrive_high off]

variable (on : s.linkDE = true) {h : HeldFrame} (held : s.link.holding = some h)
include held

theorem State.driven_of (driven : h.phase ≠ .held) : s.driven = some (h.frame.bytes s.own) := by
  rw [State.driven, held]
  exact if_neg driven

include on

theorem State.linkDrive_of : s.linkDrive = if h.phase = .aborting then .abort else .frame := by
  rw [State.linkDrive, if_pos on, held]

theorem State.linkDrive_abort (phase : h.phase = .aborting) : s.linkDrive = .abort := by
  rw [State.linkDrive_of on held, if_pos phase]

theorem State.linkDrive_frame (phase : h.phase = .contending ∨ h.phase = .transmitting) : s.linkDrive = .frame := by
  rw [State.linkDrive_of on held, if_neg]
  rcases phase with phase | phase <;> rw [phase] <;> decide

end

/-- Settles O35: the row by what the station has to send; the frame of each element by the `State.builtRow_…` lemmas; the outputs
by the phase of the held frame. -/
theorem opportunityStartsAnAttempt : Obligations.OpportunityStartsAnAttempt := by
  refine ⟨fun s awake => ⟨fun driving => ?_, fun quiet => ?_⟩, fun s => ⟨fun i p he => ?_, fun i c he => ?_, fun roll => ?_,
    fun roll => ?_, ?_, rfl, fun _ _ _ _ _ _ => rfl, fun _ _ _ kind _ => ?_⟩, fun s => ⟨s.linkDE_iff, fun no => ?_, fun h on held => ?_⟩⟩
  · rw [exec_opportunity awake, if_pos driving]
  · rw [exec_opportunity awake, quiet, if_neg Bool.false_ne_true]
    exact ⟨fun silent => by rw [State.takeOpportunity_silent silent]; rfl, fun transmits =>
      ⟨fun h f held built => by rw [State.takeOpportunity_held transmits held built]; rfl,
        fun src f empty chosen built => by rw [State.takeOpportunity_chosen transmits empty chosen built]; rfl,
        fun empty nothing => by rw [State.takeOpportunity_nothing transmits empty nothing]; rfl⟩⟩
  · refine ⟨fun n r before after split first => ?_, fun n r before after split first => ?_, fun n => ⟨fun no => ?_, fun no => ?_⟩,
      State.builtRow_prompt he, State.builtRow_gone he⟩
    · refine (State.builtRow_cut he n).trans ?_
      rw [find?_target split first]
      cases r <;> rfl
    · refine (State.builtRow_admission he n).trans ?_
      rw [find?_target split first]
      cases r <;> rfl
    · refine (State.builtRow_cut he n).trans ?_
      rw [find?_noTarget no]
      rfl
    · refine (State.builtRow_admission he n).trans ?_
      rw [find?_noTarget no]
      rfl
  · exact ⟨State.builtRow_drop he, State.builtRow_take he, State.builtRow_free he, State.builtRow_gap he⟩
  · refine s.builtRow_roll.trans ?_
    rw [roll]
    rfl
  · refine ⟨s.ownClaims, s.builtRow_roll.trans (if_pos roll), s.ownClaims_rise, s.ownClaims_perm.trans (.of_eq ?_)⟩
    refine List.filterMap_congr fun i _ => ?_
    unfold State.claimOfEntry State.producer
    cases s.entry i with
    | none => rfl
    | some e =>
      cases e with
      | consumer c => rfl
      | producer p => rw [Option.bind_some, Producer.claim_eq]
  · refine s.builtRow_note.trans ?_
    congr 1
    funext n
    exact Frame.row_note ..
  · cases kind <;> rfl
  · have off : s.linkDE = false := Bool.eq_false_iff.2 fun on => no (s.linkDE_iff.1 on)
    exact ⟨State.linkDrive_high off, State.linkTX_high off⟩
  · replace on := s.linkDE_iff.2 on
    refine ⟨fun aborting => ?_, fun frame => ?_⟩
    · have abort := State.linkDrive_abort on held aborting
      refine ⟨abort, ?_⟩
      rw [State.linkTX, abort]
      rfl
    · have drives := State.linkDrive_frame on held frame
      have driven : s.driven = some (h.frame.bytes s.own) :=
        State.driven_of held (by rcases frame with frame | frame <;> rw [frame] <;> decide)
      refine ⟨drives, driven, ?_⟩
      rw [State.linkTX, drives, driven]
      rfl

end Sys2Proof.Machine
end

section
/-! SUPPORT. A failed attempt: kept for another try, or dropped at its fourth (chapter 8). -/

namespace Sys2Proof.Machine

/-! ### A failed attempt (R140, R141) -/

/-- The frame is dropped, before its report: the holding frame EMPTY, one more consecutive drop, the line busy. -/
def State.dropped (s : State) : State :=
  { s with link := { s.link with
    holding := none, attempts := 0, drops := min 8 (s.link.drops + 1), lineIdle := false
    counters := { s.link.counters with framesDropped := satInc s.link.counters.framesDropped } } }

/-- The dropped frame is reported, unless its source has removed the element. -/
def State.droppedReport (s : State) (h : HeldFrame) : State :=
  if h.orphan then s.dropped else s.dropped.report h.source h.frame h.replaced false

section
variable {s : State} {h : HeldFrame}

theorem State.failAttempt_kept (few : s.link.attempts < 3) (kept : h.orphan = false) : s.failAttempt h =
    { s with link := { s.link with
      holding := some { h with phase := .held, replaced := false }, attempts := s.link.attempts + 1, lineIdle := false
      counters := { s.link.counters with retries := satInc s.link.counters.retries } } } := by
  rw [State.failAttempt, if_pos (Nat.succ_lt_succ few)]
  exact if_neg (by rw [kept]; exact Bool.false_ne_true)

theorem State.failAttempt_orphan (few : s.link.attempts < 3) (removed : h.orphan = true) : s.failAttempt h =
    { s with link := { s.link with
      holding := none, attempts := 0, lineIdle := false
      counters := { s.link.counters with retries := satInc s.link.counters.retries } } } := by
  rw [State.failAttempt, if_pos (Nat.succ_lt_succ few)]
  exact if_pos removed

/-- At the fourth attempt the frame is dropped; the eighth drop in a row of a station that transmits leads to MUTED (R142). -/
theorem State.failAttempt_dropped (all : 3 ≤ s.link.attempts) : s.failAttempt h =
    if (s.droppedReport h).transmits = true ∧ 8 ≤ (s.droppedReport h).link.drops then (s.droppedReport h).enterMuted
    else s.droppedReport h := by
  rw [State.failAttempt, if_neg (Nat.not_lt.2 (Nat.succ_le_succ all))]
  rfl

theorem exec_attemptFailed (awake : s.port.inReset = false) : exec .attemptFailed s =
    .next (s.attempt (fun p => p == .aborting || p == .transmitting) fun s h => s.joinAscending (s.failAttempt h).settle) := by
  change execAttemptFailed s = _
  rw [execAttemptFailed, State.awake_of awake]

theorem exec_muted (awake : s.port.inReset = false) : exec .muted s =
    .next (if s.transmits = true ∧ 8 ≤ s.link.drops then s.joinAscending s.enterMuted.settle else s) := by
  change execMuted s = _
  rw [execMuted, State.awake_of awake]

end

end Sys2Proof.Machine
end

section
/-! SUPPORT. What a pending DROP that takes effect leaves alone: the Segmenter, the Publish Queue, the Presence Unit, the Time Base
and the producer entries (chapter 2). -/

namespace Sys2Proof.Machine

/-- What the sending side of the part works on. -/
def State.sender (s : State) : Segmenter × PublishQueue × Presence × Micros × (EntryIx → Option Producer) :=
  (s.seg, s.publish, s.presence, s.time, s.producer)

section
variable {s t : State} (h : t.sender = s.sender)
include h

theorem State.seg_of_sender : t.seg = s.seg := congrArg (·.1) h

theorem State.publish_of_sender : t.publish = s.publish := congrArg (·.2.1) h

theorem State.presence_of_sender : t.presence = s.presence := congrArg (·.2.2.1) h

theorem State.producer_of_sender (i : EntryIx) : t.producer i = s.producer i := congrFun (congrArg (·.2.2.2.2) h) i

end

@[simp] theorem State.insertEvent_sender (s : State) (e : Event) : (s.insertEvent e).sender = s.sender := by
  rw [State.insertEvent_eq]
  rfl

/-- A change of the entry `i` that is no producer entry before nor after. -/
theorem State.setEntry_sender {s : State} {i : EntryIx} (before : s.producer i = none) {e : Option Entry}
    (after : ∀ p, e ≠ some (.producer p)) : (s.setEntry i e).sender = s.sender := by
  have producers : (s.setEntry i e).producer = s.producer := by
    funext j
    by_cases h : i = j
    · subst h
      rw [before, State.producer, State.entry_setEntry]
      split
      · next p => exact absurd rfl (after p)
      · rfl
    · rw [State.producer, State.entry_setEntry_other s h, State.producer]
  exact congrArg (fun f => (s.seg, s.publish, s.presence, s.time, f)) producers

@[simp] theorem State.modConsumer_sender (s : State) (i : EntryIx) (f : Consumer → Consumer) :
    (s.modConsumer i f).sender = s.sender := by
  unfold State.modConsumer
  split
  · next c he => exact State.setEntry_sender (State.producer_of_consumer he) fun _ => by simp
  · rfl

@[simp] theorem State.freeRef_sender (s : State) (r : Option SlotNum) : (s.freeRef r).sender = s.sender := by
  cases r <;> rfl

@[simp] theorem State.sourceRemoved_sender (s : State) (p : FrameSource → Bool) : (s.sourceRemoved p).sender = s.sender := by
  obtain ⟨l, h⟩ := s.sourceRemoved_eq p
  rw [h]
  rfl

@[simp] theorem State.elementRemoved_sender (s : State) (src : FrameSource) : (s.elementRemoved src).sender = s.sender :=
  s.sourceRemoved_sender _

@[simp] theorem State.contentReplaced_sender (s : State) (src : FrameSource) (f : Frame) :
    (s.contentReplaced src f).sender = s.sender := by
  unfold State.contentReplaced
  split
  · split <;> rfl
  · rfl

@[simp] theorem State.clearTake_sender (s : State) (i : EntryIx) : (s.clearTake i).sender = s.sender := by simp [State.clearTake]

@[simp] theorem State.clearDrop_sender (s : State) (i : EntryIx) : (s.clearDrop i).sender = s.sender := by simp [State.clearDrop]

@[simp] theorem State.clearGap_sender (s : State) (i : EntryIx) : (s.clearGap i).sender = s.sender := by simp [State.clearGap]

@[simp] theorem State.clearFree_sender (s : State) (i : EntryIx) : (s.clearFree i).sender = s.sender := by simp [State.clearFree]

@[simp] theorem State.setFree_sender (s : State) (i : EntryIx) (page : PageNum) (lost : Bool) :
    (s.setFree i page lost).sender = s.sender := by simp [State.setFree]

@[simp] theorem State.pageLost_sender (s : State) (i : EntryIx) (page : PageNum) (slot : Option SlotNum) (r : LossReason) :
    (s.pageLost i page slot r).sender = s.sender := by
  unfold State.pageLost
  split
  · dsimp only
    split <;> split <;> try split
    all_goals simp
  · rfl

@[simp] theorem State.dropFilling_sender (s : State) (i : EntryIx) : (s.dropFilling i).sender = s.sender := by
  unfold State.dropFilling
  split <;> simp

@[simp] theorem State.loseFilling_sender (s : State) (i : EntryIx) (r : LossReason) : (s.loseFilling i r).sender = s.sender := by
  unfold State.loseFilling
  split
  · split <;> simp
  · rfl

@[simp] theorem State.dropProducer_sender (s : State) (i : EntryIx) : (s.dropProducer i).sender = s.sender := by
  simp [State.dropProducer]

theorem State.removeEntry_sender {s : State} {i : EntryIx} {c : Consumer} (he : s.entry i = some (.consumer c)) :
    (s.removeEntry i).sender = s.sender := by
  have emptied : (s.emptyPending i).sender = s.sender := by
    rw [State.emptyPending, State.sourceRemoved_sender, he]
    exact State.setEntry_sender (State.producer_of_consumer he) fun _ => by simp [Entry.withoutPending]
  have consumer : (s.emptyPending i).producer i = none :=
    (State.producer_of_sender emptied i).trans (State.producer_of_consumer he)
  rw [State.removeEntry, State.setEntry_sender consumer fun _ => by simp, emptied]

@[simp] theorem State.dropPending_sender (i : EntryIx) (s : State) : (State.dropPending i s).sender = s.sender := by
  unfold State.dropPending State.dropDone
  split
  · next c hc =>
    split
    · split
      · split
        · exact State.removeEntry_sender (State.entry_of_consumer hc)
        · simp
      · rfl
    · rfl
  · rfl

end Sys2Proof.Machine
end

section
/-! SUPPORT. MUTED: the offered frame is taken back, the page in flight restarts or is withdrawn, and pending DROPs take effect
(chapters 3, 5 and 7). -/

namespace Sys2Proof.Machine

/-! ### The station in MUTED (R124) -/

/-- The station in MUTED with STATION_STATE inserted; Segmenter, entries and slots are as they were. -/
def State.mutedNow (s : State) : State :=
  { s.insertEvent (.stationState s.presence.state .muted) with
    presence := { s.presence with state := .muted, rollTimer := none, rollPending := false, leavingPlaced := false } }

/-- The same with the Segmenter's work taken back; the DROPs have not taken effect. -/
def State.mutedSender (s : State) : State := s.mutedNow.takeBack.restartFlight

theorem State.enterMuted_eq (s : State) : s.enterMuted = s.mutedSender.forEntries State.dropPending := by
  rw [State.enterMuted, State.enterState_eq]
  rfl

section
variable (s : State)

theorem State.mutedNow_entry (i : EntryIx) : s.mutedNow.entry i = s.entry i := State.insertEvent_entry ..

theorem State.mutedNow_slots : s.mutedNow.slots = s.slots := State.insertEvent_slots ..

theorem State.mutedNow_slot (m : SlotNum) : s.mutedNow.slot m = s.slot m := State.insertEvent_slot ..

theorem State.mutedNow_seg : s.mutedNow.seg = s.seg := State.insertEvent_seg ..

theorem State.mutedNow_publish : s.mutedNow.publish = s.publish := State.insertEvent_publish ..

theorem State.mutedNow_time : s.mutedNow.time = s.time := State.insertEvent_time ..

theorem State.mutedNow_holding : s.mutedNow.link.holding = s.link.holding := State.insertEvent_holding ..

end

/-! ### The offered frame is taken back (R57, R94) -/

theorem State.takeBack_frame (s : State) : ∃ v ps, s.takeBack = { s with
    streams := v, seg := { s.seg with offered := none, pass := ps } } := by
  unfold State.takeBack
  split
  · split
    · next ps _ _ _ =>
      obtain ⟨v, h⟩ := s.modProducer_frame ps.entry _
      rw [h]
      exact ⟨_, _, rfl⟩
    · exact ⟨s.streams, s.seg.pass, rfl⟩
  · exact ⟨s.streams, s.seg.pass, rfl⟩

/-- What the taking back leaves alone besides the producer entries and the pass. -/
theorem State.takeBack_consumer (s : State) (i : EntryIx) : s.takeBack.consumer i = s.consumer i := by
  unfold State.takeBack
  split
  · split
    · exact s.modProducer_consumer ..
    · rfl
  · rfl

/-- A frame that is no pass SEG, or one that no pass stands behind, only leaves the Segmenter. -/
theorem State.takeBack_plain {s : State} (h : (∀ k before fr, s.seg.offered ≠ some ⟨.passSeg k before, fr⟩) ∨ s.seg.pass = none) :
    s.takeBack = { s with seg := { s.seg with offered := none } } := by
  unfold State.takeBack
  split
  · next k before fr ps offered pass =>
    rcases h with h | h
    · exact absurd offered (h k before fr)
    · exact nomatch h.symm.trans pass
  · rfl

theorem State.passAlive_of {s : State} {ps : Pass} {p : Producer} (he : s.entry ps.entry = some (.producer p))
    (h : p.state = .opened ∧ p.repairTag = some ps.page ∧ p.retained ≠ none) : s.passAlive ps = true := by
  rw [State.passAlive, State.producer_of he]
  exact decide_eq_true ⟨h.1, h.2.1, Option.isSome_iff_ne_none.2 h.2.2⟩

/-- A pass SEG gives its number back to the repair set, and the position returns. -/
theorem State.takeBack_pass {s : State} {ps : Pass} {k : Nat} {before : Option Nat} {fr : Frame} {p : Producer}
    (pass : s.seg.pass = some ps) (offered : s.seg.offered = some ⟨.passSeg k before, fr⟩)
    (he : s.entry ps.entry = some (.producer p)) (alive : s.passAlive ps = true) : s.takeBack = { s with
      streams := vput s.streams ps.entry (some (.producer { p with repairSet := addElem p.repairSet k }))
      seg := { s.seg with offered := none, pass := some { ps with position := before } } } := by
  unfold State.takeBack
  rw [pass, offered]
  dsimp only
  rw [if_pos alive, State.modProducer_of he]
  rfl

/-! ### The page in flight (R57) -/

theorem State.restartFlight_none {s : State} (h : s.seg.flight = none) : s.restartFlight = s := by
  rw [State.restartFlight, h]

theorem State.restartFlight_again {s : State} {f : Flight} (h : s.seg.flight = some f) (stays : f.withdrawAtClose = false) :
    s.restartFlight = { s with seg := { s.seg with flight := some { f with next := 0, closeOffered := false } } } := by
  rw [State.restartFlight, h]
  exact if_neg (by rw [stays]; exact Bool.false_ne_true)

theorem State.restartFlight_withdrawn {s : State} {f : Flight} (h : s.seg.flight = some f) (leaves : f.withdrawAtClose = true) :
    s.restartFlight = (s.withdrawFlight f none).insertEvent (s.flightSent f .disputed).2 := by
  rw [State.restartFlight, h]
  exact if_pos leaves

/-- In every case the offered frame, the pass, the Publish Queue and the consumer entries stay, and so do Presence Unit and Time
Base. -/
theorem State.restartFlight_keeps (s : State) : s.restartFlight.seg.offered = s.seg.offered ∧
    s.restartFlight.seg.pass = s.seg.pass ∧ s.restartFlight.publish = s.publish ∧
    s.restartFlight.consumer = s.consumer ∧ s.restartFlight.clock = s.clock := by
  unfold State.restartFlight
  split
  · next f _ =>
    split
    · have consumers : ((s.withdrawFlight f none).insertEvent (s.flightSent f .disputed).2).consumer = s.consumer := by
        funext i
        rw [State.insertEvent_consumer]
        exact (s.changeSlot f.slot .writing).modProducer_consumer f.entry i _
      obtain ⟨v, h⟩ := (s.changeSlot f.slot .writing).modProducer_frame f.entry fun p => p.withoutFlight f.page none
      refine ⟨?_, ?_, ?_, consumers, ?_⟩
      · rw [State.insertEvent_seg, State.withdrawFlight, h]
        rfl
      · rw [State.insertEvent_seg, State.withdrawFlight, h]
        rfl
      · rw [State.insertEvent_publish, State.withdrawFlight, h]
        rfl
      · rw [State.insertEvent_clock, State.withdrawFlight_clock]
    · exact ⟨rfl, rfl, rfl, rfl, rfl⟩
  · exact ⟨rfl, rfl, rfl, rfl, rfl⟩

theorem State.restartFlight_streams {s : State} (stays : ∀ f, s.seg.flight = some f → f.withdrawAtClose = false) :
    s.restartFlight.streams = s.streams := by
  unfold State.restartFlight
  split
  · next f hf => rw [stays f hf, if_neg Bool.false_ne_true, State.modSeg_streams]
  · rfl

/-! ### The DROPs (R27) -/

theorem State.dropPending_idle {s : State} {i : EntryIx} (h : ∀ c, s.consumer i = some c → c.drop = false) :
    State.dropPending i s = s := by
  unfold State.dropPending
  split
  · next c hc => exact if_neg (by rw [h c hc]; exact Bool.false_ne_true)
  · rfl

theorem State.dropPending_of {s : State} {i : EntryIx} {c : Consumer} (he : s.entry i = some (.consumer c)) (drop : c.drop = true) :
    State.dropPending i s = s.dropDone i := by
  rw [State.dropPending, State.consumer_of he]
  exact if_pos drop

/-- When one DROP is pending, it takes effect alone. -/
theorem State.dropPending_one {s : State} {i : EntryIx} {c : Consumer} (he : s.entry i = some (.consumer c)) (drop : c.drop = true)
    (others : ∀ j d, j ≠ i → s.consumer j = some d → d.drop = false) (kept : ∀ j, j ≠ i → (s.dropDone i).entry j = s.entry j) :
    s.forEntries State.dropPending = s.dropDone i := by
  rw [State.forEntries_only i (fun j hj => State.dropPending_idle fun d => others j d hj), State.dropPending_of he drop]
  intro j hj
  rw [State.dropPending_of he drop]
  refine State.dropPending_idle fun d hd => others j d hj ?_
  rw [← hd]
  exact (State.consumer_congr (kept j hj)).symm

/-! ### The end of the event in MUTED -/

theorem State.settle_muted {s : State} (h : s.presence.state = .muted) : s.settle = s.forEntries State.applyMarkers := by
  have kept : (s.forEntries State.applyMarkers).presence = s.presence :=
    State.presence_of_clock (State.forEntries_keeps State.clock State.applyMarkers_clock s)
  have silent : (s.forEntries State.applyMarkers).transmits = false := by
    rw [State.transmits, kept, h]
    rfl
  rw [State.settle, State.boundary_quiet (.inl silent), State.testLeaving_other (by rw [kept, h]; decide)]

/-- The Segmenter and the repair sets, which pause markers leave alone. -/
def State.repairWork (s : State) : Segmenter × (EntryIx → Option SegSet) :=
  (s.seg, fun i => (s.producer i).map (·.repairSet))

theorem State.repairWork_of_sender {s t : State} (h : t.sender = s.sender) : t.repairWork = s.repairWork := by
  rw [State.repairWork, State.seg_of_sender h, State.repairWork]
  exact congrArg (Prod.mk s.seg) (funext fun i => congrArg _ (State.producer_of_sender h i))

theorem State.seg_of_repairWork {s t : State} (h : t.repairWork = s.repairWork) : t.seg = s.seg := congrArg Prod.fst h

theorem State.repairSet_of_repairWork {s t : State} (h : t.repairWork = s.repairWork) (i : EntryIx) :
    (t.producer i).map (·.repairSet) = (s.producer i).map (·.repairSet) := congrFun (congrArg Prod.snd h) i

theorem State.modProducer_repairWork (s : State) (i : EntryIx) {f : Producer → Producer}
    (h : ∀ p, (f p).repairSet = p.repairSet) : (s.modProducer i f).repairWork = s.repairWork := by
  unfold State.modProducer
  split
  · next p he =>
    refine congrArg (Prod.mk s.seg) (funext fun j => ?_)
    by_cases e : i = j
    · subst e
      rw [State.producer_of he, State.producer_of (State.entry_setEntry ..)]
      exact congrArg some (h p)
    · rw [State.producer, State.entry_setEntry_other s e, State.producer]
  · rfl

theorem State.markerEffect_repairWork (i : EntryIx) (s : State) (d : Descriptor) :
    (State.markerEffect i s d).repairWork = s.repairWork := by
  have inserted (t : State) (e : Event) : (t.insertEvent e).repairWork = t.repairWork := by
    rw [State.insertEvent_eq]
    rfl
  rw [State.markerEffect, inserted]
  exact State.modProducer_repairWork (s.setQueue _) i fun _ => rfl

theorem State.applyMarkers_repairWork (i : EntryIx) (s : State) : (State.applyMarkers i s).repairWork = s.repairWork := by
  have all (l : List Descriptor) (t : State) : (l.foldl (State.markerEffect i) t).repairWork = t.repairWork := by
    induction l generalizing t with
    | nil => rfl
    | cons d l ih => rw [List.foldl_cons, ih, State.markerEffect_repairWork]
  unfold State.applyMarkers
  split
  · split
    · exact all _ s
    · rfl
  · rfl

/-! ### What the event leaves of the blocks -/

section
variable (s : State)

theorem State.takeBack_mutedNow : ∃ v ps, s.mutedNow.takeBack = { s.mutedNow with
    streams := v, seg := { s.seg with offered := none, pass := ps } } := by
  obtain ⟨v, ps, h⟩ := s.mutedNow.takeBack_frame
  exact ⟨v, ps, by rw [h, State.mutedNow_seg]⟩

theorem State.mutedSender_presence : s.mutedSender.presence =
    { s.presence with state := .muted, rollTimer := none, rollPending := false, leavingPlaced := false } := by
  obtain ⟨v, ps, h⟩ := s.takeBack_mutedNow
  rw [State.mutedSender, State.presence_of_clock (State.restartFlight_keeps _).2.2.2.2, h]
  rfl

theorem State.mutedSender_publish : s.mutedSender.publish = s.publish := by
  obtain ⟨v, ps, h⟩ := s.takeBack_mutedNow
  rw [State.mutedSender, (State.restartFlight_keeps _).2.2.1, h]
  exact s.mutedNow_publish

theorem State.mutedSender_consumer (i : EntryIx) : s.mutedSender.consumer i = s.consumer i := by
  rw [State.mutedSender, (State.restartFlight_keeps _).2.2.2.1, State.takeBack_consumer]
  exact State.consumer_congr (s.mutedNow_entry i)

theorem State.mutedSender_offered : s.mutedSender.seg.offered = none := by
  obtain ⟨v, ps, h⟩ := s.takeBack_mutedNow
  rw [State.mutedSender, (State.restartFlight_keeps _).1, h]

theorem State.enterMuted_sender : s.enterMuted.sender = s.mutedSender.sender := by
  rw [State.enterMuted_eq, State.forEntries_keeps State.sender State.dropPending_sender]

theorem State.enterMuted_presence : s.enterMuted.presence = s.mutedSender.presence :=
  State.presence_of_sender s.enterMuted_sender

theorem State.enterMuted_state : s.enterMuted.presence.state = .muted := by
  rw [State.enterMuted_presence, State.mutedSender_presence]

theorem State.muted_settle : s.enterMuted.settle = s.enterMuted.forEntries State.applyMarkers :=
  State.settle_muted s.enterMuted_state

theorem State.muted_presence : s.enterMuted.settle.presence = s.mutedSender.presence := by
  rw [State.muted_settle, State.presence_of_clock (State.forEntries_keeps State.clock State.applyMarkers_clock _),
    State.enterMuted_presence]

theorem State.muted_repairWork : s.enterMuted.settle.repairWork = s.mutedSender.repairWork := by
  rw [State.muted_settle, State.forEntries_keeps State.repairWork State.applyMarkers_repairWork]
  exact State.repairWork_of_sender s.enterMuted_sender

theorem State.muted_seg : s.enterMuted.settle.seg = s.mutedSender.seg := State.seg_of_repairWork s.muted_repairWork

end

section
variable {s : State}

/-- With nothing queued no marker takes effect, and the event ends as the DROPs leave it. -/
theorem State.muted_settled (hq : s.publish.queue = []) : s.enterMuted.settle = s.enterMuted := by
  have empty : s.enterMuted.publish = s.publish :=
    (State.publish_of_sender s.enterMuted_sender).trans s.mutedSender_publish
  rw [State.muted_settle, State.forEntries_applyMarkers]
  rw [empty, hq]
  exact nofun

theorem State.enterMuted_noDrop (h : ∀ i c, s.consumer i = some c → c.drop = false) : s.enterMuted = s.mutedSender := by
  rw [State.enterMuted_eq]
  exact State.forEntries_fixed fun i => State.dropPending_idle fun c hc => h i c ((s.mutedSender_consumer i).symm.trans hc)

theorem State.mutedSender_noFlight (hf : s.seg.flight = none) : s.mutedSender = s.mutedNow.takeBack := by
  obtain ⟨v, ps, h⟩ := s.takeBack_mutedNow
  rw [State.mutedSender, State.restartFlight_none]
  rw [h]
  exact hf

/-- Without a page in flight the slots and the events are as STATION_STATE leaves them. -/
theorem State.mutedSender_noFlight_frame (hf : s.seg.flight = none) : ∃ v ps, s.mutedSender = { s.mutedNow with
    streams := v, seg := { s.seg with offered := none, pass := ps } } := by
  rw [State.mutedSender_noFlight hf]
  exact s.takeBack_mutedNow

theorem State.mutedSender_restarts {f : Flight} (hf : s.seg.flight = some f) (stays : f.withdrawAtClose = false) :
    ∃ v ps, s.mutedSender = { s.mutedNow with
      streams := v, seg := ⟨some { f with next := 0, closeOffered := false }, none, s.seg.withdrawn, ps⟩ } := by
  obtain ⟨v, ps, h⟩ := s.takeBack_mutedNow
  refine ⟨v, ps, ?_⟩
  rw [State.mutedSender, h, State.restartFlight_again (by exact hf) stays]

/-- A page marked for withdrawal is withdrawn (R57). -/
theorem State.mutedSender_withdraws {f : Flight} {p : Producer} (hp : s.seg.pass = none) (hf : s.seg.flight = some f)
    (leaves : f.withdrawAtClose = true) (he : s.entry f.entry = some (.producer p)) : s.mutedSender =
      ({ s.mutedNow.changeSlot f.slot .writing with
        streams := vput s.mutedNow.streams f.entry (some (.producer (p.withoutFlight f.page none)))
        seg := ⟨none, none, some ⟨p.stream, f.page, f.len, f.check⟩, s.seg.pass⟩ } : State).insertEvent
          (.sent p.stream f.slot (some f.page) .disputed f.tag) := by
  have entry : s.mutedNow.entry f.entry = some (.producer p) := (s.mutedNow_entry _).trans he
  have taken : s.mutedNow.takeBack = { s.mutedNow with seg := { s.seg with offered := none } } := by
    rw [State.takeBack_plain (.inr (by rw [State.mutedNow_seg]; exact hp)), State.mutedNow_seg]
  rw [State.mutedSender, taken, State.restartFlight_withdrawn (by exact hf) leaves, State.withdrawFlight_of (p := p) (by exact entry),
    State.flightSent, State.streamOf_of (e := .producer p) (by exact entry)]
  rfl

/-- The pass whose SEG is taken back, and the entry its number goes back to (R94). -/
theorem State.mutedSender_passBack {ps : Pass} {k : Nat} {before : Option Nat} {fr : Frame} {p : Producer}
    (pass : s.seg.pass = some ps) (offered : s.seg.offered = some ⟨.passSeg k before, fr⟩)
    (he : s.entry ps.entry = some (.producer p)) (alive : p.state = .opened ∧ p.repairTag = some ps.page ∧ p.retained ≠ none)
    (stays : ∀ f, s.seg.flight = some f → f.withdrawAtClose = false) :
    s.mutedSender.seg.pass = some { ps with position := before } ∧
      s.mutedSender.producer ps.entry = some { p with repairSet := addElem p.repairSet k } := by
  have entry : s.mutedNow.entry ps.entry = some (.producer p) := (s.mutedNow_entry _).trans he
  have taken := State.takeBack_pass (by rw [State.mutedNow_seg, pass]) (by rw [State.mutedNow_seg, offered]) entry
    (State.passAlive_of entry alive)
  have flights : ∀ f, s.mutedNow.takeBack.seg.flight = some f → f.withdrawAtClose = false := by
    rw [taken, State.mutedNow_seg]
    exact stays
  refine ⟨?_, State.producer_of ?_⟩
  · rw [State.mutedSender, (State.restartFlight_keeps _).2.1, taken]
  · refine State.entry_of_streams (v := s.mutedNow.streams) ?_
    rw [State.mutedSender, State.restartFlight_streams flights, taken]

theorem State.mutedSender_pass (h : ∀ k before fr, s.seg.offered ≠ some ⟨.passSeg k before, fr⟩) :
    s.mutedSender.seg.pass = s.seg.pass := by
  rw [State.mutedSender, (State.restartFlight_keeps _).2.1, State.takeBack_plain (.inl (by rw [State.mutedNow_seg]; exact h)),
    State.mutedNow_seg]

/-- Without a page in flight the holding frame, the slots and the Time Base stay, and STATION_STATE is the one event so far. -/
theorem State.mutedSender_keeps (hf : s.seg.flight = none) : s.mutedSender.link.holding = s.link.holding ∧
    s.mutedSender.slots = s.slots ∧ s.mutedSender.time = s.time ∧
    s.mutedSender.events = (s.insertEvent (.stationState s.presence.state .muted)).events := by
  obtain ⟨v, ps, h⟩ := State.mutedSender_noFlight_frame hf
  rw [h]
  exact ⟨s.mutedNow_holding, s.mutedNow_slots, s.mutedNow_time, rfl⟩

theorem State.mutedSender_holdsNone {i : EntryIx} (hf : s.seg.flight = none) (hn : s.holdsNone i) : s.mutedSender.holdsNone i :=
  fun x hx => hn x ((State.mutedSender_keeps hf).1.symm.trans hx)

end

/-! ### One pending DROP at MUTED (R27, R124) -/

section
variable {s : State} {i : EntryIx} {c : Consumer} (he : s.entry i = some (.consumer c)) (drop : c.drop = true)
  (others : ∀ j d, j ≠ i → s.entry j = some (.consumer d) → d.drop = false) (hf : s.seg.flight = none) (hn : s.holdsNone i)
include he

theorem State.mutedSender_entry : s.mutedSender.entry i = some (.consumer c) :=
  State.entry_of_consumer ((s.mutedSender_consumer i).trans (State.consumer_of he))

include drop others

theorem State.enterMuted_one (kept : ∀ j, j ≠ i → (s.mutedSender.dropDone i).entry j = s.mutedSender.entry j) :
    s.enterMuted = s.mutedSender.dropDone i := by
  rw [State.enterMuted_eq]
  refine State.dropPending_one (State.mutedSender_entry he) drop (fun j d hj hd => others j d hj ?_) kept
  exact State.entry_of_consumer ((s.mutedSender_consumer j).symm.trans hd)

include hf hn

theorem State.enterMuted_departs (hd : c.state = .departing) : s.enterMuted =
    { s.mutedSender with streams := vput s.mutedSender.streams i none } := by
  have done := State.dropDone_departing (State.mutedSender_entry he) (State.mutedSender_holdsNone hf hn) hd
  rw [State.enterMuted_one he drop others, done]
  intro j hj
  rw [done]
  exact State.entry_vput_other _ hj.symm _

theorem State.enterMuted_waits (hd : c.state ≠ .departing) (vacant : c.filling = none) : s.enterMuted =
    { s.mutedSender with streams := vput s.mutedSender.streams i (some (.consumer { c.withoutProducer with drop := false })) } := by
  have done := State.dropDone_waiting (State.mutedSender_entry he) (State.mutedSender_holdsNone hf hn) hd vacant
  rw [State.enterMuted_one he drop others, done]
  intro j hj
  rw [done]
  exact State.entry_vput_other _ hj.symm _

theorem State.enterMuted_loses (hd : c.state ≠ .departing) {m : SlotNum} {page : PageNum} (fills : c.filling = some m)
    (hp : (s.slot m).page? = some page) : s.enterMuted =
      ({ s.mutedSender.freeSlot m with streams := vput s.mutedSender.streams i (some (.consumer { c.withoutProducer with
        drop := false
        filling := none
        counters := c.counters.addLost })) } : State).insertEvent (.pageLost c.stream page (some m) .producerLost) := by
  have same : s.mutedSender.slot m = s.slot m := by rw [State.slot, (State.mutedSender_keeps hf).2.1, State.slot]
  have done := State.dropDone_filling (State.mutedSender_entry he) (State.mutedSender_holdsNone hf hn) hd fills
    (same ▸ hp)
  rw [State.enterMuted_one he drop others, done]
  intro j hj
  rw [done, State.insertEvent_entry]
  exact State.entry_vput_other _ hj.symm _

end

/-! ### The rows -/

theorem State.joinAscending_seg (s t : State) : (s.joinAscending t).seg = t.seg := rfl

/-- The row MUTED on a station that transmits with eight drops in a row. -/
theorem exec_muted_of {s : State} (awake : s.port.inReset = false) (transmits : s.transmits = true) (drops : 8 ≤ s.link.drops) :
    exec .muted s = .next (s.joinAscending s.enterMuted.settle) := by
  rw [exec_muted awake, if_pos ⟨transmits, drops⟩]

/-- Settles O38: a failed attempt by its count; MUTED by what it leaves of the Presence Unit and the Segmenter, then of the pass, of
a page marked for withdrawal and of an entry with a pending DROP. -/
theorem failedAttemptsLeadToMuted : Obligations.FailedAttemptsLeadToMuted := by
  refine ⟨fun s awake => ⟨fun h held phase => ?_, fun other => ?_⟩,
    fun s awake => ⟨fun transmits drops => ⟨_, exec_muted_of awake transmits drops, ?_⟩, fun no => ?_⟩,
    fun s awake transmits drops => ⟨_, exec_muted_of awake transmits drops, ?_⟩⟩
  · have fails : exec .attemptFailed s = .next (s.joinAscending (s.failAttempt h).settle) := by
      rw [exec_attemptFailed awake, State.attempt_of held (by rcases phase with phase | phase <;> rw [phase] <;> rfl)]
    refine ⟨fun few kept => ?_, fun few removed => ?_, fun all => ⟨fun transmits eighth => ?_, fun no => ?_⟩⟩
    · rw [fails, State.failAttempt_kept few kept]
    · rw [fails, State.failAttempt_orphan few removed]
    · rw [fails, State.failAttempt_dropped all, if_pos ⟨transmits, eighth⟩]
      rfl
    · rw [fails, State.failAttempt_dropped all, if_neg]
      · rfl
      · rintro ⟨transmits, eighth⟩
        exact no.elim (fun silent => Bool.false_ne_true (silent.symm.trans transmits)) (Nat.not_lt.2 eighth)
  · rw [exec_attemptFailed awake, State.attempt_other fun h held => by
      rw [beq_false_of_ne (other h held).1, beq_false_of_ne (other h held).2, Bool.or_false]]
  · rw [State.joinAscending_presence, State.muted_presence, State.mutedSender_presence, State.joinAscending_seg, State.muted_seg]
    refine ⟨rfl, rfl, rfl, rfl, rfl, s.mutedSender_offered, fun f hf stays => ?_, fun hf => ?_, fun hf hq idle => ?_⟩
    · obtain ⟨v, ps, h⟩ := State.mutedSender_restarts hf stays
      rw [h]
      exact ⟨rfl, rfl⟩
    · obtain ⟨v, ps, h⟩ := State.mutedSender_noFlight_frame hf
      rw [h]
      exact ⟨hf, rfl⟩
    · obtain ⟨-, slots, -, events⟩ := State.mutedSender_keeps hf
      rw [State.joinAscending_events, State.joinAscending_records, State.muted_settled hq, State.enterMuted_noDrop idle, slots]
      exact ⟨events, rfl⟩
  · rw [exec_muted awake, if_neg]
    rintro ⟨transmits, eighth⟩
    exact no.elim (fun silent => Bool.false_ne_true (silent.symm.trans transmits)) (Nat.not_lt.2 eighth)
  · rw [State.joinAscending_seg, State.muted_seg]
    refine ⟨fun ps p k before fr pass offered he ho tag retained stays => ?_, State.mutedSender_pass,
      fun f p hp hf leaves he hq idle => ?_, fun i c hf hq he drop others hn => ?_⟩
    · obtain ⟨position, entry⟩ := State.mutedSender_passBack pass offered he ⟨ho, tag, retained⟩ stays
      have sets := State.repairSet_of_repairWork s.muted_repairWork ps.entry
      rw [entry] at sets
      obtain ⟨q, hq, set⟩ := Option.map_eq_some_iff.1 sets
      refine ⟨position, q, ?_, set⟩
      rw [State.joinAscending_entry]
      exact State.entry_of_producer hq
    · rw [State.joinAscending_slot, State.joinAscending_events, State.muted_settled hq, State.enterMuted_noDrop idle,
        State.mutedSender_withdraws hp hf leaves he]
      refine ⟨?_, ?_, fun used => ?_, ?_⟩
      · rw [State.insertEvent_seg]
      · rw [State.insertEvent_seg]
      · rw [State.insertEvent_slot]
        refine (State.changeSlot_slot _ f.slot f.slot (by decide)).trans (if_pos ⟨rfl, ?_⟩)
        rwa [State.mutedNow_slot]
      · refine State.insertEvent_events_congr ?_ ?_ _
        · rfl
        · exact s.mutedNow_time.trans (s.insertEvent_time _).symm
    · intro told waiting
      refine ⟨fun hd => ?_, fun hd vacant => ?_, fun m o page len rcv g hd fills hs => ?_⟩
      · rw [State.joinAscending_entry, State.joinAscending_events, State.muted_settled hq,
          State.enterMuted_departs he drop others hf hn hd]
        exact ⟨State.entry_of_streams rfl, (State.mutedSender_keeps hf).2.2.2⟩
      · rw [State.joinAscending_entry, State.joinAscending_events, State.muted_settled hq,
          State.enterMuted_waits he drop others hf hn hd vacant]
        exact ⟨State.entry_of_streams rfl, (State.mutedSender_keeps hf).2.2.2⟩
      · obtain ⟨-, slots, time, events⟩ := State.mutedSender_keeps hf
        rw [State.joinAscending_entry, State.joinAscending_slot, State.joinAscending_events, State.muted_settled hq,
          State.enterMuted_loses he drop others hf hn hd (page := page) fills (by rw [hs]; rfl), State.insertEvent_entry,
          State.insertEvent_slot]
        refine ⟨State.entry_of_streams rfl, (State.freeSlot_slot _ m m).trans (if_pos rfl), ?_⟩
        refine State.insertEvent_events_congr ?_ ?_ _
        · exact events
        · exact time.trans (s.insertEvent_time _).symm

end Sys2Proof.Machine
end

section
/-! SUPPORT. The NOTE out-queue and the Notice Table: SEND_NOTE, CLEAR_NOTICE and the NOTE frames that arrive (chapter 9). -/

namespace Sys2Proof.Machine

/-! ### The target of a note (11.3) -/

theorem noteTarget?_all : noteTarget? 32 = some .all := rfl

theorem noteTarget?_station (n : Station) : noteTarget? n.val = some (.one n) := by
  rw [noteTarget?, if_neg (by omega), below32?_val]
  rfl

theorem noteTarget?_above {n : Nat} (h : 32 < n) : noteTarget? n = none := by
  rw [noteTarget?, if_neg (by omega), below32?_above (by omega)]
  rfl

theorem noteTarget?_below {n : Nat} (h : n ≤ 32) : ∃ t, noteTarget? n = some t := by
  rcases Nat.lt_or_eq_of_le h with lt | rfl
  · exact ⟨_, noteTarget?_station ⟨n, lt⟩⟩
  · exact ⟨_, noteTarget?_all⟩

theorem noteTarget?_of {target : Byte} {t : NoteTarget}
    (h : target = 32 ∧ t = .all ∨ ∃ n : Station, target.toNat = n.val ∧ t = .one n) : noteTarget? target.toNat = some t := by
  rcases h with ⟨rfl, rfl⟩ | ⟨n, target, rfl⟩
  · exact noteTarget?_all
  · rw [target, noteTarget?_station]

/-! ### SEND_NOTE (R153, R155) -/

theorem StationState.noNotes_iff (x : StationState) : x.noNotes = true ↔ x ∈ [.unconfigured, .conflict] := by
  cases x <;> decide

section
variable {s : State} {target : Nat} {code : Word}

theorem State.cmdSendNote_state (no : s.presence.state ∈ [.unconfigured, .conflict]) :
    s.cmdSendNote target code = s.refuse .badState :=
  if_pos ((StationState.noNotes_iff _).2 no)

variable (yes : s.presence.state ∉ [.unconfigured, .conflict])
include yes

theorem State.cmdSendNote_range (bad : 32 < target ∨ 255 < code.toNat) : s.cmdSendNote target code = s.refuse .badArg := by
  unfold State.cmdSendNote
  rw [if_neg fun no => yes ((StationState.noNotes_iff _).1 no)]
  by_cases long : 255 < code.toNat
  · rw [if_pos long]
  · rw [if_neg long, noteTarget?_above (bad.resolve_right long)]

variable (short : code.toNat ≤ 255) {t : NoteTarget} (known : noteTarget? target = some t)
include short known

theorem State.cmdSendNote_full (full : s.link.notes.length = 8) : s.cmdSendNote target code = s.refuse .full := by
  unfold State.cmdSendNote
  rw [if_neg fun no => yes ((StationState.noNotes_iff _).1 no), if_neg (Nat.not_lt.2 short), known]
  exact if_pos (Nat.le_of_eq full.symm)

/-- The note joins the tail of the out-queue. -/
theorem State.cmdSendNote_joins (room : s.link.notes.length < 8) : s.cmdSendNote target code =
    ({ s with link := { s.link with notes := s.link.notes ++ [⟨t, code.setWidth 8⟩] } },
      .of .ok (number (s.link.notes.length + 1)) 0) := by
  unfold State.cmdSendNote
  rw [if_neg fun no => yes ((StationState.noNotes_iff _).1 no), if_neg (Nat.not_lt.2 short), known]
  exact if_neg (Nat.not_le.2 room)

end

/-! ### CLEAR_NOTICE (R152) -/

theorem State.clearedSources_eq (s : State) (sources : StationSet) : s.clearedSources sources =
    ((List.finRange 32).filter fun n : Station => sources.getLsbD n.val && s.notices[n].pending).take 4 := by
  rw [State.clearedSources, stationsOf, List.filter_filter]
  simp only [hasElem, Bool.and_comm]

theorem State.clearedSources_length (s : State) (sources : StationSet) : (s.clearedSources sources).length ≤ 4 :=
  List.length_take_le ..

/-- Clearing the sources of a list one by one clears their entries alone; clearing an entry twice is clearing it once. -/
theorem getElem_foldl_cleared (l : List Station) (v : Vector Notice 32) (n : Station) :
    (l.foldl (fun v m => vput v m v[m].cleared) v)[n] = if n ∈ l then v[n].cleared else v[n] := by
  induction l generalizing v with
  | nil => rfl
  | cons m l ih =>
    rw [List.foldl_cons, ih, vput_get]
    by_cases h : m = n
    · subst h
      simp only [if_true, List.mem_cons_self, Notice.cleared, ite_self]
    · simp only [h, Ne.symm h, List.mem_cons, if_false, false_or]

/-- The set of a list of stations. -/
theorem getLsbD_setOfStations (l : List Station) (n : Station) : (setOfList (l.map Fin.val)).getLsbD n.val = decide (n ∈ l) := by
  rw [← hasElem, hasElem_setOfList _ _ n.isLt]
  simp [Fin.val_inj]

/-- The last codes of up to four sources, one per byte. -/
theorem codesWord_lastCodes (s : State) {l : List Station} (h : l.length ≤ 4) (k : Fin 4) :
    (codesWord (l.map fun n => (s.notices[n].lastCode).getD 0)).extractLsb' (8 * k.val) 8 =
      ((l[k.val]?).bind fun n => s.notices[n].lastCode).getD 0 := by
  rw [codesWord_byte _ (by rwa [List.length_map]), List.getElem?_map]
  cases l[k.val]? <;> rfl

section
variable {s : State} {sources : StationSet}

theorem State.cmdClearNotice_unconfigured (h : s.presence.state = .unconfigured) :
    s.cmdClearNotice sources = s.refuse .badState :=
  if_pos (s.isUnconfigured_iff.2 h)

theorem State.cmdClearNotice_empty (h : s.presence.state ≠ .unconfigured) : s.cmdClearNotice 0 = s.refuse .badArg := by
  rw [State.cmdClearNotice, if_neg fun no => h (s.isUnconfigured_iff.1 no), if_pos rfl]

theorem State.cmdClearNotice_of (h : s.presence.state ≠ .unconfigured) (nonempty : sources ≠ 0) : s.cmdClearNotice sources =
    ({ s with notices := (s.clearedSources sources).foldl (fun v n => vput v n v[n].cleared) s.notices },
      .of .ok (setOfList ((s.clearedSources sources).map Fin.val))
        (codesWord ((s.clearedSources sources).map fun n => (s.notices[n].lastCode).getD 0))) := by
  rw [State.cmdClearNotice, if_neg fun no => h (s.isUnconfigured_iff.1 no), if_neg nonempty]

end

/-- Settles O33: SEND_NOTE check by check; CLEAR_NOTICE by the entries, the set and the codes of `State.clearedSources`. -/
theorem notesAreQueuedAndCleared : Obligations.NotesAreQueuedAndCleared := by
  refine ⟨fun tag target code s hs => ⟨fun no => ?_, fun yes bad => ?_, fun yes good full => ?_, fun t yes short room known => ?_⟩,
    fun tag sources s hs => ⟨fun no => ?_, fun yes empty => ?_, fun yes nonempty => ?_⟩⟩
  · rw [exec_sendNote hs, State.cmdSendNote_state (s := s.accepted) no, State.finish_refuse]
  · rw [exec_sendNote hs, State.cmdSendNote_range (s := s.accepted) yes bad, State.finish_refuse]
  · obtain ⟨inRange, short⟩ := not_or.1 good
    obtain ⟨t, known⟩ := noteTarget?_below (Nat.not_lt.1 inRange)
    rw [exec_sendNote hs, State.cmdSendNote_full (s := s.accepted) yes (Nat.not_lt.1 short) known full, State.finish_refuse]
  · rw [exec_sendNote hs, State.cmdSendNote_joins (s := s.accepted) yes short (noteTarget?_of known) room, State.finish_of]
    rfl
  · rw [exec_clearNotice hs, State.cmdClearNotice_unconfigured (s := s.accepted) no, State.finish_refuse]
  · rw [exec_clearNotice hs, empty, State.cmdClearNotice_empty (s := s.accepted) yes, State.finish_refuse]
  · rw [← s.clearedSources_eq sources]
    refine ⟨_, _, _, ?_, getElem_foldl_cleared _ _, getLsbD_setOfStations _, codesWord_lastCodes _ (s.clearedSources_length sources)⟩
    rw [exec_clearNotice hs, State.cmdClearNotice_of (s := s.accepted) yes nonempty, State.finish_of]
    rfl

/-! ### NOTE frames (R149, R151) -/

/-- A NOTE that passes its checks. -/
theorem exec_noteFrame_of {s : State} (h : s.hearing) {src : Station} {all : Bool} {target : BitVec 5} {source : Byte}
    (hok : noteOk src all 0 target source = true) (code : Byte) : exec (.noteFrame src all 0 target source code) s =
      .next (s.heard.takeNote src (if all then .all else .one target.toFin) code) := by
  change execNoteFrame src all 0 target source code s = _
  rw [execNoteFrame, hok, State.receive_ok h]

/-- The target of a NOTE frame names this station when ALL is set or the target bits are the own number. -/
theorem State.noteForUs_iff (s : State) (all : Bool) (target : BitVec 5) :
    (if all then NoteTarget.all else .one target.toFin) = .all ∨
        (if all then NoteTarget.all else .one target.toFin) = .one s.own ↔
      all = true ∨ target.toNat = s.presence.station.val := by
  cases all <;> simp [State.own, Fin.ext_iff]

/-- An entry after a NOTE of its source has been taken (R151). -/
def Notice.raised (e : Notice) (code : Byte) : Notice := ⟨true, if e.count = 255 then 255 else e.count + 1, some code⟩

theorem Notice.raised_eq (e : Notice) (code : Byte) : e.raised code = ⟨true, satInc e.count, some code⟩ :=
  congrArg (Notice.mk true · (some code)) (ite_congr rfl Eq.symm fun _ => rfl)

section
variable {s : State} (src : Station) (code : Byte)

/-- An entry that was clear is reported. -/
theorem State.takeNotice_clear (clear : s.notices[src].pending = false) : s.takeNotice src code =
    ({ s with notices := vput s.notices src (s.notices[src].raised code) } : State).insertEvent (.notePending src code) := by
  rw [State.takeNotice, if_neg (by rw [clear]; decide), Notice.raised_eq]

/-- One that was pending already is not. -/
theorem State.takeNotice_pending (pending : s.notices[src].pending = true) : s.takeNotice src code =
    { s with notices := vput s.notices src (s.notices[src].raised code) } := by
  rw [State.takeNotice, if_pos pending, Notice.raised_eq]

end

/-- Settles O55: a NOTE for this station by the pending flag of its source, and a NOTE for another one. -/
theorem notesReachTheNoticeTable : Obligations.NotesReachTheNoticeTable := by
  intro src all target source code s h own zero
  dsimp only
  rw [exec_noteFrame_of h (noteOk_iff.2 ⟨rfl, zero, own⟩), State.takeNote]
  have forUs := s.heard.noteForUs_iff all target
  refine ⟨fun us clear => ?_, fun us pending => ?_, fun other => ?_⟩
  · rw [if_pos (forUs.2 us), State.takeNotice_clear (s := s.heard) src code clear]
    rfl
  · rw [if_pos (forUs.2 us), State.takeNotice_pending (s := s.heard) src code pending]
    rfl
  · rw [if_neg fun us => other (forUs.1 us)]

end Sys2Proof.Machine
end

section
/-! SUPPORT. What a step takes, what the reset input holds back and puts in order, and what the Event Queue stores (chapter
10). -/

namespace Sys2Proof.Machine

/-! ### The queue of waiting events -/

/-- Settles O1: `step` looks at the front of the queue first. -/
theorem stepTakesTheFront : Obligations.StepTakesTheFront := fun _ _ _ => rfl

/-! ### While the reset input is asserted (R170, log 7) -/

section
variable {s : State} (h : s.port.inReset = true)
include h

theorem State.awake_inReset (f : State → State) : s.awake f = s := if_pos h

theorem State.submitRecord_inReset (r : CmdRecord) : s.submitRecord r = s := State.awake_inReset h _

/-- The port does not answer. -/
theorem State.busAccess_inReset (b : BusAccess) : s.busAccess b = { s with port := { s.port with bus := none } } := if_pos h

/-- A second assertion finds the mark set. -/
theorem State.assertReset_inReset : (s.modPort fun p => { p with inReset := true }) = s := by
  rw [State.modPort, ← h]

end

/-- Settles O4: a command row and an event of the line or a timer wait for the reset input, an access goes unanswered. -/
theorem nothingActsWhileResetIsAsserted : Obligations.NothingActsWhileResetIsAsserted := by
  intro i s h notRelease
  cases i with
  | configure | start | leave | rejoin | restart | claim | discard | publish | publishPause | resume | cancel | subscribe
  | unsubscribe | acquire | release | sendNote | clearNotice | readStatus | unknownCommand =>
    exact .inl ((exec_commandRecord rfl s).trans (congrArg _ (State.submitRecord_inReset h _)))
  | submit | respNext | evtNext | windowWrite | pageWindowRead | pageWindowWrite | registerWrite =>
    exact .inr (congrArg _ (State.busAccess_inReset h _))
  | pinReset => exact .inl (congrArg _ (State.assertReset_inReset h))
  | pinResetRelease n r => exact absurd rfl (notRelease n r)
  | _ => exact .inl (congrArg _ (State.awake_inReset h _))

/-! ### The resets of the blocks and the end of the clearing (R13, R170) -/

/-- Page memory with no byte listed holds 00h everywhere. -/
theorem memRead_nil (a : Nat) : memRead [] a = 0 := rfl

/-- The clearing ends on a part that is clearing. -/
theorem exec_clearingEnd {s : State} (h : s.port.inReset = false) (hc : s.port.clearing = true) :
    exec .pageMemoryClearingEnd s =
      .next { s with slots := { s.slots with mem := [] }, port := { s.port with clearing := false } } := by
  change Host.Outcome.next (s.awake _) = _
  rw [State.awake, if_neg (by rw [h]; decide), if_pos hc]

/-- No clearing ends on a part that is not clearing (log 8). -/
theorem exec_clearingEnd_over {s : State} (h : s.port.inReset = false) (hc : s.port.clearing = false) :
    exec .pageMemoryClearingEnd s = .next s := by
  change Host.Outcome.next (s.awake _) = _
  rw [State.awake, if_neg (by rw [h]; decide), if_neg (by rw [hc]; decide)]

/-- After the release every vector holds the reset value of its elements. -/
theorem State.atRelease_elements (n : Station) (r : BitVec 2) (mem : List Host.Cell) (pending : List Instr) :
    (∀ k : SlotNum, (State.atRelease n r mem pending).slot k = .free) ∧
    (∀ i : EntryIx, (State.atRelease n r mem pending).entry i = none) ∧
    (∀ k : Fin 8, (State.atRelease n r mem pending).port.staging[k] = 0) ∧
    (∀ k : Station, (State.atRelease n r mem pending).notices[k] = .reset) :=
  ⟨fun k => Vector.getElem_replicate k.isLt, fun i => Vector.getElem_replicate i.isLt,
    fun k => Vector.getElem_replicate k.isLt, fun k => Vector.getElem_replicate k.isLt⟩

/-- Settles O5: the fields of `State.atRelease`, and the two cases of the end of the clearing. -/
theorem resetsPutTheBlocksInOrder : Obligations.ResetsPutTheBlocksInOrder := by
  refine ⟨fun n r s => ?_, fun s => ⟨rfl, fun h hc => ⟨[], memRead_nil, rfl, exec_clearingEnd h hc⟩, exec_clearingEnd_over⟩,
    rfl, rfl, rfl, rfl, rfl, rfl⟩
  obtain ⟨slots, entries, staging, notices⟩ := State.atRelease_elements n r s.slots.mem s.pending
  exact ⟨_, rfl, slots, rfl, entries, rfl, rfl, rfl, rfl, rfl, rfl, rfl, staging, rfl, rfl, rfl, rfl, rfl, rfl, rfl, rfl, rfl,
    rfl, notices, rfl, rfl⟩

/-! ### The Event Queue (R167) -/

section
variable {q : EventQueue} (now : Micros) (e : Event)

/-- Nothing lost and no free place: the count starts. -/
theorem EventQueue.insert_full (hl : q.lost = 0) (h : q.records.length = 64) : q.insert now e = (⟨q.records, 1⟩, true) := by
  simp only [EventQueue.insert, Config.eventMax]
  rw [if_pos hl, if_neg (by omega)]

variable (hl : q.lost ≠ 0)
include hl

/-- Events lost and two free places: LOST and the event. -/
theorem EventQueue.insert_lost_two (h : q.records.length ≤ 62) :
    q.insert now e = (⟨q.records ++ [⟨.lost q.lost, now⟩, ⟨e, now⟩], 0⟩, false) := by
  simp only [EventQueue.insert, Config.eventMax]
  rw [if_neg hl, if_pos (by omega)]

/-- Events lost and one free place: LOST alone, and the count starts again with the event. -/
theorem EventQueue.insert_lost_one (h : q.records.length = 63) :
    q.insert now e = (⟨q.records ++ [⟨.lost q.lost, now⟩], 1⟩, true) := by
  simp only [EventQueue.insert, Config.eventMax]
  rw [if_neg hl, if_neg (by omega), if_pos (by omega)]

/-- Events lost and no free place: the count goes on. -/
theorem EventQueue.insert_lost_full (h : q.records.length = 64) :
    q.insert now e = (⟨q.records, satInc q.lost⟩, true) := by
  simp only [EventQueue.insert, Config.eventMax]
  rw [if_neg hl, if_neg (by omega), if_neg (by omega)]

end

/-- Settles O18: one row of the table of R167 for each clause. -/
theorem eventsAreStoredOrCounted : Obligations.EventsAreStoredOrCounted := by
  intro s e
  refine ⟨fun hl room => State.insertEvent_room e room hl, fun hl full => ?_, fun hl room => ?_, fun hl one => ?_,
    fun hl full => ?_⟩
  · rw [State.insertEvent_eq, EventQueue.insert_full _ _ hl full]
    rfl
  · rw [State.insertEvent_eq, EventQueue.insert_lost_two _ _ hl room]
    rfl
  · rw [State.insertEvent_eq, EventQueue.insert_lost_one _ _ hl one]
    rfl
  · rw [State.insertEvent_eq, EventQueue.insert_lost_full _ _ hl full]
    rfl

end Sys2Proof.Machine
end

section
/-! SUPPORT. The event that is due with none waiting: when an instant counts as reached, and the order of the timers (logs 3 and
4). -/

namespace Sys2Proof.Machine

/-- An instant has been reached when it is the present one or at most half of the range of the Time Base behind it (log 3). -/
theorem isDue_iff (now t : Micros) : isDue now t = true ↔ (now - t).toNat ≤ 2 ^ 31 := by
  have hn := now.isLt
  have ht := t.isLt
  simp only [isDue, Bool.or_eq_true, beq_iff_eq, ← BitVec.toNat_inj, BitVec.msb_eq_decide, decide_eq_true_eq, BitVec.toNat_sub]
  omega

theorem State.timerDue_iff (s : State) (timer : Option Micros) :
    s.timerDue timer = true ↔ ∃ t, timer = some t ∧ isDue s.time t = true := by
  cases timer <;> simp [State.timerDue]

/-! ### The first of the numbers below a bound -/

/-- In front of a number stand the lower ones. -/
theorem finRange_split {n : Nat} (i : Fin n) : ∃ a b, List.finRange n = a ++ i :: b ∧ ∀ j ∈ a, j < i := by
  obtain ⟨a, b, split⟩ := List.append_of_mem (List.mem_finRange i)
  have rising := List.pairwise_lt_finRange n
  rw [split, List.pairwise_append] at rising
  obtain ⟨_, _, across⟩ := rising
  exact ⟨a, b, split, fun j hj => across j hj i List.mem_cons_self⟩

theorem find?_finRange_lowest {n : Nat} {p : Fin n → Bool} {i : Fin n} (found : p i = true)
    (lower : ∀ j, j < i → ¬ p j = true) : (List.finRange n).find? p = some i := by
  obtain ⟨a, b, split, below⟩ := finRange_split i
  exact List.find?_eq_some_iff_append.2 ⟨found, a, b, split, fun j hj => by simpa using lower j (below j hj)⟩

theorem findSome?_finRange_lowest {n : Nat} {α : Type} {f : Fin n → Option α} {i : Fin n} {x : α} (found : f i = some x)
    (lower : ∀ j, j < i → f j = none) : (List.finRange n).findSome? f = some x := by
  obtain ⟨a, b, split, below⟩ := finRange_split i
  exact List.findSome?_eq_some_iff.2 ⟨a, i, b, split, found, fun j hj => lower j (below j hj)⟩

/-! ### The timer of one peer, one consumer entry and one producer entry (R68, R98, R102, R106, R128) -/

/-- The peer is PRESENT and its silence timer is due. -/
def State.silenceDue (s : State) (n : Station) : Bool := (s.peer n).isPresent && s.timerDue (s.peer n).silence

theorem State.silenceDue_iff (s : State) (n : Station) : s.silenceDue n = true ↔
    (s.peer n).isPresent = true ∧ ∃ t, (s.peer n).silence = some t ∧ isDue s.time t = true := by
  rw [State.silenceDue, Bool.and_eq_true, State.timerDue_iff]

theorem State.dueSilence_eq (s : State) :
    s.dueSilence = ((List.finRange 32).find? s.silenceDue).map .silenceTimerExpiry := rfl

theorem State.dueConsumer_eq_some_iff (s : State) (i : EntryIx) (x : Instr) : s.dueConsumer i = some x ↔
    ∃ c t, s.entry i = some (.consumer c) ∧ c.timer = some t ∧ isDue s.time t = true ∧
      (c.state = .joining ∧ x = .joinWaitExpiry i ∨ c.state = .receiving ∧ c.filling ≠ none ∧ x = .receptionTimerExpiry i) := by
  constructor
  · intro h
    unfold State.dueConsumer at h
    split at h
    · rename_i c hc
      split at h
      · rename_i t ht
        split at h
        · rename_i due
          refine ⟨c, t, State.entry_of_consumer hc, ht, due, ?_⟩
          split at h
          · rename_i joining
            exact .inl ⟨joining, (Option.some.inj h).symm⟩
          · split at h
            · rename_i receiving
              obtain ⟨receiving, filling⟩ := receiving
              exact .inr ⟨receiving, Option.isSome_iff_ne_none.1 filling, (Option.some.inj h).symm⟩
            · cases h
        · cases h
      · cases h
    · cases h
  · rintro ⟨c, t, he, ht, due, ⟨joining, rfl⟩ | ⟨receiving, filling, rfl⟩⟩
    · simp only [State.dueConsumer, State.consumer_of he, ht, due, joining, if_true]
    · simp only [State.dueConsumer, State.consumer_of he, ht, due, receiving, Option.isSome_iff_ne_none.2 filling, if_true,
        reduceCtorEq, if_false, and_self]

theorem State.dueProducer_eq_some_iff (s : State) (i : EntryIx) (x : Instr) : s.dueProducer i = some x ↔
    ∃ p t, s.entry i = some (.producer p) ∧ p.timer = some t ∧ p.phase = some .awaitingRelease ∧
      ((p.promptSent = false ∧ isDue s.time t.half = true) ∧ x = .releaseTimerHalf i ∨
        ¬ (p.promptSent = false ∧ isDue s.time t.half = true) ∧ isDue s.time t.expiry = true ∧ x = .releaseTimerExpiry i) := by
  constructor
  · intro h
    unfold State.dueProducer at h
    split at h
    · rename_i p hp
      split at h
      · rename_i t ht
        split at h
        · rename_i awaiting
          refine ⟨p, t, State.entry_of_producer hp, ht, awaiting, ?_⟩
          split at h
          · rename_i half
            exact .inl ⟨half, (Option.some.inj h).symm⟩
          · rename_i notHalf
            split at h
            · rename_i due
              exact .inr ⟨notHalf, due, (Option.some.inj h).symm⟩
            · cases h
        · cases h
      · cases h
    · cases h
  · rintro ⟨p, t, he, ht, awaiting, ⟨half, rfl⟩ | ⟨notHalf, due, rfl⟩⟩
    · simp only [State.dueProducer, State.producer_of he, ht, if_pos awaiting, if_pos half]
    · simp only [State.dueProducer, State.producer_of he, ht, if_pos awaiting, if_neg notHalf, if_pos due]

/-! ### The order of the timers (log 4) -/

section
variable {s : State}

theorem State.dueTimer_clearing (clears : s.port.clearing = true ∧ isDue s.time (BitVec.ofNat 32 80) = true) :
    s.dueTimer = some .pageMemoryClearingEnd := if_pos clears

variable (notClears : ¬ (s.port.clearing = true ∧ isDue s.time (BitVec.ofNat 32 80) = true))
include notClears

theorem State.dueTimer_listen (listens : s.presence.state = .listening ∧ s.timerDue s.presence.listenTimer = true) :
    s.dueTimer = some .listenTimerExpiry := (if_neg notClears).trans (if_pos listens)

variable (notListens : ¬ (s.presence.state = .listening ∧ s.timerDue s.presence.listenTimer = true))
include notListens

theorem State.dueTimer_roll (rolls : s.timerDue s.presence.rollTimer = true) : s.dueTimer = some .rollTimerDue :=
  (if_neg notClears).trans ((if_neg notListens).trans (if_pos rolls))

variable (notRolls : ¬ s.timerDue s.presence.rollTimer = true)
include notRolls

theorem State.dueTimer_tables : s.dueTimer =
    (s.dueSilence <|> allEntries.findSome? s.dueConsumer <|> allEntries.findSome? s.dueProducer) :=
  (if_neg notClears).trans ((if_neg notListens).trans (if_neg notRolls))

theorem State.dueTimer_silence {n : Station} (silent : s.silenceDue n = true) (lower : ∀ m, m < n → ¬ s.silenceDue m = true) :
    s.dueTimer = some (.silenceTimerExpiry n) := by
  rw [State.dueTimer_tables notClears notListens notRolls, State.dueSilence_eq, find?_finRange_lowest silent lower]
  rfl

variable (noSilence : ∀ n, ¬ s.silenceDue n = true)
include noSilence

theorem State.dueTimer_entries : s.dueTimer = (allEntries.findSome? s.dueConsumer <|> allEntries.findSome? s.dueProducer) := by
  rw [State.dueTimer_tables notClears notListens notRolls, State.dueSilence_eq, List.find?_eq_none.2 fun n _ => noSilence n]
  rfl

theorem State.dueTimer_consumer {i : EntryIx} {x : Instr} (found : s.dueConsumer i = some x)
    (lower : ∀ j, j < i → s.dueConsumer j = none) : s.dueTimer = some x := by
  rw [State.dueTimer_entries notClears notListens notRolls noSilence, allEntries, findSome?_finRange_lowest found lower]
  rfl

variable (noConsumer : ∀ i, s.dueConsumer i = none)
include noConsumer

theorem State.dueTimer_producers : s.dueTimer = allEntries.findSome? s.dueProducer := by
  rw [State.dueTimer_entries notClears notListens notRolls noSilence, List.findSome?_eq_none_iff.2 fun i _ => noConsumer i]
  rfl

theorem State.dueTimer_producer {i : EntryIx} {x : Instr} (found : s.dueProducer i = some x)
    (lower : ∀ j, j < i → s.dueProducer j = none) : s.dueTimer = some x := by
  rw [State.dueTimer_producers notClears notListens notRolls noSilence noConsumer, allEntries,
    findSome?_finRange_lowest found lower]

theorem State.dueTimer_none (noProducer : ∀ i, s.dueProducer i = none) : s.dueTimer = none := by
  rw [State.dueTimer_producers notClears notListens notRolls noSilence noConsumer,
    List.findSome?_eq_none_iff.2 fun i _ => noProducer i]

end

/-! ### A step with no event waiting -/

section
variable {s : State} (empty : s.pending = [])
include empty

theorem step_idle : step s = idle s := by
  unfold step
  rw [empty]

theorem step_inReset (h : s.port.inReset = true) : step s = .next s := (step_idle empty).trans (if_pos h)

variable (awake : s.port.inReset = false)
include awake

theorem step_due {i : Instr} (due : s.dueEvent = some i) : step s = exec i s := by
  rw [step_idle empty, idle, if_neg (by rw [awake]; decide), due]

theorem step_tick (none : s.dueEvent = none) : step s = .next { s with time := s.time + 1 } := by
  rw [step_idle empty, idle, if_neg (by rw [awake]; decide), none]
  rfl

end

/-- Settles O2: one lemma of `State.dueTimer` for each kind of timer, behind the start on an idle line (R135). -/
theorem emptyQueueTakesTheDueTimer : Obligations.EmptyQueueTakesTheDueTimer := by
  refine ⟨fun s empty => ⟨step_inReset empty, fun awake i => step_due empty awake, step_tick empty⟩, fun s => ?_⟩
  have starts_iff : s.startDue = true ↔ _ := s.startDue_iff.trans (by rw [State.transmits_iff])
  have timer : ¬ s.startDue = true → s.dueEvent = s.dueTimer := fun no => State.dueEvent_timer (Bool.eq_false_iff.2 no)
  have listens_iff := and_congr_right_iff (a := s.presence.state = .listening).2 fun _ => s.timerDue_iff s.presence.listenTimer
  have rolls_iff := s.timerDue_iff s.presence.rollTimer
  have silent_iff := s.silenceDue_iff
  have waits_iff := s.dueConsumer_eq_some_iff
  have bars_iff := s.dueProducer_eq_some_iff
  refine ⟨isDue_iff, fun starts => State.dueEvent_start (starts_iff.2 starts), fun no clears => ?_, fun no noClear listens => ?_,
    fun no noClear noListen rolls => ?_, fun no noClear noListen noRoll => ?_⟩
  · rw [timer (mt starts_iff.1 no), State.dueTimer_clearing clears]
  · rw [timer (mt starts_iff.1 no), State.dueTimer_listen noClear (listens_iff.2 listens)]
  · rw [timer (mt starts_iff.1 no), State.dueTimer_roll noClear (mt listens_iff.1 noListen) (rolls_iff.2 rolls)]
  · rw [timer (mt starts_iff.1 no)]
    have noListen := mt listens_iff.1 noListen
    have noRoll := mt rolls_iff.1 noRoll
    refine ⟨fun n silent lower => ?_, fun noSilent => ?_⟩
    · exact State.dueTimer_silence noClear noListen noRoll ((silent_iff n).2 silent) fun m hm => mt (silent_iff m).1 (lower m hm)
    have noSilent := fun n => mt (silent_iff n).1 (noSilent n)
    refine ⟨fun i x waits lower => ?_, fun noWait => ?_⟩
    · refine State.dueTimer_consumer noClear noListen noRoll noSilent ((waits_iff i x).2 waits) fun j hj => ?_
      exact Option.eq_none_iff_forall_ne_some.2 fun y => mt (waits_iff j y).1 (lower j y hj)
    have noWait := fun i => Option.eq_none_iff_forall_ne_some.2 fun x => mt (waits_iff i x).1 (noWait i x)
    refine ⟨fun i x bars lower => ?_, fun noBar => ?_⟩
    · refine State.dueTimer_producer noClear noListen noRoll noSilent noWait ((bars_iff i x).2 bars) fun j hj => ?_
      exact Option.eq_none_iff_forall_ne_some.2 fun y => mt (bars_iff j y).1 (lower j y hj)
    · refine State.dueTimer_none noClear noListen noRoll noSilent noWait fun i => ?_
      exact Option.eq_none_iff_forall_ne_some.2 fun x => mt (bars_iff i x).1 (noBar i x)

end Sys2Proof.Machine
end

section
/-! SUPPORT. The command and response queues, SUBMIT, RESP_NEXT and EVT_NEXT (chapter 10). -/

namespace Sys2Proof.Machine

/-! ### Records that reach the command queue (R158, R159) -/

/-- On a running part a command row's record reaches the queue. -/
theorem exec_commandRecord_running {i : Instr} {r : CmdRecord} (hi : commandRecord i = some r) {s : State} (hs : s.running) :
    exec i s = .next (s.enqueue r) := by
  obtain ⟨awake, cleared⟩ := hs
  rw [exec_commandRecord hi, State.submitRecord, State.awake, if_neg (by rw [awake]; decide), if_neg (by rw [cleared]; decide)]

/-- A kind code that names no command is answered with BAD_ARG and zeros. -/
theorem State.answered_unknown (s : State) {r : CmdRecord} (h : r.kind = 0 ∨ 17 < r.kind.toNat) :
    s.answered r = s.respond r.tag r.kind .badArg 0 0 :=
  State.answered_of (State.runCommand_unknown s h)

/-- Settles O10: the record reaches a queue that is empty, waiting or full; a kind code without a command is refused. -/
theorem commandsReachTheQueue : Obligations.CommandsReachTheQueue := by
  refine ⟨fun i r s hi hs => ⟨exec_commandRecord_ready hi, fun room full => ?_, fun full => ?_⟩, fun tag kind s hs bad => ?_⟩
  · rw [exec_commandRecord_running hi hs, State.enqueue_waits room full]
  · rw [exec_commandRecord_running hi hs, State.enqueue_full full]
  · have kindBack : (record kind.toNat tag []).kind = kind := by
      simp only [record_kind, BitVec.ofNat_toNat, BitVec.setWidth_eq]
    rw [exec_commandRecord_ready (i := .unknownCommand tag kind) rfl hs,
      State.answered_unknown _ (by rw [kindBack]; exact bad), kindBack]
    rfl

/-! ### The accesses that take all four byte enables (R156) -/

section
variable {s : State} (hs : s.running) (e : BitVec 4) (data : Word)
include hs

theorem exec_submit : exec (.submit e data) s = .next (if e ≠ 0xF then s.busError else s.submitWrite data) :=
  congrArg Host.Outcome.next (State.busAccess_write hs Config.regSubmit (by decide) (by decide) e data)

theorem exec_respNext : exec (.respNext e data) s = .next (if e ≠ 0xF then s.busError else s.respNextWrite) :=
  congrArg Host.Outcome.next (State.busAccess_write hs Config.regRespNext (by decide) (by decide) e data)

theorem exec_evtNext : exec (.evtNext e data) s = .next (if e ≠ 0xF then s.busError else s.evtNextWrite) :=
  congrArg Host.Outcome.next (State.busAccess_write hs Config.regEvtNext (by decide) (by decide) e data)

end

/-- Settles O11: SUBMIT is a record of the staging words that reaches the queue. -/
theorem submitTakesTheStagingWords : Obligations.SubmitTakesTheStagingWords := by
  intro e data s hs
  rw [exec_submit hs]
  refine ⟨fun fewer => ?_, fun all ready => ?_, fun all room full => ?_, fun all full => ?_⟩
  · rw [if_pos fewer]
    rfl
  · rw [if_neg (not_not.2 all), State.submitWrite, State.enqueue_ready ready]
  · rw [if_neg (not_not.2 all), State.submitWrite, State.enqueue_waits room full]
    rfl
  · rw [if_neg (not_not.2 all), State.submitWrite, State.enqueue_full full]
    rfl

/-! ### RESP_NEXT (R161) -/

/-- With no command waiting the head response leaves and nothing else happens. -/
theorem State.respNextWrite_noCommand {s : State} (none : s.port.cmdQueue = []) : s.respNextWrite =
    { s with port := { s.port with respQueue := s.port.respQueue.tail, bus := some ⟨false, 0⟩ } } := by
  rw [State.respNextWrite, State.takeCommands_nil _ (by exact none)]
  rfl

/-- The response of a taken command fills one place. -/
theorem State.answered_respLength (s : State) (r : CmdRecord) :
    (s.answered r).port.respQueue.length = s.port.respQueue.length + 1 := by
  simp only [State.answered, State.modPort_port, State.runCommand_port, List.length_append, List.length_singleton]

/-- With commands behind a full response queue the head command is taken, and its response fills the queue again. -/
theorem State.respNextWrite_waiting {s : State} {r : CmdRecord} {rest : List CmdRecord} {a : Response} {l : List Response}
    (commands : s.port.cmdQueue = r :: rest) (responses : s.port.respQueue = a :: l) (full : l.length = 7) :
    s.respNextWrite =
      (({ s with port := { s.port with cmdQueue := rest, respQueue := l } } : State).answered r).answer false 0 := by
  have left : (s.modPort fun p => { p with respQueue := p.respQueue.tail }).port.respQueue = l := by
    rw [State.modPort_port, responses, List.tail_cons]
  have taken : (s.modPort fun p => { p with respQueue := p.respQueue.tail }).takeCommand r rest =
      ({ s with port := { s.port with cmdQueue := rest, respQueue := l } } : State).answered r := by
    rw [← left]
    rfl
  rw [State.respNextWrite, State.takeCommands_succ, State.modPort_port, commands]
  dsimp only
  rw [responses, List.tail_cons, if_pos (by rw [full]; decide), taken,
    State.takeCommands_full _ (by rw [State.answered_respLength]; exact congrArg (· + 1) full)]

/-! ### The interrupt output (R168) -/

theorem State.interrupt_running {s : State} (h : s.running) : s.interrupt = true ↔ s.events.records ≠ [] := by
  obtain ⟨awake, cleared⟩ := h
  simp [State.interrupt, awake, cleared]

/-- Settles O12. RESP_NEXT goes by the commands that wait; EVT_NEXT keeps the part running. -/
theorem recordsLeaveFromTheHead : Obligations.RecordsLeaveFromTheHead := by
  refine ⟨fun data s hs => ⟨fun none => ?_, fun r rest a l commands responses full => ?_, fun e fewer => ?_⟩,
    fun data s hs => ⟨_, ?_, rfl, State.interrupt_running hs, fun e fewer => ?_⟩⟩
  · rw [exec_respNext hs, if_neg (by decide), State.respNextWrite_noCommand none]
  · rw [exec_respNext hs, if_neg (by decide), State.respNextWrite_waiting commands responses full]
  · rw [exec_respNext hs, if_pos fewer]
    rfl
  · rw [exec_evtNext hs, if_neg (by decide)]
    rfl
  · rw [exec_evtNext hs, if_pos fewer]
    rfl

end Sys2Proof.Machine
end

section
/-! SUPPORT. The fields of a word put together with `wordOf`: each field holds the number placed there, and no other one reaches
into it (chapter 11). -/

namespace Sys2Proof.Machine

/-! ### Words from their fields -/

@[simp] theorem wordOf_nil : wordOf [] = 0 := rfl

@[simp] theorem wordOf_cons (x : Word) (l : List Word) : wordOf (x :: l) = x ||| wordOf l := by
  refine BitVec.eq_of_getLsbD_eq fun i _ => ?_
  rw [BitVec.getLsbD_or, getLsbD_wordOf, getLsbD_wordOf, List.any_cons]

/-! ### One field -/

section
variable (lo width v : Nat)

/-- A field read where it was placed. -/
@[simp] theorem extractLsb'_placed_self (fits : lo + width ≤ 32) :
    (placed lo width v).extractLsb' lo width = BitVec.ofNat width v := by
  refine BitVec.eq_of_getLsbD_eq fun i hi => ?_
  rw [BitVec.getLsbD_extractLsb', getLsbD_placed, BitVec.getLsbD_ofNat]
  simp [hi, show lo + i < 32 by omega]

/-- A field read where nothing of it was placed. -/
@[simp] theorem extractLsb'_placed_apart {lo' width' : Nat} (apart : lo' + width' ≤ lo ∨ lo + width ≤ lo') :
    (placed lo width v).extractLsb' lo' width' = 0 := by
  refine BitVec.eq_of_getLsbD_eq fun i hi => ?_
  rw [BitVec.getLsbD_extractLsb', placed_outside _ _ _ _ (by omega)]
  simp

/-- A bit read where nothing of a field was placed. -/
@[simp] theorem getElem_placed_apart {i : Nat} (inside : i < 32) (apart : i < lo ∨ lo + width ≤ i) :
    (placed lo width v)[i] = false := placed_outside lo width v i apart

end

section
variable (lo : Nat) (b : Bool)

@[simp] theorem getElem_placedBit_self (inside : lo < 32) : (placedBit lo b)[lo] = b := by
  rw [← BitVec.getLsbD_eq_getElem, getLsbD_placedBit]
  simp only [inside, decide_true, Bool.true_and]

@[simp] theorem getElem_placedBit_apart {i : Nat} (inside : i < 32) (apart : i ≠ lo) : (placedBit lo b)[i] = false := by
  rw [← BitVec.getLsbD_eq_getElem, getLsbD_placedBit]
  simp only [apart, decide_false, Bool.and_false, Bool.false_and]

@[simp] theorem extractLsb'_placedBit_apart {lo' width' : Nat} (apart : lo' + width' ≤ lo ∨ lo < lo') :
    (placedBit lo b).extractLsb' lo' width' = 0 := extractLsb'_placed_apart lo 1 b.toNat (by omega)

end

/-- A value of the field's own width is read back as it is. -/
@[simp] theorem ofNat_toNat_self {w : Nat} (x : BitVec w) : BitVec.ofNat w x.toNat = x := by
  rw [BitVec.ofNat_toNat, BitVec.setWidth_eq]

/-- A value in the low bits of a word. -/
theorem placed_low_toNat {w : Nat} (x : BitVec w) : placed 0 w x.toNat = x.setWidth 32 := by
  rw [placed_low w x.toNat x.isLt, BitVec.ofNat_toNat]

/-- A mode in its bit. -/
theorem placed_mode (lo : Nat) (m : Mode) : placed lo 1 m.code = placedBit lo (m == .lockStep) := by
  cases m <;> rfl

/-- Two bytes in the low half of a word. -/
theorem wordOf_bytes {a b : Nat} (ha : a < 256) (hb : b < 256) :
    wordOf [placed 0 8 a, placed 8 8 b] = BitVec.ofNat 32 (a + 256 * b) := by
  have parts : a + 256 * b = a ||| b <<< 8 := by
    rw [Nat.shiftLeft_eq, Nat.or_comm, Nat.mul_comm b, ← Nat.two_pow_add_eq_or_of_lt (i := 8) ha, Nat.add_comm]
  rw [wordOf_pair, parts, BitVec.ofNat_or, placed, placed, Nat.mod_eq_of_lt (by simpa using ha),
    Nat.mod_eq_of_lt (by simpa using hb)]
  rfl

/-! ### Codes and numbers that fit their fields -/

theorem StationState.code_lt (x : StationState) : x.code < 8 := by cases x <;> decide

theorem Slot.code_lt (x : Slot) : x.code < 8 := by cases x <;> exact of_decide_eq_true rfl

theorem Result.code_lt (x : Result) : x.code < 12 := by cases x <;> decide

theorem numberOr32_le (n : Option (Fin 32)) : numberOr32 n ≤ 32 := by
  cases n with
  | none => exact Nat.le_refl 32
  | some n => exact Nat.le_of_lt n.isLt

end Sys2Proof.Machine
end

section
/-! SUPPORT. The register window: its words, reads of the registers and writes of the staging words, STATUS and the interrupt
output, and the accesses that end with the bus error response (chapters 10 and 11). -/

namespace Sys2Proof.Machine

/-! ### The words of a response and of an event (R161, R165, 11.3) -/

theorem Response.word_zero (r : Response) : r.word 0 = wordOf [placed 0 8 r.tag.toNat, placed 8 8 r.kind.toNat] := rfl

theorem Response.word_one (r : Response) :
    r.word 1 = wordOf [placed 0 8 r.result.code, placed 8 4 r.presence.toNat, placedBit 16 r.paused] := rfl

theorem Response.word_two (r : Response) : r.word 2 = r.value1 := rfl

theorem Response.word_three (r : Response) : r.word 3 = r.value2 := rfl

theorem Response.word_fields (r : Response) :
    (r.word 0).extractLsb' 0 8 = r.tag ∧ (r.word 0).extractLsb' 8 8 = r.kind ∧ (r.word 0).extractLsb' 16 16 = 0 ∧
      ((r.word 1).extractLsb' 0 8).toNat = r.result.code ∧ (r.word 1).extractLsb' 8 4 = r.presence ∧
      (r.word 1).extractLsb' 12 4 = 0 ∧ (r.word 1).getLsbD 16 = r.paused ∧ (r.word 1).extractLsb' 17 15 = 0 ∧
      r.word 2 = r.value1 ∧ r.word 3 = r.value2 := by
  have code : r.result.code < 256 := Nat.lt_trans r.result.code_lt (by decide)
  simp [Response.word_zero, Response.word_one, Response.word_two, Response.word_three, BitVec.extractLsb'_or, Nat.mod_eq_of_lt,
    code]

theorem EventRecord.word_zero (e : EventRecord) : e.word 0 = wordOf [placed 0 8 e.event.fields.kind,
    placed 8 8 (e.event.fields.reason.getD 0xFF), placed 16 6 e.event.fields.stream.toNat,
    placed 24 6 (numberOr32 e.event.fields.station)] := rfl

theorem EventRecord.word_one (e : EventRecord) : e.word 1 = e.time := rfl

theorem EventRecord.word_two (e : EventRecord) : e.word 2 = wordOf [placed 0 16 (e.event.fields.page.getD 0).toNat,
    placed 16 8 (numberOr32 e.event.fields.slot), placedBit 24 e.event.fields.page.isSome] := rfl

theorem EventRecord.word_three (e : EventRecord) : e.word 3 = e.event.fields.value := rfl

theorem LossReason.code_lt (x : LossReason) : x.code < 7 := by cases x <;> decide

theorem SentResult.code_lt (x : SentResult) : x.code < 5 := by cases x <;> decide

theorem JoinFailure.code_lt (x : JoinFailure) : x.code < 3 := by cases x <;> decide

theorem CutReason.code_lt (x : CutReason) : x.code < 2 := by cases x <;> decide

theorem DownReason.code_lt (x : DownReason) : x.code < 3 := by cases x <;> decide

theorem AccessKind.code_lt (x : AccessKind) : x.code < 2 := by cases x <;> decide

theorem Event.kind_lt (e : Event) : e.fields.kind < 16 := by cases e <;> exact of_decide_eq_true rfl

/-- A reason code fits its byte, and so does FFh for none. -/
theorem Event.reason_lt (e : Event) : e.fields.reason.getD 0xFF < 256 := by
  cases e with
  | pageLost _ _ _ r => exact Nat.lt_trans r.code_lt (by decide)
  | sent _ _ _ r _ => exact Nat.lt_trans r.code_lt (by decide)
  | joinFailed _ _ r => exact Nat.lt_trans r.code_lt (by decide)
  | memberCut _ _ _ r => exact Nat.lt_trans r.code_lt (by decide)
  | cutReceived _ _ r => exact Nat.lt_trans r.code_lt (by decide)
  | peerDown _ r => exact Nat.lt_trans r.code_lt (by decide)
  | accessFault _ k _ _ => exact Nat.lt_trans k.code_lt (by decide)
  | _ => exact of_decide_eq_true rfl

theorem EventRecord.word_fields (e : EventRecord) : let f := e.event.fields
    ((e.word 0).extractLsb' 0 8).toNat = f.kind ∧ ((e.word 0).extractLsb' 8 8).toNat = f.reason.getD 0xFF ∧
      (e.word 0).extractLsb' 16 6 = f.stream ∧ ((e.word 0).extractLsb' 24 6).toNat = numberOr32 f.station ∧
      (e.word 0).extractLsb' 22 2 = 0 ∧ (e.word 0).extractLsb' 30 2 = 0 ∧ e.word 1 = e.time ∧
      (e.word 2).extractLsb' 0 16 = f.page.getD 0 ∧ ((e.word 2).extractLsb' 16 8).toNat = numberOr32 f.slot ∧
      (e.word 2).getLsbD 24 = f.page.isSome ∧ (e.word 2).extractLsb' 25 7 = 0 ∧ e.word 3 = f.value := by
  have kind : e.event.fields.kind < 256 := Nat.lt_trans e.event.kind_lt (by decide)
  have reason := e.event.reason_lt
  have station : numberOr32 e.event.fields.station < 64 := Nat.lt_of_le_of_lt (numberOr32_le _) (by decide)
  have slot : numberOr32 e.event.fields.slot < 256 := Nat.lt_of_le_of_lt (numberOr32_le _) (by decide)
  simp [EventRecord.word_zero, EventRecord.word_one, EventRecord.word_two, EventRecord.word_three, BitVec.extractLsb'_or,
    Nat.mod_eq_of_lt, kind, reason, station, slot]

/-- The value of STATION_STATE: the previous state and the new one. -/
theorem stationState_value (old new : StationState) :
    wordOf [placed 0 8 old.code, placed 8 8 new.code] = BitVec.ofNat 32 (old.code + 256 * new.code) :=
  wordOf_bytes (Nat.lt_trans old.code_lt (by decide)) (Nat.lt_trans new.code_lt (by decide))

/-! ### Reads and writes on a running part (R156, 11.5) -/

section
variable {s : State} (hs : s.running) (e : BitVec 4) (data : Word)
include hs

theorem exec_registerRead {a : Nat} (inside : a < 0x2000) (aligned : a % 4 = 0) :
    exec (.registerWrite ⟨false, .word, BitVec.ofNat 32 a, e, data⟩) s = .next (s.readAt a) :=
  congrArg Host.Outcome.next (State.busAccess_read hs a inside aligned e data)

theorem exec_registerWrite {a : Nat} (inside : a < 0x2000) (aligned : a % 4 = 0) :
    exec (.registerWrite ⟨true, .word, BitVec.ofNat 32 a, e, data⟩) s = .next (s.writeAt a e data) :=
  congrArg Host.Outcome.next (State.busAccess_write hs a inside aligned e data)

end

section
variable (s : State)

theorem State.readAt_cmd (k : Fin 8) : s.readAt (0x10 + 4 * k.val) = s.answer false s.port.staging[k] := by
  rw [State.readAt, if_neg (by simp only [Config.regId]; omega), if_neg (by simp only [Config.regStatus]; omega),
    if_neg (by simp only [Config.regWindow]; omega), if_pos (isWordOf_of (by simp only [Config.regCmd]; omega)),
    Nat.add_sub_cancel_left, Nat.mul_div_cancel_left _ (by decide), Vector.getElem?_eq_getElem k.isLt]
  rfl

theorem State.readAt_resp (k : Fin 4) : s.readAt (0x40 + 4 * k.val) = s.answer false (s.respWord k.val) := by
  rw [State.readAt, if_neg (by simp only [Config.regId]; omega), if_neg (by simp only [Config.regStatus]; omega),
    if_neg (by simp only [Config.regWindow]; omega), if_neg (isWordOf_not (by simp only [Config.regCmd]; omega)),
    if_pos (isWordOf_of (by simp only [Config.regResp]; omega)), Nat.add_sub_cancel_left,
    Nat.mul_div_cancel_left _ (by decide)]

theorem State.readAt_evt (k : Fin 4) : s.readAt (0x60 + 4 * k.val) = s.answer false (s.evtWord k.val) := by
  rw [State.readAt, if_neg (by simp only [Config.regId]; omega), if_neg (by simp only [Config.regStatus]; omega),
    if_neg (by simp only [Config.regWindow]; omega), if_neg (isWordOf_not (by simp only [Config.regCmd]; omega)),
    if_neg (isWordOf_not (by simp only [Config.regResp]; omega)), if_pos (isWordOf_of (by simp only [Config.regEvt]; omega)),
    Nat.add_sub_cancel_left, Nat.mul_div_cancel_left _ (by decide)]

/-- A register takes all four byte enables (R156). -/
theorem State.writeAt_enables {a : Nat} (register : a < 0x1000) {e : BitVec 4} (fewer : e ≠ 0xF) (data : Word) :
    s.writeAt a e data = s.busError := by
  rw [State.writeAt, if_neg (isWordOf_not (.inl register)), if_pos fewer]

theorem setStaging_eq (v : Vector Word 8) (k : Fin 8) (w : Word) : setStaging v k.val w = vput v k w :=
  Vector.ext fun j hj => by simp only [setStaging, vput, Vector.getElem_setIfInBounds, Vector.getElem_set]

theorem State.writeAt_cmd (k : Fin 8) (data : Word) : s.writeAt (0x10 + 4 * k.val) 0xF data =
    { s with port := { s.port with staging := vput s.port.staging k data, bus := some ⟨false, 0⟩ } } := by
  rw [State.writeAt, if_neg (isWordOf_not (by simp only [Config.regPage]; omega)), if_neg (by decide),
    if_pos (isWordOf_of (by simp only [Config.regCmd]; omega)), Nat.add_sub_cancel_left,
    Nat.mul_div_cancel_left _ (by decide)]
  simp only [setStaging_eq]
  rfl

theorem State.respWord_head {a : Response} {l : List Response} (h : s.port.respQueue = a :: l) (k : Nat) :
    s.respWord k = a.word k := by
  rw [State.respWord, h]

theorem State.respWord_empty (h : s.port.respQueue = []) (k : Nat) : s.respWord k = 0 := by
  rw [State.respWord, h]

theorem State.evtWord_head {a : EventRecord} {l : List EventRecord} (h : s.events.records = a :: l) (k : Nat) :
    s.evtWord k = a.word k := by
  rw [State.evtWord, h]

theorem State.evtWord_empty (h : s.events.records = []) (k : Nat) : s.evtWord k = 0 := by
  rw [State.evtWord, h]

end

/-- Settles O15: each register by its `State.readAt` or `State.writeAt` lemma; the words by their fields. -/
theorem registersReadAndStage : Obligations.RegistersReadAndStage := by
  refine ⟨fun e data s hs => ?_, fun r e => ⟨r.word_fields, e.word_fields, ?_⟩⟩
  · have read := fun (a : Nat) (h : a < 0x80 ∧ a % 4 = 0) => exec_registerRead (a := a) hs e data (by omega) h.2
    refine ⟨read 0x0000 (by decide), read 0x0004 (by decide), fun k => ?_, fun k => ⟨fun none => ?_, fun a l head => ?_,
      fun none => ?_, fun a l head => ?_⟩, fun k => ⟨?_, fun fewer => ?_⟩⟩
    · exact (read _ (by omega)).trans (congrArg _ (s.readAt_cmd k))
    · exact (read _ (by omega)).trans (congrArg _ ((s.readAt_resp k).trans (by rw [s.respWord_empty none]; rfl)))
    · exact (read _ (by omega)).trans (congrArg _ ((s.readAt_resp k).trans (by rw [s.respWord_head head]; rfl)))
    · exact (read _ (by omega)).trans (congrArg _ ((s.readAt_evt k).trans (by rw [s.evtWord_empty none]; rfl)))
    · exact (read _ (by omega)).trans (congrArg _ ((s.readAt_evt k).trans (by rw [s.evtWord_head head]; rfl)))
    · rw [exec_registerWrite hs _ _ (by omega) (by omega), s.writeAt_cmd]
    · rw [exec_registerWrite hs _ _ (by omega) (by omega), s.writeAt_enables (by omega) fewer]
      rfl
  · refine ⟨fun _ _ _ => rfl, fun _ _ _ _ => rfl, fun _ _ _ _ tag => ?_, fun _ tag => ?_, fun _ _ _ => rfl, fun _ _ _ => rfl,
      fun _ _ _ _ => rfl, fun _ _ _ => rfl, fun _ => rfl, fun _ _ => rfl, fun _ code => ?_, fun _ _ => rfl, fun old new => ?_,
      fun _ _ _ _ => rfl, fun count => ?_, rfl, rfl, rfl, rfl, rfl, rfl, rfl, rfl, fun _ _ _ _ _ _ => rfl⟩
    · rw [Event.fields, placed_low_toNat]
    · rw [Event.fields, placed_low_toNat]
    · rw [Event.fields, placed_low_toNat]
    · rw [Event.fields, stationState_value]
    · rw [Event.fields, placed_low_toNat]

/-! ### Accesses that end with the bus error response (R156, R170) -/

section
variable {s : State} (h : s.port.inReset = false) {b : BusAccess}
include h

/-- An access that is not 32 bits wide, not word aligned or outside the window. -/
theorem State.busAccess_misfit (bad : b.width ≠ .word ∨ b.addr.toNat % 4 ≠ 0 ∨ 0x2000 ≤ b.addr.toNat) :
    s.busAccess b = s.busError := by
  rw [State.busAccess, if_neg (by rw [h]; decide), if_pos bad]

/-- What fits the window goes to the registers once the clearing has ended. -/
theorem State.busAccess_fits (fits : ¬ (b.width ≠ .word ∨ b.addr.toNat % 4 ≠ 0 ∨ 0x2000 ≤ b.addr.toNat))
    (cleared : s.port.clearing = false) : s.busAccess b =
      if b.write then s.writeAt b.addr.toNat b.enables b.data else s.readAt b.addr.toNat := by
  rw [State.busAccess, if_neg (by rw [h]; decide), if_neg fits, if_neg (by rw [cleared]; decide)]

/-- A read at an address without a readable register. -/
theorem State.busAccess_readError (cleared : s.port.clearing = false) (read : b.write = false)
    (error : s.readAt b.addr.toNat = s.busError) : s.busAccess b = s.busError := by
  by_cases bad : b.width ≠ .word ∨ b.addr.toNat % 4 ≠ 0 ∨ 0x2000 ≤ b.addr.toNat
  · exact State.busAccess_misfit h bad
  · rw [State.busAccess_fits h bad cleared, if_neg (by rw [read]; decide), error]

/-- A write at an address without a writable register. -/
theorem State.busAccess_writeError (cleared : s.port.clearing = false) (write : b.write = true)
    (error : s.writeAt b.addr.toNat b.enables b.data = s.busError) : s.busAccess b = s.busError := by
  by_cases bad : b.width ≠ .word ∨ b.addr.toNat % 4 ≠ 0 ∨ 0x2000 ≤ b.addr.toNat
  · exact State.busAccess_misfit h bad
  · rw [State.busAccess_fits h bad cleared, if_pos write, error]

variable (clearing : s.port.clearing = true)
include clearing

/-- During the clearing no access succeeds but a read of STATUS. -/
theorem State.busAccess_clearing (other : ¬ (b.write = false ∧ b.addr = 0x0004)) : s.busAccess b = s.busError := by
  by_cases bad : b.width ≠ .word ∨ b.addr.toNat % 4 ≠ 0 ∨ 0x2000 ≤ b.addr.toNat
  · exact State.busAccess_misfit h bad
  · have notStatus : ¬ (b.write = false ∧ b.addr.toNat = Config.regStatus) := fun ⟨read, address⟩ =>
      other ⟨read, BitVec.eq_of_toNat_eq address⟩
    rw [State.busAccess, if_neg (by rw [h]; decide), if_neg bad, if_pos clearing, if_neg notStatus]

theorem State.busAccess_clearing_status (read : b.write = false) (address : b.addr = 0x0004) (width : b.width = .word) :
    s.busAccess b = s.answer false s.statusWord := by
  rw [State.busAccess, if_neg (by rw [h]; decide), if_neg (by rw [width, address]; decide), if_pos clearing,
    if_pos ⟨read, by rw [address]; rfl⟩]

end

section
variable (s : State) {a : Nat} (register : a < 0x1000)
include register

/-- The addresses below the page window at which nothing is read. -/
theorem State.readAt_noRegister (first : a ≠ 0x00 ∧ a ≠ 0x04 ∧ a ≠ 0x08) (cmd : a < 0x10 ∨ 0x30 ≤ a) (resp : a < 0x40 ∨ 0x50 ≤ a)
    (evt : a < 0x60 ∨ 0x70 ≤ a) : s.readAt a = s.busError := by
  obtain ⟨notId, notStatus, notWindow⟩ := first
  rw [State.readAt, if_neg notId, if_neg notStatus, if_neg notWindow, if_neg (isWordOf_not cmd), if_neg (isWordOf_not resp),
    if_neg (isWordOf_not evt), if_neg (isWordOf_not (.inl register))]

/-- The addresses below the page window at which nothing is written. -/
theorem State.writeAt_noRegister (cmd : a < 0x10 ∨ 0x30 ≤ a) (others : a ≠ 0x30 ∧ a ≠ 0x50 ∧ a ≠ 0x70 ∧ a ≠ 0x08) (e : BitVec 4)
    (data : Word) : s.writeAt a e data = s.busError := by
  by_cases fewer : e ≠ 0xF
  · exact s.writeAt_enables register fewer data
  · obtain ⟨notSubmit, notRespNext, notEvtNext, notWindow⟩ := others
    rw [State.writeAt, if_neg (isWordOf_not (.inl register)), if_neg fewer, if_neg (isWordOf_not cmd), if_neg notSubmit,
      if_neg notRespNext, if_neg notEvtNext, if_neg notWindow]

end

/-- A read does not look at the byte enables and the data. -/
theorem State.busAccess_read_congr (s : State) (b : BusAccess) (read : b.write = false) (e : BitVec 4) (data : Word) :
    s.busAccess { b with enables := e, data := data } = s.busAccess b := by
  cases b
  subst read
  rfl

/-- The address of an offset of the page window. -/
theorem pageAddress_toNat (o : BitVec 12) : (BitVec.ofNat 32 (Config.regPage + o.toNat)).toNat = 0x1000 + o.toNat := by
  have ho := o.isLt
  rw [BitVec.toNat_ofNat, Nat.mod_eq_of_lt (by simp only [Config.regPage]; omega)]

/-! ### STATUS and the interrupt output (R168, R169) -/

/-- STATUS is read whenever the part is not in pin reset. -/
theorem exec_statusRead {s : State} (h : s.port.inReset = false) (e : BitVec 4) (data : Word) :
    exec (.registerWrite ⟨false, .word, 0x0004, e, data⟩) s =
      .next { s with port := { s.port with bus := some ⟨false, s.statusWord⟩ } } := by
  cases clearing : s.port.clearing with
  | false => exact exec_registerRead ⟨h, clearing⟩ e data (a := 0x0004) (by decide) (by decide)
  | true => exact congrArg Host.Outcome.next (State.busAccess_clearing_status h clearing rfl rfl rfl)

theorem State.statusWord_clearing {s : State} (h : s.port.clearing = true) : s.statusWord = 1 := by
  rw [State.statusWord, if_pos h]
  rfl

theorem State.statusWord_of {s : State} (h : s.port.clearing = false) : s.statusWord = wordOf [placedBit 1 s.port.refused,
    placedBit 2 (s.events.lost != 0), placedBit 3 s.interrupt, placed 4 4 s.presence.state.code,
    placed 8 4 s.port.cmdQueue.length, placed 12 4 s.port.respQueue.length, placed 16 7 s.events.records.length] := by
  rw [State.statusWord, if_neg (by rw [h]; decide)]

theorem State.statusWord_fields {s : State} (b : s.Bounded) (h : s.port.clearing = false) : let w := s.statusWord
    w.getLsbD 0 = false ∧ w.getLsbD 1 = s.port.refused ∧ (w.getLsbD 2 = true ↔ 0 < s.events.lost.toNat) ∧
      w.getLsbD 3 = s.interrupt ∧ (w.extractLsb' 4 4).toNat = s.presence.state.code ∧
      (w.extractLsb' 8 4).toNat = s.port.cmdQueue.length ∧ (w.extractLsb' 12 4).toNat = s.port.respQueue.length ∧
      (w.extractLsb' 16 7).toNat = s.events.records.length ∧ w.extractLsb' 23 9 = 0 := by
  have code : s.presence.state.code < 16 := Nat.lt_trans s.presence.state.code_lt (by decide)
  have commands : s.port.cmdQueue.length < 16 := Nat.lt_of_le_of_lt b.commands (by decide)
  have responses : s.port.respQueue.length < 16 := Nat.lt_of_le_of_lt b.responses (by decide)
  have events : s.events.records.length < 128 := Nat.lt_of_le_of_lt b.events (by decide)
  have lost : 0 < s.events.lost.toNat ↔ s.events.lost ≠ 0 := by bv_omega
  simp [State.statusWord_of h, BitVec.extractLsb'_or, lost, Nat.mod_eq_of_lt, code, commands, responses, events]

/-- The interrupt output is deasserted during pin reset and the clearing. -/
theorem State.interrupt_deasserted {s : State} (h : s.port.inReset = true ∨ s.port.clearing = true) : s.interrupt = false := by
  rcases h with h | h <;> simp [State.interrupt, h]

/-- It looks at the port and at the records of the Event Queue alone. -/
theorem State.interrupt_congr {s t : State} (port : t.port = s.port) (records : t.events.records = s.events.records) :
    t.interrupt = s.interrupt := by
  rw [State.interrupt, State.interrupt, port, records]

/-- An event that an empty queue stores asserts it. -/
theorem State.interrupt_insertEvent {s : State} (h : s.running) (empty : s.events = ⟨[], 0⟩) (e : Event) :
    (s.insertEvent e).interrupt = true := by
  rw [State.insertEvent_room e (by rw [empty]; decide) (by rw [empty]),
    State.interrupt_running (by exact h)]
  exact List.append_ne_nil_of_right_ne_nil _ (List.cons_ne_nil _ _)

/-- A write of EVT_NEXT leaves it asserted exactly when a record is left. -/
theorem State.interrupt_evtNextWrite {s : State} (h : s.running) :
    s.evtNextWrite.interrupt = true ↔ s.events.records.tail ≠ [] := State.interrupt_running (s := s.evtNextWrite) h

/-- Settles O17: the word of STATUS by its fields, and what the interrupt output looks at. -/
theorem statusAndInterrupt : Obligations.StatusAndInterrupt := by
  refine ⟨fun e data s h b => ⟨_, exec_statusRead h e data, State.statusWord_clearing, State.statusWord_fields b⟩,
    fun s => State.interrupt_running, fun s => State.interrupt_deasserted,
    fun s e h empty => State.interrupt_insertEvent h empty e,
    fun s e kept => State.interrupt_congr (s.insertEvent_port e) kept, fun s data h => ⟨_, exec_evtNext h 0xF data, ?_, ?_⟩,
    fun s l => rfl⟩
  · intro a only
    rw [if_neg (by decide), Bool.eq_false_iff, ne_eq, State.interrupt_evtNextWrite h, only]
    exact fun left => left rfl
  · intro a b l more
    rw [if_neg (by decide), State.interrupt_evtNextWrite h, State.interrupt_running h, more]
    exact ⟨List.cons_ne_nil _ _, List.cons_ne_nil _ _⟩

/-! ### The rows of the bus (log 24) -/

section
variable {s : State} (h : s.port.inReset = false)
include h

/-- During the clearing the rows of the bus end with the error response. -/
theorem exec_busRow_clearing (clearing : s.port.clearing = true) (e : BitVec 4) (data : Word) (o : BitVec 12) :
    ∀ i ∈ [Instr.submit e data, .respNext e data, .evtNext e data, .windowWrite e data, .pageWindowRead o,
      .pageWindowWrite o e data], exec i s = .next s.busError := by
  have noPage : ¬ (false = false ∧ BitVec.ofNat 32 (Config.regPage + o.toNat) = 0x0004) := fun ⟨_, address⟩ => by
    have low : 0x1000 + o.toNat = 4 := (pageAddress_toNat o).symm.trans (congrArg BitVec.toNat address)
    omega
  have noRead : ∀ a : Nat, ¬ ((writeOf a e data).write = false ∧ (writeOf a e data).addr = 0x0004) :=
    fun a ⟨read, _⟩ => by cases read
  simp only [List.forall_mem_cons, List.not_mem_nil, false_imp_iff, implies_true, and_true]
  exact ⟨congrArg _ (State.busAccess_clearing h clearing (noRead _)), congrArg _ (State.busAccess_clearing h clearing (noRead _)),
    congrArg _ (State.busAccess_clearing h clearing (noRead _)), congrArg _ (State.busAccess_clearing h clearing (noRead _)),
    congrArg _ (State.busAccess_clearing h clearing noPage), congrArg _ (State.busAccess_clearing h clearing (noRead _))⟩

/-- The page window is word aligned. -/
theorem exec_pageWindow_misaligned {o : BitVec 12} (bad : o.toNat % 4 ≠ 0) (e : BitVec 4) (data : Word) :
    exec (.pageWindowRead o) s = .next s.busError ∧ exec (.pageWindowWrite o e data) s = .next s.busError := by
  have misaligned : (BitVec.ofNat 32 (Config.regPage + o.toNat)).toNat % 4 ≠ 0 := by
    rw [pageAddress_toNat]
    omega
  exact ⟨congrArg _ (State.busAccess_misfit h (.inr (.inl misaligned))),
    congrArg _ (State.busAccess_misfit h (.inr (.inl misaligned)))⟩

end

/-- A 32-bit write is the access that its address, byte enables and data spell. -/
theorem exec_registerWrite_eq {b : BusAccess} (s : State) (word : b.width = .word) (write : b.write = true) {a : Nat}
    (address : b.addr = BitVec.ofNat 32 a) :
    exec (.registerWrite b) s = .next (s.busAccess (writeOf a b.enables b.data)) := by
  cases b
  subst word write address
  rfl

/-- A 32-bit read of the page window is the access of PAGE_WINDOW_READ at its offset. -/
theorem exec_registerWrite_page {b : BusAccess} (s : State) (word : b.width = .word) (read : b.write = false) {o : BitVec 12}
    (address : b.addr = BitVec.ofNat 32 (0x1000 + o.toNat)) :
    exec (.registerWrite b) s = exec (.pageWindowRead o) s := by
  refine congrArg Host.Outcome.next ((State.busAccess_read_congr s b read 0 0).symm.trans ?_)
  rw [word, read, address]

/-- Settles O16: by the access that each row and each clause makes. -/
theorem refusedAccessesChangeNothing : Obligations.RefusedAccessesChangeNothing := by
  intro b s h refused
  have of : s.busAccess b = s.busError → refused := congrArg Host.Outcome.next
  refine ⟨fun bad => of (State.busAccess_misfit h (.inl bad)), fun bad => of (State.busAccess_misfit h (.inr (.inl bad))),
    fun bad => of (State.busAccess_misfit h (.inr (.inr bad))),
    fun clearing other => of (State.busAccess_clearing h clearing other),
    fun clearing read address word => ?_, fun cleared read address => of (State.busAccess_readError h cleared read ?_),
    fun cleared write address => of (State.busAccess_writeError h cleared write ?_), fun cleared address => of ?_,
    fun e data o => ⟨fun clearing => exec_busRow_clearing h clearing e data o,
      fun bad => exec_pageWindow_misaligned h bad e data⟩,
    fun word => ⟨fun write => ?_, fun o address => ⟨fun write => exec_registerWrite_eq s word write address, fun read => ?_⟩⟩⟩
  · exact congrArg Host.Outcome.next ((State.busAccess_clearing_status h clearing read address word).trans
      (by rw [State.statusWord_clearing clearing]; rfl))
  · have number : b.addr.toNat ∈ [0x30, 0x50, 0x70] := List.mem_map_of_mem (f := BitVec.toNat) address
    simp only [List.mem_cons, List.not_mem_nil, or_false] at number
    exact s.readAt_noRegister (by omega) (by omega) (by omega) (by omega) (by omega)
  · have number : b.addr.toNat ∈ [0x00, 0x04, 0x40, 0x44, 0x48, 0x4C, 0x60, 0x64, 0x68, 0x6C] :=
      List.mem_map_of_mem (f := BitVec.toNat) address
    simp only [List.mem_cons, List.not_mem_nil, or_false] at number
    exact s.writeAt_noRegister (by omega) (by omega) (by omega) _ _
  · have number : b.addr.toNat = 0x0C ∨ _ := address.imp_left (congrArg BitVec.toNat)
    cases direction : b.write with
    | false =>
      exact State.busAccess_readError h cleared direction
        (s.readAt_noRegister (by omega) (by omega) (by omega) (by omega) (by omega))
    | true => exact State.busAccess_writeError h cleared direction (s.writeAt_noRegister (by omega) (by omega) (by omega) _ _)
  · exact ⟨exec_registerWrite_eq s word write, exec_registerWrite_eq s word write, exec_registerWrite_eq s word write,
      exec_registerWrite_eq s word write⟩
  · exact exec_registerWrite_page s word read address

end Sys2Proof.Machine
end

section
/-! SUPPORT. READ_STATUS: which selector, index and part are answered, and the fields of each part (chapters 10 and 11). -/

namespace Sys2Proof.Machine

/-! ### The three checks (R163) -/

/-- The selector is one of the five, and its index and part are in their ranges. -/
def statusInRange (selector : Nat) (index part : Byte) : Prop :=
  match selector with
  | 0 => index = 0 ∧ part.toNat ≤ 2
  | 1 => index.toNat ≤ 31 ∧ part.toNat ≤ 4
  | 2 => index.toNat ≤ 15 ∧ part.toNat ≤ 5
  | 3 => index.toNat ≤ 31 ∧ part.toNat ≤ 1
  | 4 => index = 0 ∧ part.toNat ≤ 3
  | _ => False

theorem below16?_val (i : EntryIx) : below16? i.val = some i := dif_pos i.isLt

section
variable (s : State) {part : Nat}

theorem State.statusPart_station (h : part ≤ 2) : s.statusPart 0 0 part = some (s.stationPart part) := if_pos ⟨rfl, h⟩

theorem State.statusPart_peer (n : Station) (h : part ≤ 4) : s.statusPart 1 n.val part = some (s.peerPart n part) := by
  rw [State.statusPart, if_pos h, below32?_val]
  rfl

theorem State.statusPart_stream (i : EntryIx) (h : part ≤ 5) : s.statusPart 2 i.val part = some (s.streamPart i part) := by
  rw [State.statusPart, if_pos h, below16?_val]
  rfl

theorem State.statusPart_slot (n : SlotNum) (h : part ≤ 1) : s.statusPart 3 n.val part = some (s.slotPart n part) := by
  rw [State.statusPart, if_pos h, below32?_val]
  rfl

theorem State.statusPart_counters (h : part ≤ 3) : s.statusPart 4 0 part = some (s.counterPart part) := if_pos ⟨rfl, h⟩

end

/-- The checked numbers are those that name a part. -/
theorem State.statusPart_some_iff (s : State) (selector : Nat) (index part : Byte) :
    (∃ x, s.statusPart selector index.toNat part.toNat = some x) ↔ statusInRange selector index part := by
  have zero : index.toNat = 0 ↔ index = 0 := BitVec.toNat_inj (y := 0)
  match selector with
  | 0 => simp [State.statusPart, statusInRange, zero]
  | 1 => simp [State.statusPart, statusInRange, below32?]; omega
  | 2 => simp [State.statusPart, statusInRange, below16?]; omega
  | 3 => simp [State.statusPart, statusInRange, below32?]; omega
  | 4 => simp [State.statusPart, statusInRange, zero]
  | n + 5 => simp [State.statusPart, statusInRange]

/-- The refused flag is in no part. -/
theorem State.accepted_statusPart (s : State) (selector index part : Nat) :
    s.accepted.statusPart selector index part = s.statusPart selector index part := rfl

section
variable {s : State} (hs : s.ready) (tag selector index part : Byte)
include hs

theorem exec_readStatus_refused (bad : ¬ statusInRange selector.toNat index part) :
    exec (.readStatus tag selector index part) s = .next (s.accepted.respond tag 17 .badArg 0 0) := by
  have none : s.accepted.statusPart selector.toNat index.toNat part.toNat = none := by
    rw [Option.eq_none_iff_forall_ne_some]
    exact fun x h => bad ((s.statusPart_some_iff selector.toNat index part).1 ⟨x, h⟩)
  rw [exec_readStatus hs, State.readStatus, none]
  rfl

theorem exec_readStatus_part {x : Part} (h : s.statusPart selector.toNat index.toNat part.toNat = some x) :
    exec (.readStatus tag selector index part) s = .next { s.accepted with port := { s.accepted.port with respQueue :=
      s.port.respQueue ++ [⟨tag, 17, .ok, x.presence, x.paused, x.value1, x.value2⟩] } } := by
  rw [exec_readStatus hs, State.readStatus, State.accepted_statusPart, h]
  rfl

end

/-! ### Numbers that fit their fields -/

/-- A count or code of one byte, FFFFh for none. -/
theorem byteOr_lt (x : Option Byte) : (x.map BitVec.toNat).getD 0xFFFF < 65536 := by
  cases x with
  | none => decide
  | some b => exact Nat.lt_trans b.isLt (by decide)

/-- An entry index, 1Fh for none. -/
theorem ownerOr_lt (x : Option EntryIx) : (x.map Fin.val).getD 0x1F < 32 := by
  cases x with
  | none => decide
  | some i => exact Nat.lt_trans i.isLt (by decide)

theorem getD_lt {x : Option Nat} {top other bound : Nat} (small : x.getD 0 ≤ top) (other_lt : other < bound)
    (top_lt : top < bound) : x.getD other < bound := by
  cases x with
  | none => exact other_lt
  | some n => exact Nat.lt_of_le_of_lt small top_lt

/-! ### STATION and PEER (11.4) -/

section
variable (s : State)

theorem State.stationPart_zero (b : s.Bounded) (free : s.slots.free.length ≤ 32) :
    ∃ x y, s.stationPart 0 = ⟨x, y, 0, false⟩ ∧ (x.extractLsb' 0 8).toNat = s.presence.state.code ∧
      (x.extractLsb' 8 8).toNat = s.presence.station.val ∧ (x.extractLsb' 16 8).toNat = s.presence.rate.toNat ∧
      x.extractLsb' 24 8 = s.presence.rollCount ∧ (y.extractLsb' 0 8).toNat = s.link.drops ∧
      (y.extractLsb' 8 8).toNat = s.slots.free.length ∧ (y.extractLsb' 16 8).toNat = s.publish.queue.length ∧
      (y.extractLsb' 24 8).toNat = s.link.notes.length := by
  have code : s.presence.state.code < 256 := Nat.lt_trans s.presence.state.code_lt (by decide)
  have station : s.presence.station.val < 256 := Nat.lt_trans s.presence.station.isLt (by decide)
  have rate : s.presence.rate.toNat < 256 := Nat.lt_trans s.presence.rate.isLt (by decide)
  have drops : s.link.drops < 256 := Nat.lt_of_le_of_lt b.drops (by decide)
  have slots : s.slots.free.length < 256 := Nat.lt_of_le_of_lt free (by decide)
  have descriptors : s.publish.queue.length < 256 := Nat.lt_of_le_of_lt b.descriptors (by decide)
  have notes : s.link.notes.length < 256 := Nat.lt_of_le_of_lt b.notes (by decide)
  refine ⟨_, _, rfl, ?_⟩
  simp [BitVec.extractLsb'_or, State.own, Nat.mod_eq_of_lt, code, station, rate, drops, slots, descriptors, notes]

theorem State.stationPart_config {c : StationConfig} (h : s.presence.config = some c) :
    ∃ x y, s.stationPart 1 = ⟨x, y, 0, false⟩ ∧ (x.extractLsb' 0 8).toNat = c.rollPeriod % 2 ^ 8 ∧
      (x.extractLsb' 8 8).toNat = c.wait % 2 ^ 8 ∧ (x.extractLsb' 16 8).toNat = c.mult % 2 ^ 8 ∧ x.extractLsb' 24 8 = 0 ∧
      (y.extractLsb' 0 16).toNat = c.floor % 2 ^ 16 ∧ (y.extractLsb' 16 8).toNat = c.declarations % 2 ^ 8 ∧
      y.extractLsb' 24 8 = 0 := by
  refine ⟨wordOf [placed 0 8 c.rollPeriod, placed 8 8 c.wait, placed 16 8 c.mult],
    wordOf [placed 0 16 c.floor, placed 16 8 c.declarations], by rw [State.stationPart, h]; rfl, ?_⟩
  simp [BitVec.extractLsb'_or]

theorem State.stationPart_noConfig (h : s.presence.config = none) : s.stationPart 1 = ⟨0, 0, 0, false⟩ := by
  rw [State.stationPart, h]
  rfl

/-- The roll count recorded at CONFLICT, FFFFh for none. -/
theorem conflictCount_word (x : Option Byte) :
    placed 0 16 ((x.map BitVec.toNat).getD 0xFFFF) = (x.map fun b => b.setWidth 32).getD 0xFFFF := by
  rw [placed_low 16 _ (byteOr_lt x)]
  cases x with
  | none => rfl
  | some b => exact BitVec.ofNat_toNat ..

theorem State.stationPart_two : s.stationPart 2 = ⟨s.remaining s.presence.listenTimer,
    (s.presence.conflictCount.map fun b => b.setWidth 32).getD 0xFFFF, 0, false⟩ :=
  congrArg (Part.plain _) (conflictCount_word _)

theorem State.peerPart_zero (n : Station) : ∃ x y, s.peerPart n 0 = ⟨x, y, 0, false⟩ ∧
    x.getLsbD 0 = (s.peer n).isPresent ∧ x.getLsbD 1 = (s.peer n).leaving ∧ x.extractLsb' 2 2 = 0 ∧
    (x.extractLsb' 4 4).toNat = (s.peer n).claims.length % 16 ∧ x.extractLsb' 8 8 = 0 ∧
    (x.extractLsb' 16 16).toNat = ((s.peer n).lastCount.map BitVec.toNat).getD 0xFFFF ∧
    y.getLsbD 0 = s.notices[n].pending ∧ y.extractLsb' 1 7 = 0 ∧ y.extractLsb' 8 8 = s.notices[n].count ∧
    (y.extractLsb' 16 16).toNat = (s.notices[n].lastCode.map BitVec.toNat).getD 0xFFFF := by
  have count := byteOr_lt (s.peer n).lastCount
  have code := byteOr_lt s.notices[n.val].lastCode
  refine ⟨wordOf [placedBit 0 (s.peer n).isPresent, placedBit 1 (s.peer n).leaving, placed 4 4 (s.peer n).claims.length,
    placed 16 16 (((s.peer n).lastCount.map BitVec.toNat).getD 0xFFFF)], _, rfl, ?_⟩
  simp [BitVec.extractLsb'_or, Nat.mod_eq_of_lt, count, code]

end

/-- The word shows a claim, or that there is none (log 18). -/
def showsClaim (w : Word) : Option Claim → Prop
  | none => w = 0x80
  | some c => w.extractLsb' 0 6 = c.stream ∧ w.getLsbD 6 = false ∧ w.getLsbD 7 = (c.mode == .lockStep) ∧
      w.extractLsb' 8 8 = 0 ∧ w.extractLsb' 16 16 = c.lastClosed.getD 0

theorem claimWord_shows (c : Option Claim) : showsClaim (claimWord c) c := by
  cases c with
  | none => rfl
  | some c => simp [showsClaim, claimWord, placed_mode, pageAt, BitVec.extractLsb'_or]

/-! ### SLOT (11.4) -/

section
variable (s : State) (n : SlotNum)

theorem State.slotPart_zero (len : (s.slot n).len?.getD 0 ≤ 4096) (gaps : (s.slot n).gaps?.getD 0 ≤ 2) :
    ∃ x y p, s.slotPart n 0 = ⟨x, y, p, false⟩ ∧ (x.extractLsb' 0 4).toNat = (s.slot n).code ∧
      (x.extractLsb' 4 5).toNat = ((s.slot n).owner?.map Fin.val).getD 0x1F ∧
      (x.extractLsb' 9 2).toNat = (s.slot n).gaps?.getD 3 ∧ (x.extractLsb' 16 13).toNat = (s.slot n).len?.getD 0x1FFF ∧
      x.extractLsb' 11 5 = 0 ∧ x.extractLsb' 29 3 = 0 ∧ y.extractLsb' 0 16 = (s.slot n).page?.getD 0 ∧
      y.extractLsb' 16 16 = 0 ∧ p = if (s.slot n).page?.isSome then 4 else 0 := by
  have code : (s.slot n).code < 16 := Nat.lt_trans (s.slot n).code_lt (by decide)
  have owner := ownerOr_lt (s.slot n).owner?
  have gapsFit : (s.slot n).gaps?.getD 3 < 4 := getD_lt gaps (by decide) (by decide)
  have lenFits : (s.slot n).len?.getD 0x1FFF < 8192 := getD_lt len (by decide) (by decide)
  refine ⟨_, _, _, rfl, ?_⟩
  simp [BitVec.extractLsb'_or, pageAt, presentBit, Nat.mod_eq_of_lt, code, owner, gapsFit, lenFits]

theorem State.slotPart_one : s.slotPart n 1 = .plain ((s.slot n).received?.getD 0xFFFFFFFF)
    (placed 0 8 (((s.slot n).received?.map cardOf).getD 0xFF)) := rfl

theorem State.slotPart_filling {o : EntryIx} {p : PageNum} {l : Option Nat} {r : SegSet} {g : Nat}
    (h : s.slot n = .filling o p l r g) : s.slotPart n 1 =
      ⟨r, BitVec.ofNat 32 ((List.range 32).filter fun k => r.getLsbD k).length, 0, false⟩ := by
  have count : cardOf r = ((List.range 32).filter fun k => r.getLsbD k).length := by
    rw [cardOf, stationsOf, ← List.map_coe_finRange_eq_range, List.filter_map, List.length_map]
    rfl
  have few : cardOf r < 2 ^ 8 :=
    Nat.lt_of_le_of_lt ((List.length_filter_le ..).trans_eq (List.length_finRange ..)) (by decide)
  rw [← count, ← placed_low 8 _ few, State.slotPart_one, h]
  rfl

theorem State.slotPart_notFilling (h : ∀ o p l r g, s.slot n ≠ .filling o p l r g) :
    s.slotPart n 1 = ⟨0xFFFFFFFF, 0xFF, 0, false⟩ := by
  have absent : (s.slot n).received? = none := by
    unfold Slot.received?
    split
    · exact absurd (by assumption) (h _ _ _ _ _)
    · rfl
  rw [State.slotPart_one, absent]
  rfl

end

/-! ### STREAM (11.4) -/

section
variable {s : State} {i : EntryIx} {part : Nat} (inRange : part ≤ 5)
include inRange

theorem State.statusPart_producer {p : Producer} (h : s.entry i = some (.producer p)) :
    s.statusPart 2 i.val part = some (s.producerPart i p part) := by
  rw [s.statusPart_stream i inRange, State.streamPart, h]

theorem State.statusPart_consumer {c : Consumer} (h : s.entry i = some (.consumer c)) :
    s.statusPart 2 i.val part = some (s.consumerPart c part) := by
  rw [s.statusPart_stream i inRange, State.streamPart, h]

theorem State.statusPart_unused (h : s.entry i = none) :
    s.statusPart 2 i.val part = some (if part = 0 then unusedPart else .zero) := by
  rw [s.statusPart_stream i inRange, State.streamPart, h]

end

theorem unusedPart_eq : unusedPart = ⟨0x00003F02, 0x00202020, 0, false⟩ := by decide

/-- Three slot references, 32 for an absent one. -/
theorem slotRefs_fields (x y z : Option SlotNum) :
    ((slotRefs x y z).extractLsb' 0 6).toNat = numberOr32 x % 2 ^ 6 ∧ (slotRefs x y z).extractLsb' 6 2 = 0 ∧
      ((slotRefs x y z).extractLsb' 8 6).toNat = numberOr32 y % 2 ^ 6 ∧ (slotRefs x y z).extractLsb' 14 2 = 0 ∧
      ((slotRefs x y z).extractLsb' 16 6).toNat = numberOr32 z % 2 ^ 6 ∧ (slotRefs x y z).extractLsb' 22 10 = 0 := by
  simp [slotRefs, BitVec.extractLsb'_or]

section
variable (s : State) (i : EntryIx) (p : Producer)

theorem State.producerPart_zero : ∃ x, s.producerPart i p 0 = ⟨x, slotRefs p.sending p.retained none, 0, false⟩ ∧
    x.getLsbD 0 = true ∧ x.getLsbD 1 = false ∧ x.extractLsb' 2 6 = p.stream ∧ x.getLsbD 8 = (p.mode == .lockStep) ∧
    (x.extractLsb' 9 3).toNat = p.state.code % 2 ^ 3 ∧ (x.extractLsb' 12 2).toNat = phaseCode p.phase % 2 ^ 2 ∧
    x.extractLsb' 14 18 = 0 := by
  refine ⟨_, rfl, ?_⟩
  simp [BitVec.extractLsb'_or, placed_mode]

theorem State.producerPart_one : ∃ x y, s.producerPart i p 1 = ⟨x, y, 1 ||| presentBit 1 p.lastClosed, p.paused⟩ ∧
    x.extractLsb' 0 16 = p.nextPage ∧ x.extractLsb' 16 16 = p.lastClosed.getD 0 ∧
    (y.extractLsb' 0 16).toNat = p.pace % 2 ^ 16 ∧ y.extractLsb' 16 16 = 0 := by
  refine ⟨_, _, rfl, ?_⟩
  simp [BitVec.extractLsb'_or, pageAt]

/-- Two 16-bit counters in a word. -/
theorem counters_fields (x y : Half) : (wordOf [placed 0 16 x.toNat, placed 16 16 y.toNat]).extractLsb' 0 16 = x ∧
    (wordOf [placed 0 16 x.toNat, placed 16 16 y.toNat]).extractLsb' 16 16 = y := by
  simp [BitVec.extractLsb'_or]

theorem State.producerPart_two : ∃ x y, s.producerPart i p 2 = ⟨x, y, 0, false⟩ ∧
    x.extractLsb' 0 16 = p.counters.closed ∧ x.extractLsb' 16 16 = p.counters.skipped ∧
    y.extractLsb' 0 16 = p.counters.lost ∧ y.extractLsb' 16 16 = p.counters.repairs := by
  obtain ⟨closed, skipped⟩ := counters_fields p.counters.closed p.counters.skipped
  exact ⟨_, _, rfl, closed, skipped, counters_fields p.counters.lost p.counters.repairs⟩

/-- The repair pass in progress is the entry's. -/
def State.passes : Bool := s.seg.pass.any fun ps => ps.entry == i

theorem State.passes_iff : s.passes i = true ↔ ∃ ps, s.seg.pass = some ps ∧ ps.entry = i := by
  cases h : s.seg.pass <;> simp [State.passes, h]

theorem State.producerPart_five : ∃ x,
    s.producerPart i p 5 = ⟨x, s.remaining (p.timer.map (·.expiry)), presentBit 0 p.repairTag, false⟩ ∧
    x.extractLsb' 0 16 = p.repairTag.getD 0 ∧ (x.extractLsb' 16 2).toNat = p.repairPasses % 2 ^ 2 ∧
    (x.getLsbD 18 = true ↔ ∃ ps, s.seg.pass = some ps ∧ ps.entry = i) ∧ x.getLsbD 19 = p.promptSent ∧
    (x.extractLsb' 20 4).toNat = p.admits.length % 2 ^ 4 ∧ (x.extractLsb' 24 4).toNat = p.cuts.length % 2 ^ 4 ∧
    (x.extractLsb' 28 3).toNat = p.gones.length % 2 ^ 3 ∧ x.getLsbD 31 = p.prompt := by
  refine ⟨wordOf [pageAt 0 p.repairTag, placed 16 2 p.repairPasses, placedBit 18 (s.passes i), placedBit 19 p.promptSent,
    placed 20 4 p.admits.length, placed 24 4 p.cuts.length, placed 28 3 p.gones.length, placedBit 31 p.prompt], ?_, ?_⟩
  · simp only [State.producerPart, State.passes]
    cases s.seg.pass <;> rfl
  rw [← s.passes_iff i]
  simp [BitVec.extractLsb'_or, pageAt]

end

section
variable (s : State) (c : Consumer)

theorem State.consumerPart_zero : ∃ x, s.consumerPart c 0 = ⟨x, slotRefs c.filling c.ready c.held, 0, false⟩ ∧
    x.getLsbD 0 = true ∧ x.getLsbD 1 = true ∧ x.extractLsb' 2 6 = c.stream ∧ x.getLsbD 8 = (c.mode == .lockStep) ∧
    (x.extractLsb' 9 3).toNat = c.state.code % 2 ^ 3 ∧ (x.extractLsb' 12 2).toNat = 3 % 2 ^ 2 ∧ x.extractLsb' 14 18 = 0 := by
  refine ⟨_, rfl, ?_⟩
  simp [BitVec.extractLsb'_or, placed_mode, phaseCode]

theorem State.consumerPart_one : ∃ x y, s.consumerPart c 1 = ⟨x, y,
      presentBit 1 c.firstAdmitted ||| presentBit 2 c.lastCompleted ||| presentBit 3 c.lastReleased, false⟩ ∧
    (x.extractLsb' 0 6).toNat = numberOr32 c.producer % 2 ^ 6 ∧ x.extractLsb' 6 10 = 0 ∧
    x.extractLsb' 16 16 = c.firstAdmitted.getD 0 ∧ y.extractLsb' 0 16 = c.lastCompleted.getD 0 ∧
    y.extractLsb' 16 16 = c.lastReleased.getD 0 := by
  refine ⟨_, _, rfl, ?_⟩
  simp [BitVec.extractLsb'_or, pageAt]

theorem State.consumerPart_two : ∃ x y, s.consumerPart c 2 = ⟨x, y, 0, false⟩ ∧
    x.extractLsb' 0 16 = c.counters.completed ∧ x.extractLsb' 16 16 = c.counters.skipped ∧
    y.extractLsb' 0 16 = c.counters.lost ∧ y.extractLsb' 16 16 = c.counters.repairs := by
  obtain ⟨completed, skipped⟩ := counters_fields c.counters.completed c.counters.skipped
  exact ⟨_, _, rfl, completed, skipped, counters_fields c.counters.lost c.counters.repairs⟩

theorem State.consumerPart_three : ∃ y, s.consumerPart c 3 = ⟨s.remaining c.timer, y, 0, false⟩ ∧
    y.extractLsb' 0 16 = c.skipCount ∧ (y.extractLsb' 16 2).toNat = c.joinTries % 2 ^ 2 ∧ y.getLsbD 18 = c.readyNotified ∧
    y.getLsbD 19 = c.take ∧ y.getLsbD 20 = c.drop ∧ y.getLsbD 21 = c.free.isSome ∧ y.getLsbD 22 = c.gap.isSome ∧
    y.extractLsb' 23 9 = 0 := by
  refine ⟨_, rfl, ?_⟩
  simp [BitVec.extractLsb'_or]

end

/-! ### All parts -/

/-- Settles O34: the checks by `statusInRange`, each part by the lemma about its fields. -/
theorem readStatusReadsTheParts : Obligations.ReadStatusReadsTheParts := by
  refine ⟨fun tag selector index part s hs => ⟨fun bad => ?_, fun inRange => ?_⟩,
    fun s b free => ⟨?_, s.statusPart_counters (by decide), fun n => ?_, fun n len gaps => ?_, fun i p h => ⟨?_, ?_⟩⟩,
    fun s => ⟨fun c h => ?_, fun h => ?_, ?_, s.statusPart_counters (by decide), s.statusPart_counters (by decide),
      s.statusPart_counters (by decide), fun n k => ?_, fun n => ⟨fun o p l r g h => ?_, fun h => ?_⟩,
      fun i p h => ?_, fun i c h => ?_, fun i h => ?_, fun i k h => ?_⟩⟩
  · exact exec_readStatus_refused hs tag selector index part bad
  · obtain ⟨x, hx⟩ := (s.statusPart_some_iff selector.toNat index part).2 inRange
    exact ⟨x, hx, exec_readStatus_part hs tag _ _ _ hx⟩
  · rw [s.statusPart_station (by decide)]
    obtain ⟨x, y, e, fields⟩ := s.stationPart_zero b free
    exact ⟨x, y, congrArg some e, fields⟩
  · rw [s.statusPart_peer n (by decide)]
    obtain ⟨x, y, e, fields⟩ := s.peerPart_zero n
    exact ⟨x, y, congrArg some e, fields⟩
  · rw [s.statusPart_slot n (by decide)]
    obtain ⟨x, y, presence, e, fields⟩ := s.slotPart_zero n len gaps
    exact ⟨x, y, presence, congrArg some e, fields⟩
  · exact State.statusPart_producer (by decide) h
  · exact State.statusPart_producer (by decide) h
  · rw [s.statusPart_station (by decide)]
    obtain ⟨x, y, e, fields⟩ := s.stationPart_config h
    exact ⟨x, y, congrArg some e, fields⟩
  · rw [s.statusPart_station (by decide), s.stationPart_noConfig h]
  · rw [s.statusPart_station (by decide), s.stationPart_two]
    rfl
  · rw [s.statusPart_peer n (by omega)]
    exact ⟨_, _, rfl, claimWord_shows _, claimWord_shows _⟩
  · rw [s.statusPart_slot n (by decide), s.slotPart_filling n h]
  · rw [s.statusPart_slot n (by decide), s.slotPart_notFilling n h]
  · have part := fun k (hk : k ≤ 5) => State.statusPart_producer hk h
    rw [part 0 (by decide), part 1 (by decide), part 2 (by decide), part 5 (by decide)]
    obtain ⟨a0, e0, used, producer, stream, mode, state, phase, rest⟩ := s.producerPart_zero i p
    obtain ⟨a1, b1, e1, pages⟩ := s.producerPart_one i p
    obtain ⟨a2, b2, e2, counters⟩ := s.producerPart_two i p
    obtain ⟨a5, e5, repairs⟩ := s.producerPart_five i p
    exact ⟨⟨a0, _, congrArg some e0, used, producer, stream, mode, state, phase, rest, slotRefs_fields ..⟩,
      ⟨a1, b1, congrArg some e1, pages⟩, ⟨a2, b2, congrArg some e2, counters⟩, ⟨a5, congrArg some e5, repairs⟩⟩
  · have part := fun k (hk : k ≤ 5) => State.statusPart_consumer hk h
    rw [part 0 (by decide), part 1 (by decide), part 2 (by decide), part 3 (by decide), part 4 (by decide), part 5 (by decide)]
    obtain ⟨a0, e0, used, consumer, stream, mode, state, phase, rest⟩ := s.consumerPart_zero c
    obtain ⟨a1, b1, e1, pages⟩ := s.consumerPart_one c
    obtain ⟨a2, b2, e2, counters⟩ := s.consumerPart_two c
    obtain ⟨b3, e3, pendings⟩ := s.consumerPart_three c
    exact ⟨⟨a0, _, congrArg some e0, used, consumer, stream, mode, state, phase, rest, slotRefs_fields ..⟩,
      ⟨a1, b1, congrArg some e1, pages⟩, ⟨a2, b2, congrArg some e2, counters⟩, ⟨b3, congrArg some e3, pendings⟩, rfl, rfl⟩
  · rw [State.statusPart_unused (by decide) h, if_pos rfl, unusedPart_eq]
  · rw [State.statusPart_unused (by omega) h, if_neg (by omega)]
    rfl

end Sys2Proof.Machine
end

section
/-! SUPPORT. Frames read back at a receiver, from their bytes (chapter 11.1, R172, R173) and from their levels on the line (R134,
R144). -/

namespace Sys2Proof.Machine

/-! ### The fields of byte 1 -/

/-- The middle part of three appended fields. -/
theorem extract_mid {k m n : Nat} (a : BitVec k) (b : BitVec m) (c : BitVec n) : (a ++ b ++ c).extractLsb' n m = b := by
  refine BitVec.eq_of_getLsbD_eq fun j hj => ?_
  rw [BitVec.getLsbD_extractLsb', BitVec.getLsbD_append, if_neg (by omega), Nat.add_sub_cancel_left,
    BitVec.getLsbD_append, if_pos hj]
  simp only [hj, decide_true, Bool.true_and]

/-- A flag in front of other fields is their most significant bit. -/
theorem msb_bit_append {n : Nat} (b : Bool) (x : BitVec n) : (bit b ++ x).msb = b := by
  cases b <;> simp [BitVec.msb_append, bit]

/-- A flag in front of two other fields is their most significant bit. -/
theorem msb_bit_append_append {m n : Nat} (b : Bool) (x : BitVec m) (y : BitVec n) : (bit b ++ x ++ y).msb = b := by
  rw [BitVec.msb_append, if_neg (by omega), msb_bit_append]

/-- The stream identifier below a bit of byte 1. -/
theorem low_stream (z : BitVec 1) (id : StreamId) : (z ++ id : BitVec 7).extractLsb' 0 6 = id := extract_low z id

/-- The zero bit above a stream identifier. -/
theorem low_zeros (z : BitVec 1) (id : StreamId) : (z ++ id : BitVec 7).extractLsb' 6 1 = z := extract_high z id

/-- The lost flag of a FREE above its stream identifier. -/
theorem low_lost (lost : Bool) (id : StreamId) : (bit lost ++ id : BitVec 7).msb = lost := msb_bit_append lost id

/-- The leaving flag and the zero bits of a ROLL above its claim count. -/
theorem low_roll (leaving : Bool) (z : BitVec 2) (count : BitVec 4) :
    (bit leaving ++ z ++ count : BitVec 7).msb = leaving ∧ (bit leaving ++ z ++ count : BitVec 7).extractLsb' 4 2 = z :=
  ⟨msb_bit_append_append leaving z count, extract_mid (bit leaving) z count⟩

/-- The ALL flag, the zero bit and the target of a NOTE. -/
theorem low_note (all : Bool) (z : BitVec 1) (target : BitVec 5) :
    (bit all ++ z ++ target : BitVec 7).msb = all ∧ (bit all ++ z ++ target : BitVec 7).extractLsb' 5 1 = z ∧
      (bit all ++ z ++ target : BitVec 7).extractLsb' 0 5 = target :=
  ⟨msb_bit_append_append all z target, extract_mid (bit all) z target, extract_low (bit all ++ z) target⟩

/-! ### The length of a frame and its event -/

/-- Each claim takes three bytes. -/
theorem flatMap_claimBytes_length (claims : List RawClaim) : (claims.flatMap claimBytes).length = 3 * claims.length := by
  induction claims with
  | nil => rfl
  | cons c claims ih =>
    have three : (claimBytes c).length = 3 := rfl
    rw [List.flatMap_cons, List.length_append, three, ih, List.length_cons]
    omega

/-- A receiver finds the end of the body of every well-formed frame, whatever follows it (R172). -/
theorem bodyLength_rawOf {i : Instr} {r : RawFrame} (wf : i.wellFormed = true) (h : rawOf i = some r) (tail : List Byte) :
    bodyLength r.cls r.kind r.low (r.body ++ tail) = some r.body.length := by
  cases i with
  | admitFrame | cutFrame | goneFrame | takeFrame | dropFrame | freeFrame | closeFrame | noteFrame =>
    obtain rfl := Option.some.inj h
    rfl
  | promptFrame src z id page stations =>
    obtain rfl := Option.some.inj h
    have few : stations.length < 256 := of_decide_eq_true wf
    have count : (BitVec.ofNat 8 stations.length).toNat = stations.length := Nat.mod_eq_of_lt few
    change some (3 + (BitVec.ofNat 8 stations.length).toNat) = some (stations.length + 3)
    rw [count, Nat.add_comm]
  | gapFrame src z id station page segments =>
    obtain rfl := Option.some.inj h
    have few : segments.length < 256 := of_decide_eq_true wf
    have count : (BitVec.ofNat 8 segments.length).toNat = segments.length := Nat.mod_eq_of_lt few
    change some (4 + (BitVec.ofNat 8 segments.length).toNat) = some (segments.length + 4)
    rw [count, Nat.add_comm]
  | rollFrame src leaving z count claims =>
    obtain rfl := Option.some.inj h
    have few : claims.length < 16 := of_decide_eq_true wf
    have number : (BitVec.ofNat 4 claims.length).toNat = claims.length := Nat.mod_eq_of_lt few
    change some (1 + 3 * ((bit leaving ++ z ++ BitVec.ofNat 4 claims.length).extractLsb' 0 4).toNat) =
      some ((claims.flatMap claimBytes).length + 1)
    rw [extract_low, number, flatMap_claimBytes_length, Nat.add_comm]
  | segFrame src z id page segment segCount len payload =>
    obtain rfl := Option.some.inj h
    have whole : payload.length = payloadBytes len segment := of_decide_eq_true wf
    change some (6 + payloadBytes (halfOf (len.extractLsb' 8 8) (len.extractLsb' 0 8)) segment) = some (payload.length + 6)
    rw [halfOf_bytes, whole, Nat.add_comm]
  | _ => cases h

/-- The fields of a frame event's frame make that event again. -/
theorem rowOf_rawOf {i : Instr} {r : RawFrame} (h : rawOf i = some r) : rowOf r = some i := by
  cases i with
  | freeFrame =>
    obtain rfl := Option.some.inj h
    simp [rowOf, halfBytes, halfOf_bytes, low_lost, low_stream]
  | rollFrame =>
    obtain rfl := Option.some.inj h
    simp [rowOf, low_roll, claimsOf_bytes]
  | noteFrame =>
    obtain rfl := Option.some.inj h
    simp [rowOf, low_note]
  | closeFrame =>
    obtain rfl := Option.some.inj h
    simp [rowOf, halfBytes, wordBytes, halfOf_bytes, word_bytes, low_zeros, low_stream]
  | admitFrame | goneFrame | promptFrame | gapFrame | segFrame =>
    obtain rfl := Option.some.inj h
    simp [rowOf, halfBytes, halfOf_bytes, low_zeros, low_stream]
  | cutFrame | takeFrame | dropFrame =>
    obtain rfl := Option.some.inj h
    simp [rowOf, low_zeros, low_stream]
  | _ => cases h

/-! ### From bytes to the event -/

/-- A receiver that finds the end of a frame's body takes the frame's check as good and reads its row (R144, R173). -/
theorem lineEvent_bytes {r : RawFrame} (ends : ∀ tail, bodyLength r.cls r.kind r.low (r.body ++ tail) = some r.body.length) :
    lineEvent r.bytes = (rowOf r).getD (.frameDiscarded .badCheck) := by
  have bytes : r.bytes = (r.key ++ r.kind.extractLsb' 1 1) :: (r.kind.extractLsb' 0 1 ++ r.low) ::
    (r.body ++ halfBytes (frameCheck r.covered)) := rfl
  have enough : ¬ (r.body ++ halfBytes (frameCheck r.covered)).length < r.body.length + 2 := by simp [halfBytes]
  have check : (halfBytes (frameCheck r.covered)).take 2 = halfBytes (frameCheck r.covered) := rfl
  have covered : (r.key ++ r.kind.extractLsb' 1 1) :: (r.kind.extractLsb' 0 1 ++ r.low) :: r.body = r.covered := rfl
  rw [bytes, lineEvent]
  simp only [rawFrom_head, ends, enough, if_false, List.take_left, List.drop_left, check, covered, if_true]

/-- The bytes of a well-formed frame event make that event at a receiver. -/
theorem lineEvent_frameBytes {i : Instr} {l : List Byte} (wf : i.wellFormed = true) (h : frameBytes i = some l) :
    lineEvent l = i := by
  obtain ⟨r, raw, rfl⟩ := Option.map_eq_some_iff.1 h
  rw [lineEvent_bytes (bodyLength_rawOf wf raw), rowOf_rawOf raw]
  rfl

/-- Byte 0 holds the key, class times 32 plus station number, above the kind bit K1 (R134, R172). -/
theorem RawFrame.firstByte_eq (r : RawFrame) : (r.key ++ r.kind.extractLsb' 1 1 : Byte) =
    BitVec.ofNat 8 (2 * (32 * r.cls.toNat + r.src.val) + (r.kind.getLsbD 1).toNat) := by
  have kindBit : ∀ k : BitVec 2, (k.extractLsb' 1 1).toNat = (k.getLsbD 1).toNat := by decide
  have station : (stationBits r.src).toNat = r.src.val := rfl
  have key : r.key.toNat = 32 * r.cls.toNat + r.src.val := by
    rw [RawFrame.key, BitVec.toNat_append, ← Nat.shiftLeft_add_eq_or_of_lt (BitVec.isLt _), station, Nat.shiftLeft_eq]
    omega
  apply BitVec.eq_of_toNat_eq
  rw [BitVec.toNat_append, ← Nat.shiftLeft_add_eq_or_of_lt (BitVec.isLt _), key, kindBit, BitVec.toNat_ofNat,
    Nat.shiftLeft_eq]
  have := r.cls.isLt
  have := Bool.toNat_lt (r.kind.getLsbD 1)
  omega

/-! ### The levels of bytes on the line -/

/-- Level `1 + j` of a byte is its data bit `7 - j` (R134). -/
theorem byteLevels_data (b : Byte) (j : Fin 8) :
    (byteLevels b)[1 + j.val]? = some (if b.getLsbD (7 - j.val) then .recessive else .dominant) := by
  have data : b.getMsbD j.val = b.getLsbD (7 - j.val) := by simp [BitVec.getMsbD]
  rw [← data, byteLevels, Nat.add_comm]
  simp [Level.ofBit, List.getElem?_append]

/-- Each byte starts with a dominant bit time. -/
theorem levelsOf_start {l : List Byte} {k : Nat} (hk : k < l.length) : (levelsOf l)[10 * k]? = some .dominant := by
  rw [← Nat.add_zero (10 * k), levelsOf_at l k 0 (by decide), List.getElem?_eq_getElem hk]
  rfl

/-- Each byte ends with a recessive bit time. -/
theorem levelsOf_stop {l : List Byte} {k : Nat} (hk : k < l.length) : (levelsOf l)[10 * k + 9]? = some .recessive := by
  rw [levelsOf_at l k 9 (by decide), List.getElem?_eq_getElem hk]
  rfl

/-- The data bits of a byte stand between its start and stop bits, most significant first. -/
theorem levelsOf_data {l : List Byte} {k : Nat} {b : Byte} (hk : l[k]? = some b) (j : Fin 8) :
    (levelsOf l)[10 * k + 1 + j.val]? = some (if b.getLsbD (7 - j.val) then .recessive else .dominant) := by
  rw [Nat.add_assoc, levelsOf_at l k (1 + j.val) (by omega), hk, ← byteLevels_data]
  rfl

/-- Ten bit times in a row within a frame hold the start bit of a byte. -/
theorem levelsOf_window_dominant {l : List Byte} {k : Nat} (hk : k + 10 ≤ (levelsOf l).length) :
    ∃ j, j < 10 ∧ (levelsOf l)[k + j]? = some .dominant := by
  rw [levelsOf_length] at hk
  refine ⟨10 * ((k + 9) / 10) - k, by omega, ?_⟩
  rw [show k + (10 * ((k + 9) / 10) - k) = 10 * ((k + 9) / 10) by omega]
  exact levelsOf_start (by omega)

/-- Ten bit times in a row within a frame hold the stop bit of a byte. -/
theorem levelsOf_window_recessive {l : List Byte} {k : Nat} (hk : k + 10 ≤ (levelsOf l).length) :
    ∃ j, j < 10 ∧ (levelsOf l)[k + j]? = some .recessive := by
  rw [levelsOf_length] at hk
  refine ⟨10 * (k / 10) + 9 - k, by omega, ?_⟩
  rw [show k + (10 * (k / 10) + 9 - k) = 10 * (k / 10) + 9 by omega]
  exact levelsOf_stop (by omega)

/-! ### From levels to the event -/

/-- Levels that carry no bytes carry none behind the levels of bytes either. -/
theorem bytesOfLevels_append_none {tail : List Level} (h : bytesOfLevels tail = none) (l : List Byte) :
    bytesOfLevels (levelsOf l ++ tail) = none := by
  induction l with
  | nil => exact h
  | cons b l ih =>
    rw [levelsOf_cons, byteLevels_eq]
    simp only [List.cons_append, List.nil_append, bytesOfLevels, ih, Option.map_none]

/-- A start bit and eight data bits with a dominant stop bit behind them carry no bytes (R144). -/
theorem bytesOfLevels_dominantStop {data : List Level} (h : data.length = 8) (rest : List Level) :
    bytesOfLevels (.dominant :: data ++ .dominant :: rest) = none := by
  match data, h with
  | [_, _, _, _, _, _, _, _], _ => rfl

/-- The levels of bytes and the interframe space make the event that the bytes make. -/
theorem levelEvent_levelsOf (l : List Byte) : levelEvent (levelsOf l ++ interframeSpace) = lineEvent l := by
  rw [levelEvent, bytesOfLevels_levelsOf]

/-- Levels that carry no bytes are discarded behind the levels of bytes, for the abort mark when ten dominant bit times stand
among them. -/
theorem levelEvent_append_none {tail : List Level} (h : bytesOfLevels tail = none) (l : List Byte) :
    levelEvent (levelsOf l ++ tail) =
      .frameDiscarded (if List.replicate 10 .dominant <:+: levelsOf l ++ tail then .abortMark else .framing) := by
  rw [levelEvent, bytesOfLevels_append_none h]

/-- The abort mark behind the levels of bytes discards the frame for an abort mark (R140, R144). -/
theorem levelEvent_abortMark (l : List Byte) (rest : List Level) :
    levelEvent (levelsOf l ++ abortMark ++ rest) = .frameDiscarded .abortMark := by
  have noBytes : bytesOfLevels (abortMark ++ rest) = none := rfl
  have mark : List.replicate 10 Level.dominant <:+: levelsOf l ++ (abortMark ++ rest) :=
    ⟨levelsOf l, .dominant :: rest, by rw [List.append_assoc]; rfl⟩
  rw [List.append_assoc, levelEvent_append_none noBytes, if_pos mark]

/-- Settles O9: from bytes by the length, the check and the row of each frame; on the line by the place of each byte's levels. -/
theorem framesReadBack : Obligations.FramesReadBack := by
  refine ⟨fun i l => lineEvent_frameBytes, fun r => ?_, fun l => ⟨levelsOf_length l, fun k b hk => ?_, fun k hk => ?_,
    levelEvent_levelsOf l, fun data rest hdata => ?_, levelEvent_abortMark l⟩⟩
  · rw [← r.firstByte_eq]
    exact ⟨_, rfl⟩
  · obtain ⟨inside, -⟩ := List.getElem?_eq_some_iff.1 hk
    exact ⟨levelsOf_start inside, levelsOf_stop inside, levelsOf_data hk⟩
  · exact ⟨levelsOf_window_dominant hk, levelsOf_window_recessive hk⟩
  · rw [List.append_assoc]
    exact ⟨_, levelEvent_append_none (bytesOfLevels_dominantStop hdata rest) l⟩

end Sys2Proof.Machine
end
